-- ==== Sys2Proof/Word.lean ====
section
/-! DEFINITION. The word types of the model and the type of a keyed table.

Bytes, 32-bit and 64-bit registers are bit vectors (spec/00_scope.md, "Numbers, units and times"); counts, indices and
addresses while they are computed are natural numbers.  A keyed table is a list of pairs with strictly rising keys; the
operations on it are in `Sys2Proof/Machine/Store.lean`. -/

namespace Sys2Proof

/-- One byte. -/
abbrev Byte := BitVec 8
/-- A 16-bit field. -/
abbrev W16 := BitVec 16
/-- A 32-bit register. -/
abbrev W32 := BitVec 32
/-- A 64-bit register. -/
abbrev W64 := BitVec 64

/-- A table keyed by a number: pairs with strictly rising keys. -/
abbrev Table (α : Type) := List (Nat × α)

/-- An addressed memory: byte cells with strictly rising addresses, none equal to the zero byte that an unlisted
address reads as. -/
abbrev Mem := List Host.Cell

end Sys2Proof
end

