-- ==== Sys2Proof/Syntax.lean ====
section
/-! DEFINITION. The commands of the block: one constructor of `Instr` per row of spec/opcode_table.json, with the operands
that the row's event has: the mailbox it runs in, the port, slot, engine or channel it happens on, the tie-up position it
takes, the frame that arrives, or the physical quantity that is measured.  Meaning is given in `Sys2Proof/Machine` alone. -/

namespace Sys2Proof

/-- A mailbox (spec/15_mailboxes.md R390): four management mailboxes, and one for each port. -/
inductive Mbx where
  | operator | installer | maker | service
  | port (p : Nat)
deriving DecidableEq, Repr

/-- A tier of the pool (spec/00_scope.md R11). -/
inductive Tier where
  | near | far
deriving DecidableEq, Repr

/-- A position of the tie-up (spec/02_beats_and_tieup.md R52): position `pos` of near section or far channel group
`unit`. -/
structure Position where
  tier : Tier
  unit : Nat
  pos  : Nat
deriving DecidableEq, Repr

/-- An error that the stored array adds to a unit an access reads: byte `off` of stored unit number `unit` of that access
is changed by exclusive OR with `flip`.  Bytes 0 to 255 (near) or 0 to 63 (far) are data, the 16 bytes after them check
bytes (spec/16_ras.md R423, R424). -/
structure CellError where
  unit : Nat
  off  : Nat
  flip : Byte
deriving DecidableEq, Repr

/-- An ingress frame as the port receives it (spec/10_host_link.md R266, R268): its bytes from flit time 0 on, 256 B for
each flit time, the flit times that hold a byte of an uncorrectable FEC codeword, and the counts of corrected and
uncorrectable codewords. -/
structure RxFrame where
  bytes     : List Byte
  badFlits  : List Nat
  corrected : Nat
  uncorr    : Nat
deriving DecidableEq, Repr

/-- The measurements of one aligned 1 ms telemetry window (spec/18_registers.md R480): mean input power in milliwatts,
mean input voltage in millivolts, and the sixteen junction temperatures in whole degrees Celsius, rounded down. -/
structure TelSample where
  powerMw : Nat
  inputMv : Nat
  temps   : List Int
deriving DecidableEq, Repr

/-- The commands of the block, one constructor per row of spec/opcode_table.json. -/
inductive Instr where
  -- time base
  | pickBoundary
  | beatBoundary
  | ageHalving
  -- link
  | rekey (p : Nat)
  | confStart (p : Nat)
  | ingressFrame (p : Nat) (f : RxFrame)
  | rd64 (p : Nat)
  | rd256 (p : Nat)
  | wr64 (p : Nat)
  | wr256 (p : Nat)
  | wrp (p : Nat)
  | fence (p : Nat)
  | mbxRead (p : Nat)
  | mbxWrite (p : Nat)
  | hostCplD (p : Nat)
  | hostCpl (p : Nat)
  -- pool controller and tiers
  | tierAccessIssue (at_ : Position)
  | writeCommit (req : Nat)
  | readDataDelivered (req : Nat) (errs : List CellError)
  | lateCeiling (req : Nat)
  | zfillStep (at_ : Position)
  | promotionPlace (group pos : Nat)
  | evictionStart (ext page : Nat) (at_ : Position)
  | pageCopyStep (at_ : Position) (errs : List CellError)
  | residenceSwitch (copy : Nat)
  | rankPowerDown (ch sub rank : Nat)
  | mr4Read (hot : List (Nat × Nat × Nat))
  | clearOverwriteStep (at_ : Position)
  | scrubStepDue (tier : Tier) (unit : Nat)
  | scrubStep (at_ : Position) (errs : List CellError)
  | rebuildRead (at_ : Position) (errs : List CellError)
  | rebuildWrite (at_ : Position)
  | deviceMark (ch sub rank dev : Nat)
  | channelFail (ch : Nat) (alert : Bool)
  -- beat synchronisation
  | beatInMarker (cycle high : Nat)
  | markerWindowClose (cycle : Nat)
  | holdoverExceeded
  -- mailboxes
  | mbxSubmit (m : Mbx) (ctl : W32)
  | mbxComplete (m : Mbx)
  | getCaps (m : Mbx)
  | getStatus (m : Mbx)
  | ctxCreate (m : Mbx)
  | ctxAttach (m : Mbx)
  | ctxDestroy (m : Mbx)
  | destroyBoundary (ctx : Nat)
  | keyHoldEnd (p : Nat)
  | extCreate (m : Mbx)
  | extRemove (m : Mbx)
  | extGrant (m : Mbx)
  | extRevoke (m : Mbx)
  | revocationBoundary (ext : Nat)
  | revokeDrainEnd (ext : Nat)
  | extClear (m : Mbx)
  | extSeal (m : Mbx)
  | extQuery (m : Mbx)
  | aptStage (m : Mbx)
  | aptStageDiscard (m : Mbx)
  | aptCommit (m : Mbx)
  | aptSwitch (p : Nat)
  | leaseTake (m : Mbx)
  | leaseDrop (m : Mbx)
  | leaseResolve (m : Mbx)
  | leaseTorn (p : Nat)
  | pin (m : Mbx)
  | unpin (m : Mbx)
  | migPolicyGlobal (m : Mbx)
  | migPolicyExtent (m : Mbx)
  | migPolicyRead (m : Mbx)
  -- Loom
  | draftLoad (m : Mbx)
  | draftUnload (m : Mbx)
  | draftStart (m : Mbx)
  | draftStop (m : Mbx)
  | draftQuery (m : Mbx)
  -- plan and time base settings
  | tieupSet (m : Mbx)
  | tieupSetRead (m : Mbx)
  | beatConfig (m : Mbx)
  | beatConfigRead (m : Mbx)
  -- Shuttles and bolts
  | shuttleRun (m : Mbx)
  | shuttleListRead (e : Nat)
  | descriptorStart (e : Nat)
  | shuttleBlockIssue (e : Nat)
  | pullTimeout (e tag : Nat)
  | descriptorWriteBack (e : Nat)
  | shuttleAbort (m : Mbx)
  | boltLoad (m : Mbx)
  | boltChunk (e : Nat)
  | boltIssuersAdd (m : Mbx)
  | boltIssuersRemove (m : Mbx)
  | boltIssuersList (m : Mbx)
  -- security
  | spdmMsg (m : Mbx)
  | mctpSpdmMessage (msg : List Byte)
  | keyAgree (m : Mbx)
  | bounceAdd (m : Mbx)
  | bounceRemove (m : Mbx)
  | bounceList (m : Mbx)
  -- RAS commands
  | rasQuerySummary (m : Mbx)
  | rasQueryList (m : Mbx)
  | ceTableRead (m : Mbx)
  | copyLow (m : Mbx)
  | copyHigh (m : Mbx)
  | rewrite (m : Mbx)
  | scrubConfig (m : Mbx)
  -- firmware, fuses, audit
  | fwStage (m : Mbx)
  | fwStageDiscard (m : Mbx)
  | fwActivate (m : Mbx)
  | fuseProgramInstaller (m : Mbx)
  | restoreKey (m : Mbx)
  | fuseProgramRollback (m : Mbx)
  | fuseProgramDebugDisable (m : Mbx)
  | auditRead (m : Mbx)
  -- slots
  | slotPowerOn (m : Mbx)
  | slotPowerOff (m : Mbx)
  | slotCancel (m : Mbx)
  | slotPortReset (m : Mbx)
  | setAttn (m : Mbx)
  | setPolicy (m : Mbx)
  | telemetryRead (m : Mbx)
  | makerUnlock (m : Mbx)
  | presenceGained (p : Nat)
  | presenceLost (p : Nat)
  | buttonPress (p : Nat)
  | powerFault (p : Nat)
  | trainingStart (p : Nat)
  | linkTrained (p width : Nat)
  | trainingRetry (p : Nat)
  | holdTimeout (p : Nat)
  | drainStart (p : Nat)
  | drainEnd (p : Nat)
  | linkFailure (p : Nat)
  -- resets and boot
  | powerOnReset
  | deviceReset
  | resetNRelease
  | umpireRestart
  | engineReset
  | fwReady (forceSafeLow : Bool) (inputMv : Nat)
  | watchdogExpiry
  | perstN
  -- registers
  | registerWrite (off : Nat) (data : List Byte)
  | badAccess (off len : Nat)
  -- power states
  | portDormantEnter (p : Nat)
  | portDormantWake (p width : Nat)
  | standbyEntry
  | standbyExit
  -- supply, temperature, pins
  | brace
  | braceRecovery
  | braceTimeout
  | brownOut
  | supplyHigh
  | inputRangeAlert
  | thermalAlert
  | thermalAlertEnd
  | thermtrip
  | forceSafe
  | entropyFail
  | refclkLoss
  | inputRangeAlertEnd
  | refclkReturn
  | perstNRelease
  | lowerHalfRead (off : Nat)
  | telemetryWindowEnd (sample : TelSample)
  | thermalResetHoldEnd
  | railLeavesRegulation
deriving DecidableEq, Repr

end Sys2Proof
end

