-- ==== Sys2Proof/Decode.lean ====
section
/-! DEFINITION. The command that a word spells.

spec/opcode_table.json gives no row any bits (every row's "fields" is empty): a command of the block is an event, not a
word.  So no word spells a command. -/

namespace Sys2Proof

/-- The command that a word of `nbits` bits spells by the table's bits: none, since the table gives no bits. -/
def decodeTableWord (_nbits _w : Nat) : Option Instr := none

end Sys2Proof
end

