-- ==== Sys2Proof/Config.lean ====
section
/-! DEFINITION. What spec/ leaves open: free values, constants without a body, of which nothing can be proved.

Each is applied to a number that the state counts, so that two uses may differ. -/

namespace Sys2Proof.Config

/-- The `n`-th byte that the random bit generator gives (spec/13_isolation_crypto.md R330): keys, nonces, CHALLENGE. -/
opaque drbgByte : Nat → Byte

/-- The SHA-256 of the boot ROM, byte `i` (spec/14_identity_roles.md R386, block 1): spec/ gives no ROM contents. -/
opaque romDigest : Nat → Byte

/-- Whether the write of audit record number `n` fails (spec/14_identity_roles.md R377). -/
opaque auditWriteFails : Nat → Bool

/-- Whether a loss of power falls into the write of audit record number `n` of a command that is about to complete (R376). -/
opaque powerHitsAudit : Nat → Bool

/-- Whether fuse `i` still reads 0 after three attempts in programming command number `n` (R371). -/
opaque fuseStuck : Nat → Nat → Bool

/-- How many fuses a programming command had blown when a brace stopped it after the fuse in progress (R371). -/
opaque fusesBeforeBrace : Nat → Nat

/-- The CLK_E cycle within its pick in which completion number `n` leaves, on which the latency bins of
spec/15_mailboxes.md R422 depend. -/
opaque phase : Nat → Nat

/-- Bytes of an SPDM response that spec/ and DSP0274 leave to the implementation (session-independent nonces). -/
opaque spdmByte : Nat → Byte

/-- A byte of a response or a register for which spec/ states no value. -/
opaque openByte : Nat → Byte

/-- Byte `i` of what CVT or ST in a Twill format gives: its tag, SAT, the values of its lanes and their rounding draws decide it
(spec/07_loom.md R200 and R201 state no result; spec/09_timing_contract.md R260 makes it the same on every device). -/
opaque twillByte : (tag : Nat) → (sat : Bool) → (lanes draws : List Nat) → (i : Nat) → Byte

/-- How many single-bit errors the SECDED codes of a bay correct while its pick word number `n` runs (spec/07_loom.md R184). -/
opaque loomCorrected : Nat → Nat

/-- Whether they find an uncorrectable error in what the word reads. -/
opaque loomUncorrectable : Nat → Bool

/-- Whether UNDERFLOW of the sticky flags looks at a result before it is rounded (IEEE 754-2019 section 7.5 leaves the
choice to the implementation; spec/07_loom.md R202 gives the flags their IEEE 754 meanings). -/
opaque tinyBeforeRounding : Nat → Bool

/-- Whether a comparison with opcode `n` raises INVALID on a quiet NaN (IEEE 754-2019 has both kinds of comparison). -/
opaque compareSignals : Nat → Bool

end Sys2Proof.Config
end

