-- ==== Sys2Proof/Machine/Store.lean ====
section
/-! DEFINITION. Keyed tables, addressed memories, and the byte order of multi-byte fields.

A memory is a list of (address, byte) cells in one canonical form (`Mem.wf`): addresses strictly rise and no cell holds
the zero byte, which is what an unlisted address reads as. -/

namespace Sys2Proof

/-! ### Tables -/

/-- The value under a key. -/
def Table.get? {α : Type} : Table α → Nat → Option α
  | [], _ => none
  | (k, v) :: t, i => if k = i then some v else Table.get? t i

/-- The value under a key, or a default. -/
def Table.getD {α : Type} (t : Table α) (i : Nat) (d : α) : α := (Table.get? t i).getD d

/-- Insert or replace, keys rising. -/
def Table.set {α : Type} : Table α → Nat → α → Table α
  | [], i, v => [(i, v)]
  | (k, w) :: t, i, v =>
    if i < k then (i, v) :: (k, w) :: t
    else if i = k then (i, v) :: t
    else (k, w) :: Table.set t i v

/-- Remove a key. -/
def Table.erase {α : Type} (t : Table α) (i : Nat) : Table α := t.filter fun kv => kv.1 != i

/-- Change the value under a key, if there is one. -/
def Table.modify {α : Type} (t : Table α) (i : Nat) (f : α → α) : Table α :=
  match Table.get? t i with
  | some v => Table.set t i (f v)
  | none => t

/-- Change every value. -/
def Table.mapV {α : Type} (t : Table α) (f : Nat → α → α) : Table α := t.map fun kv => (kv.1, f kv.1 kv.2)

/-- The lowest number below `n` that is no key. -/
def Table.free {α : Type} (t : Table α) (n : Nat) : Option Nat :=
  (List.range n).find? fun i => (Table.get? t i).isNone

/-- Change element `i` of a list. -/
def List.modifyAt {α : Type} (l : List α) (i : Nat) (f : α → α) : List α :=
  match l[i]? with
  | some v => l.set i (f v)
  | none => l

/-! ### Memories -/

/-- The byte at an address. -/
def Mem.read : Mem → Nat → Byte
  | [], _ => 0
  | (a, b) :: t, i => if a = i then b else if i < a then 0 else Mem.read t i

/-- Write one byte, keeping the canonical form. -/
def Mem.write : Mem → Nat → Byte → Mem
  | [], i, b => if b = 0 then [] else [(i, b)]
  | (a, c) :: t, i, b =>
    if i < a then (if b = 0 then (a, c) :: t else (i, b) :: (a, c) :: t)
    else if i = a then (if b = 0 then t else (i, b) :: t)
    else (a, c) :: Mem.write t i b

/-- Every address of the memory is above `i`, addresses rise and no cell is zero. -/
def Mem.wfFrom : Option Nat → Mem → Bool
  | _, [] => true
  | lo, (a, b) :: t => (match lo with | none => true | some l => decide (l < a)) && (b != 0) && Mem.wfFrom (some a) t

/-- The canonical form. -/
def Mem.wf (m : Mem) : Bool := Mem.wfFrom none m

/-- `n` bytes from an address on. -/
def Mem.readN (m : Mem) (a n : Nat) : List Byte := (List.range n).map fun i => m.read (a + i)

/-- Write bytes from an address on. -/
def Mem.writeN : Mem → Nat → List Byte → Mem
  | m, _, [] => m
  | m, a, b :: t => Mem.writeN (m.write a b) (a + 1) t

/-! ### Bytes and numbers -/

/-- Little-endian value of bytes (spec/00_scope.md, "Numbers, units and times"). -/
def le : List Byte → Nat
  | [] => 0
  | b :: t => b.toNat + 256 * le t

/-- Big-endian value of bytes. -/
def be (l : List Byte) : Nat := le l.reverse

/-- `n` little-endian bytes of a number. -/
def toLe : Nat → Nat → List Byte
  | 0, _ => []
  | n + 1, v => BitVec.ofNat 8 v :: toLe n (v / 256)

/-- `n` big-endian bytes of a number. -/
def toBe (n v : Nat) : List Byte := (toLe n v).reverse

/-- Bits [hi:lo] of a number. -/
def bits (v hi lo : Nat) : Nat := (v / 2 ^ lo) % 2 ^ (hi + 1 - lo)

/-- Bit `i` of a number. -/
def bit (v i : Nat) : Bool := v / 2 ^ i % 2 == 1

/-- The ASCII bytes of a string. -/
def ascii (s : String) : List Byte := s.toList.map fun c => BitVec.ofNat 8 c.toNat

/-- Exclusive OR of two byte strings, as long as the first. -/
def xorBytes (a b : List Byte) : List Byte :=
  (List.range a.length).map fun i => a.getD i 0 ^^^ b.getD i 0

/-- `n` zero bytes. -/
def zeros (n : Nat) : List Byte := List.replicate n 0

/-- Bytes `off` to `off + n - 1` of a byte string, zeros beyond its end. -/
def slice (l : List Byte) (off n : Nat) : List Byte := (List.range n).map fun i => l.getD (off + i) 0

/-- Replace bytes from `off` on. -/
def patch (l : List Byte) (off : Nat) (p : List Byte) : List Byte :=
  (List.range l.length).map fun i => if off ≤ i ∧ i < off + p.length then p.getD (i - off) 0 else l.getD i 0

/-- A boolean as 0 or 1. -/
def b2n (b : Bool) : Nat := if b then 1 else 0

/-- A 32-bit counter that saturates (spec/18_registers.md R471). -/
def satInc (n : Nat) (by_ : Nat := 1) : Nat := min (n + by_) 0xFFFFFFFF

/-- Smallest integer not below `a / b`. -/
def ceilDiv (a b : Nat) : Nat := (a + b - 1) / b

end Sys2Proof
end

