-- ==== Sys2Proof/Machine/Crypto.lean ====
section
/-! DEFINITION. The published algorithms that spec/ names: SHA-256, HMAC, HKDF (RFC 5869), CRC-32, AES-256 with XTS (IEEE
1619), GCM and key wrap (RFC 3394), and P-256 with ECDH and ECDSA.  spec/ names them and gives no text of them, so their
steps are taken from the standards themselves (PRESUMED, log entry 11). -/

namespace Sys2Proof.Machine

/-! ### SHA-256 and its uses -/

/-- Round constants of SHA-256; its 32-bit words are numbers below 2^32. -/
def shaK : List Nat :=
  [0x428a2f98, 0x71374491, 0xb5c0fbcf, 0xe9b5dba5, 0x3956c25b, 0x59f111f1, 0x923f82a4, 0xab1c5ed5] ++
  [0xd807aa98, 0x12835b01, 0x243185be, 0x550c7dc3, 0x72be5d74, 0x80deb1fe, 0x9bdc06a7, 0xc19bf174] ++
  [0xe49b69c1, 0xefbe4786, 0x0fc19dc6, 0x240ca1cc, 0x2de92c6f, 0x4a7484aa, 0x5cb0a9dc, 0x76f988da] ++
  [0x983e5152, 0xa831c66d, 0xb00327c8, 0xbf597fc7, 0xc6e00bf3, 0xd5a79147, 0x06ca6351, 0x14292967] ++
  [0x27b70a85, 0x2e1b2138, 0x4d2c6dfc, 0x53380d13, 0x650a7354, 0x766a0abb, 0x81c2c92e, 0x92722c85] ++
  [0xa2bfe8a1, 0xa81a664b, 0xc24b8b70, 0xc76c51a3, 0xd192e819, 0xd6990624, 0xf40e3585, 0x106aa070] ++
  [0x19a4c116, 0x1e376c08, 0x2748774c, 0x34b0bcb5, 0x391c0cb3, 0x4ed8aa4a, 0x5b9cca4f, 0x682e6ff3] ++
  [0x748f82ee, 0x78a5636f, 0x84c87814, 0x8cc70208, 0x90befffa, 0xa4506ceb, 0xbef9a3f7, 0xc67178f2]

/-- Initial hash value of SHA-256. -/
def shaInit : List Nat :=
  [0x6a09e667, 0xbb67ae85, 0x3c6ef372, 0xa54ff53a, 0x510e527f, 0x9b05688c, 0x1f83d9ab, 0x5be0cd19]

/-- 2^32. -/
def shaMod : Nat := 0x100000000

/-- A word beside itself: its rotations by 0 to 32 are the low words of this number shifted right. -/
def shaTwice (x : Nat) : Nat := x * 0x100000001

/-- The exclusive OR of three rotations to the right. -/
def shaSum (x a b c : Nat) : Nat := (shaTwice x >>> a ^^^ shaTwice x >>> b ^^^ shaTwice x >>> c) % shaMod

/-- The exclusive OR of two rotations and a shift to the right. -/
def shaSigma (x a b c : Nat) : Nat := (shaTwice x >>> a ^^^ shaTwice x >>> b) % shaMod ^^^ x >>> c

/-- The message schedule, newest word first. -/
def shaSchedule : Nat → List Nat → List Nat
  | 0, w => w
  | n + 1, w =>
    shaSchedule n
      ((shaSigma (w.getD 1 0) 17 19 10 + w.getD 6 0 + shaSigma (w.getD 14 0) 7 18 3 + w.getD 15 0) % shaMod :: w)

/-- The rounds of SHA-256 over its constants and the words of the schedule, on the eight working words. -/
def shaRounds : List Nat → List Nat → Nat → Nat → Nat → Nat → Nat → Nat → Nat → Nat → List Nat
  | k :: ks, w :: ws, a, b, c, d, e, f, g, h =>
    let t := h + shaSum e 6 11 25 + ((e &&& f) ^^^ ((shaMod - 1 - e) &&& g)) + k + w
    shaRounds ks ws ((t + shaSum a 2 13 22 + ((a &&& b) ^^^ (a &&& c) ^^^ (b &&& c))) % shaMod) a b c ((d + t) % shaMod) e f g
  | _, _, a, b, c, d, e, f, g, h => [a, b, c, d, e, f, g, h]

/-- Compress one block of sixteen words. -/
def shaBlock (h w : List Nat) : List Nat :=
  match h with
  | [a, b, c, d, e, f, g, k] =>
    h.zipWith (fun x y => (x + y) % shaMod) (shaRounds shaK (shaSchedule 48 w.reverse).reverse a b c d e f g k)
  | _ => h

/-- Compress blocks of sixteen words; the first argument is their number. -/
def shaBlocks : Nat → List Nat → List Nat → List Nat
  | 0, h, _ => h
  | n + 1, h, w => shaBlocks n (shaBlock h (w.take 16)) (w.drop 16)

/-- The big-endian 32-bit words of bytes. -/
def shaWords : List Byte → List Nat
  | a :: b :: c :: d :: t => (((a.toNat * 256 + b.toNat) * 256 + c.toNat) * 256 + d.toNat) :: shaWords t
  | _ => []

/-- Cut into pieces of `n` bytes; the first argument bounds their number. -/
def chunksFrom (n : Nat) : Nat → List Byte → List (List Byte)
  | 0, _ => []
  | k + 1, l => if l.isEmpty then [] else l.take n :: chunksFrom n k (l.drop n)

/-- Pieces of `n` bytes, the last one shorter if need be. -/
def chunks (n : Nat) (l : List Byte) : List (List Byte) := chunksFrom n (l.length + 1) l

/-- SHA-256. -/
def sha256 (msg : List Byte) : List Byte :=
  let n := msg.length
  let pad := [0x80#8] ++ zeros ((119 - n % 64) % 64) ++ toBe 8 (8 * n)
  (shaBlocks ((n + 72) / 64) shaInit (shaWords (msg ++ pad))).flatMap fun w => toBe 4 w

/-- HMAC with SHA-256. -/
def hmac (key msg : List Byte) : List Byte :=
  let k := if key.length > 64 then sha256 key else key
  let k := k ++ zeros (64 - k.length)
  sha256 (k.map (· ^^^ 0x5c) ++ sha256 (k.map (· ^^^ 0x36) ++ msg))

/-- HKDF with SHA-256 for an output of 32 bytes. -/
def hkdf (ikm salt info : List Byte) : List Byte := hmac (hmac salt ikm) (info ++ [1#8])

/-- One byte of the CRC-32 of IEEE 802.3 (reflected, polynomial 0xEDB88320). -/
def crcByte (c : Nat) (b : Byte) : Nat :=
  (List.range 8).foldl (fun c _ => if c % 2 = 1 then (c / 2) ^^^ 0xEDB88320 else c / 2) (c ^^^ b.toNat)

/-- CRC-32 of IEEE 802.3. -/
def crc32 (l : List Byte) : Nat := (l.foldl crcByte 0xFFFFFFFF) ^^^ 0xFFFFFFFF

/-! ### AES-256 -/

/-- Multiply by x in the field of AES. -/
def aesDouble (a : Nat) : Nat := if a < 128 then 2 * a else (2 * a) ^^^ 0x11B

/-- Product in the field of AES. -/
def aesMulFrom : Nat → Nat → Nat → Nat → Nat
  | 0, _, _, acc => acc
  | n + 1, a, b, acc => aesMulFrom n a b (aesDouble acc ^^^ (if bit b n then a else 0))

def aesMul (a b : Nat) : Nat := aesMulFrom 8 a b 0

/-- The S-box at one byte: the inverse (power 254) through the affine map. -/
def sboxAt (a : Nat) : Nat :=
  let sq := fun (x : Nat) => aesMul x x
  let p2 := sq a
  let p4 := sq p2
  let p8 := sq p4
  let p16 := sq p8
  let p32 := sq p16
  let p64 := sq p32
  let p128 := sq p64
  let v := [p4, p8, p16, p32, p64, p128].foldl aesMul p2
  let rot := fun (n : Nat) => (v * 2 ^ n) % 256 + v / 2 ^ (8 - n)
  v ^^^ rot 1 ^^^ rot 2 ^^^ rot 3 ^^^ rot 4 ^^^ 0x63

/-- The S-box as one number: byte `b` is the value at `b`, as `sboxAt` computes it (`Tests.test_sbox`). -/
def sboxTable : Nat :=
  0x16bb54b00f2d99416842e6bf0d89a18cdf2855cee9871e9b948ed9691198f8e19e1dc186b95735610ef6034866b53e708a8bbd4b1f74dde8c6b4a61c2e2578ba08ae7a65eaf4566ca94ed58d6d37c8e779e4959162acd3c25c2406490a3a32e0db0b5ede14b8ee4688902a22dc4f816073195d643d7ea7c41744975fec130ccdd2f3ff1021dab6bcf5389d928f40a351a89f3c507f02f94585334d43fbaaefd0cf584c4a39becb6a5bb1fc20ed00d153842fe329b3d63b52a05a6e1b1a2c830975b227ebe28012079a059618c323c7041531d871f1e5a534ccf73f362693fdb7c072a49cafa2d4adf04759fa7dc982ca76abd7fe2b670130c56f6bf27b777c63

/-- The S-box at one byte. -/
def sboxOf (b : Nat) : Nat := sboxTable / 2 ^ (8 * b) % 256

/-- The inverse S-box as one number. -/
def sboxInvTable : Nat :=
  0x7d0c2155631469e126d677ba7e042b17619953833cbbebc8b0f52aae4d3be0a0ef9cc9939f7ae52d0d4ab519a97f51605fec8027591012b131c7078833a8dd1ff45acd78fec0db9a2079d2c64b3e56fc1bbe18aa0e62b76f89c5291d711af1476edf751ce837f9e28535ade72274ac9673e6b4f0cecff297eadc674f4111913a6b8a130103bdafc1020f3fca8f1e2cd00645b3b80558e4f70ad3bc8c00abd890849d8da75746155edab9edfd5048706c92b6655dcc5ca4d41698688664f6f87225d18b6d49a25b76b224d92866a12e084ec3fa420b954cee3d23c2a632947b54cbe9dec444438e3487ff2f9b8239e37cfbd7f3819ea340bf38a53630d56a0952

/-- The inverse S-box at one byte. -/
def sboxInvOf (b : Nat) : Nat := sboxInvTable / 2 ^ (8 * b) % 256

/-- Words of the expanded key, newest first; a word is four bytes. -/
def aesExpand : Nat → Nat → List (List Nat) → List (List Nat)
  | 0, _, w => w
  | n + 1, i, w =>
    let prev := w.headD []
    let sub := fun (l : List Nat) => l.map fun b => sboxOf b
    let t :=
      if i % 8 = 0 then
        match sub (prev.drop 1 ++ prev.take 1) with
        | b :: r => (b ^^^ 2 ^ (i / 8 - 1)) :: r
        | [] => []
      else if i % 8 = 4 then sub prev else prev
    aesExpand n (i + 1) ((w.getD 7 []).zipWith (fun a b => a ^^^ b) t :: w)

/-- The fifteen round keys of a 32-byte key, 16 bytes each. -/
def aesKeys (key : List Byte) : List (List Nat) :=
  let w0 := (List.range 8).map fun i => (slice key (4 * i) 4).map (·.toNat)
  let w := (aesExpand 52 8 w0.reverse).reverse
  (List.range 15).map fun r => ((w.drop (4 * r)).take 4).flatten

/-- Bytewise exclusive OR. -/
def xorL (a b : List Nat) : List Nat := a.zipWith (fun x y => x ^^^ y) b

/-- Rows shifted left by their number (column-major state), or back. -/
def aesShift (inv : Bool) (s : List Nat) : List Nat :=
  (List.range 16).map fun i =>
    let r := i % 4
    let c := i / 4
    s.getD (4 * ((c + (if inv then 4 - r else r)) % 4) + r) 0

/-- Columns multiplied by the circulant matrix of a first row, whose entries are below 16. -/
def aesMix (row s : List Nat) : List Nat :=
  (List.range 16).map fun i =>
    let c := i / 4
    (List.range 4).foldl (fun acc k => acc ^^^ aesMulFrom 4 (s.getD (4 * c + k) 0) (row.getD ((k + 4 - i % 4) % 4) 0) 0) 0

/-- Encrypt one 16-byte block under expanded keys. -/
def aesEnc (ks : List (List Nat)) (blk : List Byte) : List Byte :=
  let sub := fun (s : List Nat) => aesShift false (s.map fun b => sboxOf b)
  let s := xorL (blk.map (·.toNat)) (ks.getD 0 [])
  let s := (List.range 13).foldl (fun s r => xorL (aesMix [2, 3, 1, 1] (sub s)) (ks.getD (r + 1) [])) s
  (xorL (sub s) (ks.getD 14 [])).map (BitVec.ofNat 8)

/-- Decrypt one 16-byte block under expanded keys. -/
def aesDec (ks : List (List Nat)) (blk : List Byte) : List Byte :=
  let sub := fun (s : List Nat) => (aesShift true s).map fun b => sboxInvOf b
  let s := xorL (blk.map (·.toNat)) (ks.getD 14 [])
  let s := (List.range 13).foldl (fun s r => aesMix [14, 11, 13, 9] (xorL (sub s) (ks.getD (13 - r) []))) s
  (xorL (sub s) (ks.getD 0 [])).map (BitVec.ofNat 8)

/-! ### XTS (spec/13_isolation_crypto.md R334) -/

/-- The next tweak of a data unit. -/
def xtsNext (t : List Byte) : List Byte :=
  let v := 2 * le t
  toLe 16 (if v ≥ 2 ^ 128 then (v - 2 ^ 128) ^^^ 0x87 else v)

/-- Run a block function over a data unit from a tweak. -/
def xtsRun (f : List Byte → List Byte) : List Byte → List (List Byte) → List Byte
  | _, [] => []
  | t, b :: r => xorBytes (f (xorBytes b t)) t ++ xtsRun f (xtsNext t) r

/-- XTS-AES-256 encryption of a data unit under a 64-byte key (data key, then tweak key). -/
def xtsEncrypt (key : List Byte) (unit : Nat) (data : List Byte) : List Byte :=
  xtsRun (aesEnc (aesKeys (key.take 32))) (aesEnc (aesKeys (key.drop 32)) (toLe 16 unit)) (chunks 16 data)

/-- XTS-AES-256 decryption of a data unit. -/
def xtsDecrypt (key : List Byte) (unit : Nat) (data : List Byte) : List Byte :=
  xtsRun (aesDec (aesKeys (key.take 32))) (aesEnc (aesKeys (key.drop 32)) (toLe 16 unit)) (chunks 16 data)

/-! ### GCM -/

/-- Product in the field of GHASH, over the bits of the first factor from its most significant one. -/
def ghashMul : Nat → Nat → Nat → Nat → Nat
  | 0, _, _, z => z
  | n + 1, x, v, z =>
    ghashMul n x (if v % 2 = 1 then (v / 2) ^^^ (0xE1 * 2 ^ 120) else v / 2) (if bit x n then z ^^^ v else z)

/-- GHASH of 16-byte blocks. -/
def ghash (h : Nat) (blocks : List (List Byte)) : Nat :=
  blocks.foldl (fun y b => ghashMul 128 (y ^^^ be (b ++ zeros (16 - b.length))) h 0) 0

/-- Counter mode from a counter value on. -/
def ctrRun (ks : List (List Nat)) (iv : List Byte) : Nat → List (List Byte) → List Byte
  | _, [] => []
  | c, b :: r => xorBytes b (aesEnc ks (iv ++ toBe 4 c)) ++ ctrRun ks iv (c + 1) r

/-- Tag of AES-256-GCM for a 12-byte IV. -/
def gcmTag (key iv aad ct : List Byte) : List Byte :=
  let ks := aesKeys key
  let h := be (aesEnc ks (zeros 16))
  let s := ghash h (chunks 16 aad ++ chunks 16 ct ++ [toBe 8 (8 * aad.length) ++ toBe 8 (8 * ct.length)])
  xorBytes (aesEnc ks (iv ++ toBe 4 1)) (toBe 16 s)

/-- Encrypt or decrypt the text of AES-256-GCM. -/
def gcmCrypt (key iv text : List Byte) : List Byte := ctrRun (aesKeys key) iv 2 (chunks 16 text)

/-- AES-256-GCM encryption: ciphertext and tag. -/
def gcmSeal (key iv aad pt : List Byte) : List Byte × List Byte :=
  let ct := gcmCrypt key iv pt
  (ct, gcmTag key iv aad ct)

/-- AES-256-GCM decryption; none where the tag fails. -/
def gcmOpen (key iv aad ct tag : List Byte) : Option (List Byte) :=
  if gcmTag key iv aad ct = tag then some (gcmCrypt key iv ct) else none

/-! ### Key wrap (RFC 3394) -/

/-- One step of unwrapping: counter `t` of block `i` (from 1). -/
def kwStep (ks : List (List Nat)) (n : Nat) (s : List Byte × List (List Byte)) (t : Nat) : List Byte × List (List Byte) :=
  let i := (t - 1) % n
  let b := aesDec ks (xorBytes s.1 (toBe 8 t) ++ s.2.getD i [])
  (b.take 8, s.2.set i (b.drop 8))

/-- Unwrap; none where the integrity value differs. -/
def kwUnwrap (kek wrapped : List Byte) : Option (List Byte) :=
  let r := chunks 8 (wrapped.drop 8)
  let n := r.length
  let s := ((List.range (6 * n)).map (6 * n - ·)).foldl (kwStep (aesKeys kek) n) (wrapped.take 8, r)
  if s.1 = List.replicate 8 0xA6#8 then some s.2.flatten else none

/-! ### P-256 -/

def p256P : Nat := 0xffffffff00000001000000000000000000000000ffffffffffffffffffffffff
def p256N : Nat := 0xffffffff00000000ffffffffffffffffbce6faada7179e84f3b9cac2fc632551
def p256B : Nat := 0x5ac635d8aa3a93e7b3ebbd55769886bc651d06b0cc53b0f63bce3c3e27d2604b
def p256G : Nat × Nat :=
  (0x6b17d1f2e12c4247f8bce6e563a440f277037d812deb33a0f4a13945d898c296,
   0x4fe342e2fe1a7f9b8ee7eb4a7c0f9e162bce33576b315ececbb6406837bf51f5)

/-- Power modulo `m`, over the bits of the exponent below 2^256. -/
def powMod (m : Nat) : Nat → Nat → Nat → Nat → Nat
  | 0, _, _, acc => acc
  | k + 1, b, e, acc => powMod m k (b * b % m) (e / 2) (if e % 2 = 1 then acc * b % m else acc)

/-- Inverse modulo a prime. -/
def invMod (m a : Nat) : Nat := powMod m 256 (a % m) (m - 2) 1

/-- A point in Jacobian coordinates (X, Y, Z): the affine point (X / Z², Y / Z³); Z = 0 is the point at infinity. -/
structure EcPoint where
  x : Nat
  y : Nat
  z : Nat
deriving DecidableEq, Repr

/-- Twice a point. -/
def EcPoint.double (a : EcPoint) : EcPoint :=
  let p := p256P
  let d := a.z * a.z % p
  let g := a.y * a.y % p
  let b := a.x * g % p
  let l := 3 * (a.x + p - d) * (a.x + d) % p
  let x := (l * l + 8 * (p - b)) % p
  { x := x, y := (l * (4 * b + p - x) + 8 * (p - g * g % p)) % p, z := 2 * a.y * a.z % p }

/-- Sum of a point and an affine point. -/
def EcPoint.add (a : EcPoint) (q : Nat × Nat) : EcPoint :=
  let p := p256P
  if a.z = 0 then { x := q.1, y := q.2, z := 1 }
  else
    let zz := a.z * a.z % p
    let h := (q.1 * zz + p - a.x) % p
    let r := (q.2 * a.z % p * zz + p - a.y) % p
    if h = 0 then (if r = 0 then a.double else { x := 1, y := 1, z := 0 })
    else
      let hh := h * h % p
      let v := a.x * hh % p
      let hhh := h * hh % p
      let x := (r * r + (p - hhh) + 2 * (p - v)) % p
      { x := x, y := (r * (v + p - x) + (p - a.y) * hhh) % p, z := a.z * h % p }

/-- The affine form; none is the point at infinity. -/
def EcPoint.affine (a : EcPoint) : Option (Nat × Nat) :=
  if a.z = 0 then none
  else
    let i := invMod p256P a.z
    let ii := i * i % p256P
    some (a.x * ii % p256P, a.y * (ii * i % p256P) % p256P)

/-- Multiple of a point, over the bits of the number below 2^256, the highest first. -/
def ecMulFrom (n : Nat) (q : Nat × Nat) : Nat → EcPoint → EcPoint
  | 0, acc => acc
  | k + 1, acc => ecMulFrom n q k (if n.testBit k then acc.double.add q else acc.double)

def ecMul (n : Nat) (q : Nat × Nat) : Option (Nat × Nat) := (ecMulFrom n q 256 { x := 1, y := 1, z := 0 }).affine

/-- Sum of two multiples of points. -/
def ecMulAdd (n : Nat) (q : Nat × Nat) (m : Nat) (r : Nat × Nat) : Option (Nat × Nat) :=
  let a := ecMulFrom n q 256 { x := 1, y := 1, z := 0 }
  match ecMul m r with
  | some b => (a.add b).affine
  | none => a.affine

/-- A point from its 64 bytes x‖y; none where it is not on the curve. -/
def pointOf (l : List Byte) : Option (Nat × Nat) :=
  let x := be (slice l 0 32)
  let y := be (slice l 32 32)
  let p := p256P
  if x < p ∧ y < p ∧ y * y % p = (x * x * x + (p - 3) * x + p256B) % p then some (x, y) else none

/-- The 64 bytes x‖y of a point. -/
def pointBytes (q : Option (Nat × Nat)) : List Byte :=
  match q with
  | some (x, y) => toBe 32 x ++ toBe 32 y
  | none => zeros 64

/-- Public key of a private key. -/
def ecPublic (d : Nat) : List Byte := pointBytes (ecMul d p256G)

/-- The x-coordinate of a shared point, 32 bytes. -/
def ecdhX (d : Nat) (q : Nat × Nat) : List Byte := (pointBytes (ecMul d q)).take 32

/-- A private key from 32 random bytes: 1 to n - 1. -/
def ecScalar (r : List Byte) : Nat := be r % (p256N - 1) + 1

/-- ECDSA signature r‖s of a hash under a private key with the nonce `k`. -/
def ecdsaSign (d k : Nat) (hash : List Byte) : List Byte :=
  let n := p256N
  let r := match ecMul k p256G with
    | some (x, _) => x % n
    | none => 0
  let s := invMod n k * ((be hash + r * d) % n) % n
  toBe 32 r ++ toBe 32 s

/-- ECDSA verification of r‖s over a hash under a public key x‖y. -/
def ecdsaVerify (pub hash sig : List Byte) : Bool :=
  let n := p256N
  let r := be (slice sig 0 32)
  let s := be (slice sig 32 32)
  match pointOf pub with
  | none => false
  | some q =>
    if r = 0 ∨ r ≥ n ∨ s = 0 ∨ s ≥ n then false
    else
      let w := invMod n s
      match ecMulAdd (be hash * w % n) p256G (r * w % n) q with
      | some (x, _) => x % n == r
      | none => false

/-! ### Device keys -/

/-- A private key from IDENTITY_SEED: 48 bytes of HKDF-SHA256 as a number, brought into the range of the curve
(spec/14_identity_roles.md R372). -/
def deviceKey (seed : List Byte) (info : String) : Nat :=
  let prk := hmac (ascii "PYRMIKA-ID") seed
  let t1 := hmac prk (ascii info ++ [1#8])
  let t2 := hmac prk (t1 ++ ascii info ++ [2#8])
  be (t1 ++ t2.take 16) % (p256N - 1) + 1

end Sys2Proof.Machine
end

