-- ==== Sys2Proof/Machine/Boot0.lean ====
section
/-! DEFINITION. The fuse array of a new part, which the reset state holds. -/

namespace Sys2Proof.Machine.Boot0

/-- MAKER region of a part as shipped (spec/14_identity_roles.md R356): STEPPING 0xB0, VARIANT_DIS 0x0000 (PMK-12T-E),
and MAKER_CRC of those bytes.  Every other field is 0 (log entry 2). -/
def factoryFuses : Mem := [(7, 0xB0#8), (0x7C, 0xFE#8), (0x7D, 0x09#8), (0x7E, 0x9B#8), (0x7F, 0x64#8)]

end Sys2Proof.Machine.Boot0
end

