-- ==== Sys2Proof/Machine/State.lean ====
section
/-! DEFINITION. The state of the expander, as plain data, and the state after reset.

Every register, table, queue, buffer, mode and pin that spec/ gives the expander is a field; the queue `pending` of the
commands that wait is the model's.  Fields are grouped by the unit that owns them.  INVENTORY.md lists each one with
its rule and its reset value. -/

namespace Sys2Proof.Machine

/-- The expander never stops: every row of the table answers a next state (spec/00_scope.md R5), so nothing raises a
fault.  The type has one member because the host's interface wants the type. -/
inductive Fault where
  /-- Raised by no command.  Safe. -/
  | never
deriving DecidableEq, Repr

/-- A refusal of the model. -/
inductive Refusal where
  /-- A command of the table without a meaning; raised by an arm of `exec` alone.  Safe: nothing can be proved of it. -/
  | notModelled (mnemonic : String)
deriving DecidableEq, Repr

/-! ### Time base (spec/02_beats_and_tieup.md) -/

/-- Synchronisation states (R39). -/
inductive Sync where
  | free | acquiring | locked | holdover | master
deriving DecidableEq, Repr

/-- BEAT_CONFIG settings (R44). -/
structure BeatCfg where
  master      : Bool := false
  picks       : Nat := 32
  holdover    : Nat := 64
  inDelay     : Nat := 0
  outEn       : BitVec 2 := 0b11#2
  startNumber : W64 := 0
deriving DecidableEq, Repr

/-- A BEAT_CONFIG that waits for its boundaries (R45): the new settings, the activation beat (0: the next boundary) and
whether the settings that take effect at the next boundary are in force. -/
structure BeatPending where
  cfg        : BeatCfg
  activation : W64
  early      : Bool
  mbx        : Mbx
deriving DecidableEq, Repr

/-- Kinds of beats of the Loom (spec/18_registers.md R488). -/
inductive BeatKind where
  | idle | issue | switch | recovery | end_
deriving DecidableEq, Repr

/-- The instant of an effect boundary: beat counter (0 while invalid), pick index, picks since boot. -/
structure Stamp where
  beat : W64
  idx  : Nat
  pick : Nat
deriving DecidableEq, Repr

structure TimeBase where
  /-- picks since boot (spec/15_mailboxes.md R407 PICKS) -/
  pick       : Nat := 0
  /-- pick index within the beat (R29) -/
  idx        : Nat := 0
  /-- CLK_E cycle in which the current pick began -/
  cycle      : Nat := 0
  /-- CLK_E cycle of the boundary of the current beat -/
  beatCycle  : Nat := 0
  /-- the beat counter (R30); its value is meaningful in LOCKED, HOLDOVER and MASTER alone -/
  beat       : W64 := 0
  /-- pick 0 of a beat has begun and its beat-level effects have not yet taken place -/
  beatDue    : Bool := false
  sync       : Sync := .free
  /-- acquisition (R40): markers seen after START, their data bits, edge of the last one -/
  acqCount   : Nat := 0
  acqBits    : List Bool := []
  acqEdge    : Nat := 0
  /-- acquisition succeeded: cycle of the boundary of beat F + 73, and that beat's number (R41) -/
  acqLoad    : Option (Nat × W64) := none
  /-- number of the beat whose marker is judged next (R42) -/
  markBeat   : W64 := 0
  /-- holdover count (R42) -/
  holdCount  : Nat := 0
  /-- received MISS symbols (R38): count and beat number of the most recent -/
  missCount  : Nat := 0
  missBeat   : W64 := 0
  cfg        : BeatCfg := {}
  pendingCfg : Option BeatPending := none
  /-- beat at which the last BEAT_CONFIG setting took effect (spec/15_mailboxes.md R416) -/
  cfgBeat    : W64 := 0
  /-- ready with MODE MASTER in the store: the next boundary is the first MASTER boundary (R43) -/
  masterDue  : Bool := false
  /-- level and width of the BEAT_OUT pulse of the current beat, per output (R37); 0: held low -/
  beatOut    : List Nat := [0, 0]
deriving DecidableEq, Repr

/-- An installer plan (R55, R417): owner codes as positions of lists. -/
structure Plan where
  patterns   : Nat
  near       : List (List (List Nat))
  far        : List (List (List Nat))
  egress     : List (List (List Nat))
  ingress    : List (List (List Nat))
  rota       : List Nat
  allowances : List Nat
deriving DecidableEq, Repr

/-- The tie-up: active and shadow copies of the plan in the four domains CLK_E, CLK_N, CLK_F and CLK_P (R60). The four
active copies always change at one boundary, so one value stands for them; the shadow and its arm are kept. -/
structure TieUp where
  plan       : Option Plan := none
  activeBeat : W64 := 0
  shadow     : Option Plan := none
  armed      : Bool := false
  activation : W64 := 0
  mbx        : Option Mbx := none
  /-- positions of the current pick: for each section and each group the position reached and the lanes it has used
  (channels of the section, subchannels of the group) (R163, R173) -/
  nearNext   : Table (Nat × List Nat) := []
  farNext    : Table (Nat × List Nat) := []
deriving DecidableEq, Repr

/-! ### Pool (spec/03 to 06) -/

inductive Cls where | plain | twill2 | twill4 | satin
deriving DecidableEq, Repr

inductive SrcType where | raw | bf16 | fp16 | fp32 | e4m3 | e5m2
deriving DecidableEq, Repr

inductive Prot where | none | mirror | parity
deriving DecidableEq, Repr

inductive ExtSt where | ungranted | granted | clearing
deriving DecidableEq, Repr

/-- STATE of a residency map entry (spec/05_tiering.md R129). -/
inductive PgSt where | settled | queued | promoting | evicting | moving | zfill
deriving DecidableEq, Repr

/-- A residency map entry with the last-access beat of the near residency table (R129, R131). -/
structure Page where
  zor   : Bool := true
  near  : Bool := false
  st    : PgSt := .settled
  pin   : Bool := false
  dirty : Bool := false
  slot  : Nat := 0
  /-- last-access beat; the pending one while the page is queued, promoting, moving or being filled -/
  last  : Nat := 0
  /-- the page has a pending eviction (R142) -/
  evict : Bool := false
deriving DecidableEq, Repr

/-- Physical clearing work (spec/13_isolation_crypto.md R339): for each far group the next local burst of the extent's run;
bursts of the set that a later write took out of it; released near frames with their next codeword.  A local burst is numbered 12 L + j over the group. -/
structure Clear where
  order  : Nat
  far    : Table Nat
  skip   : List (Nat × Nat × Nat)
  frames : List (Nat × Nat)
  /-- bursts that the overwrite has passed over because their slot was taken or a write was under way (R340) -/
  owed   : List (Nat × Nat × Nat) := []
deriving DecidableEq, Repr

/-- An aperture entry: PRT_APT_LINK and PRT_APT_MAP (spec/03_pool_extents.md R77). -/
structure Apt where
  link : W64 := 0
  map  : W64 := 0
deriving DecidableEq, Repr

structure Extent where
  -- attributes set by EXT_CREATE (R67)
  base      : Nat
  granules  : Nat
  cls       : Cls
  src       : SrcType
  budget    : Nat := 0
  ovfPct    : Nat := 0
  prot      : Prot := .none
  groups    : BitVec 4
  ports     : BitVec 6
  /-- UNIT_BASE for each group (spec/06_memory_channels.md R168) -/
  runs      : Table Nat
  -- volatile attributes
  st        : ExtSt := .ungranted
  owner     : Nat := 0
  share     : BitVec 6 := 0
  bound     : Bool := false
  sealed    : Bool := false
  promoteEn : Bool := true
  /-- pick from which the grant holds (R74) and, for a port, from which it shares (R75) -/
  grantPick : Nat := 0
  sharePick : Table Nat := []
  -- per-page arrays (R126); an unlisted page has the default entry
  pages     : Table Page := []
  gens      : Table W32 := []
  genAll    : W32 := 0
  counters  : Table Nat := []
  /-- overflowed blocks and their entries (spec/04_compression.md R112, R113) -/
  ovf       : Table Nat := []
  nonfinite : Nat := 0
  -- operations in progress
  clear     : Option Clear := none
  clearPend : Bool := false
  /-- released near frames that no clear covers, and that do not hold CLEAR_PENDING (R339); when their clearing began -/
  looseFrames : List (Nat × Nat) := []
  looseOrder : Nat := 0
  revoking  : Bool := false
  /-- the boundary of a revocation, or of its owner's destroy, has passed: later requests find no grant (R83, R341) -/
  ending    : Bool := false
  sharing   : Bool := false
  sealing   : Bool := false
  /-- the boundary q of the revocation, share change or seal in progress, and requests it drains -/
  q         : Option Stamp := none
  drained   : Nat := 0
  /-- loaded bolt: its READER_MASK (spec/13 R350) -/
  bolt      : Option W64 := none
  boltLoading : Bool := false
  boundKey  : Option (List Byte) := none
  /-- poisoned blocks that the damaged table could not list (spec/16_ras.md R432) -/
  unlisted  : List Nat := []
  /-- corrected and uncorrectable units and blocks of the extent, near and far, for RAS_QUERY of its context (R420) -/
  ceNear    : Nat := 0
  ceFar     : Nat := 0
  ueNear    : Nat := 0
  ueFar     : Nat := 0
deriving DecidableEq, Repr

/-- A lease (spec/03_pool_extents.md R85): range in pages of an extent, the holder, the pick it takes effect. -/
structure Lease where
  ext    : Nat
  first  : Nat
  pages  : Nat
  holder : Nat
  torn   : Bool := false
  /-- blocks of a TORN lease that have left TORN (R88) -/
  whole  : List Nat := []
  /-- bytes of 64 B quarters written since the lease became TORN: block, mask of its 256 bytes -/
  part   : Table (BitVec 256) := []
  from_  : Nat
  /-- a LEASE_DROP has been accepted (R86) -/
  dropping : Bool := false
  dropPick : Nat := 0
deriving DecidableEq, Repr

/-- A pin (spec/05_tiering.md R143). -/
structure Pin where
  ext   : Nat
  first : Nat
  pages : Nat
  mask  : BitVec 16
  ctx   : Nat
  /-- pages still to place, in page order -/
  todo  : List Nat
  moved : Nat := 0
  poisoned : Nat := 0
  /-- first frame of the run that the next page waits for while evictions free it (R144) -/
  wait  : Option Nat := none
  done  : Bool := false
deriving DecidableEq, Repr

/-- A stored unit (spec/06_memory_channels.md R159 to R172): near codeword `w` of a section, or far local burst `l` of
subchannel `j` (0 to 11) of a group. -/
inductive Loc where
  | near (sec w : Nat)
  | far (group j l : Nat)
deriving DecidableEq, Repr

/-- One write of stored bytes into a unit: bytes `off` on are replaced, or changed by exclusive OR for a parity burst. -/
structure WItem where
  loc   : Loc
  off   : Nat
  bytes : List Byte
  xor   : Bool := false
  mark  : List Bool := []
deriving DecidableEq, Repr

/-- What a read of a unit delivered: decoded bytes, a mark for each 64 B quarter, and whether it was uncorrectable. -/
structure RItem where
  loc   : Loc
  bytes : List Byte
  marks : List Bool
  ue    : Bool
deriving DecidableEq, Repr

/-- A stripe of a PARITY page that a fill writes in part (R150): bursts of the page with their units and new bytes, the parity
unit, and the position of the read of all of them. -/
structure FillStripe where
  data   : List (Nat × Loc × List Byte)
  parity : Loc
  at_    : Option (Bool × Nat × Nat) := none
deriving DecidableEq, Repr

/-- A fill-table entry (R133): page and the blocks that hold data; one that a write has taken and that has not
committed has no bit set. -/
structure Fill where
  ext  : Nat
  page : Nat
  bits : BitVec 256
  /-- requests that rely on the entry and have not committed (R133, R134) -/
  takers : List Nat := []
  /-- order of start among copies and fills (R152) -/
  order : Nat := 0
  /-- what the fill has written of blocks that it has not finished: 0 and the block near, 1 + copy and the page's burst far -/
  done  : List (Nat × Nat) := []
  /-- stripes that the fill writes in part, and that it has read or has still to read (R150, R438) -/
  owed  : List FillStripe := []
deriving DecidableEq, Repr

inductive CopyKind where | promote | pinCopy | move | evict
deriving DecidableEq, Repr

/-- A page copy in flight (R150 to R154). -/
structure Copy where
  ext    : Nat
  page   : Nat
  kind   : CopyKind
  /-- first frame of the near destination (of the source for an eviction) -/
  dest   : Nat
  src    : Nat
  /-- next block to read; blocks read with the pick of their read and stored bytes per 64 B quarter with marks -/
  next   : Nat := 0
  held   : List (Nat × Nat × List Byte × List Bool) := []
  /-- units read of blocks that are not complete: their bursts lie in two stripe rows (R150), or one did not read clean and its
  redundancy is still to be read (R156) -/
  part   : List RItem := []
  /-- next block to write -/
  wr     : Nat := 0
  aborts : Nat := 0
  /-- blocks written as poison since the copy last started (R156) -/
  poison : Nat := 0
  done   : Bool := false
  donePick : Nat := 0
deriving DecidableEq, Repr

/-- An entry of the promotion queue (R139): the page and, once placed with victims, the run that it waits for. -/
structure Promo where
  ext  : Nat
  page : Nat
  wait : Option Nat := none
deriving DecidableEq, Repr

/-- Migration settings (R138). -/
structure MigPolicy where
  threshold : Nat := 16
  ageBeats  : Nat := 1024
  horizon   : Nat := 256
  pinLimit  : Nat := 190464
deriving DecidableEq, Repr

structure Tiering where
  beats     : Nat := 0
  policy    : MigPolicy := {}
  pendPolicy : Option MigPolicy := none
  queue     : List Promo := []
  dropped   : Nat := 0
  blocked   : Nat := 0
  fills     : Table Fill := []
  copies    : Table Copy := []
  nextCopy  : Nat := 0
  promotions : Nat := 0
  evictions : Nat := 0
  /-- the halving of this beat's boundary is still to come (R137) -/
  ageDue    : Bool := false
deriving DecidableEq, Repr

/-- A round of accesses (R162, R510, R120): the units still to issue. The units of one section or group take one
position; `gen` is the near read of the metadata region of a GEN window (spec/03 R93). -/
inductive Phase where
  | read (locs : List Loc)
  | write (items : List WItem)
  | gen
deriving DecidableEq, Repr

inductive ReqOp where
  | rd64 | rd256 | wr64 | wr256 | wrp | fence | mbxRd | mbxWr
deriving DecidableEq, Repr

/-- Who sent a request: a host with its tag, or a Shuttle engine with what it moves. -/
inductive Origin where
  | host (p tag : Nat)
  | shuttle (e block : Nat)
  | list (e entry : Nat)
  /-- a bolt load reads a block of its image (at a pool block number) or writes a block of its target -/
  | fetch (e n : Nat)
  | bolt (e n : Nat)
deriving DecidableEq, Repr

/-- A request in the pool controller (spec/10_host_link.md R280, spec/06 R176). -/
structure Req where
  origin  : Origin
  op      : ReqOp
  code    : Nat
  ext     : Nat
  block   : Nat
  quarter : Nat
  data    : List Byte
  mask    : W64
  ro      : Bool
  arrival : Nat
  /-- residency entry in force at the arrival pick (R154) -/
  near    : Bool
  slot    : Nat
  gen     : Bool
  /-- offset of a GEN read within the generation array, or of an MBX request within the image -/
  off     : Nat := 0
  phases  : List Phase := []
  /-- the first access has issued (R280) -/
  started : Bool := false
  /-- its rounds are fixed; a page that becomes zero-on-read meanwhile unfixes them (spec/05 R154) -/
  planned : Bool := false
  /-- units of the first phase that have issued and whose data or commit is awaited -/
  flying  : List Loc := []
  flyingW : List WItem := []
  /-- latest position taken: near or far, pick, position -/
  issued  : Option (Bool × Nat × Nat) := none
  /-- position of the read whose data the next phase needs (R178) -/
  lastRead : Option (Bool × Nat × Nat) := none
  /-- stored bytes that the issued reads took at their positions (R163, R173) -/
  snap    : List (Loc × List Byte) := []
  got     : List RItem := []
  /-- overflow entry that a write takes (R115), or that a read follows (R113) -/
  entry   : Option Nat := none
  /-- contents the write leaves, once known -/
  merged  : Option (List Byte) := none
  /-- the write is globally visible (R91) -/
  visible : Bool := false
  /-- its port has lost its host: no completion leaves (spec/11_port_slots.md R297) -/
  orphan  : Bool := false
  /-- its last start pick has passed: it ends LATE in pick `arrival` + 12 with no effect (R280) -/
  late    : Bool := false
  /-- the context of the port at its arrival (spec/13_isolation_crypto.md R352) -/
  ctx     : Option Nat := none
deriving DecidableEq, Repr

/-! ### Links and slots (spec/10, 11) -/

/-- A record that arrived with its data, its slot and whether the slot was damaged (R269, R271, R278). -/
structure Arrival where
  rec_    : W64
  data    : List Byte
  slot    : Option Nat
  damaged : Bool
  credit  : Bool
  pick    : Nat
deriving DecidableEq, Repr

/-- A completion that waits for an egress record (R269, R275). -/
structure Cpl where
  tag    : Nat
  status : Nat
  data   : Option (List Byte)
  arrival : Nat
  /-- first pick whose frame may carry it -/
  from_  : Nat
  /-- not a read: what SAFE leaves unchanged (spec/10 R280, spec/17 R463) -/
  fixed  : Bool := false
  /-- the extent it concerned, for the drains of spec/03 R83; bytes read and written, for telemetry -/
  ext    : Option Nat := none
  ctx    : Option Nat := none
  rdBytes : Nat := 0
  wrBytes : Nat := 0
deriving DecidableEq, Repr

/-- An EVT (R284). -/
structure Evt where
  code : Nat
  p0   : W32
  p1   : W64
deriving DecidableEq, Repr

/-- Grants that an egress HEAD gave for an ingress frame (R273, R275). -/
structure Grant where
  host     : List Nat
  cpl      : List Nat
  rdCredit : Nat
deriving DecidableEq, Repr

/-- An egress frame (R266, R273). -/
structure Frame where
  flags   : Byte
  width   : Nat
  idx     : Nat
  picks   : Nat
  rdCredit : Nat
  beat    : W64
  frame   : W64
  openHost : List Nat
  openCpl  : List Nat
  /-- records of slots and of the tail -/
  slots   : List (Nat × W64 × List Byte)
  tail    : List (Nat × W64)
  /-- ciphertext and tag of the frame in confidential mode (R286) -/
  cipher  : List Byte := []
  tag     : List Byte := []
deriving DecidableEq, Repr

/-- An outstanding expander read (R277, R316): its engine, descriptor block and the pick in which it left. -/
structure ExpRead where
  engine : Nat
  block  : Nat
  left   : Nat
deriving DecidableEq, Repr

structure Port where
  ctx       : Option Nat := none
  active    : Table Apt := []
  staged    : Table Apt := []
  reserve   : Option Mbx := none
  switchDue : Bool := false
  switchQ   : Option Stamp := none
  width     : Nat := 0
  fecCorr   : W64 := 0
  fecUncorr : W64 := 0
  protoErr  : Nat := 0
  tagFail   : Nat := 0
  evtDrop   : Nat := 0
  badRun    : Nat := 0
  tagRun    : Nat := 0
  /-- FRAME of the next egress HEAD; FRAME of the last ingress frame taken -/
  txFrame   : Nat := 0
  rxFrame   : Option Nat := none
  grants    : Table Grant := []
  arrivals  : List Arrival := []
  cpls      : List Cpl := []
  evts      : List Evt := []
  rdTags    : Table ExpRead := []
  deadTags  : Table Nat := []
  conf      : Bool := false
  /-- FRAME from which CONF may be set; once it is set, FRAME of the first encrypted frame (R285) -/
  confFrom  : Option Nat := none
  /-- FRAME for which the transmit key has moved on (R287) -/
  rekeyAt   : Option Nat := none
  keyE      : Option (List Byte) := none
  keyI      : Option (List Byte) := none
  keyINext  : Option (List Byte) := none
  genE      : Nat := 0
  genI      : Nat := 0
  keyPhase  : Bool := false
  xferKey   : Option (List Byte) := none
  pushCtr   : Nat := 0
  pullCtr   : Nat := 0
  bounce    : List (Nat × Nat) := []
  /-- the port grants no credit: a drain has started at this pick (R295) -/
  closed    : Bool := false
  /-- frames of the key hold still to send (spec/13 R341) -/
  hold      : Option Nat := none
  /-- a surprise loss whose leases turn TORN after the last write (R297) -/
  lossDue   : Bool := false
  lastFrame : Option Frame := none
  /-- telemetry (spec/15 R422): requests, bytes read and written, latency in picks and in 64-cycle bins -/
  telReqs   : Nat := 0
  telRead   : Nat := 0
  telWrite  : Nat := 0
  telPicks  : Table Nat := []
  telCycles : Table Nat := []
deriving DecidableEq, Repr

inductive SlotSt where
  | empty | off | powering | training | up | hold | draining | fault | dormant
deriving DecidableEq, Repr

/-- Why a port drains (R295, R455). -/
inductive DrainFor where | off | dormant | standby
deriving DecidableEq, Repr

structure Slot where
  st        : SlotSt := .empty
  prsnt     : Bool := false
  pwrGood   : Bool := false
  pwrOn     : Bool := false
  attn      : BitVec 2 := 0
  autoPower : Bool := false
  buttonEn  : Bool := false
  aptClear  : Bool := false
  /-- LINK_IE, PRES_IE, BTN_IE, FAULT_IE, DRAIN_IE in bits 4 to 0 (R302) -/
  ie        : BitVec 5 := 0
  /-- LINK_CHG, PRES_CHG, BTN_PRESSED, PWR_FAULT, DRAIN_DONE in bits 4 to 0 (R303) -/
  sts       : BitVec 5 := 0
  drain     : Option DrainFor := none
  drainPick : Option Nat := none
  /-- DORMANT bit cleared while the drain of R455 ran (spec/17 R469) -/
  wake      : Bool := false
  /-- the slot waits in OFF for the store to load (R302) -/
  awaits    : Bool := false
deriving DecidableEq, Repr

/-! ### Shuttle engines (spec/12) -/

/-- A descriptor (R309). -/
structure Desc where
  kind   : Nat
  flags  : Nat
  port   : Nat
  rsv    : Nat
  len    : Nat
  src    : Nat
  dst    : Nat
deriving DecidableEq, Repr

/-- A bolt load (spec/13 R350). -/
structure BoltJob where
  ext     : Nat
  src     : Nat
  len     : Nat
  step    : Nat := 1
  chunk   : Nat := 0
  key     : Option (List Byte) := none
  header  : List Byte := []
  /-- image bytes read so far, which the signature covers (R348) -/
  seen    : List Byte := []
  /-- image blocks that have been read, and those whose reads have not ended, by pool block number -/
  buf     : Table (List Byte) := []
  asked   : List Nat := []
  /-- plaintext of target blocks still to write, and blocks whose writes have not ended -/
  plain   : Table (List Byte) := []
  writes  : List Nat := []
  /-- the status at which a write has ended the load (R350 step 6) -/
  bad     : Option Nat := none
deriving DecidableEq, Repr

/-- The descriptor that runs (R311, R313). -/
structure Cur where
  d       : Desc
  idx     : Nat
  /-- next block to issue -/
  next    : Nat := 0
  inflight : List Nat := []
  /-- leading blocks that committed, and committed blocks above them (R313) -/
  done    : Nat := 0
  committed : List Nat := []
  /-- blocks ready to leave in a push, with their data -/
  out     : Table (List Byte) := []
  /-- pull blocks verified or, on a confidential port, staged -/
  staged  : Table (List Byte) := []
  seals   : Table (List Byte) := []
  /-- pull reads to send -/
  toRead  : List Nat := []
  fail    : Option (Nat × Nat) := none
  /-- the descriptor has been stopped and ends with this status once its blocks in flight have finished (R323) -/
  stop    : Option Nat := none
  /-- the port was confidential when the descriptor started; message counter and ciphertext of the push segment that is
  leaving (R319, R320) -/
  conf    : Bool := false
  segCtr  : Nat := 0
  segCt   : List Byte := []
deriving DecidableEq, Repr

structure Job where
  ctx     : Nat
  mbx     : Mbx
  list    : Nat
  count   : Nat
  timeout : Nat
  listExt : Nat
  descs   : Option (List Desc) := none
  idx     : Nat := 0
  cur     : Option Cur := none
  /-- entries still to write back: index, status, done count -/
  back    : List (Nat × Nat × Nat) := []
  ran     : Nat := 0
  failed  : Nat := 0
  firstIdx : Nat := 0xFFFF
  firstSt : Nat := 0
  stop    : Option Nat := none
  /-- SHUTTLE_ABORT or a destroy ends the job (R323) -/
  abort   : Bool := false
  dropBack : Bool := false
  bolt    : Option BoltJob := none
deriving DecidableEq, Repr

/-! ### Contexts, leases of hardware and keys (spec/13) -/

structure Ctx where
  ports   : BitVec 6
  seed    : W64
  memKey  : List Byte
  /-- DESTROYING, the mailbox of the destroy, its boundary and counts (R341) -/
  dying   : Option Mbx := none
  q       : Option Stamp := none
  drained : Nat := 0
  aborted : Nat := 0
  /-- the drain of a destroy has ended and the keys are gone: the context goes at the next boundary (R341 steps 9 and 10) -/
  keysGone : Bool := false
  /-- attachment change in progress: ports added at the next boundary, ports that drain; its boundary (R328) -/
  attach  : Option (BitVec 6 × BitVec 6) := none
  attachQ : Option Stamp := none
  born    : Nat := 0
  telReqs  : Nat := 0
  telRead  : Nat := 0
  telWrite : Nat := 0
  telPicks : Table Nat := []
  telProm  : Nat := 0
  telEvict : Nat := 0
deriving DecidableEq, Repr

/-! ### The Loom (spec/07 to 09) -/

/-- A landing or other bobbin write that becomes readable at a later pick (spec/09 R250). -/
structure Landing where
  pick  : Nat
  order : Nat
  addr  : Nat
  bytes : List Byte
deriving DecidableEq, Repr

/-- A vector result that becomes visible at a cycle of the current or next pick (R251, R252): destination kind 0 vector
register, 1 mask register, 2 accumulator, 3 bobbin (for LD). -/
structure VWrite where
  cycle : Nat
  order : Nat
  kind  : Nat
  addr  : Nat
  bytes : List Byte
deriving DecidableEq, Repr

/-- A bay (spec/07_loom.md R180). -/
structure Bay where
  bobbin  : Mem := []
  /-- stationary and held buffers of the two arrays -/
  bufs    : Mem := []
  acc     : Mem := []
  vregs   : Mem := []
  masks   : Mem := []
  landings : List Landing := []
  vwrites : List VWrite := []
deriving DecidableEq, Repr

inductive DraftSt where | loaded | pending | running | done | halted
deriving DecidableEq, Repr

inductive HaltCause where | none | overrun | stop | destroyed | reset
deriving DecidableEq, Repr

/-- Sections of a container for one bay (spec/08_drafts.md R215). -/
structure BaySec where
  words   : List (BitVec 1024) := []
  streams : List (BitVec 256) := []
  vseq    : List W64 := []
  consts  : List W32 := []
deriving DecidableEq, Repr

/-- Where a draft stands: word index, loop levels, generator positions, push progress (R221, R227, R236). -/
structure DraftPos where
  pc       : Nat := 0
  active   : List Bool := [false, false, false, false]
  left     : List Nat := [0, 0, 0, 0]
  /-- elements taken by each stream: 4096 × bay + stream; blocks sent by each push descriptor -/
  taken    : Table Nat := []
  progress : Table Nat := []
  /-- END has executed -/
  done     : Bool := false
deriving DecidableEq, Repr

structure Draft where
  ctx      : Nat
  st       : DraftSt := .loaded
  cause    : HaltCause := .none
  bayMask  : BitVec 16
  wordCount : Nat
  picks    : Nat
  patterns : Nat
  energy   : Nat
  execPicks : Nat
  cid      : W64
  bays     : Table BaySec
  pushes   : List (BitVec 128)
  declNear : List (List Nat)
  declPort : List (List Nat)
  portSlots : Nat
  /-- offset and length in the five stores: words, streams, vector, constants, pushes (R240) -/
  stores   : List (Nat × Nat)
  /-- what its streams name: write, extent, first and last page; the ports of its pushes -/
  streamed : List (Bool × Nat × Nat × Nat) := []
  pushPorts : List Nat := []
  pos      : DraftPos := {}
  /-- position at the start of the current beat, for the replay of R49 -/
  beatPos  : DraftPos := {}
  issued   : Nat := 0
  startBeat : W64 := 0
  startMin : W64 := 0
  ovrBeat  : W64 := 0
  ovrCause : Nat := 0
  flags    : List (BitVec 4) := List.replicate 16 0
  /-- DRAFT_START and DRAFT_STOP that wait, a stop that is due at the end of the beat and its cause -/
  starter  : Option Mbx := none
  stopDue  : Option HaltCause := none
  /-- the end beat of a stop runs (R245) -/
  ending   : Bool := false
deriving DecidableEq, Repr

/-- A Loom access of the current or the next pick (spec/09 R253): a stream-in read, a stream-out write, or a write of the
replay of an overrun. -/
structure LoomAcc where
  loc   : Loc
  /-- near position, 32 before it is known -/
  pos   : Nat := 32
  write : Bool
  poison : Bool := false
  ext   : Nat
  /-- first block of the codeword, as a number within the extent -/
  block : Nat
  bay   : Nat
  /-- landing: bobbin byte address, pick from which it is readable, order -/
  addr  : Nat := 0
  ready : Nat := 0
  order : Nat := 0
  /-- stream-out: the pool bytes of the codeword's span -/
  data  : List Byte := []
  /-- what the unit held at the access, once a later write has replaced it -/
  snap  : Option (List Byte) := none
deriving DecidableEq, Repr

/-- The blocks of one push field that leave in one egress frame: slot, host address, data (R256). -/
structure LoomPush where
  port   : Nat
  blocks : List (Nat × Nat × List Byte)
deriving DecidableEq, Repr

structure Loom where
  bays     : Table Bay := []
  drafts   : Table Draft := []
  kind     : BeatKind := .idle
  owner    : Nat := 0xFF
  /-- the draft that issues in this beat, or that the recovery beat replays; whether it still does -/
  run      : Option Nat := none
  live     : Bool := false
  /-- the next beat is an end beat (R210) -/
  endDue   : Bool := false
  /-- cause of the overrun declared in the current beat, as numbered by the rows of R46 -/
  overrun  : Option Nat := none
  /-- the beat before the current one overran -/
  missPrev : Bool := false
  /-- SAFE began while a draft ran in the current beat: no replay follows (R50) -/
  halted   : Bool := false
  overruns : Nat := 0
  extra    : Nat := 0
  /-- accesses of the current pick, and stream-out writes named in it for the next -/
  accs     : List LoomAcc := []
  nextAccs : List LoomAcc := []
  /-- push blocks that leave in the current pick, and those named in it for the next -/
  pushes   : List LoomPush := []
  nextPushes : List LoomPush := []
  /-- pages whose generation a stream-out has advanced in the current pick (spec/03 R92) -/
  bumped   : List (Nat × Nat) := []
  issue    : BitVec 16 := 0
  resetDue : Bool := false
  clocked  : Bool := true
deriving DecidableEq, Repr

/-! ### Mailboxes and the Umpire (spec/14, 15) -/

/-- What a command that waits waits for; the object it names. -/
inductive WaitFor where
  | attach (ctx : Nat) | destroy (ctx : Nat)
  | grant (ext : Nat) | revoke (ext : Nat) | clear (ext : Nat) | seal (ext : Nat)
  | aptCommit (p : Nat)
  | leaseTake (n : Nat) | leaseDrop (n : Nat) | leaseResolve (n : Nat)
  | pin (n : Nat) | unpin (n : Nat)
  | policy | policyExt (ext : Nat)
  | draftStart (h : Nat) | draftStop (h : Nat)
  | tieup | beatCfg
  | shuttle (e : Nat) | abort (e : Nat) | bolt (e : Nat)
  /-- a SHUTTLE_ABORT whose job has ended and whose SHUTTLE_RUN or BOLT_LOAD is still to complete (R323) -/
  | aborted (e : Nat)
  | resolve (ext block : Nat)
  | scrubCfg
  | fuse
  | slot (p : Nat) | slotPolicy (p : Nat)
deriving DecidableEq, Repr

/-- A waiting command; `ready` once its events have occurred, with the status and response body it then takes. -/
structure Wait where
  what   : WaitFor
  ready  : Bool := false
  status : Nat := 0
  body   : List Byte := []
deriving DecidableEq, Repr

/-- An SPDM connection (spec/14_identity_roles.md R387): 0 none, 1 version, 2 capabilities, 3 algorithms, and the messages
that later signatures cover: VERSION to ALGORITHMS, certificates, measurements (DSP0274). -/
structure SpdmConn where
  stage : Nat := 0
  vca   : List Byte := []
  certs : List Byte := []
  meas  : List Byte := []
deriving DecidableEq, Repr

structure Mailbox where
  /-- bytes of the image from 0x100 on, at their image offsets (R391) -/
  image     : Mem := []
  owner     : Bool := true
  ie        : Bool := false
  accepted  : Bool := false
  done      : Bool := false
  last      : Nat := 0
  challenge : List Byte := []
  bulk      : Mem := []
  wait      : Option Wait := none
  /-- the port lost its host while the command ran: the response is discarded and the image zeroed (R297) -/
  discard   : Bool := false
  spdm      : SpdmConn := {}
  /-- the context that the accepted command concerns, for its audit record (spec/14_identity_roles.md R375) -/
  ctx       : Nat := 0xFF
deriving DecidableEq, Repr

/-- An effect that takes place at the next pick boundary. -/
inductive Deferred where
  /-- a grant: extent, owner, PORT_SHARE, its bound key where it is BOUND -/
  | grantOn (ext owner : Nat) (share : BitVec 6) (key : Option (List Byte)) (m : Mbx)
  | shareOn (ext : Nat) (add : BitVec 6)
  | clearExt (ext : Nat) (m : Mbx)
  | destroyed (ctx : Nat)
  | leaseOn (n : Nat) (m : Mbx)
  | leaseResolve (n : Nat) (zero : Bool) (m : Mbx)
  | unpin (n : Nat) (m : Mbx)
  | promoteEn (ext : Nat) (en : Bool) (m : Mbx)
  | attachOn (ctx : Nat) (add : BitVec 6)
  | scrubOn (m : Mbx)
  | policyOn (slot : Nat) (auto btn clr : Bool) (m : Mbx)
  | resolveOn (ext block action due : Nat) (m : Mbx)
  | sealOn (ext : Nat)
  | unseal (ext : Nat)
  | undamage (ext block due : Nat)
deriving DecidableEq, Repr

/-- Trial state of the boot control record (spec/14 R381). -/
inductive TState where | none | armed | running
deriving DecidableEq, Repr

/-- One copy of the boot control record (R381): its sequence number, whether it is valid, ACTIVE, TRIAL, T_STATE. -/
structure BootRec where
  seq     : Nat := 0
  valid   : Bool := true
  activeB : Bool := false
  trialB  : Bool := false
  tState  : TState := .none
deriving DecidableEq, Repr

/-- An audit record (R375): its 256 bytes. -/
abbrev AuditRec := List Byte

/-- A fuse programming command in progress (R371): the fuses to blow, in order; the key record to write. -/
structure FuseJob where
  mbx   : Mbx
  todo  : List Nat
  blown : Nat
deriving DecidableEq, Repr

structure Umpire where
  mboxes    : List (Mbx × Mailbox) := []
  /-- mailboxes whose OWNER became 1, in order (R396) -/
  queue     : List Mbx := []
  ready     : Bool := false
  /-- a firmware has been started and is not yet ready -/
  starting  : Bool := true
  romService : Bool := false
  expiries  : Nat := 0
  /-- number of random bytes drawn (model's own: argument of the free values of `Config`) -/
  drbg      : Nat := 0
  entropyFail : Bool := false
  auditFail : Bool := false
  keyBad    : Bool := false
  idBad     : Bool := false
  /-- pick in which the current boot began (PICKS counts from it; R376, R407) -/
  bootPick  : Nat := 0
  updateStaged : Bool := false
  trialRunning : Bool := false
  debugUnlocked : Bool := false
  boot      : BitVec 3 := 0
  svn       : Nat := 0
  fwVersion : W32 := 0
  /-- the maker's public key, from the manifest of the running firmware (R368) -/
  makerKey  : List Byte := []
  fuseJob   : Option FuseJob := none
  /-- identity and key-agreement private keys in the key store (R332, R372) -/
  idKey     : Nat := 0
  kaKey     : Nat := 0
  /-- connection of the I3C target, and the message it last sent -/
  mctp      : SpdmConn := {}
  mctpOut   : List Byte := []
  /-- firmware stage in progress (R382): owner, next offset -/
  stage     : Option (Mbx × Nat) := none
  /-- FW_ACTIVATE has completed and its restart is still to come (R383) -/
  restartDue : Bool := false
  deferred  : List Deferred := []
deriving DecidableEq, Repr

/-- What the SPI NOR keeps (spec/14, spec/17 R468). -/
structure Nor where
  bankA     : Mem := []
  bankB     : Mem := []
  sizeA     : Nat := 0
  sizeB     : Nat := 0
  /-- the two copies of the boot control record (R381) -/
  bootA     : BootRec := { seq := 1 }
  bootB     : BootRec := {}
  /-- installer key record (64 B), device certificate chain -/
  installerKey : List Byte := []
  certChain : List Byte := []
  /-- the public keys that the leaf of the chain names: identity and key agreement, 64 B each (R373) -/
  leafId    : List Byte := []
  leafKa    : List Byte := []
  -- the installer's persistent configuration store
  plan      : Option Plan := none
  beatCfg   : BeatCfg := {}
  apts      : Table (Table Apt × Table Apt) := []
  slotPolicy : List (Bool × Bool × Bool) := List.replicate 6 (true, true, false)
  policy    : MigPolicy := {}
  farHours  : Nat := 24
  nearHours : Nat := 1
  idlePicks : Nat := 64
  pdEn      : Bool := true
  issuers   : List (List Byte) := []
  -- RAS record (spec/16 R426)
  failedCh  : BitVec 24 := 0
  devMarks  : Table Nat := []
  -- audit log
  audit     : List AuditRec := []
  auditSeq  : Nat := 0
  bootCount : Nat := 0
  /-- SEQ of a record lost to power failure while it was written, until the next boot logs the gap -/
  gap       : Option Nat := none
deriving DecidableEq, Repr

/-- Near DRAM die record (R362). -/
structure DieRec where
  lot   : W32 := 0
  wafer : BitVec 5 := 0
  x     : Byte := 0
  y     : Byte := 0
  crc   : W32 := 0
deriving DecidableEq, Repr

structure Fuses where
  /-- the fuse array (R354) and its shadows, and the per-die seed (never read out) with its hidden check -/
  array   : Mem := Boot0.factoryFuses
  shadow  : Mem := Boot0.factoryFuses
  valid   : Bool := true
  seed    : List Byte := []
  seedBad : Bool := false
  integrityFail : Bool := false
  dies    : List DieRec := List.replicate 8 {}
  dieShadow : List DieRec := List.replicate 8 {}
deriving DecidableEq, Repr

/-! ### RAS (spec/16) -/

/-- An entry of the damaged table (R432). -/
structure Damaged where
  ext     : Nat
  block   : Nat
  diverge : Bool
  far     : Bool
  /-- DIVERGENCE_RESOLVE with REWRITE has been given -/
  rewrite : Bool := false
deriving DecidableEq, Repr

/-- Work queued for scrub positions: the rebuild of a unit from its sources in order (R435), a write of a unit (R431
step 5, R442, R445), or a copy of DIVERGENCE_RESOLVE (R441). `got` is what was read, `at_` the position of that read. -/
inductive RasWork where
  | rebuild (loc : Loc) (skip : Nat) (got : Option (List Byte)) (at_ : Option (Bool × Nat × Nat))
  | write (item : WItem) (at_ : Option (Bool × Nat × Nat))
  | copy (ext block : Nat) (low : Bool) (got : Option (List (List Byte × Bool))) (at_ : Option (Bool × Nat × Nat)) (m : Mbx)
deriving DecidableEq, Repr

/-- A correctable-error table entry: LOCATION and HITS (R433). -/
structure CeEntry where
  loc  : W64
  hits : Nat
deriving DecidableEq, Repr

/-- Patrol state of one section or group (R443, R444): next step, steps due, and the mirror reads it still owes. -/
structure Patrol where
  step : Nat := 0
  due  : Nat := 0
  owed : List (Loc × Loc) := []
  /-- the pass of this scrubber has ended -/
  ended : Bool := false
deriving DecidableEq, Repr

structure Ras where
  damaged  : List Damaged := []
  work     : List RasWork := []
  ceNear   : Table Nat := []
  ceFar    : Table Nat := []
  nearUe   : W64 := 0
  farUe    : W64 := 0
  sramCe   : W64 := 0
  parityFixed : W64 := 0
  tabNear  : List CeEntry := []
  tabFar   : List CeEntry := []
  ovfNear  : Nat := 0
  ovfFar   : Nat := 0
  /-- corrections by device in the current far pass; key ((channel*2+sub)*2+rank)*10+device -/
  devCount : Table Nat := []
  /-- channels whose failure has been found and takes effect at the next pick boundary (R436) -/
  failing  : BitVec 24 := 0
  /-- POISONED, DIVERGENT, DEV_MARK, CH_FAIL, PARITY_FIXED, LEASE_TORN in bits 0 to 5 (spec/18 R483) -/
  event    : BitVec 6 := 0
  lastTorn : Option Nat := none
  nearPatrol : Table Patrol := []
  farPatrol  : Table Patrol := []
  nearStart : Nat := 0
  farStart  : Nat := 0
  passBeat : W64 := 0
  passDone : W64 := 0
  farHours : Nat := 24
  nearHours : Nat := 1
  /-- hours of the passes that run (a change applies from the next pass) -/
  farPass  : Nat := 24
  nearPass : Nat := 1
  /-- far units that are not initialised after a loss of far contents (R446): per group the next unit to overwrite -/
  initCursor : Table Nat := []
  /-- clears of extents with a lower order belong to that loss; the patrol scrubbers run (R446) -/
  initOrder : Nat := 0
  patrols   : Bool := false
  clearOrder : Nat := 0
deriving DecidableEq, Repr

/-! ### Far ranks, power, pins, registers -/

structure FarCtl where
  pdEn      : Bool := false
  idlePicks : Nat := 0
  /-- per rank (channel*2+sub)*2+rank: consecutive idle picks, powered down, refresh at the high rate -/
  idle      : Table Nat := []
  down      : List Nat := []
  fastRef   : List Nat := []
  used      : List Nat := []
  mr4Pick   : Nat := 0
  /-- near channels: free-running pick count of refresh (spec/06 R164) -/
  nearCount : Nat := 0
  /-- the row of every bank that each near channel refreshes in this pick (spec/06 R164) -/
  refRow    : Option Nat := none
deriving DecidableEq, Repr

structure Power where
  /-- POWER-ON: 0 not started, 2 held at step 2 for REFCLK, 3 held at step 3 by RESET_N, 4 internal reset held by the
  junction temperature (R461), 7 internal reset released -/
  stage     : Nat := 7
  /-- REFCLK is present; it has failed since the PLLs locked and they hold their last frequency (R501) -/
  refclk    : Bool := true
  pllHeld   : Bool := false
  resetLow  : Bool := false
  perstLow  : Bool := false
  railsGood : Bool := true
  safe      : Bool := false
  safeCause : Nat := 0
  /-- SAFE was detected and its first boundary s is still to come -/
  safeDue   : Bool := false
  braced    : Bool := false
  /-- the pick of the brace; the recovery hold has completed and the next beat boundary ends the brace (R460) -/
  bracePick : Nat := 0
  recoverDue : Bool := false
  standby   : Bool := false
  standbyReq : Bool := false
  resumePick : Nat := 0
  selfRefresh : Bool := false
  thermTrip : Bool := false
  thermHold : Bool := false
  hot       : Bool := false
  inputAlert : Bool := false
  safeN     : Bool := true
  alertN    : Bool := true
  thermtripN : Bool := true
  pwrGood   : Bool := true
  /-- DEV_PWR_CTL: DORMANT and STANDBY (spec/17 R454) -/
  dormant   : BitVec 6 := 0
  standbyBit : Bool := false
deriving DecidableEq, Repr

structure Tel where
  power     : Nat := 0
  windowEnd : Nat := 0
  inputMv   : Nat := 0
  hotSensor : Nat := 0
  temps     : List Int := List.replicate 16 0
  /-- operator resolution (spec/13_isolation_crypto.md R352): windows counted, the sum in milliwatts over the running 100 ms
  window, the values of the last one, the temperature of the last second -/
  count     : Nat := 0
  sum       : Nat := 0
  opPower   : Nat := 0
  opEnd     : Nat := 0
  opTemp    : Int := 0
deriving DecidableEq, Repr

structure Regs where
  /-- DEV_EVENT bits 7 to 1 (bit 0 is the OR of RAS_EVENT) and DEV_EVENT_IE (spec/18 R475) -/
  event    : BitVec 8 := 0
  eventIe  : W32 := 0
  badAccess : Nat := 0
  /-- MSI-X table bytes, pending bits, and the vectors raised since the last boundary (R477) -/
  msixTable : Mem := []
  msixPend : BitVec 10 := 0
  msixOut  : List Nat := []
  /-- upper half latched by a 4 B read of a lower half: register offset and value (R471) -/
  latch    : Option (Nat × W32) := none
  /-- the value the last 4 B read of a lower half returned -/
  readData : Option W32 := none
deriving DecidableEq, Repr

/-- The state of the expander. -/
structure State where
  time    : TimeBase := {}
  tie     : TieUp := {}
  exts    : Table Extent := []
  ctxs    : Table Ctx := []
  leases  : Table Lease := []
  pins    : Table Pin := []
  tier    : Tiering := {}
  /-- stored bytes of the near and the far tier (at `Loc.addr`) -/
  nearMem : Mem := []
  farMem  : Mem := []
  reqs    : Table Req := []
  nextReq : Nat := 0
  ports   : List Port := List.replicate 6 {}
  slots   : List Slot := List.replicate 6 {}
  engines : List (Option Job) := List.replicate 8 none
  loom    : Loom := {}
  umpire  : Umpire := {}
  nor     : Nor := {}
  fuses   : Fuses := {}
  ras     : Ras := {}
  far     : FarCtl := {}
  power   : Power := {}
  tel     : Tel := {}
  regs    : Regs := {}
  /-- arguments of the free values of `Config` used so far (the model's own) -/
  freeCount : Nat := 0
  /-- commands that wait, first in, first out (the model's own) -/
  pending : List Instr := []
deriving DecidableEq, Repr

/-- The mailboxes of the machine, in the order of acceptance (spec/15_mailboxes.md R396). -/
def allMbx : List Mbx :=
  [.operator, .installer, .maker, .service, .port 0, .port 1, .port 2, .port 3, .port 4, .port 5]

/-- The machine right after reset: a PMK-12T-E as shipped, internal reset released, the firmware of bank A started and not
yet ready (spec/17_reset_power.md R449 step 5; log entry 2). -/
def State.reset : State :=
  { nor := { leafId := ecPublic (deviceKey [] "IDENTITY"), leafKa := ecPublic (deviceKey [] "KEY-AGREEMENT") }
    umpire := { mboxes := allMbx.map fun m => (m, {}) }, ras := { initCursor := [(0, 0), (1, 0), (2, 0), (3, 0)] } }

end Sys2Proof.Machine
end

