-- ==== Sys2Proof/Machine/Codec.lean ====
section
/-! DEFINITION. The storage classes: Plain, Twill and Satin forms of a 256 B block (spec/04_compression.md R94 to R111).

Finite source values are handled exactly, as natural numbers that count units of 2^-160: every value, step and error of
R100 to R103 is such a number. -/

namespace Sys2Proof.Machine

/-! ### Source formats (R95) -/

/-- A binary floating-point format: element width in bytes, exponent bits, mantissa bits, bias, and whether it has
infinities. -/
structure Fmt where
  width   : Nat
  expBits : Nat
  mant    : Nat
  bias    : Nat
  hasInf  : Bool
deriving DecidableEq, Repr

def fmtBf16 : Fmt := { width := 2, expBits := 8, mant := 7, bias := 127, hasInf := true }
def fmtFp16 : Fmt := { width := 2, expBits := 5, mant := 10, bias := 15, hasInf := true }
def fmtFp32 : Fmt := { width := 4, expBits := 8, mant := 23, bias := 127, hasInf := true }
/-- OCP E4M3: no infinity; the NaN codes are 0x7F and 0xFF. -/
def fmtE4m3 : Fmt := { width := 1, expBits := 4, mant := 3, bias := 7, hasInf := false }
def fmtE5m2 : Fmt := { width := 1, expBits := 5, mant := 2, bias := 15, hasInf := true }

/-- The format of a source type; RAW has none, and no Twill class accepts it (R94). -/
def SrcType.fmt : SrcType → Fmt
  | .raw | .bf16 => fmtBf16
  | .fp16 => fmtFp16
  | .fp32 => fmtFp32
  | .e4m3 => fmtE4m3
  | .e5m2 => fmtE5m2

def Fmt.signBit (f : Fmt) (b : Nat) : Bool := bit b (f.expBits + f.mant)
def Fmt.expField (f : Fmt) (b : Nat) : Nat := bits b (f.expBits + f.mant - 1) f.mant
def Fmt.mantField (f : Fmt) (b : Nat) : Nat := b % 2 ^ f.mant

/-- Infinity. -/
def Fmt.isInf (f : Fmt) (b : Nat) : Bool :=
  f.hasInf && f.expField b == 2 ^ f.expBits - 1 && f.mantField b == 0

/-- NaN. -/
def Fmt.isNan (f : Fmt) (b : Nat) : Bool :=
  if f.hasInf then f.expField b == 2 ^ f.expBits - 1 && f.mantField b != 0
  else f.expField b == 2 ^ f.expBits - 1 && f.mantField b == 2 ^ f.mant - 1

/-- Finite. -/
def Fmt.isFinite (f : Fmt) (b : Nat) : Bool := !(f.isInf b || f.isNan b)

/-- Magnitude of a finite value in units of 2^-160. -/
def Fmt.units (f : Fmt) (b : Nat) : Nat :=
  let e := f.expField b
  if e = 0 then f.mantField b * 2 ^ (161 - f.bias - f.mant)
  else (2 ^ f.mant + f.mantField b) * 2 ^ (160 + e - f.bias - f.mant)

/-- Quotient rounded to the nearest integer, an even one on a tie. -/
def rne (a b : Nat) : Nat :=
  let q := a / b
  let r := a % b
  if 2 * r < b then q else if 2 * r > b then q + 1 else q + q % 2

/-- Round a magnitude in units of 2^-160 to the format, nearest even; no value that a decoder forms overflows (R106). -/
def Fmt.ofUnits (f : Fmt) (sign : Bool) (u : Nat) : Nat :=
  let fe := Nat.log2 u + f.bias - 160
  let e := max fe 1
  let quantum := 2 ^ (160 + e - f.bias - f.mant)
  let r := rne u quantum
  (e - 1) * 2 ^ f.mant + r + (if sign then 2 ^ (f.expBits + f.mant) else 0)

/-- Elements of a block as bit patterns (R95). -/
def elements (f : Fmt) (block : List Byte) : List Nat :=
  (List.range (256 / f.width)).map fun i => le (slice block (f.width * i) f.width)

/-- The block of elements. -/
def fromElements (f : Fmt) (xs : List Nat) : List Byte := xs.flatMap (toLe f.width)

/-! ### Twill (R96 to R107) -/

/-- Parameters of a tag (R99). -/
structure Twill where
  tag  : Nat
  slot : Nat
  n    : Nat
  sub  : Nat
  c    : Nat
  k    : Nat
  x    : Nat
  v    : Nat
deriving DecidableEq, Repr

/-- The tag and parameters of a Twill class and source type (R98, R99); none for any other pair. -/
def twillOf (cls : Cls) (src : SrcType) : Option Twill :=
  let wide (tag slot c : Nat) : Option Twill :=
    some { tag := tag, slot := slot, n := 128, sub := 16, c := c, k := 4, x := 7, v := 16 }
  let word (tag slot c : Nat) : Option Twill :=
    some { tag := tag, slot := slot, n := 64, sub := 8, c := c, k := 4, x := 6, v := 32 }
  let fp8 (tag : Nat) : Option Twill :=
    some { tag := tag, slot := 1024, n := 256, sub := 32, c := 3, k := 14, x := 8, v := 8 }
  match cls, src with
  | .twill2, .bf16 => wide 1 1024 7
  | .twill4, .bf16 => wide 2 512 3
  | .twill2, .fp16 => wide 3 1024 7
  | .twill4, .fp16 => wide 4 512 3
  | .twill2, .fp32 => word 5 1024 13
  | .twill4, .fp32 => word 6 512 5
  | .twill2, .e4m3 => fp8 7
  | .twill2, .e5m2 => fp8 8
  | _, _ => none

/-- Magnitude width of a code. -/
def Twill.m (t : Twill) : Nat := t.c - 1

/-- Width of an outlier entry. -/
def Twill.w (t : Twill) : Nat := t.x + t.v

/-- Largest fexp, plus 160, of the finite nonzero elements; none if there are none. -/
def topExp (f : Fmt) (xs : List Nat) : Option Nat :=
  xs.foldl (fun best b =>
    if f.isFinite b && f.units b != 0 then
      let e := Nat.log2 (f.units b)
      some (match best with | none => e | some v => max v e)
    else best) none

/-- Block exponent plus 160: at least -127 (R100). -/
def blockExp (f : Fmt) (xs : List Nat) : Nat := max ((topExp f xs).getD 33) 33

/-- Sub-block shift (R100). -/
def subShift (f : Fmt) (eb : Nat) (xs : List Nat) : Nat :=
  match topExp f xs with
  | none => 3
  | some e => min 3 (eb - max e 33)

/-- Step of a sub-block in units of 2^-160 (R100). -/
def twillStep (t : Twill) (eb shift : Nat) : Nat := 2 ^ (eb + 1 - shift - t.m)

/-- Code of an element (R101, R102): sign above magnitude. -/
def twillCode (t : Twill) (f : Fmt) (step b : Nat) : Nat :=
  let top := 2 ^ t.m - 1
  if f.isNan b then 0
  else
    let q := if f.isInf b then top else min (rne (f.units b) step) top
    q + (if f.signBit b then 2 ^ t.m else 0)

/-- Value that a code decodes to, as a bit pattern of the source format (R106). -/
def twillValue (t : Twill) (f : Fmt) (step code : Nat) : Nat :=
  f.ofUnits (bit code t.m) (code % 2 ^ t.m * step)

/-- Quantisation error of an element, none for +∞ (R101, R102). -/
def twillError (t : Twill) (f : Fmt) (step b : Nat) : Option Nat :=
  if f.isFinite b then
    let a := f.units b
    let d := f.units (twillValue t f step (twillCode t f step b))
    some (max a d - min a d)
  else none

/-- Whether an error ranks before another: larger, then lower index (R103). -/
def ranksBefore (a b : Option Nat × Nat) : Bool :=
  match a.1, b.1 with
  | none, none => a.2 < b.2
  | none, some _ => true
  | some _, none => false
  | some x, some y => x > y || (x == y && a.2 < b.2)

/-- Insert into a list kept in an order, after its equals. -/
def insertBy {α : Type} (before : α → α → Bool) (a : α) : List α → List α
  | [] => [a]
  | b :: t => if before a b then a :: b :: t else b :: insertBy before a t

/-- Sort by an order; equals keep their order. -/
def sortBy {α : Type} (before : α → α → Bool) (l : List α) : List α := l.foldl (fun acc a => insertBy before a acc) []

/-- The chosen outliers in ascending index order (R103). -/
def twillOutliers (k : Nat) (errs : List (Option Nat)) : List Nat :=
  let cands := (errs.zip (List.range errs.length)).filter fun e => e.1 != some 0
  sortBy (fun a b => decide (a < b)) (((sortBy ranksBefore cands).take k).map (·.2))

/-- The shifts of the eight sub-blocks. -/
def twillShifts (t : Twill) (f : Fmt) (xs : List Nat) : List Nat :=
  (List.range 8).map fun s => subShift f (blockExp f xs) ((xs.drop (s * t.sub)).take t.sub)

/-- The slot of a block (R96 to R104). -/
def twillEncode (t : Twill) (f : Fmt) (block : List Byte) : List Byte :=
  let xs := elements f block
  let eb := blockExp f xs
  let sh := twillShifts t f xs
  let step := fun i => twillStep t eb (sh.getD (i / t.sub) 0)
  let idx := List.range t.n
  let outs := twillOutliers t.k (idx.map fun i => twillError t f (step i) (xs.getD i 0))
  let header := t.tag + outs.length * 2 ^ 4 + (eb - 33) * 2 ^ 24 +
    (List.range 8).foldl (fun a s => a + sh.getD s 0 * 2 ^ (8 + 2 * s)) 0
  let codes := idx.foldl (fun a i => a + twillCode t f (step i) (xs.getD i 0) * 2 ^ (32 + t.c * i)) 0
  let table := (List.range outs.length).foldl (fun a j =>
    let i := outs.getD j 0
    a + (i * 2 ^ t.v + xs.getD i 0) * 2 ^ (t.slot - t.w * (j + 1))) 0
  toLe (t.slot / 8) (header + codes + table)

/-- Whether a block has more non-finite elements than outlier entries (R104, TWILL_NONFINITE_LOST). -/
def twillLost (t : Twill) (f : Fmt) (block : List Byte) : Bool :=
  ((elements f block).filter fun b => !f.isFinite b).length > t.k

/-- Outlier entry `j` of a slot. -/
def twillEntry (t : Twill) (slot j : Nat) : Nat := bits slot (t.slot - t.w * j - 1) (t.slot - t.w * (j + 1))

/-- A slot is malformed (R107). -/
def twillMalformed (t : Twill) (slot : Nat) : Bool :=
  let used := bits slot 7 4
  let index := fun j => twillEntry t slot j / 2 ^ t.v
  let tableLow := t.slot - t.w * t.k
  let codesTop := 32 + t.c * t.n
  bits slot 3 0 != t.tag || bits slot 31 24 == 0xFF || used > t.k ||
  (List.range used).any (fun j => index j ≥ t.n || (j != 0 && index j ≤ index (j - 1))) ||
  (List.range t.k).any (fun j => j ≥ used && twillEntry t slot j != 0) ||
  (tableLow > codesTop && bits slot (tableLow - 1) codesTop != 0)

/-- The block that a slot decodes to (R106); none for a malformed slot (R107). -/
def twillDecode (t : Twill) (f : Fmt) (bytes : List Byte) : Option (List Byte) :=
  let slot := le bytes
  if twillMalformed t slot then none
  else
    let eb := bits slot 31 24 + 33
    let vals := (List.range t.n).map fun i =>
      let sh := bits slot (9 + 2 * (i / t.sub)) (8 + 2 * (i / t.sub))
      twillValue t f (twillStep t eb sh) (bits slot (32 + t.c * i + t.c - 1) (32 + t.c * i))
    let vals := (List.range (bits slot 7 4)).foldl (fun vs j =>
      let e := twillEntry t slot j
      vs.set (e / 2 ^ t.v) (e % 2 ^ t.v)) vals
    some (fromElements f vals)

/-! ### Satin (R108 to R110) -/

/-- Plane `p` of a block (R108). -/
def satinPlane (block : List Byte) (p : Nat) : List Byte := (List.range 32).map fun j => block.getD (8 * j + p) 0

/-- Kind of a plane: 0 ZERO, 1 CONST, 2 RAW. -/
def planeKind (v : List Byte) : Nat :=
  if v.all (· == v.headD 0) then (if v.headD 0 = 0 then 0 else 1) else 2

/-- Bytes of a plane in the coded form. -/
def planeBytes (v : List Byte) : List Byte :=
  match planeKind v with
  | 0 => []
  | 1 => [v.headD 0]
  | _ => v

/-- The coded form without fill (R109). -/
def satinEncode (block : List Byte) : List Byte :=
  let planes := (List.range 8).map (satinPlane block)
  let map := (List.range 8).foldl (fun a p => a + planeKind (planes.getD p []) * 2 ^ (2 * p)) 0
  toLe 2 map ++ planes.flatMap planeBytes

/-- The block fits budget `q` (R110). -/
def satinFits (q : Nat) (block : List Byte) : Bool := (satinEncode block).length ≤ 64 * q

/-- The planes that follow a plane map, with the bytes left over; none where a code is reserved or bytes are missing. -/
def satinPlanes (map : Nat) : List Nat → List Byte → Option (List (List Byte) × List Byte)
  | [], rest => some ([], rest)
  | p :: ps, rest =>
    let next (v : List Byte) (r : List Byte) := (satinPlanes map ps r).map fun x => (v :: x.1, x.2)
    match bits map (2 * p + 1) (2 * p) with
    | 0 => next (zeros 32) rest
    | 1 => match rest with
      | [] => none
      | b :: r => next (List.replicate 32 b) r
    | 2 => if rest.length < 32 then none else next (rest.take 32) (rest.drop 32)
    | _ => none

/-- The block of a primary slot (R109); none where it is malformed. -/
def satinDecode (slot : List Byte) : Option (List Byte) :=
  match satinPlanes (le (slot.take 2)) (List.range 8) (slot.drop 2) with
  | none => none
  | some (planes, rest) =>
    if rest.all (· == 0) then
      some ((List.range 256).map fun i => (planes.getD (i % 8) []).getD (i / 8) 0)
    else none

/-- Fill with zeros to a length. -/
def padTo (n : Nat) (l : List Byte) : List Byte := l ++ zeros (n - l.length)

/-! ### Stored forms (R94, R111) -/

/-- Bytes of the stored form of a block. -/
def storedSize (cls : Cls) (budget : Nat) : Nat :=
  match cls with
  | .plain => 256
  | .twill2 => 128
  | .twill4 => 64
  | .satin => 64 * budget

/-- Far bursts of a block (R94). -/
def burstsOf (cls : Cls) (budget : Nat) : Nat := storedSize cls budget / 64

/-- Blocks that share a near codeword (R111). -/
def blocksPerWord (cls : Cls) (budget : Nat) : Nat :=
  match burstsOf cls budget with
  | 1 => 4
  | 2 => 2
  | _ => 1

/-- The primary slot of an overflowed Satin block (R113). -/
def satinPointer (budget entry : Nat) : List Byte := padTo (64 * budget) (toLe 4 entry)

/-- Stored form of block contents, before encryption: an overflowed Satin block stores its entry number. -/
def encodeBlock (cls : Cls) (src : SrcType) (budget : Nat) (entry : Option Nat) (block : List Byte) : List Byte :=
  match cls with
  | .plain => block
  | .satin =>
    match entry with
    | some e => satinPointer budget e
    | none => padTo (64 * budget) (satinEncode block)
  | _ =>
    match twillOf cls src with
    | some t => twillEncode t src.fmt block
    | none => block

/-- Block contents of a stored form that is no overflow pointer; none where it is malformed (R107, R109). -/
def decodeBlock (cls : Cls) (src : SrcType) (stored : List Byte) : Option (List Byte) :=
  match cls with
  | .plain => some stored
  | .satin => satinDecode stored
  | _ =>
    match twillOf cls src with
    | some t => twillDecode t src.fmt stored
    | none => some stored

end Sys2Proof.Machine
end

