-- ==== Sys2Proof/Machine/Map.lean ====
section
/-! DEFINITION. Where stored forms lie (spec/06_memory_channels.md R159 to R172, spec/04_compression.md R111). -/

namespace Sys2Proof.Machine

/-- Bitwise exclusive OR of two numbers. -/
def xorN (a b : Nat) : Nat := a ^^^ b

/-! ### Near tier (R159 to R161) -/

/-- Data frames of a section. -/
def framesPerSection : Nat := 253952

/-- Data frames of the near tier. -/
def nearFrames : Nat := 4063232

/-- Section of a data frame (R159). -/
def frameSection (f : Nat) : Nat := f / framesPerSection

/-- Section codeword index of codeword `i` of a data frame (R159). -/
def frameWord (f i : Nat) : Nat := 64 * (f % framesPerSection) + i

/-- Channel of a section codeword index (R160). -/
def nearChannel (w : Nat) : Nat := xorN (bits w 8 0) (bits w 17 9)

/-- Channel-local address (R160). -/
def nearLocal (w : Nat) : Nat := w / 512

/-- Bank of a codeword (R160). -/
def nearBank (w : Nat) : Nat := xorN (bits (nearLocal w) 3 0) (bits (nearLocal w) 14 11)

/-- Row of a codeword (R160). -/
def nearRow (w : Nat) : Nat := nearLocal w / 16

/-- Die index of a channel of a section (R158). -/
def dieIndex (s c : Nat) : Nat := 256 * (s % 4) + c % 256

/-- The die of a channel of a section: L`x`D`k`, as (x, k) (R158). -/
def nearDie (s c : Nat) : Nat × Nat := (bits c 8 8, s / 4)

/-- The row that a near channel refreshes in the pick with a given free-running count; none where the count is no multiple of 8
(R164). -/
def refreshRow (count : Nat) : Option Nat := if count % 8 = 0 then some (count / 8 % 2048) else none

/-- First metadata codeword of a section (R161). -/
def metaWord : Nat := 16252928

/-- Near codeword of a page with its first frame at `slot`: the unit that holds block `b` (R159). -/
def nearLoc (cls : Cls) (budget slot b : Nat) : Loc :=
  let n := b / blocksPerWord cls budget
  let f := slot + n / 64
  .near (frameSection f) (frameWord f (n % 64))

/-- Byte of the near codeword where block `b` starts (R111). -/
def nearOff (cls : Cls) (budget b : Nat) : Nat :=
  let k := blocksPerWord cls budget
  256 / k * (b % k)

/-- Near codewords of a page. -/
def wordsPerPage (cls : Cls) (budget : Nat) : Nat := 256 / blocksPerWord cls budget

/-! ### Far tier (R168 to R172) -/

/-- The groups of a mask, ascending. -/
def groupsOf (m : BitVec 4) : List Nat := (List.range 4).filter fun g => m.toNat.testBit g

/-- Pages of an extent: 32 to the granule. -/
def Extent.pageCount (x : Extent) : Nat := 32 * x.granules

/-- Blocks of an extent. -/
def Extent.blockCount (x : Extent) : Nat := 8192 * x.granules

/-- Far bursts of a block. -/
def Extent.bursts (x : Extent) : Nat := burstsOf x.cls x.budget

/-- Far bursts of a page (R130). -/
def Extent.pageBursts (x : Extent) : Nat := 256 * x.bursts

/-- Overflow entries of an extent (R112); 0 for classes other than Satin. -/
def Extent.ovfCount (x : Extent) : Nat :=
  match x.cls with
  | .satin => ceilDiv (x.blockCount * x.ovfPct) 100
  | _ => 0

/-- Far units that an extent takes in each of its groups (R168). -/
def unitsNeeded (prot : Prot) (n pages pageBursts ovf : Nat) : Nat :=
  match prot with
  | .none => ceilDiv (ceilDiv pages n * pageBursts + ceilDiv ovf n * 4) 3072
  | .mirror => ceilDiv (pages * pageBursts + ovf * 4) 3072
  | .parity => ceilDiv (ceilDiv (pages * pageBursts + ovf * 4) 10) 256

/-- Units of the extent in each of its groups. -/
def Extent.units (x : Extent) : Nat :=
  unitsNeeded x.prot (groupsOf x.groups).length x.pageCount x.pageBursts x.ovfCount

/-- A far burst of an extent's storage: burst `b` of page `p`, or burst `t` of overflow entry `e`. -/
inductive BurstRef where
  | primary (p b : Nat)
  | overflow (e t : Nat)
deriving DecidableEq, Repr

/-- Index of a burst among the data bursts of an extent laid out over `n` groups, and the group's position (R169). -/
def Extent.linear (x : Extent) (n : Nat) : BurstRef → Nat × Nat
  | .primary p b => (p % n, p / n * x.pageBursts + b)
  | .overflow e t => (e % n, ceilDiv x.pageCount n * x.pageBursts + e / n * 4 + t)

/-- Location of a group burst index (R170). -/
def groupLoc (g idx : Nat) : Loc := .far g (idx % 12) (idx / 12)

/-- UNIT_BASE of the extent in a group. -/
def Extent.unitBase (x : Extent) (g : Nat) : Nat := Table.getD x.runs g 0

/-- Number of a PARITY data burst (R171). -/
def Extent.dataIndex (x : Extent) (r : BurstRef) : Nat := (x.linear 1 r).2

/-- Stripe of a PARITY data burst: group, local burst and subchannel (R171). -/
def Extent.stripe (x : Extent) (r : BurstRef) : Nat × Nat × Nat :=
  let g := (groupsOf x.groups).headD 0
  let d := x.dataIndex r
  (g, x.unitBase g * 256 + d / 10, d % 10 % 2)

/-- Position of data position `i` of a stripe on local burst `l`, subchannel `sub` (R171). -/
def stripeData (g l sub i : Nat) : Loc :=
  .far g (2 * (if i < l % 6 then i else i + 1) + sub) l

/-- Parity burst of a stripe (R171). -/
def stripeParity (g l sub : Nat) : Loc := .far g (2 * (l % 6) + sub) l

/-- Location of a burst in copy `copy` (0, or 1 for the higher group of MIRROR) (R169, R171). -/
def Extent.burstLoc (x : Extent) (copy : Nat) (r : BurstRef) : Loc :=
  let gs := groupsOf x.groups
  match x.prot with
  | .none =>
    let (k, i) := x.linear gs.length r
    let g := gs.getD k 0
    groupLoc g (x.unitBase g * 3072 + i)
  | .mirror =>
    let g := gs.getD copy 0
    groupLoc g (x.unitBase g * 3072 + (x.linear 1 r).2)
  | .parity =>
    let (g, l, sub) := x.stripe r
    stripeData g l sub (x.dataIndex r % 10 / 2)

/-- Bursts of block `b` of page `p`. -/
def Extent.blockRefs (x : Extent) (p b : Nat) : List BurstRef :=
  (List.range x.bursts).map fun i => .primary p (x.bursts * b + i)

/-- Bursts of an overflow entry. -/
def entryRefs (e : Nat) : List BurstRef := (List.range 4).map fun t => .overflow e t

/-- Copies that hold every burst. -/
def Extent.copies (x : Extent) : Nat := match x.prot with | .mirror => 2 | _ => 1

/-! ### Units of the DRAM (R167, R170, R172) -/

/-- Channel of a far location. -/
def farChannel (g j : Nat) : Nat := 6 * g + j / 2

/-- Rank of a local burst (R172). -/
def farRank (l : Nat) : Nat := bits l 31 31

/-- Number of a rank among all ranks: channel, subchannel, rank. -/
def rankIndex (g j l : Nat) : Nat := (farChannel g j * 2 + j % 2) * 2 + farRank l

/-- CID, bank group, bank, column and row of a local burst (R172). -/
def farAddress (l : Nat) : Nat × Nat × Nat × Nat × Nat :=
  (xorN (bits l 6 5) (bits l 20 19), xorN (bits l 2 0) (bits l 16 14), xorN (bits l 4 3) (bits l 18 17),
   16 * bits l 13 7, bits l 30 14)

/-- Channel of a unit within its tier's section or group: what R162 counts demand on. -/
def Loc.lane : Loc → Nat
  | .near _ w => nearChannel w
  | .far _ j _ => j

/-- Tier and section or group of a unit. -/
def Loc.home : Loc → Tier × Nat
  | .near s _ => (.near, s)
  | .far g _ _ => (.far, g)

/-- Stored bytes of a unit: codeword or burst with 16 check bytes. -/
def Loc.size : Loc → Nat
  | .near _ _ => 272
  | .far _ _ _ => 80

/-- Data bytes of a unit. -/
def Loc.dataSize : Loc → Nat
  | .near _ _ => 256
  | .far _ _ _ => 64

/-- Address of a unit's first byte in `State.nearMem` or `State.farMem`. -/
def Loc.addr : Loc → Nat
  | .near s w => (s * 2 ^ 24 + w) * 272
  | .far g j l => ((g * 12 + j) * 2 ^ 32 + l) * 80

end Sys2Proof.Machine
end

