-- ==== Sys2Proof/Machine/Ops.lean ====
section
/-! DEFINITION. Named operations on the state: reading and changing one object, what the variant has, events and
interrupts, time stamps, random bytes. -/

namespace Sys2Proof.Machine

/-- The outcome of every event: the next state. -/
abbrev Out := Host.Outcome State Fault Refusal

/-! ### Whole fields -/

def State.setExts (s : State) (x : Table Extent) : State := { s with exts := x }
def State.setCtxs (s : State) (x : Table Ctx) : State := { s with ctxs := x }
def State.setLeases (s : State) (x : Table Lease) : State := { s with leases := x }
def State.setPins (s : State) (x : Table Pin) : State := { s with pins := x }
def State.setReqs (s : State) (x : Table Req) : State := { s with reqs := x }
def State.setNextReq (s : State) (x : Nat) : State := { s with nextReq := x }
def State.setPorts (s : State) (x : List Port) : State := { s with ports := x }
def State.setSlots (s : State) (x : List Slot) : State := { s with slots := x }
def State.setEngines (s : State) (x : List (Option Job)) : State := { s with engines := x }
def State.setFuses (s : State) (x : Fuses) : State := { s with fuses := x }
def State.setFar (s : State) (x : FarCtl) : State := { s with far := x }
def State.setTel (s : State) (x : Tel) : State := { s with tel := x }
def State.setNearMem (s : State) (x : Mem) : State := { s with nearMem := x }
def State.setFarMem (s : State) (x : Mem) : State := { s with farMem := x }
def State.setFreeCount (s : State) (x : Nat) : State := { s with freeCount := x }
def State.setNor (s : State) (x : Nor) : State := { s with nor := x }
def State.setTier (s : State) (x : Tiering) : State := { s with tier := x }
def State.setLoom (s : State) (x : Loom) : State := { s with loom := x }

/-! ### Objects -/

def State.ext? (s : State) (e : Nat) : Option Extent := Table.get? s.exts e

def State.modExt (s : State) (e : Nat) (f : Extent → Extent) : State := { s with exts := Table.modify s.exts e f }

def State.port (s : State) (p : Nat) : Port := s.ports.getD p {}

def State.modPort (s : State) (p : Nat) (f : Port → Port) : State := { s with ports := List.modifyAt s.ports p f }

def State.slot (s : State) (p : Nat) : Slot := s.slots.getD p {}

def State.modSlot (s : State) (p : Nat) (f : Slot → Slot) : State := { s with slots := List.modifyAt s.slots p f }

def State.ctx? (s : State) (c : Nat) : Option Ctx := Table.get? s.ctxs c

def State.modCtx (s : State) (c : Nat) (f : Ctx → Ctx) : State := { s with ctxs := Table.modify s.ctxs c f }

def State.modLease (s : State) (n : Nat) (f : Lease → Lease) : State := { s with leases := Table.modify s.leases n f }

def State.engine (s : State) (e : Nat) : Option Job := s.engines.getD e none

def State.modEngine (s : State) (e : Nat) (f : Option Job → Option Job) : State :=
  { s with engines := List.modifyAt s.engines e f }

/-- Change the job that runs on an engine, if there is one. -/
def State.modJob (s : State) (e : Nat) (f : Job → Job) : State := s.modEngine e fun j => j.map f

/-- Change the descriptor that runs on an engine, if there is one. -/
def State.modCur (s : State) (e : Nat) (f : Cur → Cur) : State := s.modJob e fun j => { j with cur := j.cur.map f }

/-- The mailbox of a name; every name has one. -/
def State.mbox (s : State) (m : Mbx) : Mailbox := ((s.umpire.mboxes.find? fun x => x.1 == m).map (·.2)).getD {}

def State.modMbox (s : State) (m : Mbx) (f : Mailbox → Mailbox) : State :=
  { s with umpire := { s.umpire with
      mboxes := s.umpire.mboxes.map fun x => if x.1 == m then (x.1, f x.2) else x } }

def State.modUmpire (s : State) (f : Umpire → Umpire) : State := { s with umpire := f s.umpire }
def State.modNor (s : State) (f : Nor → Nor) : State := { s with nor := f s.nor }
def State.modRas (s : State) (f : Ras → Ras) : State := { s with ras := f s.ras }
def State.modTier (s : State) (f : Tiering → Tiering) : State := { s with tier := f s.tier }
def State.modTime (s : State) (f : TimeBase → TimeBase) : State := { s with time := f s.time }
def State.modTie (s : State) (f : TieUp → TieUp) : State := { s with tie := f s.tie }
def State.modLoom (s : State) (f : Loom → Loom) : State := { s with loom := f s.loom }
def State.modPower (s : State) (f : Power → Power) : State := { s with power := f s.power }
def State.modRegs (s : State) (f : Regs → Regs) : State := { s with regs := f s.regs }
def State.modReq (s : State) (r : Nat) (f : Req → Req) : State := { s with reqs := Table.modify s.reqs r f }

/-! ### The variant (spec/00_scope.md R2, R4; spec/14_identity_roles.md R357) -/

/-- VARIANT_DIS of the fuse shadows. -/
def State.variantDis (s : State) : Nat := le (s.fuses.shadow.readN 8 2)

def State.hasPort (s : State) (p : Nat) : Bool := p < 6 && !bit s.variantDis p
def State.hasGroup (s : State) (g : Nat) : Bool := g < 4 && !bit s.variantDis (6 + g)
def State.hasLoom (s : State) : Bool := !bit s.variantDis 10
def State.hasCipher (s : State) : Bool := !bit s.variantDis 11

/-- The present ports, ascending. -/
def State.portList (s : State) : List Nat := (List.range 6).filter s.hasPort

/-- The link of a port is up for events: the slot is UP, or in HOLD, where the link stays up (spec/11_port_slots.md R290). -/
def State.isUp (s : State) (p : Nat) : Bool := (s.slot p).st == .up || (s.slot p).st == .hold

/-- Ports that carry frames: link up, or closing (R290). -/
def State.linkUp (s : State) (p : Nat) : Bool := s.isUp p || (s.slot p).st == .draining

/-- Far data bytes of the variant (spec/00_scope.md R2, spec/01_architecture.md R19). -/
def State.farData (s : State) : Nat := ((List.range 4).filter s.hasGroup).length * 3 * 2 ^ 40

/-- STANDBY holds back what commands accepted before it wait for (spec/17_reset_power.md R457); in SAFE they end. -/
def State.standbyHolds (s : State) : Bool := (s.power.standbyBit || s.power.standbyReq) && !s.power.safe

/-! ### Time -/

/-- The beat counter is valid (spec/02_beats_and_tieup.md R30). -/
def State.beatValid (s : State) : Bool :=
  match s.time.sync with
  | .locked | .holdover | .master => true
  | _ => false

/-- Beat number as events, heads and responses give it: 0 while the counter is invalid. -/
def State.beatNow (s : State) : W64 := if s.beatValid then s.time.beat else 0

/-- The instant of the pick in force. -/
def State.stamp (s : State) : Stamp := { beat := s.beatNow, idx := s.time.idx, pick := s.time.pick }

/-- Pick number of the next boundary. -/
def State.nextPick (s : State) : Nat := s.time.pick + 1

/-- Picks since boot. -/
def State.picks (s : State) : Nat := s.time.pick - s.umpire.bootPick

/-- CLK_E cycles of a pick (spec/02_beats_and_tieup.md R29). -/
def pickCycles : Nat := 256

/-! ### Random bytes (spec/13_isolation_crypto.md R330) -/

/-- `n` fresh random bytes. -/
def State.random (s : State) (n : Nat) : List Byte := (List.range n).map fun i => Config.drbgByte (s.umpire.drbg + i)

/-- The random bit generator after `n` bytes. -/
def State.drewRandom (s : State) (n : Nat) : State := s.modUmpire fun u => { u with drbg := u.drbg + n }

/-! ### Interrupts (spec/18_registers.md R476, R477) -/

/-- Byte offset of the vector control word of a vector in the MSI-X table. -/
def msixControl (v : Nat) : Nat := 16 * v + 12

/-- A vector is masked: its mask bit is set (PCIe 5.0; log entry 12). -/
def Regs.masked (r : Regs) (v : Nat) : Bool := bit (r.msixTable.read (msixControl v)).toNat 0

/-- Raise a vector: a masked one sets its pending bit; one that arises while PERST_N is low is lost
(spec/19_package_pins.md R496). -/
def State.raise (s : State) (v : Nat) : State :=
  s.modRegs fun r =>
    if s.power.perstLow then r
    else if r.masked v then { r with msixPend := r.msixPend ||| BitVec.ofNat 10 (2 ^ v) }
    else { r with msixOut := r.msixOut ++ [v] }

/-- DEV_EVENT as read: bit 0 is the OR of the RAS_EVENT bits (R475). -/
def State.devEvent (s : State) : Nat :=
  (s.regs.event.toNat - s.regs.event.toNat % 2) + b2n (s.ras.event != 0)

/-- Set DEV_EVENT bit `i`; a bit that becomes 1 while enabled raises vector 1 once (R476). -/
def State.setEvent (s : State) (i : Nat) : State :=
  if bit s.regs.event.toNat i then s
  else
    let s1 := s.modRegs fun r => { r with event := r.event ||| BitVec.ofNat 8 (2 ^ i) }
    if bit s.regs.eventIe.toNat i then s1.raise 1 else s1

/-- Set RAS_EVENT bit `i` (R483); a rise of the summary bit raises vector 1 once while enabled (R476). -/
def State.setRasEvent (s : State) (i : Nat) : State :=
  let s1 := s.modRas fun r => { r with event := r.event ||| BitVec.ofNat 6 (2 ^ i) }
  if s.ras.event = 0 ∧ bit s.regs.eventIe.toNat 0 then s1.raise 1 else s1

/-! ### Events to hosts (spec/10_host_link.md R284, spec/16_ras.md R434) -/

/-- Whether an event counts against the 256 damage events of a port (R434). -/
def Evt.isDamage (e : Evt) : Bool := e.code == 0x020 || e.code == 0x021

/-- Queue an event on a port that is UP; a damage event that finds 256 queued is dropped and counted. -/
def State.sendEvt (s : State) (p : Nat) (e : Evt) : State :=
  if !s.linkUp p then s
  else
    s.modPort p fun q =>
      if e.isDamage ∧ (q.evts.filter Evt.isDamage).length ≥ 256 then { q with evtDrop := satInc q.evtDrop }
      else { q with evts := q.evts ++ [e] }

/-- Queue an event on each UP port of a mask. -/
def State.sendEvts (s : State) (mask : BitVec 6) (e : Evt) : State :=
  ((List.range 6).filter fun p => mask.toNat.testBit p && s.isUp p).foldl (fun s p => s.sendEvt p e) s

/-- Queue an event on every UP port. -/
def State.sendEvtAll (s : State) (e : Evt) : State := s.sendEvts 0b111111#6 e

/-- A mask names a port. -/
def maskHas (m : BitVec 6) (p : Nat) : Bool := m.toNat.testBit p

/-- Ports of a mask. -/
def maskPorts (m : BitVec 6) : List Nat := (List.range 6).filter (maskHas m)

/-- The mask of one port. -/
def portMask (p : Nat) : BitVec 6 := BitVec.ofNat 6 (2 ^ p)

/-! ### Extents -/

/-- Pool address of a block of an extent. -/
def Extent.blockAddr (x : Extent) (b : Nat) : Nat := x.base + 256 * b

/-- The extent that holds a pool address, with the byte offset in it (spec/03_pool_extents.md R65). -/
def State.extentAt (s : State) (a : Nat) : Option (Nat × Extent × Nat) :=
  (s.exts.find? fun kv => kv.2.base ≤ a && a < kv.2.base + kv.2.granules * 2 ^ 21).map fun kv =>
    (kv.1, kv.2, a - kv.2.base)

/-- The residency entry of a page (spec/05_tiering.md R129). -/
def Extent.page (x : Extent) (p : Nat) : Page := Table.getD x.pages p {}

/-- Change the residency entry of a page. -/
def Extent.setPage (x : Extent) (p : Nat) (v : Page) : Extent := { x with pages := Table.set x.pages p v }

def State.modPage (s : State) (e p : Nat) (f : Page → Page) : State :=
  s.modExt e fun x => x.setPage p (f (x.page p))

def State.page (s : State) (e p : Nat) : Page :=
  match s.ext? e with
  | some x => x.page p
  | none => {}

/-- Near frames of a page (R130). -/
def Extent.frames (x : Extent) : Nat := 4 / blocksPerWord x.cls x.budget

/-- Target section of a page: pool address bits [47:16] modulo 16 (R141). -/
def Extent.targetSection (x : Extent) (p : Nat) : Nat := (x.base / 65536 + p) % 16

/-- Write generation of a page: the events since the grant that named it alone, and those that named every page (R92). -/
def Extent.gen (x : Extent) (p : Nat) : W32 := Table.getD x.gens p 0 + x.genAll

/-- Advance the generation of a page. -/
def Extent.bumpGen (x : Extent) (p : Nat) : Extent := { x with gens := Table.set x.gens p (Table.getD x.gens p 0 + 1) }

/-- The extent shares with a port for requests that arrive in pick `a` (spec/03_pool_extents.md R74, R75, R83). -/
def Extent.shares (x : Extent) (p a : Nat) : Bool :=
  x.st == .granted && !x.ending && x.grantPick ≤ a && maskHas x.share p && Table.getD x.sharePick p 0 ≤ a

end Sys2Proof.Machine
end

