-- ==== Sys2Proof/Machine/Plan.lean ====
section
/-! DEFINITION. The plan in force: owner codes of every position, the rota and the power allowances
(spec/02_beats_and_tieup.md R52 to R61, spec/01_architecture.md R24). -/

namespace Sys2Proof.Machine

/-! ### Owner codes (R54) -/

def ownIdle : Nat := 0x00
def ownPort (p : Nat) : Nat := p + 1
def ownShuttle (e : Nat) : Nat := 8 + e
def ownMigration : Nat := 0x10
def ownScrub : Nat := 0x11
def ownFirmware : Nat := 0x12
def ownLoom : Nat := 0x20
def ownPush : Nat := 0x21

/-- The Loom allowance pool in watts (spec/01_architecture.md R24). -/
def State.loomPool (s : State) : Nat := if s.hasLoom then 480 else 0

/-! ### The factory plan (R61) -/

/-- The owner code of a port that the variant may lack. -/
def State.portCode (s : State) (p : Nat) : Nat := if s.hasPort p then ownPort p else ownIdle

/-- Near position `k` of the factory plan in pattern `n`. -/
def State.factoryNear (s : State) (n k : Nat) : Nat :=
  if k < 6 then s.portCode k
  else if k = 6 then ownShuttle n
  else if k = 7 then ownMigration
  else if k = 8 then ownScrub
  else if k = 31 ∧ n = 0 then ownFirmware
  else if s.hasLoom then ownLoom else ownIdle

/-- Far position `k` of the factory plan. -/
def State.factoryFar (s : State) (k : Nat) : Nat :=
  if k < 60 then s.portCode (k / 10)
  else if k < 76 then ownMigration
  else if k < 84 then ownScrub
  else if k < 92 then ownShuttle (k - 84)
  else if k = 95 then ownFirmware
  else ownIdle

/-- Egress slot `i` of port `p` in the factory plan. -/
def State.factoryEgress (s : State) (p i : Nat) : Nat :=
  if !s.hasPort p then ownIdle
  else if i % 8 = 3 then ownShuttle ((p + i / 8) % 8)
  else if i % 8 ≥ 6 ∧ s.hasLoom then ownPush
  else ownPort p

/-- Ingress slot `i` of port `p` in the factory plan. -/
def State.factoryIngress (s : State) (p i : Nat) : Nat :=
  if !s.hasPort p then ownIdle
  else if i % 8 = 3 then ownShuttle ((p + i / 8) % 8)
  else ownPort p

/-- The factory plan as a plan: what TIEUP_SET with READ returns (R416). -/
def State.factoryPlan (s : State) : Plan :=
  { patterns := 8
    near := (List.range 8).map fun n => (List.range 16).map fun _ => (List.range 32).map (s.factoryNear n)
    far := (List.range 8).map fun _ => (List.range 4).map fun g =>
      (List.range 96).map fun k => if s.hasGroup g then s.factoryFar k else ownIdle
    egress := (List.range 8).map fun _ => (List.range 6).map fun p => (List.range 448).map (s.factoryEgress p)
    ingress := (List.range 8).map fun _ => (List.range 6).map fun p => (List.range 448).map (s.factoryIngress p)
    rota := [if s.hasLoom then 0 else 0xFF]
    allowances := s.loomPool :: List.replicate 63 0 }

/-! ### The plan in force -/

/-- Patterns of the plan in force. -/
def State.patterns (s : State) : Nat := match s.tie.plan with | some p => p.patterns | none => 8

/-- Pattern of the pick in force (R55). -/
def State.pattern (s : State) : Nat := s.time.idx % s.patterns

/-- An entry of an owner vector of the plan: pattern, unit, position. -/
def vecAt (v : List (List (List Nat))) (n u k : Nat) : Nat := ((v.getD n []).getD u []).getD k ownIdle

def State.nearOwner (s : State) (n sec k : Nat) : Nat :=
  match s.tie.plan with
  | some p => vecAt p.near n sec k
  | none => s.factoryNear n k

def State.farOwner (s : State) (n g k : Nat) : Nat :=
  if !s.hasGroup g then ownIdle
  else match s.tie.plan with
    | some p => vecAt p.far n g k
    | none => s.factoryFar k

def State.egressOwner (s : State) (n p i : Nat) : Nat :=
  match s.tie.plan with
  | some pl => vecAt pl.egress n p i
  | none => s.factoryEgress p i

def State.ingressOwner (s : State) (n p i : Nat) : Nat :=
  match s.tie.plan with
  | some pl => vecAt pl.ingress n p i
  | none => s.factoryIngress p i

/-- The owner code of a position in the pick in force. -/
def State.ownerAt (s : State) (q : Position) : Nat :=
  match q.tier with
  | .near => if q.unit < 16 ∧ q.pos < 32 then s.nearOwner s.pattern q.unit q.pos else ownIdle
  | .far => if q.pos < 96 then s.farOwner s.pattern q.unit q.pos else ownIdle

/-- The rota. -/
def State.rota (s : State) : List Nat :=
  match s.tie.plan with
  | some p => p.rota
  | none => [if s.hasLoom then 0 else 0xFF]

/-- Power allowance of a context number, in watts. -/
def State.allowance (s : State) (c : Nat) : Nat :=
  match s.tie.plan with
  | some p => p.allowances.getD c 0
  | none => if c = 0 then s.loomPool else 0

/-- Rota owner of beat `n`; 0xFF while the beat counter is invalid (R57). -/
def State.rotaOwner (s : State) (n : W64) : Nat :=
  if s.beatValid && s.hasLoom then s.rota.getD (n.toNat % s.rota.length) 0xFF else 0xFF

/-! ### Port slots (spec/10_host_link.md R267, R275) -/

/-- Slots of a port at its trained width. -/
def slotCount (width : Nat) : Nat := if width = 16 then 448 else if width = 8 then 224 else 0

/-- A ×8 port has no slots 224 to 447: tie-up codes for them have no effect (R267). -/
def Port.slotExists (q : Port) (i : Nat) : Bool := q.width != 8 || decide (i < 224)

/-- Tail records of a frame. -/
def tailCount (width : Nat) : Nat := if width = 16 then 224 else if width = 8 then 96 else 0

/-- TC of R275. -/
def tailCredit (width : Nat) : Nat := if width = 16 then 192 else if width = 8 then 64 else 0

/-- D: the fewest egress slots that the port owns in any pattern (R275). -/
def State.egressMin (s : State) (p : Nat) : Nat :=
  let per := (List.range s.patterns).map fun n =>
    ((List.range (slotCount (s.port p).width)).filter fun i => s.egressOwner n p i == ownPort p).length
  per.foldl min (slotCount (s.port p).width)

/-- Consumer code of a plan owns some near or far position: what SHUTTLE_RUN asks (spec/12_shuttles.md R306). -/
def State.ownsNear (s : State) (code : Nat) : Bool :=
  (List.range s.patterns).any fun n => (List.range 16).any fun sec =>
    (List.range 32).any fun k => s.nearOwner n sec k == code

def State.ownsFar (s : State) (code : Nat) : Bool :=
  (List.range s.patterns).any fun n => (List.range 4).any fun g =>
    (List.range 96).any fun k => s.farOwner n g k == code

def State.ownsEgress (s : State) (p code : Nat) : Bool :=
  (List.range s.patterns).any fun n => (List.range (slotCount (s.port p).width)).any fun i => s.egressOwner n p i == code

def State.ownsIngress (s : State) (p code : Nat) : Bool :=
  (List.range s.patterns).any fun n => (List.range (slotCount (s.port p).width)).any fun i => s.ingressOwner n p i == code

end Sys2Proof.Machine
end

