-- ==== Sys2Proof/Machine/Flags.lean ====
section
/-! DEFINITION. Status codes, fuse fields, and the flags that the status registers and GET_STATUS compute from the state
(spec/14_identity_roles.md R354 to R367, spec/15_mailboxes.md R405 and R407). -/

namespace Sys2Proof.Machine

/-! ### Mailbox statuses (R405) -/

def mOk : Nat := 0x00
def mBusy : Nat := 0x01
def mDenied : Nat := 0x02
def mBadArg : Nat := 0x03
def mNotPresent : Nat := 0x04
def mNoResource : Nat := 0x05
def mState : Nat := 0x06
def mSigFail : Nat := 0x07
def mAborted : Nat := 0x08
def mTimeout : Nat := 0x09
def mSafe : Nat := 0x0A

/-! ### Fuse fields (R355 to R361) -/

/-- A little-endian field of the fuse shadows. -/
def Fuses.field (f : Fuses) (off n : Nat) : Nat := le (f.shadow.readN off n)

/-- The INSTALLER region is locked: a LOCK fuse is blown (R358). -/
def Fuses.locked (f : Fuses) : Bool := f.field 0xFC 1 % 16 != 0

/-- The INSTALLER region is partial: not locked, and some fuse of it is blown (R361). -/
def Fuses.partialRegion (f : Fuses) : Bool := !f.locked && f.field 0x80 128 != 0

/-- The commissioned state (R367). -/
def State.commissioned (s : State) : Bool := s.fuses.locked

/-- SVN_F: 1 plus the highest blown pair, or 0 (R359). -/
def Fuses.svnF (f : Fuses) : Nat :=
  (List.range 64).foldl (fun acc i => if bits (f.field 0x100 16) (2 * i + 1) (2 * i) != 0 then i + 1 else acc) 0

/-- Debug is disabled (R360). -/
def Fuses.debugDisabled (f : Fuses) : Bool := f.field 0x110 1 % 16 != 0

/-- A quota: 0, or a value above the device limit, means the limit (R358). -/
def Fuses.quota (f : Fuses) (off n limit : Nat) : Nat :=
  let v := f.field off n
  if v = 0 ∨ v > limit then limit else v

def State.qContexts (s : State) : Nat := s.fuses.quota 0xB8 2 64
def State.qExtents (s : State) : Nat := s.fuses.quota 0xBA 2 1024
def State.qLeases (s : State) : Nat := s.fuses.quota 0xBC 2 4096
def State.qPins (s : State) : Nat := s.fuses.quota 0xBE 2 4096
def State.qBound (s : State) : Nat := s.fuses.quota 0xC0 1 64

/-- Legal VARIANT_DIS values (R357). -/
def variantLegal (v : Nat) : Bool := v == 0x0000 || v == 0x0400 || v == 0x0730 || v == 0x0800

/-- A fuse integrity failure (R361). -/
def Fuses.integrityBad (f : Fuses) : Bool :=
  crc32 (f.shadow.readN 0 64) != f.field 0x7C 4 || !variantLegal (f.field 8 2) || f.seedBad ||
    (f.locked && crc32 (f.shadow.readN 0x80 120) != f.field 0xF8 4)

/-! ### Status flags (R407) -/

/-- The thirteen flags of GET_STATUS and DEV_STATUS. -/
def State.statusFlags (s : State) : Nat :=
  let f := fun (i : Nat) (b : Bool) => b2n b * 2 ^ i
  f 0 s.power.safe + f 1 s.power.braced + f 2 s.umpire.entropyFail + f 3 s.umpire.auditFail +
    f 4 s.fuses.partialRegion + f 5 s.umpire.keyBad + f 6 s.umpire.idBad + f 7 s.umpire.updateStaged +
    f 8 s.umpire.trialRunning + f 9 s.umpire.debugUnlocked + f 10 s.fuses.debugDisabled + f 11 s.commissioned +
    f 12 s.power.standby

/-- SYNC_STATE code (R407). -/
def Sync.code : Sync → Nat
  | .free => 0
  | .acquiring => 1
  | .locked => 2
  | .holdover => 3
  | .master => 4

/-- Width code of CAP_PORT and SLOT_STS: 0 down, 1 for ×8, 2 for ×16 (spec/18_registers.md R474). -/
def widthCode (w : Nat) : Nat := if w = 8 then 1 else if w = 16 then 2 else 0

/-- SAFE_CAUSE as read: 0 outside SAFE. -/
def State.safeCauseNow (s : State) : Nat := if s.power.safe then s.power.safeCause else 0

/-- Slot state code (spec/11_port_slots.md R290). -/
def SlotSt.code : SlotSt → Nat
  | .empty => 0
  | .off => 1
  | .powering => 2
  | .training => 3
  | .up => 4
  | .hold => 5
  | .draining => 6
  | .fault => 7
  | .dormant => 8

end Sys2Proof.Machine
end

