-- ==== Sys2Proof/Machine/Operands.lean ====
section
/-! DEFINITION. The operands of mailbox commands: the image, its header, its fields, and the table of commands
(spec/15_mailboxes.md R391 to R406, spec/14_identity_roles.md R363 to R365). -/

namespace Sys2Proof.Machine

/-! ### The image -/

/-- A management mailbox; only these carry signatures and bulk windows. -/
def isManaged : Mbx → Bool
  | .port _ => false
  | _ => true

/-- The image of a mailbox is served: the firmware is ready, or the boot ROM serves SERVICE (R399, spec/14 R384); an absent
port has no mailbox (spec/00_scope.md R4). -/
def State.served (s : State) (m : Mbx) : Bool :=
  match m with
  | .port p => s.umpire.ready && s.hasPort p
  | _ => s.umpire.ready || (s.umpire.romService && m == .service)

/-- MBX_CTL as read (R392); while the firmware is not ready only OWNER reads, as 1 (R399). -/
def State.mbxCtl (s : State) (m : Mbx) : Nat :=
  let b := s.mbox m
  if s.served m then b2n b.ie * 2 ^ 7 + b2n b.owner else 1

/-- MBX_STS as read (R393). -/
def State.mbxSts (s : State) (m : Mbx) : Nat :=
  let b := s.mbox m
  if s.served m then b.last * 2 ^ 16 + b2n b.accepted * 2 + b2n b.done else 0

/-- A byte of the image (R391). -/
def State.imageByte (s : State) (m : Mbx) (off : Nat) : Byte :=
  if off < 4 then (toLe 4 (s.mbxCtl m)).getD off 0
  else if off < 8 then (toLe 4 (s.mbxSts m)).getD (off - 4) 0
  else if !s.served m then 0
  else if 0x20 ≤ off ∧ off < 0x40 then (if isManaged m then (s.mbox m).challenge.getD (off - 0x20) 0 else 0)
  else if off < 0x100 then 0
  else (s.mbox m).image.read off

/-- Bytes of the image. -/
def State.imageBytes (s : State) (m : Mbx) (off n : Nat) : List Byte :=
  (List.range n).map fun i => s.imageByte m (off + i)

/-- Submit the command of a mailbox whose OWNER is 0 (R392, R395). -/
def State.submit (s : State) (m : Mbx) : State :=
  if (s.mbox m).owner then s
  else (s.modMbox m fun b => { b with owner := true, done := false }).modUmpire
    fun u => { u with queue := u.queue ++ [m] }

/-- A write of MBX_CTL: IE is stored; OWNER = 1 submits (R392). Ignored before the firmware is ready (R399). -/
def State.writeCtl (s : State) (m : Mbx) (v : Nat) : State :=
  if !s.served m then s
  else
    let s1 := s.modMbox m fun b => { b with ie := bit v 7 }
    if bit v 0 then s1.submit m else s1

/-- A write of bytes of the image at an offset: the request area takes them while OWNER is 0; MBX_CTL last (R391). -/
def State.writeImage (s : State) (m : Mbx) (off : Nat) (data : List Byte) : State :=
  if !s.served m then s
  else
    let s1 :=
      if (s.mbox m).owner then s
      else s.modMbox m fun b => { b with
        image := (List.range data.length).foldl (fun im i =>
          if 0x100 ≤ off + i ∧ off + i < 0x800 then im.write (off + i) (data.getD i 0) else im) b.image }
    if off = 0 ∧ data.length ≥ 1 then s1.writeCtl m (data.getD 0 0).toNat else s1

/-! ### Header and fields (R400, R401) -/

def State.opcode (s : State) (m : Mbx) : Nat := le ((s.mbox m).image.readN 0x100 2)
def State.flags (s : State) (m : Mbx) : Nat := le ((s.mbox m).image.readN 0x102 2)
def State.seqOf (s : State) (m : Mbx) : Nat := le ((s.mbox m).image.readN 0x104 4)
def State.lengthOf (s : State) (m : Mbx) : Nat := le ((s.mbox m).image.readN 0x108 4)
def State.keyId (s : State) (m : Mbx) : Nat := le ((s.mbox m).image.readN 0x10C 1)

/-- The 32-byte header. -/
def State.header (s : State) (m : Mbx) : List Byte := (s.mbox m).image.readN 0x100 32

/-- The LENGTH bytes of the request. -/
def State.request (s : State) (m : Mbx) : List Byte := (s.mbox m).image.readN 0x120 (min (s.lengthOf m) 1696)

/-- The signature that follows the request (R369). -/
def State.signature (s : State) (m : Mbx) : List Byte := (s.mbox m).image.readN (0x120 + min (s.lengthOf m) 1696) 64

/-- A request field: `n` bytes at Rq offset `off`, little-endian. -/
def State.rq (s : State) (m : Mbx) (off n : Nat) : Nat := le ((s.mbox m).image.readN (0x120 + off) n)

/-- Request bytes as they stand. -/
def State.rqBytes (s : State) (m : Mbx) (off n : Nat) : List Byte := (s.mbox m).image.readN (0x120 + off) n

/-- A command flag. -/
def State.flag (s : State) (m : Mbx) (i : Nat) : Bool := bit (s.flags m) i

/-! ### Roles (R363 to R365) -/

/-- Role codes: 0 operator, 1 installer, 2 maker (R407). -/
inductive Role where
  | operator | installer | maker
deriving DecidableEq, Repr

/-- The role in which a mailbox acts, given the KEY_ID of the command for SERVICE (R363). -/
def roleOf (m : Mbx) (keyId : Nat) : Option Role :=
  match m with
  | .operator | .port _ => some .operator
  | .installer => some .installer
  | .maker => some .maker
  | .service => if keyId = 1 then some .installer else if keyId = 2 then some .maker else none

/-- Letter of a mailbox and role in the tables of R364 and R365: 0 O, 1 P, 2 I, 3 M. -/
def letterOf (m : Mbx) (keyId : Nat) : Option Nat :=
  match m with
  | .operator => some 0
  | .port _ => some 1
  | _ => match roleOf m keyId with
    | some .installer => some 2
    | some .maker => some 3
    | _ => none

/-- A command of R406: opcode, index in RIGHTS, eligible letters (O 1, P 2, I 4, M 8). -/
structure CmdInfo where
  op    : Nat
  idx   : Nat
  elig  : Nat
deriving DecidableEq, Repr

/-- The commands: discovery, contexts, extents, apertures (R364, R406). -/
def cmdTableA : List CmdInfo :=
  [⟨0x0001, 0, 15⟩, ⟨0x0002, 1, 15⟩, ⟨0x0010, 2, 1⟩, ⟨0x0011, 3, 1⟩, ⟨0x0020, 4, 4⟩, ⟨0x0021, 5, 1⟩, ⟨0x0022, 6, 5⟩,
   ⟨0x0023, 7, 3⟩, ⟨0x0024, 8, 3⟩, ⟨0x0025, 9, 7⟩, ⟨0x0030, 10, 5⟩, ⟨0x0031, 11, 5⟩]

/-- Leases, pins, policy, drafts, plan, time base. -/
def cmdTableB : List CmdInfo :=
  [⟨0x0040, 12, 3⟩, ⟨0x0041, 13, 3⟩, ⟨0x0042, 14, 3⟩, ⟨0x0050, 15, 3⟩, ⟨0x0051, 16, 3⟩, ⟨0x0052, 17, 7⟩,
   ⟨0x0060, 18, 3⟩, ⟨0x0061, 19, 3⟩, ⟨0x0062, 20, 3⟩, ⟨0x0063, 21, 3⟩, ⟨0x0070, 22, 4⟩, ⟨0x0071, 23, 4⟩]

/-- Shuttles, bolts, security, RAS, firmware, slots. -/
def cmdTableC : List CmdInfo :=
  [⟨0x0080, 24, 3⟩, ⟨0x0081, 25, 3⟩, ⟨0x0090, 26, 3⟩, ⟨0x0091, 27, 4⟩, ⟨0x00A0, 28, 15⟩, ⟨0x00A1, 29, 2⟩,
   ⟨0x00B0, 30, 13⟩, ⟨0x00B1, 31, 12⟩, ⟨0x00B2, 32, 4⟩, ⟨0x00B3, 33, 4⟩, ⟨0x00C0, 34, 12⟩, ⟨0x00C1, 35, 12⟩,
   ⟨0x00D0, 36, 12⟩, ⟨0x00D1, 37, 12⟩, ⟨0x00E0, 38, 5⟩, ⟨0x00F0, 39, 15⟩, ⟨0x0100, 40, 8⟩]

/-- A command by its opcode. -/
def cmdInfo (op : Nat) : Option CmdInfo := (cmdTableA ++ cmdTableB ++ cmdTableC).find? fun c => c.op == op

/-- The length that a command's layout gives for its FLAGS and count fields (R401, R406). -/
def State.layoutLength (s : State) (m : Mbx) : Nat :=
  match s.opcode m with
  | 0x0010 | 0x0061 | 0x0080 | 0x00B2 | 0x00D1 => 16
  | 0x0020 | 0x0040 | 0x0050 | 0x0060 | 0x0071 | 0x0090 => 24
  | 0x0025 => if s.flag m 0 then 24 else 8
  | 0x0030 => 8 + 24 * s.rq m 1 1
  | 0x0052 => if s.flags m % 4 != 0 then 8 else 16
  | 0x0070 => 48
  | 0x0091 => 72
  | 0x00A0 => 8 + ceilDiv (s.rq m 0 4) 8 * 8
  | 0x00A1 => match s.rq m 0 1 with
    | 0 => 104
    | 1 => 24
    | 2 => 16
    | _ => 8
  | 0x00C0 => 40
  | 0x00D0 => match s.rq m 0 1 with
    | 0 => 200
    | 1 => 72
    | _ => 8
  | 0x0001 | 0x0002 | 0x0100 => 0
  | _ => 8

/-- The header is well formed (R401). -/
def State.wellFormed (s : State) (m : Mbx) : Bool :=
  (cmdInfo (s.opcode m)).isSome && s.lengthOf m % 8 == 0 && s.lengthOf m ≤ 1696 && s.lengthOf m == s.layoutLength m

/-- Commands of the SERVICE list of R363. -/
def serviceList (op : Nat) : Bool :=
  [0x0001, 0x0002, 0x00A0, 0x00B0, 0x00B1, 0x00D1, 0x00F0, 0x00C0, 0x00C1].contains op

/-- GET_CAPS, GET_STATUS and SPDM_MSG. -/
def openCmd (op : Nat) : Bool := op == 0x0001 || op == 0x0002 || op == 0x00A0

end Sys2Proof.Machine
end

