-- ==== Sys2Proof/Machine/Rs.lean ====
section
/-! DEFINITION. The near and the far check codes and the poison marks (spec/16_ras.md R423 to R429).

Symbols are numbers below 256, elements of GF(2^8) with the polynomial 0x11D and α = 2.  A stored near codeword is 272
bytes (256 data, 16 check) and a stored far burst 80 bytes (64 data, 16 check: check byte 2b + c is the symbol of device
8 + c in codeword b; log entry 10). -/

namespace Sys2Proof.Machine

/-! ### The field -/

/-- Multiply by α. -/
def gfDouble (a : Nat) : Nat := if a < 128 then 2 * a else (2 * a) ^^^ 0x11D

/-- The product of two symbols, bit `n - 1` of the second first. -/
def gfMulFrom : Nat → Nat → Nat → Nat → Nat
  | 0, _, _, acc => acc
  | n + 1, a, b, acc => gfMulFrom n a b (gfDouble acc ^^^ (if bit b n then a else 0))

/-- The product of two symbols. -/
def gfMul (a b : Nat) : Nat := gfMulFrom 8 a b 0

/-- A power of a symbol. -/
def gfPow (a : Nat) : Nat → Nat
  | 0 => 1
  | n + 1 => gfMul a (gfPow a n)

/-- The inverse of a nonzero symbol: its power 254. -/
def gfInv (a : Nat) : Nat := gfPow a 254

/-- The exclusive OR of a list of symbols. -/
def gfSum (l : List Nat) : Nat := l.foldl (· ^^^ ·) 0

/-- The value at `x` of a polynomial, highest coefficient first. -/
def gfEval (p : List Nat) (x : Nat) : Nat := p.foldl (fun acc c => gfMul acc x ^^^ c) 0

/-- Coefficient-wise sum of a polynomial (lowest first) and another. -/
def gfAdd (p q : List Nat) : List Nat :=
  (List.range (max p.length q.length)).map fun i => p.getD i 0 ^^^ q.getD i 0

/-- One step of the division by a monic polynomial, whose lower coefficients are given highest first. -/
def rsShift (g state : List Nat) (m : Nat) : List Nat :=
  let fb := m ^^^ state.headD 0
  (List.range g.length).map fun i => state.getD (i + 1) 0 ^^^ gfMul fb (g.getD i 0)

/-- The check symbols of a message: the remainder of its polynomial times x^deg by the generator, highest first. -/
def rsRemainder (g msg : List Nat) : List Nat := msg.foldl (rsShift g) (List.replicate g.length 0)

/-- The lower coefficients, highest first, of the product of (x - α^k) for k below `n`. -/
def rsGenerator : Nat → List Nat
  | 0 => []
  | n + 1 =>
    let g := 1 :: rsGenerator n
    let r := gfPow 2 n
    (List.range (n + 1)).map fun i => g.getD (i + 1) 0 ^^^ gfMul r (g.getD i 0)

/-- Generator of the near code (R423), lower coefficients. -/
def nearGenerator : List Nat := rsGenerator 8

/-- Generator of the far code (R424), lower coefficients. -/
def farGenerator : List Nat := rsGenerator 2

/-! ### Near codewords (R423, R429) -/

/-- Message symbols of interleave `i` of a codeword. -/
def nearMessage (data : List Byte) (i : Nat) : List Nat :=
  (List.range 128).map fun j => (data.getD (2 * j + i) 0).toNat

/-- The mark byte of a near codeword with mark value `m`. -/
def nearMarkByte (m : Nat) : Nat := m ||| (m <<< 4)

/-- The 16 check bytes of a near codeword with mark value `m`. -/
def nearCheck (data : List Byte) (m : Nat) : List Byte :=
  let c := rsRemainder nearGenerator (nearMessage data 0) ++ rsRemainder nearGenerator (nearMessage data 1)
  c.map fun r => BitVec.ofNat 8 (r ^^^ nearMarkByte m)

/-- What a decoder finds in a stored unit: data, mark value, corrected symbols, and the devices it corrected (far). -/
structure Decoded where
  data  : List Byte
  mark  : Nat
  fixed : Nat
  devs  : List Nat := []
deriving DecidableEq, Repr

/-- State of the shift-register synthesis of an error locator from syndromes. -/
structure LocatorRun where
  loc  : List Nat := [1]
  prev : List Nat := [1]
  len  : Nat := 0
  gap  : Nat := 1
  disc : Nat := 1

/-- One syndrome of the synthesis. -/
def locatorStep (syn : List Nat) (r : LocatorRun) (n : Nat) : LocatorRun :=
  let d := gfSum ((List.range (r.len + 1)).map fun i =>
    if i ≤ n then gfMul (r.loc.getD i 0) (syn.getD (n - i) 0) else 0)
  if d = 0 then { r with gap := r.gap + 1 }
  else
    let q := gfMul d (gfInv r.disc)
    let next := gfAdd r.loc (List.replicate r.gap 0 ++ r.prev.map (gfMul q))
    if 2 * r.len ≤ n then { loc := next, prev := r.loc, len := n + 1 - r.len, gap := 1, disc := d }
    else { r with loc := next, gap := r.gap + 1 }

/-- The shortest error locator of eight syndromes. -/
def locator (syn : List Nat) : LocatorRun := (List.range 8).foldl (locatorStep syn) {}

/-- The errors of at most four symbols that have these eight syndromes: (power of x, value); none if there are none.
The answer is checked against the syndromes, so it is the one error within the code's distance (R423). -/
def rsErrors (syn : List Nat) : Option (List (Nat × Nat)) :=
  if syn.all (· == 0) then some []
  else
    let r := locator syn
    let roots := (List.range 136).filter fun p => gfEval r.loc.reverse (gfInv (gfPow 2 p)) == 0
    if r.len > 4 ∨ roots.length ≠ r.len then none
    else
      let omega := (List.range 8).map fun k =>
        gfSum ((List.range (k + 1)).map fun i => gfMul (r.loc.getD i 0) (syn.getD (k - i) 0))
      let deriv := (List.range 4).map fun i => if i % 2 = 0 then r.loc.getD (i + 1) 0 else 0
      let errs := roots.map fun p =>
        let x := gfPow 2 p
        let xi := gfInv x
        (p, gfMul x (gfMul (gfEval omega.reverse xi) (gfInv (gfEval deriv.reverse xi))))
      let ok := (List.range 8).all fun k =>
        gfSum (errs.map fun e => gfMul e.2 (gfPow (gfPow 2 k) e.1)) == syn.getD k 0
      if ok && errs.all (fun e => e.2 != 0) then some errs else none

/-- Syndromes of interleave `i` of a stored codeword without a mark. -/
def nearSyndromes (stored : List Byte) (i : Nat) : List Nat :=
  let c := nearMessage stored i ++ (List.range 8).map fun k => (stored.getD (256 + 8 * i + k) 0).toNat
  (List.range 8).map fun k => gfEval c (gfPow 2 k)

/-- What a mark byte on all eight check symbols adds to syndrome `k`. -/
def markSyndrome (m k : Nat) : Nat := gfMul m (gfEval (List.replicate 8 1) (gfPow 2 k))

/-- Correct the symbols of interleave `i`. -/
def nearRepair (data : List Byte) (i : Nat) (errs : List (Nat × Nat)) : List Byte :=
  errs.foldl (fun d e => if e.1 < 8 then d
    else List.modifyAt d (2 * (135 - e.1) + i) (· ^^^ BitVec.ofNat 8 e.2)) data

/-- The candidate of mark value `m` (R429 step 2). -/
def nearCandidate (stored : List Byte) (s0 s1 : List Nat) (m : Nat) : Option Decoded :=
  let mb := nearMarkByte m
  let un := fun (s : List Nat) => (List.range 8).map fun k => s.getD k 0 ^^^ markSyndrome mb k
  match rsErrors (un s0), rsErrors (un s1) with
  | some e0, some e1 =>
    some { data := nearRepair (nearRepair (stored.take 256) 0 e0) 1 e1, mark := m, fixed := e0.length + e1.length }
  | _, _ => none

/-- The better of two candidates: fewer corrected symbols, the earlier one on a tie (R429 step 3). -/
def betterOf (a b : Option Decoded) : Option Decoded :=
  match a, b with
  | some x, some y => if y.fixed < x.fixed then some y else some x
  | some x, none => some x
  | none, y => y

/-- Decode a stored near codeword (R429); none: uncorrectable. -/
def nearDecode (stored : List Byte) : Option Decoded :=
  let s0 := nearSyndromes stored 0
  let s1 := nearSyndromes stored 1
  (List.range 16).foldl (fun best m => betterOf best (nearCandidate stored s0 s1 m)) none

/-! ### Far bursts (R424, R425, R429) -/

/-- Nibble of device `v` in beat `t` of a burst (R424). -/
def burstNibble (data : List Byte) (t v : Nat) : Nat :=
  bits (data.getD (4 * t + v / 2) 0).toNat (4 * (v % 2) + 3) (4 * (v % 2))

/-- Symbol of data device `v` in codeword `b`. -/
def burstSymbol (data : List Byte) (b v : Nat) : Nat :=
  burstNibble data (2 * b) v + 16 * burstNibble data (2 * b + 1) v

/-- The ten symbols of codeword `b` of a stored burst, device 0 first; the check symbols are given. -/
def burstWord (stored : List Byte) (b : Nat) : List Nat :=
  (List.range 8).map (burstSymbol stored b) ++
    [(stored.getD (64 + 2 * b) 0).toNat, (stored.getD (65 + 2 * b) 0).toNat]

/-- The mark byte of a far burst. -/
def farMarkByte (m : Nat) : Nat := if m = 0 then 0 else 0xFF

/-- The 16 check bytes of a far burst with mark `m` (0 or 1). -/
def farCheck (data : List Byte) (m : Nat) : List Byte :=
  (List.range 16).map fun i =>
    let r := rsRemainder farGenerator ((List.range 8).map (burstSymbol data (i / 2)))
    BitVec.ofNat 8 (r.getD (i % 2) 0 ^^^ farMarkByte m)

/-- XOR a value into the symbol of device `v` of codeword `b`; check symbols of a decoded burst are not kept. -/
def burstFix (data : List Byte) (b v e : Nat) : List Byte :=
  if v ≥ 8 then data
  else
    let sh := fun (n : Nat) => BitVec.ofNat 8 (n <<< (4 * (v % 2)))
    List.modifyAt (List.modifyAt data (8 * b + v / 2) (· ^^^ sh (e % 16))) (8 * b + 4 + v / 2) (· ^^^ sh (e / 16))

/-- Error of codeword `b` under a candidate mark: the corrections (device, value), or none. -/
def burstErrors (word : List Nat) (markByte : Nat) (erased : Option Nat) : Option (List (Nat × Nat)) :=
  let w := (List.range 10).map fun v => word.getD v 0 ^^^ (if v ≥ 8 then markByte else 0)
  let s0 := gfEval w 1
  let s1 := gfEval w 2
  match erased with
  | some v => if gfMul s0 (gfPow 2 (9 - v)) = s1 then some (if s0 = 0 then [] else [(v, s0)]) else none
  | none =>
    if s0 = 0 ∧ s1 = 0 then some []
    else if s0 = 0 then none
    else match (List.range 10).find? fun v => gfMul s0 (gfPow 2 (9 - v)) = s1 with
      | some v => some [(v, s0)]
      | none => none

/-- The candidate of mark `m`: every nonzero codeword must locate the same device (R425). -/
def farCandidate (stored : List Byte) (erased : Option Nat) (m : Nat) : Option Decoded :=
  let found := (List.range 8).map fun b => burstErrors (burstWord stored b) (farMarkByte m) erased
  if found.any (·.isNone) then none
  else
    let fixes := (List.range 8).flatMap fun b =>
      ((found.getD b none).getD []).map fun f => (b, f.1, f.2)
    match fixes with
    | [] => some { data := stored.take 64, mark := m, fixed := 0 }
    | (_, v, _) :: _ =>
      if fixes.all fun f => f.2.1 == v then
        some { data := fixes.foldl (fun d f => burstFix d f.1 f.2.1 f.2.2) (stored.take 64), mark := m
               fixed := fixes.length, devs := [v] }
      else none

/-- Decode a stored far burst (R429), with the marked device of its rank, if any, as an erasure (R426). -/
def farDecode (stored : List Byte) (erased : Option Nat) : Option Decoded :=
  betterOf (farCandidate stored erased 0) (farCandidate stored erased 1)

end Sys2Proof.Machine
end

