-- ==== Sys2Proof/Machine/Units.lean ====
section
/-! DEFINITION. Stored units: reading and writing a near codeword or a far burst, what each unit holds, corrected errors,
and damage (spec/16_ras.md R423 to R436). -/

namespace Sys2Proof.Machine

/-! ### Raw bytes of a unit -/

/-- Stored bytes of a unit, check bytes included. -/
def State.stored (s : State) (l : Loc) : List Byte :=
  match l with
  | .near _ _ => s.nearMem.readN l.addr l.size
  | .far _ _ _ => s.farMem.readN l.addr l.size

/-- Replace the stored bytes of a unit. -/
def State.setStored (s : State) (l : Loc) (b : List Byte) : State :=
  match l with
  | .near _ _ => (s.setNearMem (s.nearMem.writeN l.addr (b.take l.size)))
  | .far _ _ _ => (s.setFarMem (s.farMem.writeN l.addr (b.take l.size)))

/-- A far channel has failed (R436). -/
def State.chFailed (s : State) (c : Nat) : Bool := s.nor.failedCh.toNat.testBit c

/-- A unit lies on a failed channel. -/
def State.locFailed (s : State) (l : Loc) : Bool :=
  match l with
  | .near _ _ => false
  | .far g j _ => s.chFailed (farChannel g j)

/-- The marked device of the rank of a far burst (R426). -/
def State.devMark (s : State) (l : Loc) : Option Nat :=
  match l with
  | .near _ _ => none
  | .far g j k => Table.get? s.nor.devMarks (rankIndex g j k)

/-- A unit lies on a channel that has failed, or whose failure takes effect at the next pick boundary: it reads as
uncorrectable and loses its writes (R436). -/
def State.locDead (s : State) (l : Loc) : Bool :=
  s.locFailed l || match l with
    | .near _ _ => false
    | .far g j _ => s.ras.failing.toNat.testBit (farChannel g j)

/-- Decode stored bytes of a unit; none: uncorrectable. -/
def State.decodeUnit (s : State) (l : Loc) (b : List Byte) : Option Decoded :=
  match l with
  | .near _ _ => nearDecode b
  | .far _ _ _ => if s.locDead l then none else farDecode b (s.devMark l)

/-- What a read of a unit delivers now. -/
def State.readUnit (s : State) (l : Loc) : Option Decoded := s.decodeUnit l (s.stored l)

/-- Stored bytes of unit data with a mark value. -/
def unitBytes (l : Loc) (data : List Byte) (mark : Nat) : List Byte :=
  match l with
  | .near _ _ => data ++ nearCheck data mark
  | .far _ _ _ => data ++ farCheck data mark

/-- Write a unit whole, with its mark; a failed channel loses the write (R436). -/
def State.writeUnit (s : State) (l : Loc) (data : List Byte) (mark : Nat) : State :=
  if s.locDead l then s else s.setStored l (unitBytes l data mark)

/-- Marks of a mark value, one for each 64 B quarter of the unit. -/
def markBits (l : Loc) (mark : Nat) : List Bool := (List.range (l.dataSize / 64)).map fun j => bit mark j

/-- The mark value of quarter marks. -/
def markValue (m : List Bool) : Nat := (List.range m.length).foldl (fun a j => a + b2n (m.getD j false) * 2 ^ j) 0

/-- Position order of accesses: pick, then position. -/
def before (a b : Nat × Nat) : Bool := a.1 < b.1 || (a.1 == b.1 && a.2 < b.2)

/-- Reads of the Loom at earlier positions keep what the unit held before a later write (R163, R253). A request's read has
taken its bytes when it issued, and positions are passed in order. -/
def State.snapReads (s : State) (l : Loc) (at_ : Nat × Nat) : State :=
  s.setLoom { s.loom with accs := s.loom.accs.map fun a =>
    if a.loc == l && !a.write && a.snap.isNone && before (s.time.pick, a.pos) at_ then { a with snap := some (s.stored l) }
    else a }

/-- New data and mark of a unit under a write item: bytes replaced, or XORed for a parity burst (R438). -/
def applyItem (old : List Byte) (oldMark : List Bool) (i : WItem) : List Byte × List Bool :=
  if i.xor then (patch old i.off (xorBytes i.bytes (old.drop i.off)), oldMark)
  else
    (patch old i.off i.bytes,
     (List.range oldMark.length).map fun j =>
       if i.off ≤ 64 * j ∧ 64 * j + 64 ≤ i.off + i.bytes.length then i.mark.getD (j - i.off / 64) false
       else oldMark.getD j false)

/-- Write an item at its position: the rest of the unit keeps its bytes and marks. Positions are passed in order, so the unit
then holds what every later position finds (R163, R173); what the write changes besides becomes true when it commits. -/
def State.commitItem (s : State) (i : WItem) (at_ : Nat × Nat) : State :=
  let s1 := s.snapReads i.loc at_
  let (data, marks) := match s1.readUnit i.loc with
    | some d => applyItem d.data (markBits i.loc d.mark) i
    | none => applyItem ((s1.stored i.loc).take i.loc.dataSize) (markBits i.loc 0) i
  s1.writeUnit i.loc data (markValue marks)

/-- Commit items in order. -/
def State.commitItems (s : State) (is : List WItem) (at_ : Nat × Nat) : State :=
  is.foldl (fun s i => s.commitItem i at_) s

/-- Errors of the stored array that an access meets: unit number `unit` of the access is changed. -/
def State.flipCells (s : State) (locs : List Loc) (errs : List CellError) : State :=
  errs.foldl (fun s e =>
    match locs[e.unit]? with
    | some l => s.setStored l (List.modifyAt (s.stored l) e.off (· ^^^ e.flip))
    | none => s) s

/-! ### What a unit holds -/

/-- The use of a stored unit. -/
inductive Use where
  | nearPage (e p n : Nat)
  | primary (e block : Nat)
  | overflow (e entry : Nat)
  | parity (e : Nat)
  | unused (e : Nat)
  | metadata
  | free
deriving DecidableEq, Repr

/-- The page that holds a near frame: a near-resident page (R130). -/
def State.framePage (s : State) (f : Nat) : Option (Nat × Nat) :=
  s.exts.findSome? fun kv =>
    (kv.2.pages.find? fun pg => pg.2.near && pg.2.slot ≤ f && f < pg.2.slot + kv.2.frames).map fun pg => (kv.1, pg.1)

/-- What a data burst with a given number within an extent's layout holds. -/
def Extent.useAt (x : Extent) (e n k i : Nat) : Use :=
  let area := ceilDiv x.pageCount n * x.pageBursts
  if i < area then
    let p := i / x.pageBursts * n + k
    if p < x.pageCount then .primary e (256 * p + i % x.pageBursts / x.bursts) else .unused e
  else
    let o := i - area
    let en := o / 4 * n + k
    if en < x.ovfCount then .overflow e en else .unused e

/-- What a far burst of an extent holds (R169, R171). -/
def Extent.farUse (x : Extent) (e g j l : Nat) : Use :=
  let row := l - x.unitBase g * 256
  match x.prot with
  | .none =>
    let gs := groupsOf x.groups
    x.useAt e gs.length ((gs.findIdx? (· == g)).getD 0) (row * 12 + j)
  | .mirror => x.useAt e 1 0 (row * 12 + j)
  | .parity =>
    let c := j / 2
    let pi := l % 6
    if c = pi then .parity e
    else x.useAt e 1 0 (10 * row + 2 * (if c < pi then c else c - 1) + j % 2)

/-- The use of a stored unit. -/
def State.useOf (s : State) (l : Loc) : Use :=
  match l with
  | .near sec w =>
    if w ≥ metaWord then .metadata
    else
      let f := sec * framesPerSection + w / 64
      match s.framePage f with
      | some (e, p) => .nearPage e p ((f - (s.page e p).slot) * 64 + w % 64)
      | none => .free
  | .far g j k =>
    let u := k / 256
    match s.exts.find? fun kv =>
        match Table.get? kv.2.runs g with
        | some b => b ≤ u && u < b + kv.2.units
        | none => false with
    | some (e, x) => x.farUse e g j k
    | none => .free

/-- Blocks of a near codeword of a page, as numbers within the extent (R159). -/
def Extent.wordBlocks (x : Extent) (p n : Nat) : List Nat :=
  let k := blocksPerWord x.cls x.budget
  (List.range k).map fun i => 256 * p + k * n + i

/-- Blocks whose stored form, or overflow entry, lies in a unit. -/
def State.unitBlocks (s : State) (u : Use) : List (Nat × Nat) :=
  match u with
  | .nearPage e p n => match s.ext? e with
    | some x => (x.wordBlocks p n).map fun b => (e, b)
    | none => []
  | .primary e b => [(e, b)]
  | .overflow e en => match s.ext? e with
    | some x => (x.ovf.filter fun kv => kv.2 == en).map fun kv => (e, kv.1)
    | none => []
  | _ => []

/-! ### Corrected errors (R426, R433) -/

/-- LOCATION of a corrected unit (spec/15_mailboxes.md R420). -/
def ceLocation (l : Loc) (dev : Nat) : Nat :=
  match l with
  | .near sec w => 512 * sec + nearChannel w + nearBank w * 2 ^ 13 + nearRow w * 2 ^ 17
  | .far g j k =>
    let (cid, bg, bank, col, row) := farAddress k
    farChannel g j + j % 2 * 2 ^ 5 + farRank k * 2 ^ 6 + cid * 2 ^ 7 + bg * 2 ^ 9 + bank * 2 ^ 12 + col * 2 ^ 14 +
      row * 2 ^ 25 + dev * 2 ^ 42

/-- Enter a location in a correctable-error table of 32 entries: table and overflow count. -/
def ceEnter (tab : List CeEntry) (ovf : Nat) (loc : W64) : List CeEntry × Nat :=
  if tab.any fun e => e.loc == loc then
    (tab.map fun e => if e.loc == loc then { e with hits := satInc e.hits } else e, ovf)
  else if tab.length < 32 then (tab ++ [{ loc := loc, hits := 1 }], ovf)
  else (tab, satInc ovf)

/-- The extent whose data or parity lies in a unit. -/
def Use.ext? : Use → Option Nat
  | .nearPage e _ _ | .primary e _ | .overflow e _ | .parity e | .unused e => some e
  | .metadata | .free => none

/-- Count a corrected unit against its extent (spec/15_mailboxes.md R420). -/
def State.countCe (s : State) (l : Loc) : State :=
  match (s.useOf l).ext? with
  | some e => s.modExt e fun x => if l.home.1 = .far then { x with ceFar := x.ceFar + 1 } else { x with ceNear := x.ceNear + 1 }
  | none => s

/-- Record a corrected unit. -/
def State.recordCe (s : State) (l : Loc) (d : Decoded) : State :=
  if d.fixed = 0 then s
  else
    let s := s.countCe l
    let dev := d.devs.headD 0
    let loc := BitVec.ofNat 64 (ceLocation l dev)
    match l with
    | .near sec w =>
      let ch := 512 * sec + nearChannel w
      let (tab, ovf) := ceEnter s.ras.tabNear s.ras.ovfNear loc
      s.modRas fun r => { r with
        ceNear := Table.set r.ceNear ch (satInc (Table.getD r.ceNear ch 0)), tabNear := tab, ovfNear := ovf }
    | .far g j k =>
      let ch := 2 * farChannel g j + j % 2
      let key := rankIndex g j k * 10 + dev
      let (tab, ovf) := ceEnter s.ras.tabFar s.ras.ovfFar loc
      s.modRas fun r => { r with
        ceFar := Table.set r.ceFar ch (satInc (Table.getD r.ceFar ch 0)), tabFar := tab, ovfFar := ovf
        devCount := Table.set r.devCount key (Table.getD r.devCount key 0 + 1) }

/-! ### Damage (R431 to R436) -/

/-- A block is listed as damaged in a tier; a DIVERGENT block counts in either (R440). -/
def State.damagedIn (s : State) (e b : Nat) (far : Bool) : Option Damaged :=
  s.ras.damaged.find? fun d => d.ext == e && d.block == b && (d.diverge || d.far == far)

/-- A block is damaged, but the full table does not list it (R432). -/
def State.unlistedBlock (s : State) (e b : Nat) : Bool := (s.ext? e).any fun x => x.unlisted.contains b

/-- A block is DIVERGENT. -/
def State.divergent (s : State) (e b : Nat) : Bool :=
  s.ras.damaged.any fun d => d.ext == e && d.block == b && d.diverge

/-- DIVERGENCE_RESOLVE with REWRITE has been given for a block (R441). -/
def State.rewritable (s : State) (e b : Nat) : Bool :=
  s.ras.damaged.any fun d => d.ext == e && d.block == b && d.diverge && d.rewrite

/-- Take a block out of the damaged table and out of the count of unlisted blocks (R432). -/
def State.undamage (s : State) (e b : Nat) : State :=
  (s.modRas fun r => { r with damaged := r.damaged.filter fun d => !(d.ext == e && d.block == b) }).modExt e
    fun x => { x with unlisted := x.unlisted.filter (· != b) }

/-- Take a block's entry of one kind, and for POISON of one tier, out of the table (R432, R435, R441). -/
def State.undamageKind (s : State) (e b : Nat) (diverge far : Bool) : State :=
  s.modRas fun r => { r with damaged := r.damaged.filter fun d =>
    !(d.ext == e && d.block == b && d.diverge == diverge && (diverge || d.far == far)) }

/-- Take every block of an extent out (R432). -/
def State.undamageExt (s : State) (e : Nat) : State :=
  (s.modRas fun r => { r with damaged := r.damaged.filter fun d => d.ext != e }).modExt e
    fun x => { x with unlisted := [] }

/-- A block becomes damaged (R431 steps 2 and 3): listed or counted, counted in NEAR_UE or FAR_UE, announced. -/
def State.damageBlock (s : State) (e b : Nat) (far quiet : Bool) : State :=
  match s.ext? e with
  | none => s
  | some x =>
    let s1 :=
      if s.ras.damaged.length < 65536 then
        s.modRas fun r => { r with damaged := r.damaged ++ [{ ext := e, block := b, diverge := false, far := far }] }
      else s.modExt e fun x => { x with unlisted := b :: x.unlisted }
    let s2 := (s1.modRas fun r =>
      if far then { r with farUe := r.farUe + 1 } else { r with nearUe := r.nearUe + 1 }).modExt e
        fun x => if far then { x with ueFar := x.ueFar + 1 } else { x with ueNear := x.ueNear + 1 }
    if quiet then s2.setRasEvent 0
    else (s2.sendEvts x.share
      { code := 0x020, p0 := BitVec.ofNat 32 e, p1 := BitVec.ofNat 64 (x.blockAddr b) }).setRasEvent 0

/-- Data burst number `d` of a PARITY extent as a burst of its layout (R171). -/
def Extent.dataRef (x : Extent) (d : Nat) : BurstRef :=
  let area := x.pageCount * x.pageBursts
  if d < area then .primary (d / x.pageBursts) (d % x.pageBursts) else .overflow ((d - area) / 4) ((d - area) % 4)

/-- The other bursts of the stripe of a unit of a PARITY extent: data bursts and parity (R171). -/
def stripeOthers (l : Loc) : List Loc :=
  match l with
  | .far g j k => ((List.range 6).map fun c => Loc.far g (2 * c + j % 2) k).filter (· != l)
  | .near _ _ => []

/-- The matching burst of a MIRROR extent in its other group. -/
def Extent.twin (x : Extent) (l : Loc) : Option Loc :=
  match x.prot, l with
  | .mirror, .far g j k =>
    match (groupsOf x.groups).find? (· != g) with
    | some h => some (.far h j (k - x.unitBase g * 256 + x.unitBase h * 256))
    | none => none
  | _, _ => none

/-- A clean near copy of a page exists: near-resident, not DIRTY, and filled (R435). -/
def Page.cleanNear (p : Page) : Bool := p.near && !p.dirty && !p.zor && p.st != .zfill

/-- The near codeword that holds block `b` (number in the extent) of a near-resident page. -/
def Extent.nearUnit (x : Extent) (b : Nat) : Loc := nearLoc x.cls x.budget (x.page (b / 256)).slot (b % 256)

/-- Every unit of a block's stored form in a tier decodes and bears no mark; far, in every copy, overflow entry included, but for
a failed channel that the protection class makes up for. -/
def State.blockClean (s : State) (x : Extent) (b : Nat) (near : Bool) : Bool :=
  let ls := if near then [x.nearUnit b]
    else ((List.range x.copies).flatMap fun c =>
      (x.blockRefs (b / 256) (b % 256) ++ (match Table.get? x.ovf b with | some en => entryRefs en | none => [])).map
        (x.burstLoc c)).filter fun l => x.prot == .none || !s.locFailed l
  ls.all fun l => match s.readUnit l with
    | some d => d.mark == 0
    | none => false

/-- Far bursts of copy `c` that hold the blocks of near codeword `n` of page `p`. -/
def Extent.wordBursts (x : Extent) (c p n : Nat) : List Loc :=
  (x.wordBlocks p n).flatMap fun b => (x.blockRefs p (b % 256)).map (x.burstLoc c)

/-- The sources of a rebuild of a unit, in the order of R435: the units each one reads. -/
def State.sources (s : State) (l : Loc) : List (List Loc) :=
  let all : List (List Loc) := match s.useOf l with
    | .primary e b => match s.ext? e with
      | some x =>
        (match x.twin l with | some t => [[t]] | none => []) ++
        (if x.prot = Prot.parity then [stripeOthers l] else []) ++
        (if (x.page (b / 256)).cleanNear then [[x.nearUnit b]] else [])
      | none => []
    | .overflow e _ => match s.ext? e with
      | some x => (match x.twin l with | some t => [[t]] | none => []) ++
        (if x.prot = Prot.parity then [stripeOthers l] else [])
      | none => []
    | .parity _ => [stripeOthers l]
    | .nearPage e p n => match s.ext? e with
      | some x => if (x.page p).cleanNear then (List.range x.copies).map fun c => x.wordBursts c p n else []
      | none => []
    | _ => []
  all.filter fun ls => ls.all fun k => !s.locFailed k

/-- Unit data rebuilt from the decoded data of a source (R435, R438). -/
def State.rebuilt (s : State) (l : Loc) (src : List Loc) (got : List (List Byte)) : List Byte :=
  match l, src with
  | .near _ _, _ => padTo 256 got.flatten
  | .far _ _ _, [.near _ _] =>
    match s.useOf l with
    | .primary e b => match s.ext? e with
      | some x =>
        let i := ((x.blockRefs (b / 256) (b % 256)).findIdx? fun r => x.burstLoc 0 r == l || x.burstLoc 1 r == l).getD 0
        slice (got.headD []) (nearOff x.cls x.budget (b % 256) + 64 * i) 64
      | none => zeros 64
    | _ => zeros 64
  | .far _ _ _, _ => got.foldl xorBytes (zeros 64)

/-- Quarters of a unit that a mark may cover: all but the zero fill of a Satin codeword of three quarters (R111, R428). -/
def State.markQuarters (s : State) (l : Loc) : Nat :=
  match s.useOf l with
  | .nearPage e _ _ => match s.ext? e with
    | some x => if x.cls = .satin ∧ x.budget = 3 then 3 else 4
    | none => 4
  | _ => l.dataSize / 64

/-- The unit written back with every quarter marked (R431 step 5). -/
def State.markedItem (s : State) (l : Loc) : WItem :=
  { loc := l, off := 0, bytes := (s.stored l).take l.dataSize, mark := List.replicate (s.markQuarters l) true }

/-- Blocks whose rebuild is queued (R435). -/
def State.rebuildBlocks (s : State) : List (Nat × Nat) :=
  (s.ras.work.flatMap fun w => match w with
    | .rebuild l .. => s.unitBlocks (s.useOf l)
    | _ => []).eraseDups

/-- The rebuild queue of 1,024 blocks has room for the blocks of a unit (R435). -/
def State.rebuildRoom (s : State) (l : Loc) : Bool :=
  let queued := s.rebuildBlocks
  let new := (s.unitBlocks (s.useOf l)).filter fun b => !queued.contains b
  decide (queued.length + new.length ≤ 1024)

/-- A unit has work queued. -/
def RasWork.unit (w : RasWork) : Option Loc :=
  match w with
  | .rebuild l .. => some l
  | .write i _ => some i.loc
  | .copy .. => none

/-- Queue the rebuild of a unit, or its marked write-back (R431 steps 4 and 5, R435). -/
def State.queueRepair (s : State) (l : Loc) : State :=
  if s.locFailed l then s
  else if s.ras.work.any fun w => w.unit == some l then s
  else
    let w : RasWork := if !(s.sources l).isEmpty && s.rebuildRoom l then .rebuild l 0 none none
      else .write (s.markedItem l) none
    s.modRas fun r => { r with work := r.work ++ [w] }

/-- A reader has found an uncorrectable unit (R431 steps 2 to 5); blocks already damaged are not announced again (R447). -/
def State.foundBad (s : State) (l : Loc) : State :=
  let far := l.home.1 == .far
  let bs := s.unitBlocks (s.useOf l)
  let fresh := bs.filter fun eb => (s.damagedIn eb.1 eb.2 far).isNone && !(s.unlistedBlock eb.1 eb.2)
  if fresh.isEmpty && !bs.isEmpty then s
  else (fresh.foldl (fun s eb => s.damageBlock eb.1 eb.2 far (s.locFailed l)) s).queueRepair l

/-- Deliver a unit read from given stored bytes: corrections are recorded, damage is found (R431, R433), unless a later write
has replaced what the read took (R447). -/
def State.deliver (s : State) (l : Loc) (b : List Byte) : State × RItem :=
  match s.decodeUnit l b with
  | some d => (s.recordCe l d, { loc := l, bytes := d.data, marks := markBits l d.mark, ue := false })
  | none => (if (s.readUnit l).isNone then s.foundBad l else s, { loc := l, bytes := b.take l.dataSize, marks := markBits l 0, ue := true })

/-- Read units now. -/
def State.readUnits (s : State) (ls : List Loc) : State × List RItem :=
  ls.foldl (fun acc l => let (s', i) := acc.1.deliver l (acc.1.stored l); (s', acc.2 ++ [i])) (s, [])

/-- A unit that decoded and bears no mark. -/
def RItem.clean (i : RItem) : Bool := !i.ue && !i.marks.any id

/-- What a delivered unit of a list holds. -/
def gotUnit (got : List RItem) (l : Loc) : Option RItem := got.find? fun i => i.loc == l

end Sys2Proof.Machine
end

