-- ==== Sys2Proof/Machine/Mbx.lean ====
section
/-! DEFINITION. The life of a mailbox command: acceptance, the checks of R370, the audit log, waiting, completion
(spec/14_identity_roles.md R363 to R377, spec/15_mailboxes.md R396 to R404 and R509). -/

namespace Sys2Proof.Machine

/-! ### The audit log (spec/14_identity_roles.md R374 to R377) -/

/-- MAILBOX byte of an audit record. -/
def mbxCode : Mbx → Nat
  | .operator => 0x00
  | .installer => 0x01
  | .maker => 0x02
  | .service => 0x03
  | .port p => 0x10 + p

/-- ROLE byte of an audit record. -/
def roleCode : Option Role → Nat
  | some .operator => 0
  | some .installer => 1
  | some .maker => 2
  | none => 0xFF

/-- What a record says besides what the log itself keeps. -/
structure AuditBody where
  kind    : Nat
  mailbox : Nat := 0xFF
  role    : Nat := 0xFF
  keyId   : Nat := 0
  opcode  : Nat := 0
  status  : Nat := 0
  context : Nat := 0xFF
  reqDig  : List Byte := zeros 32
  respDig : List Byte := zeros 32
deriving DecidableEq, Repr

/-- The record's bytes 0x00 to 0xBF (R375). -/
def State.auditBytes (s : State) (b : AuditBody) : List Byte :=
  let prev := match s.nor.audit.getLast? with
    | some r => sha256 r
    | none => zeros 32
  toLe 8 s.nor.auditSeq ++ toLe 4 s.nor.bootCount ++ toLe 1 b.kind ++ toLe 1 b.mailbox ++ toLe 1 b.role ++
    toLe 1 b.keyId ++ toLe 8 s.picks ++ toLe 8 s.beatNow.toNat ++ toLe 2 b.opcode ++ toLe 1 b.status ++
    toLe 1 b.context ++ zeros 12 ++ b.reqDig ++ b.respDig ++ prev ++ zeros 48

/-- Append a signed record; a failed write sets AUDIT_FAIL and leaves no record (R376, R377). The ring keeps at most
16,368 records and gives up sectors of 16. -/
def State.auditAppend (s : State) (b : AuditBody) : State :=
  if s.umpire.auditFail then s
  else if Config.auditWriteFails s.nor.auditSeq then s.modUmpire fun u => { u with auditFail := true }
  else
    let body := s.auditBytes b
    let sig := ecdsaSign s.umpire.idKey (ecScalar (s.random 32)) (sha256 body)
    (s.drewRandom 32).modNor fun n =>
      let log := n.audit ++ [body ++ sig]
      { n with audit := if log.length > 16368 then log.drop 16 else log, auditSeq := n.auditSeq + 1 }

/-! ### Acceptance (R396) -/

/-- The mailbox's command is the next that the Umpire accepts. -/
def State.isNext (s : State) (m : Mbx) : Bool :=
  s.umpire.queue.head? == some m && (s.mbox m).owner && !(s.mbox m).accepted &&
    (s.umpire.ready || (s.power.safe && m == .service && s.umpire.romService))

/-- The command of row `op` with these flags is the next that the Umpire accepts. -/
def State.accepts (s : State) (m : Mbx) (op : Nat) (form : Bool) : Bool := s.isNext m && s.opcode m == op && form

/-- The context to which a port is attached (spec/13_isolation_crypto.md R328). -/
def State.attachedTo (s : State) (p : Nat) : Option Nat := (s.port p).ctx

/-- The context that owns an extent; 0xFF where none does. -/
def State.ownerCode (s : State) (e : Nat) : Nat :=
  match s.ext? e with
  | some x => if x.st = .granted then x.owner else 0xFF
  | none => 0xFF

/-- The context that a command concerns, for the audit log: the attached one of a port mailbox; else the one its layout names,
or that owns the extent, lease, pin or engine it names (R403); 0xFF where there is none. -/
def State.auditCtx (s : State) (m : Mbx) : Nat :=
  match m with
  | .port p => (s.attachedTo p).getD 0xFF
  | _ => match s.opcode m with
    | 0x0010 | 0x0011 | 0x0060 | 0x0061 | 0x0062 | 0x0063 | 0x0080 | 0x0090 | 0x00F0 => s.rq m 0 1
    | 0x0021 => s.rq m 2 1
    | 0x00B0 => s.rq m 1 1
    | 0x0022 | 0x0023 | 0x0024 | 0x0025 | 0x0040 | 0x0050 => s.ownerCode (s.rq m 0 2)
    | 0x0052 => if bit (s.flags m) 0 then s.ownerCode (s.rq m 0 2) else 0xFF
    | 0x0041 | 0x0042 => match Table.get? s.leases (s.rq m 0 2) with | some l => s.ownerCode l.ext | none => 0xFF
    | 0x0051 => match Table.get? s.pins (s.rq m 0 2) with | some pn => pn.ctx | none => 0xFF
    | 0x0081 => match s.engine (s.rq m 0 1) with | some j => j.ctx | none => 0xFF
    | 0x00B2 => s.ownerCode (s.rq m 8 2)
    | _ => 0xFF

/-- The command as accepted (R396): it leaves the queue of submitted commands, and the context it concerns is fixed. -/
def State.acceptMbx (s : State) (m : Mbx) : State :=
  let c := s.auditCtx m
  (s.modUmpire fun u => { u with queue := u.queue.drop 1 }).modMbox m fun b => { b with accepted := true, ctx := c }

/-- The command's events are logged (R374): every command through INSTALLER, MAKER or SERVICE, every SIG_FAIL. -/
def logged (m : Mbx) (status : Nat) : Bool :=
  status == mSigFail || (match m with | .installer | .maker | .service => true | _ => false)

/-- The digest that a signature covers (R369). -/
def State.signedDigest (s : State) (m : Mbx) : List Byte :=
  sha256 ((s.mbox m).challenge ++ s.header m ++ s.request m)

/-- The public key that verifies a signed command; none where no key verifies it (R368, R371). -/
def State.verifyKey (s : State) (m : Mbx) : Option (List Byte) :=
  if s.keyId m = 2 then some s.umpire.makerKey
  else if s.opcode m = 0x00D0 ∧ s.rq m 0 1 = 0 ∧ !s.commissioned then some (s.rqBytes m 0x88 64)
  else if s.opcode m = 0x00D0 ∧ s.rq m 0 1 = 1 then some (s.rqBytes m 0x08 64)
  else if s.umpire.keyBad then none
  else some s.nor.installerKey

/-- Check 2 of R370: KEY_ID agrees with the mailbox (R363). -/
def State.keyIdOk (s : State) (m : Mbx) : Bool :=
  match m with
  | .operator | .port _ => s.keyId m == 0
  | .installer => s.keyId m == 1
  | .maker => s.keyId m == 2
  | .service => s.keyId m == 1 || s.keyId m == 2 || (s.keyId m == 0 && openCmd (s.opcode m))

/-- Check 3 of R370: the signature verifies; an uncommissioned expander skips it for installer commands other than the
INSTALLER function (R368). -/
def State.sigOk (s : State) (m : Mbx) : Bool :=
  if s.keyId m = 0 then true
  else if s.keyId m = 1 ∧ !s.commissioned ∧ !(s.opcode m = 0x00D0 ∧ s.rq m 0 1 = 0) then true
  else match s.verifyKey m with
    | some k => ecdsaVerify k (s.signedDigest m) (s.signature m)
    | none => false

/-- Check 4 of R370: the commissioning state permits the command (R367); before commissioning the INSTALLER function of
FUSE_PROGRAM is accepted from the INSTALLER mailbox alone (R371). -/
def State.commissionOk (s : State) (m : Mbx) : Bool :=
  s.commissioned || openCmd (s.opcode m) ||
    (s.opcode m == 0x00F0 && (match m with | .operator | .port _ => true | _ => false)) ||
    (s.opcode m == 0x00D0 && s.rq m 0 1 == 0 && m == .installer) ||
    (m == .maker && !(s.opcode m == 0x00D0 && s.rq m 0 1 == 0) &&
      match cmdInfo (s.opcode m) with | some c => bit c.elig 3 | none => false)

/-- Check 5 of R370: the command is eligible for the role, SERVICE's list holds it, and RIGHTS grants it (R363 to R365). -/
def State.rightsOk (s : State) (m : Mbx) : Bool :=
  match cmdInfo (s.opcode m) with
  | none => false
  | some c =>
    if openCmd c.op then true
    else if m == .service && !(serviceList c.op || c.op == 0x00E0) then false
    else match letterOf m (s.keyId m) with
      | none => false
      | some l => bit c.elig l && (!s.commissioned || bit (s.fuses.field 0xA0 24) (4 * c.idx + l))

/-- What SAFE makes of a command at acceptance (R363, R399): SAFE outside SERVICE's list; with cause FIRMWARE the boot ROM
serves FW_STAGE and FW_ACTIVATE alone. FUSE_PROGRAM of the INSTALLER and MAKER mailboxes goes on to its own STATE (R371). -/
def State.safeBlocks (s : State) (m : Mbx) : Bool :=
  s.power.safe &&
    ((m != .service && s.opcode m != 0x00D0) || (m == .service && !serviceList (s.opcode m)) ||
      (s.umpire.romService && !(s.opcode m == 0x00C0 || s.opcode m == 0x00C1)))

/-- What STANDBY refuses at acceptance (spec/17_reset_power.md R457): every command but the queries. -/
def State.standbyBlocks (s : State) (m : Mbx) : Bool :=
  s.power.standbyBit &&
    !([0x0001, 0x0002, 0x00A0, 0x0025, 0x0063, 0x00B0, 0x00B1, 0x00D1, 0x00F0].contains (s.opcode m) ||
      (s.opcode m == 0x0052 && bit (s.flags m) 1))

/-- AUDIT_FAIL refuses every logged command but those of R377. -/
def State.auditBlocks (s : State) (m : Mbx) : Bool :=
  s.umpire.auditFail && logged m mOk &&
    !(openCmd (s.opcode m) || s.opcode m == 0x00D1 || s.opcode m == 0x00C0 || s.opcode m == 0x00C1)

/-- The checks of R370 in order, after SAFE: none where the command's own checks follow. -/
def State.precheck (s : State) (m : Mbx) : Option Nat :=
  if s.safeBlocks m then some mSafe
  else if s.standbyBlocks m then some mState
  else if !s.wellFormed m then some mBadArg
  else if !s.keyIdOk m then some mDenied
  else if !s.sigOk m then some mSigFail
  else if !s.commissionOk m then some mState
  else if !s.rightsOk m then some mDenied
  else if s.auditBlocks m then some mState
  else none

/-! ### Completion (R397, R402) -/

/-- The response header. -/
def State.respHeader (s : State) (m : Mbx) (status len : Nat) : List Byte :=
  toLe 2 (s.opcode m) ++ toLe 1 status ++ zeros 1 ++ toLe 4 (s.seqOf m) ++ toLe 4 len ++ toLe 2 s.time.idx ++ zeros 2 ++
    toLe 8 s.beatNow.toNat ++ zeros 8

/-- MSI-X vector of a management mailbox (spec/18_registers.md R477). -/
def mbxVector : Mbx → Option Nat
  | .operator => some 0
  | .installer => some 1
  | .maker => some 2
  | .service => some 3
  | .port _ => none

/-- The completion signal (R390, R397). -/
def State.signalDone (s : State) (m : Mbx) (seq status : Nat) : State :=
  match m with
  | .port p => s.sendEvt p { code := 0x001, p0 := BitVec.ofNat 32 seq, p1 := BitVec.ofNat 64 status }
  | m => match mbxVector m with
    | some v => s.raise v
    | none => s

/-- The context of a command's audit record: a CTX_CREATE concerns the context that it has made. -/
def State.recordedCtx (s : State) (m : Mbx) (status : Nat) (resp : List Byte) : Nat :=
  if s.opcode m = 0x0010 ∧ status = mOk then le (slice resp 0x20 1) else (s.mbox m).ctx

/-- The audit record of a command (R374, R375). -/
def State.auditCommand (s : State) (m : Mbx) (status : Nat) (resp : List Byte) : State :=
  if logged m status then
    s.auditAppend { kind := 1, mailbox := mbxCode m, role := roleCode (roleOf m (s.keyId m)), keyId := s.keyId m
                    opcode := s.opcode m, status := status, context := s.recordedCtx m status resp
                    reqDig := sha256 (s.header m ++ s.request m), respDig := sha256 resp }
  else s

/-- Complete the command of a mailbox with a status and a response body: response, LAST_STATUS, DONE, OWNER, signal
(R397); CHALLENGE is refilled after a signed command (R369); a command of a lost port leaves a zero image (R297). -/
def State.complete (s : State) (m : Mbx) (status : Nat) (body : List Byte) : State :=
  let resp := s.respHeader m status body.length ++ body
  let s1 := s.auditCommand m status resp
  let seq := s.seqOf m
  let refill := s.keyId m = 1 ∨ s.keyId m = 2
  let s2 := if refill then s1.drewRandom 32 else s1
  let lost := (s.mbox m).discard
  let ie := (s.mbox m).ie
  let s3 := s2.modMbox m fun b =>
    if lost then { b with image := [], owner := false, ie := false, accepted := false, done := false, last := 0, wait := none
                          discard := false }
    else { b with
      image := ((b.image.writeN 0x800 (zeros 2048)).writeN 0x800 resp), last := status, done := true, owner := false
      accepted := false, wait := none
      challenge := if refill then s1.random 32 else b.challenge }
  if ie && !lost then s3.signalDone m seq status else s3

/-- Complete with a status and no body (R402). -/
def State.fail (s : State) (m : Mbx) (status : Nat) : State := s.complete m status []

/-- The command waits for its events (R398, R509). -/
def State.await (s : State) (m : Mbx) (w : WaitFor) : State := s.modMbox m fun b => { b with wait := some { what := w } }

/-- The events of a waiting command have occurred: it completes with this status and body (R398). -/
def State.markReady (s : State) (m : Mbx) (status : Nat) (body : List Byte) : State :=
  s.modMbox m fun b =>
    match b.wait with
    | some w => if w.ready then b else { b with wait := some { w with ready := true, status := status, body := body } }
    | none => b

/-- Run the row of a command: nothing where it is not the next to accept; else the checks of R370, then its own effect. -/
def State.runCommand (s : State) (m : Mbx) (op : Nat) (form : Bool) (own : State → State) : State :=
  if s.accepts m op form then
    let s1 := s.acceptMbx m
    match s1.precheck m with
    | some st => s1.fail m st
    | none => own s1
  else s

/-! ### What waits (R509) -/

/-- Mailboxes whose command waits for a given thing. -/
def State.waiting (s : State) (p : WaitFor → Bool) : List Mbx :=
  (s.umpire.mboxes.filter fun x => match x.2.wait with | some w => p w.what && !w.ready | none => false).map (·.1)

/-- Some command waits for a given thing. -/
def State.isWaiting (s : State) (p : WaitFor → Bool) : Bool := !(s.waiting p).isEmpty

/-- The mailbox whose command waits for exactly this. -/
def State.waiter (s : State) (w : WaitFor) : Option Mbx := (s.waiting fun x => x == w).head?

/-- Let the command that waits for this complete. -/
def State.readyWaiter (s : State) (w : WaitFor) (status : Nat) (body : List Byte) : State :=
  match s.waiter w with
  | some m => s.markReady m status body
  | none => s

/-! ### Contexts and objects of a command (R329, R403) -/

/-- A context exists and is not being destroyed. -/
def State.ctxLive (s : State) (c : Nat) : Bool :=
  match s.ctx? c with
  | some x => x.dying.isNone
  | none => false

/-- The context a command acts for, or the status that refuses it: a port's attachment, or the named context. -/
def State.commandCtx (s : State) (m : Mbx) (named : Nat) : Nat ⊕ Nat :=
  match m with
  | .port p => match s.attachedTo p with
    | none => .inr mDenied
    | some c => if s.ctxLive c then .inl c else .inr mState
  | _ => match s.ctx? named with
    | none => .inr mBadArg
    | some x => if x.dying.isNone then .inl named else .inr mState

/-- A port mailbox that is attached to nothing, or whose context is being destroyed, refuses every other command (R329). -/
def State.portRefusal (s : State) (m : Mbx) : Option Nat :=
  match m with
  | .port p => match s.attachedTo p with
    | none => some mDenied
    | some c => if s.ctxLive c then none else some mState
  | _ => none

/-- What refuses a command that names an object which does not exist: through a port mailbox, STATE for a context that is being
destroyed (R329), else DENIED, as for an object of another context (R403); elsewhere the status that the rule gives. -/
def State.absent (s : State) (m : Mbx) (other : Nat) : Nat :=
  match m with
  | .port _ => (s.portRefusal m).getD mDenied
  | _ => other

/-- Through a port mailbox, an extent that another context owns, or none, is refused (R403); a DESTROYING owner refuses. -/
def State.extRefusal (s : State) (m : Mbx) (x : Extent) : Option Nat :=
  match s.portRefusal m with
  | some st => some st
  | none =>
    match m with
    | .port p => if x.st == .granted && s.attachedTo p == some x.owner then none else some mDenied
    | _ => if x.st == .granted && !s.ctxLive x.owner then some mState else none

/-- An effect boundary as a response gives it: beat (8) and pick index (2), then reserved bytes. -/
def stampBytes (q : Stamp) (pad : Nat) : List Byte := toLe 8 q.beat.toNat ++ toLe 2 q.idx ++ zeros pad

end Sys2Proof.Machine
end

