-- ==== Sys2Proof/Machine/Fuse.lean ====
section
/-! DEFINITION. Fuse programming in progress: what blowing, reading back and stopping do to the array and its shadows
(spec/14_identity_roles.md R354, R371). -/

namespace Sys2Proof.Machine

/-- Fuse `i` of the array is blown. -/
def Fuses.blown (f : Fuses) (i : Nat) : Bool := bit (f.array.read (i / 8)).toNat (i % 8)

/-- Blow a fuse; its shadow follows. -/
def Fuses.blow (f : Fuses) (i : Nat) : Fuses :=
  let set := fun (m : Mem) => m.write (i / 8) (m.read (i / 8) ||| BitVec.ofNat 8 (2 ^ (i % 8)))
  { f with array := set f.array, shadow := set f.shadow }

/-- Blow fuses in order until one still reads 0 after its three attempts: the array, fuses blown, whether all are. -/
def Fuses.blowList (f : Fuses) (stuck : Nat → Bool) : List Nat → Fuses × Nat × Bool
  | [] => (f, 0, true)
  | i :: t =>
    if stuck i then (f, 0, false)
    else
      let r := Fuses.blowList (f.blow i) stuck t
      (r.1, r.2.1 + 1, r.2.2)

/-- The 8-byte body of FUSE_PROGRAM (spec/15_mailboxes.md R421). -/
def State.fuseBody (s : State) (blown : Nat) : List Byte := toLe 1 s.fuses.svnF ++ zeros 1 ++ toLe 2 blown ++ zeros 4

/-- Program the fuses of a job, as many as `todo` names; the command then ends with a status. -/
def State.program (s : State) (j : FuseJob) (todo : List Nat) (status : Nat) : State :=
  let r := s.fuses.blowList (Config.fuseStuck s.freeCount) todo
  let s := ((s.setFuses (r.1)).setFreeCount (s.freeCount + 1))
  let s := s.modUmpire fun u => { u with fuseJob := none, debugUnlocked := u.debugUnlocked && !s.fuses.debugDisabled }
  s.markReady j.mbx (if r.2.2 then status else mState) (s.fuseBody (j.blown + r.2.1))

/-- Programming runs to its end: OK, or STATE at a fuse that does not blow. -/
def State.fuseRun (s : State) : State :=
  match s.umpire.fuseJob with
  | some j => s.program j j.todo mOk
  | none => s

/-- Programming stops after the fuse in progress: how many fuses that leaves blown is left open. -/
def State.fuseStop (s : State) (status : Nat) : State :=
  match s.umpire.fuseJob with
  | some j =>
    let n := Config.fusesBeforeBrace s.freeCount
    let s := (s.setFreeCount (s.freeCount + 1))
    s.program j (j.todo.take n) status
  | none => s

end Sys2Proof.Machine
end

