-- ==== Sys2Proof/Machine/Requests.lean ====
section
/-! DEFINITION. Requests to the pool: what accesses a read or a write of a block takes, when each may take a position, and
what it leaves (spec/04_compression.md R112 to R122 and R510, spec/06_memory_channels.md R176 to R179,
spec/10_host_link.md R279 and R280, spec/16_ras.md R430 and R435 to R440). -/

namespace Sys2Proof.Machine

/-! ### Completion statuses (spec/10_host_link.md R272) -/

def stOk : Nat := 0
def stPoison : Nat := 1
def stUnmapped : Nat := 2
def stDenied : Nat := 3
def stLate : Nat := 4
def stDivergent : Nat := 5
def stTorn : Nat := 6
def stSafe : Nat := 7
def stOverflow : Nat := 8

/-! ### Requests -/

/-- The request writes pool blocks. -/
def ReqOp.isWrite : ReqOp → Bool
  | .wr64 | .wr256 | .wrp => true
  | _ => false

/-- The request reads pool blocks. -/
def ReqOp.isRead : ReqOp → Bool
  | .rd64 | .rd256 => true
  | _ => false

/-- The port a request came from, if a host sent it. -/
def Req.port (r : Req) : Option Nat := match r.origin with | .host p _ => some p | _ => none

/-- All bits of a mask of 64 bytes. -/
def fullMask : W64 := 0xFFFFFFFFFFFFFFFF#64

/-- The write covers all 256 B of its block. -/
def Req.whole (r : Req) : Bool := r.op == .wr256

/-- The write covers its 64 B quarter. -/
def Req.coversQuarter (r : Req) : Bool := r.op == .wr64 || (r.op == .wrp && r.mask == fullMask)

/-- Page of the request's block within its extent. -/
def Req.page (r : Req) : Nat := r.block / 256

/-- A write that has not become visible and has not ended: what FENCE and an MBX write wait for (R279). -/
def Req.unended (r : Req) : Bool := r.op.isWrite && !r.visible

/-- A write that may still become visible: one that ends LATE holds nothing back but FENCE and MBX writes (R280). -/
def Req.open_ (r : Req) : Bool := r.unended && !r.late

/-- Contents of the block after the write, over a base (R121, R122). -/
def Req.merge (r : Req) (base : List Byte) : List Byte :=
  match r.op with
  | .wr256 => r.data.take 256
  | .wr64 => patch base (64 * r.quarter) (r.data.take 64)
  | _ => (List.range 256).map fun i =>
      if i / 64 = r.quarter ∧ r.mask.toNat.testBit (i % 64) then r.data.getD (i % 64) 0 else base.getD i 0

/-! ### Keys (spec/13_isolation_crypto.md R334, R335) -/

/-- The memory key of an extent's stored forms; none where stored data is plaintext. -/
def State.memKey (s : State) (x : Extent) : Option (List Byte) :=
  if !s.hasCipher then none
  else if x.bound then x.boundKey
  else (s.ctx? x.owner).map (·.memKey)

/-- Tweak of a data unit: the block's pool address, bit 64 set for an overflow entry (R118). -/
def tweak (x : Extent) (b : Nat) (ovf : Bool) : Nat := x.blockAddr b + (if ovf then 2 ^ 64 else 0)

/-- Encrypt a stored form. -/
def State.seal (s : State) (x : Extent) (b : Nat) (ovf : Bool) (form : List Byte) : List Byte :=
  match s.memKey x with
  | some k => xtsEncrypt k (tweak x b ovf) form
  | none => form

/-- Decrypt a stored form. -/
def State.unseal (s : State) (x : Extent) (b : Nat) (ovf : Bool) (form : List Byte) : List Byte :=
  match s.memKey x with
  | some k => xtsDecrypt k (tweak x b ovf) form
  | none => form

/-! ### Where a request reads (R437, R510) -/

/-- The bursts of the block, or of the overflow entry, that a burst belongs to. -/
def Extent.wholeRefs (x : Extent) (r : BurstRef) : List BurstRef :=
  match r with
  | .primary p k => x.blockRefs p (k / x.bursts)
  | .overflow en _ => entryRefs en

/-- A copy holds no burst of a block, or of an entry, on a failed channel. -/
def State.copyWhole (s : State) (x : Extent) (refs : List BurstRef) (c : Nat) : Bool :=
  (refs.flatMap x.wholeRefs).all fun r => !s.locFailed (x.burstLoc c r)

/-- The copy that a read of bursts uses: the lower one unless a failed channel holds a burst of their block there (R437). -/
def State.readCopy (s : State) (x : Extent) (refs : List BurstRef) : Nat :=
  if x.copies = 2 ∧ !s.copyWhole x refs 0 ∧ s.copyWhole x refs 1 then 1 else 0

/-- The copies that a write of bursts goes to: all, or with a failed channel those that hold the block whole (R437). -/
def State.writeCopies (s : State) (x : Extent) (refs : List BurstRef) : List Nat :=
  let all := List.range x.copies
  let sound := all.filter (s.copyWhole x refs)
  if sound.isEmpty then all else sound

/-- Units that a read of bursts takes: a lost PARITY burst is reconstructed from its stripe (R437). -/
def State.readLocs (s : State) (x : Extent) (refs : List BurstRef) : List Loc :=
  let c := s.readCopy x refs
  (refs.flatMap fun r =>
    let l := x.burstLoc c r
    match x.prot with
    | .parity => if s.locFailed l then stripeOthers l else [l]
    | _ => [l]).eraseDups

/-- Data and marks of one burst from what was delivered; none where it is lost. -/
def State.burstGot (s : State) (x : Extent) (refs : List BurstRef) (got : List RItem) (r : BurstRef) :
    Option (List Byte × Bool) :=
  let l := x.burstLoc (s.readCopy x refs) r
  let one := fun (l : Loc) =>
    match gotUnit got l with
    | some i => if i.ue then none else some (i.bytes, i.marks.headD false)
    | none => none
  match x.prot with
  | .parity =>
    if s.locFailed l then
      (stripeOthers l).foldl (fun acc k =>
        match acc, one k with
        | some (b, m), some (b', m') => some (xorBytes b b', m || m')
        | _, _ => none) (some (zeros 64, false))
    else one l
  | _ => one l

/-- Bytes and per-burst marks of a run of bursts; none where one is lost. -/
def State.burstsGot (s : State) (x : Extent) (refs : List BurstRef) (got : List RItem) :
    Option (List Byte × List Bool) :=
  refs.foldl (fun acc r =>
    match acc, s.burstGot x refs got r with
    | some (b, m), some (b', m') => some (b ++ b', m ++ [m'])
    | _, _ => none) (some ([], []))

/-- Overflow entry of a block (R113). -/
def Extent.entryOf (x : Extent) (b : Nat) : Option Nat := Table.get? x.ovf b

/-- The near codeword of a request's block, by the residency entry in force at its arrival (R154). -/
def Req.nearLoc (r : Req) (x : Extent) : Loc := Machine.nearLoc x.cls x.budget r.slot (r.block % 256)

/-- Bursts of a request's block that it touches: a Plain quarter alone where it is less than the block (R120, R510). -/
def Req.refs (r : Req) (x : Extent) : List BurstRef :=
  let all := x.blockRefs r.page (r.block % 256)
  match x.cls with
  | .plain => if r.op = .rd256 ∨ r.op = .wr256 then all else (all.drop r.quarter).take 1
  | _ => all

/-- A read of the block returns zeros without an access (R132, R134). -/
def State.zeroBlock (s : State) (e b : Nat) : Bool :=
  let pg := s.page e (b / 256)
  pg.zor ||
    (pg.st == .zfill &&
      s.tier.fills.any fun kv => kv.2.ext == e && kv.2.page == b / 256 && !kv.2.bits.toNat.testBit (b % 256))

/-- Units of the primary form that a request reads (R510). -/
def State.primaryLocs (s : State) (x : Extent) (r : Req) : List Loc :=
  if r.near then [r.nearLoc x] else s.readLocs x (r.refs x)

/-- The primary form that a write leaves has taken its position, though the write has not committed. -/
def Req.primaryOut (w : Req) (x : Extent) : Bool :=
  !w.visible && w.flyingW.any fun i =>
    i.loc == w.nearLoc x || (x.blockRefs w.page (w.block % 256)).any fun b => x.burstLoc 0 b == i.loc || x.burstLoc 1 b == i.loc

/-- The overflow entry of a block for a read that takes its position now: that of a write whose primary form has taken an
earlier position, else the one of the bitmap (R113, R119). -/
def State.entryNow (s : State) (x : Extent) (r : Req) : Option Nat :=
  match s.reqs.find? fun kv => kv.2.ext == r.ext && kv.2.block == r.block && kv.2.op.isWrite && kv.2.primaryOut x with
  | some (_, w) => w.entry
  | none => x.entryOf r.block

/-- The overflow entry whose data a request's block has before it: the one that a read follows, or that the bitmap gives. -/
def Req.oldEntry (r : Req) (x : Extent) : Option Nat := if r.op.isRead then r.entry else x.entryOf r.block

/-- Rounds of a read (R510): the primary form; an overflow entry follows once the form has taken its position. -/
def State.readPhases (s : State) (x : Extent) (r : Req) : List Phase := [.read (s.primaryLocs x r)]

/-- A read takes the position of its primary form: the overflow entry that it follows is fixed, and its round is added (R113,
R510). -/
def State.followEntry (s : State) (x : Extent) (r : Req) : Req :=
  match s.entryNow x r with
  | some en => { r with entry := some en, phases := r.phases ++ [.read (s.readLocs x (entryRefs en))] }
  | none => r

/-- Stored form of the block, decrypted, with the marks of its quarters; none where a unit is lost. -/
def State.formGot (s : State) (x : Extent) (r : Req) (got : List RItem) : Option (List Byte × List Bool) :=
  let n := storedSize x.cls x.budget
  if r.near then
    match gotUnit got (r.nearLoc x) with
    | some i =>
      if i.ue then none
      else
        let off := nearOff x.cls x.budget (r.block % 256)
        some (s.unseal x r.block false (slice i.bytes off n), (List.range (n / 64)).map fun j => i.marks.getD (off / 64 + j) false)
    | none => none
  else
    match s.burstsGot x (r.refs x) got with
    | some (b, m) =>
      if x.cls = .plain ∧ (r.refs x).length = 1 then
        let full := patch (zeros 256) (64 * r.quarter) b
        some (s.unseal x r.block false full, m)
      else some (s.unseal x r.block false b, m)
    | none => none

/-- Contents of the block as read; the second is true where the stored form is malformed (R107, R109). -/
def State.blockGot (s : State) (e : Nat) (x : Extent) (r : Req) (got : List RItem) : Option (List Byte) × Bool :=
  let lost : Option (List Byte) × Bool := (none, false)
  let far := !r.near
  if (s.damagedIn e r.block far).isSome || x.unlisted.contains r.block then lost
  else match s.formGot x r got with
    | none => lost
    | some (form, marks) =>
      if marks.any id then lost
      else match r.oldEntry x with
        | some en => match s.burstsGot x (entryRefs en) got with
          | some (b, m) => if m.any id then lost else (some (s.unseal x r.block true b), false)
          | none => lost
        | none =>
          if x.cls = .plain ∧ !r.near then (some form, false)
          else match decodeBlock x.cls x.src form with
            | some b => (some b, false)
            | none => (none, true)

/-! ### What a write reads first (R120, R438) -/

/-- Parity bursts of the stripes of data bursts. -/
def Extent.parityLocs (x : Extent) (refs : List BurstRef) : List Loc :=
  match x.prot with
  | .parity => (refs.map fun r => let (g, l, sub) := x.stripe r; stripeParity g l sub).eraseDups
  | _ => []

/-- The write takes no merge base from the tier: its block is zero-on-read, or not yet filled (R121). -/
def State.baseZero (s : State) (r : Req) : Bool := s.zeroBlock r.ext r.block

/-- Reads of the primary form that R120 gives a write. -/
def State.baseReads (s : State) (x : Extent) (r : Req) : List Loc :=
  let near := [r.nearLoc x]
  let far := s.readLocs x (r.refs x)
  let bit := (x.entryOf r.block).isSome
  if (s.page r.ext r.page).zor then []
  -- a block that is still to be filled has no base, but shares its codeword with others (R16, R121)
  else if s.baseZero r then (if r.near && blocksPerWord x.cls x.budget != 1 then near else [])
  else match x.cls, r.near with
    | .plain, true => if r.whole then [] else near
    | .plain, false => if r.whole || r.coversQuarter then [] else far
    | .twill2, true | .twill4, true => near
    | .twill2, false | .twill4, false => if r.whole then [] else far
    | .satin, true => if x.budget ≤ 2 ∨ !r.whole ∨ bit then near else []
    | .satin, false => if !r.whole ∨ bit then far else []

/-- Bursts that a write replaces: those of `Req.refs`, or the whole block over a zero base (R121, log entry 22). -/
def State.writeRefs (s : State) (x : Extent) (r : Req) : List BurstRef :=
  if s.baseZero r then x.blockRefs r.page (r.block % 256) else r.refs x

/-- Reads that a PARITY write of data bursts adds (R438): old data, unless the near copy has it, and parity. -/
def State.parityReads (s : State) (x : Extent) (near : Bool) (refs : List BurstRef) : List Loc :=
  match x.prot with
  | .parity =>
    ((if near then [] else s.readLocs x refs) ++ x.parityLocs refs).filter fun l => !s.locFailed l
  | _ => []

/-- A round, or none where it is empty. -/
def readRound (ls : List Loc) : List Phase := if ls.isEmpty then [] else [.read ls.eraseDups]

/-- Rounds of reads before the contents of a write are known. -/
def State.writeReads (s : State) (x : Extent) (r : Req) : List Phase :=
  let base := s.baseReads x r
  let added := if r.near then [] else s.parityReads x false (s.writeRefs x r)
  readRound (base ++ added) ++
    (match x.entryOf r.block with
     | some en => if r.whole || s.baseZero r then [] else readRound (s.readLocs x (entryRefs en))
     | none => [])

/-! ### What a write stores (R111, R114, R120, R438) -/

/-- A data burst as the parity of its stripe counts it: as decoded; one that is lost or does not decode as the rest of the
stripe gives it (R437, R438). -/
def State.burstBytes (s : State) (x : Extent) (r : BurstRef) : List Byte :=
  let l := x.burstLoc 0 r
  match s.readUnit l with
  | some d => d.data
  | none => (stripeOthers l).foldl (fun b k => xorBytes b ((s.stored k).take 64)) (zeros 64)

/-- Old bytes of a near-resident block's bursts, from its near copy; none where the copy does not give them (R438). -/
def State.nearOld (s : State) (x : Extent) (b : Nat) : Option (List Byte) :=
  let pg := x.page (b / 256)
  if pg.near && !pg.zor && pg.st != .zfill then
    match s.readUnit (x.nearUnit b) with
    | some d => some (slice d.data (nearOff x.cls x.budget (b % 256)) (storedSize x.cls x.budget))
    | none => none
  else none

/-- Old bytes of a burst for its parity: from the near copy of a near-resident block, else from its stripe (R438). -/
def State.oldBurst (s : State) (x : Extent) (near : Bool) (r : BurstRef) : List Byte :=
  match near, r with
  | true, .primary p k => match s.nearOld x (256 * p + k / x.bursts) with
    | some f => slice f (64 * (k % x.bursts)) 64
    | none => s.burstBytes x r
  | _, _ => s.burstBytes x r

/-- The parity item of one stripe for bursts of it with their new bytes: what they change in the parity burst; all five
members written give it outright (R438). -/
def State.parityItem (s : State) (x : Extent) (near : Bool) (l : Loc) (ws : List (BurstRef × List Byte)) : WItem :=
  if ws.length = 5 then { loc := l, off := 0, bytes := ws.foldl (fun a w => xorBytes a w.2) (zeros 64), mark := [false] }
  else { loc := l, off := 0, xor := true
         bytes := ws.foldl (fun a w => xorBytes a (xorBytes (s.oldBurst x near w.1) w.2)) (zeros 64) }

/-- The parity items of written bursts, one for each stripe (R438). -/
def State.parityItems (s : State) (x : Extent) (near : Bool) (ws : List (BurstRef × List Byte)) : List WItem :=
  (x.parityLocs (ws.map (·.1))).map fun l =>
    s.parityItem x near l (ws.filter fun w => let (g, k, sub) := x.stripe w.1; stripeParity g k sub == l)

/-- The data items of written bursts, in every copy that takes them (R437). -/
def State.dataItems (s : State) (x : Extent) (refs : List BurstRef) (bytes : List Byte) (marks : List Bool) : List WItem :=
  (s.writeCopies x refs).flatMap fun c => (List.range refs.length).map fun i =>
    { loc := x.burstLoc c (refs.getD i (.overflow 0 0)), off := 0, bytes := slice bytes (64 * i) 64
      mark := [marks.getD i false] : WItem }

/-- Bursts with their new bytes. -/
def withBytes (refs : List BurstRef) (bytes : List Byte) : List (BurstRef × List Byte) :=
  (List.range refs.length).map fun i => (refs.getD i (.overflow 0 0), slice bytes (64 * i) 64)

/-- Items that write bursts with new bytes, in every copy, with the parity of their stripes (R437, R438). -/
def State.burstItems (s : State) (x : Extent) (near : Bool) (refs : List BurstRef) (bytes : List Byte) (marks : List Bool) :
    List WItem :=
  (s.dataItems x refs bytes marks ++ s.parityItems x near (withBytes refs bytes)).filter fun i => !s.locFailed i.loc

/-- A write round, or none where it is empty. -/
def writeRound (is : List WItem) : List Phase := if is.isEmpty then [] else [.write is]

/-- The near item of a block: its stored form in its codeword; a Plain quarter alone where the write covers no more. -/
def nearItem (x : Extent) (slot b : Nat) (form : List Byte) (quarter : Option Nat) : WItem :=
  let l := nearLoc x.cls x.budget slot (b % 256)
  match quarter with
  | some q => { loc := l, off := 64 * q, bytes := slice form (64 * q) 64 }
  | none =>
    let off := nearOff x.cls x.budget (b % 256)
    { loc := l, off := off, bytes := padTo (256 / blocksPerWord x.cls x.budget) form }

/-- A unit of the block's primary slot does not decode, or bears a mark. -/
def State.slotMarked (s : State) (x : Extent) (r : Req) : Bool :=
  (s.primaryLocs x r).any fun l => match s.readUnit l with
    | some d => d.mark != 0
    | none => true

/-- Rounds of writes that leave the block with contents `blk`, its form an overflow pointer where an entry is given. -/
def State.writePhases (s : State) (x : Extent) (r : Req) (blk : List Byte) (entry : Option Nat) : List Phase :=
  let quarter := if x.cls = .plain ∧ !r.whole ∧ !s.baseZero r then some r.quarter else none
  let form := s.seal x r.block false (encodeBlock x.cls x.src x.budget entry blk)
  let bytes := match quarter with
    | some q => slice form (64 * q) 64
    | none => form
  let refs := s.writeRefs x r
  let far := s.burstItems x r.near refs bytes []
  let farPhases := (if r.near then readRound (s.parityReads x true refs) else []) ++ writeRound far
  let entryPhases := match entry with
    | some en => readRound (s.parityReads x false (entryRefs en)) ++
        writeRound (s.burstItems x false (entryRefs en) (s.seal x r.block true blk) [])
    | none => []
  let primary :=
    if r.near then .write [nearItem x r.slot r.block form quarter] :: (if x.prot = Prot.none then [] else farPhases)
    else farPhases
  -- an overflowed block that still does not fit rewrites its entry alone (R114), unless a whole-block write finds its slot
  -- marked (R430)
  match entry with
  | some en => if x.entryOf r.block = some en ∧ !(r.whole && s.slotMarked x r) then entryPhases else entryPhases ++ primary
  | none => primary

/-- The entry of a write that leaves `blk` (R114, R115): none where it fits; the block's own; or the lowest free one. -/
inductive EntryChoice where
  | fits
  | entry (n : Nat)
  | full
deriving DecidableEq, Repr

/-- The lowest-numbered free overflow entry of an extent: no bitmap bit and no write in flight holds it (R114, R115). -/
def State.freeEntry (s : State) (e : Nat) (x : Extent) : Option Nat :=
  (List.range x.ovfCount).find? fun n =>
    !(x.ovf.any fun kv => kv.2 == n) && !(s.reqs.any fun kv => kv.2.ext == e && kv.2.op.isWrite && kv.2.entry == some n)

/-- The choice of R115. -/
def State.chooseEntry (s : State) (e : Nat) (x : Extent) (b : Nat) (blk : List Byte) : EntryChoice :=
  match x.cls with
  | .satin =>
    if satinFits x.budget blk then .fits
    else match x.entryOf b with
      | some n => .entry n
      | none => match s.freeEntry e x with
        | some n => .entry n
        | none => .full
  | _ => .fits

/-! ### Release: what a request does at its first access -/

/-- What the pool controller makes of a request that has not started. -/
inductive Release where
  | wait
  | finish (status : Nat) (data : Option (List Byte))
  | go (r : Req)
deriving DecidableEq, Repr

/-- 64 B quarter, or whole block, of a read. -/
def Req.pick (r : Req) (blk : List Byte) : List Byte := if r.op = .rd64 then slice blk (64 * r.quarter) 64 else blk

/-- Fill-table entry of a page. -/
def State.fillOf (s : State) (e p : Nat) : Option Nat :=
  (s.tier.fills.find? fun kv => kv.2.ext == e && kv.2.page == p).map (·.1)

/-- A rebuild of a unit of the block, in any copy, or of its entry is queued in the tier that the request uses (R435). -/
def State.rebuilding (s : State) (x : Extent) (r : Req) : Bool :=
  let refs := (if r.near then [] else x.blockRefs r.page (r.block % 256)) ++
    (match x.entryOf r.block with | some en => entryRefs en | none => [])
  let ls := (if r.near then [r.nearLoc x] else []) ++ (List.range x.copies).flatMap fun c => refs.map (x.burstLoc c)
  s.ras.work.any fun w => match w with
    | .rebuild l .. => ls.contains l
    | _ => false

/-- Bursts are lost to failed channels: one of a NONE extent, one in each copy of a MIRROR one, two of a PARITY stripe
(R437). -/
def State.refsLost (s : State) (x : Extent) (refs : List BurstRef) : Bool :=
  match x.prot with
  | .parity => refs.any fun b => s.locFailed (x.burstLoc 0 b) && ((stripeOthers (x.burstLoc 0 b)).any s.locFailed)
  | _ => !refs.isEmpty && (List.range x.copies).all fun c => refs.any fun b => s.locFailed (x.burstLoc c b)

/-- The block that a request names is lost in the tier that it uses, or its overflow entry is. -/
def State.blockLost (s : State) (x : Extent) (r : Req) : Bool :=
  (!r.near && s.refsLost x (x.blockRefs r.page (r.block % 256))) ||
    s.refsLost x (match x.entryOf r.block with | some en => entryRefs en | none => [])

/-- Release of a write. A narrow write to a Satin block that has no primary read, being zero-on-read or still to be filled,
chooses its entry here as a whole-block write does: R115 names no instant for it (DESIGN CHOICE, log entry 13). -/
def State.releaseWrite (s : State) (x : Extent) (r : Req) : Release :=
  if r.op = .wrp ∧ r.mask = 0 then .finish stOk none
  else if s.divergent r.ext r.block && !(r.whole && s.rewritable r.ext r.block) then .finish stDivergent none
  else if s.blockLost x r then .finish stPoison none
  else if !r.whole && s.rebuilding x r then .finish stPoison none
  else if (s.page r.ext r.page).zor && (s.fillOf r.ext r.page).isNone && (Table.free s.tier.fills 64).isNone then .wait
  else if r.whole then
    match s.chooseEntry r.ext x r.block r.data with
    | .full => .finish stOverflow none
    | .fits => .go { r with merged := some r.data, phases := s.writeReads x r ++ s.writePhases x r r.data none }
    | .entry n =>
      .go { r with merged := some r.data, entry := some n
                   phases := s.writeReads x r ++ s.writePhases x r r.data (some n) }
  else if s.baseZero r then
    let blk := r.merge (zeros 256)
    match s.chooseEntry r.ext x r.block blk with
    | .full => .finish stOverflow none
    | .fits => .go { r with merged := some blk, phases := s.writeReads x r ++ s.writePhases x r blk none }
    | .entry n =>
      .go { r with merged := some blk, entry := some n, phases := s.writeReads x r ++ s.writePhases x r blk (some n) }
  else if x.cls = .plain ∧ !r.near ∧ r.coversQuarter then
    let blk := r.merge (zeros 256)
    .go { r with merged := some blk, phases := s.writeReads x r ++ s.writePhases x r blk none }
  else .go { r with phases := s.writeReads x r }

/-- Release of a request that has not started. -/
def State.release (s : State) (r : Req) : Release :=
  if r.gen then .go { r with phases := [.gen] }
  else match s.ext? r.ext with
    | none => .finish stUnmapped none
    | some x =>
      if r.op.isWrite then s.releaseWrite x r
      else if s.divergent r.ext r.block then .finish stDivergent none
      else if s.zeroBlock r.ext r.block then .finish stOk (some (r.pick (zeros 256)))
      else if s.blockLost x r then .finish stPoison none
      else .go { r with phases := s.readPhases x r }

/-- The request as a position finds it: a write once it has been released, a read as its first access finds its block. -/
def State.released (s : State) (r : Req) : Option Req :=
  if r.planned then some r
  else if r.op.isWrite then none
  else match s.release r with
    | .go r' => some r'
    | _ => none

/-- The request as its release would leave it. -/
def State.wouldBe (s : State) (r : Req) : Req :=
  if r.planned then r
  else match s.release r with
    | .go r' => r'
    | _ => r

/-! ### When an access is ready (R176 to R178, R279, R280) -/

/-- A write round leads to the moment the write becomes visible: no near write follows it (R146), or no write at all. -/
def Req.visibleAfter (r : Req) (rest : List Phase) : Bool :=
  rest.all fun ph => match ph with
    | .write is => r.near && is.all fun i => i.loc.home.1 == .far
    | _ => true

/-- Stored unit of two writes is the same (R177): the block, or the near codeword. -/
def State.sameUnit (s : State) (a b : Req) : Bool :=
  a.ext == b.ext &&
    (a.block == b.block || (a.near && b.near && match s.ext? a.ext with
      | some x => a.nearLoc x == b.nearLoc x
      | none => false))

/-- A scrub write-back, rebuild or copy that has read a unit holds it until its write (R177, R445). -/
def RasWork.holds (w : RasWork) (l : Loc) : Bool :=
  match w with
  | .rebuild k _ _ at_ => at_.isSome && k == l
  | .write i at_ => at_.isSome && i.loc == l
  | .copy .. => false

/-- The units of the overflow entries that a write takes or holds, parity included. -/
def State.entryWriteLocs (_ : State) (x : Extent) (r : Req) : List Loc :=
  let ens := (r.entry.toList ++ (x.entryOf r.block).toList).eraseDups
  ens.flatMap fun en => ((List.range x.copies).flatMap fun c => (entryRefs en).map (x.burstLoc c)) ++ x.parityLocs (entryRefs en)

/-- The units of a request's write. -/
def State.writeLocs (s : State) (r : Req) : List Loc :=
  match s.ext? r.ext with
  | some x =>
    let refs := x.blockRefs r.page (r.block % 256)
    (if r.near then [r.nearLoc x] else []) ++ ((List.range x.copies).flatMap fun c => refs.map (x.burstLoc c)) ++
      x.parityLocs refs ++ s.entryWriteLocs x r
  | none => []

/-- Order of commits of two write rounds given their positions (R163, R173): the first no later than the second. -/
def commitsBy (a b : Bool × Nat × Nat) : Bool :=
  match a, b with
  | (true, p, k), (true, p', k') => p < p' || (p == p' && k ≤ k')
  | (false, p, k), (false, p', k') => p < p' || (p == p' && k ≤ k')
  | (true, p, _), (false, p', _) => p ≤ p'
  | (false, p, _), (true, p', _) => p + 1 < p'

/-- Earlier requests of the same port. -/
def State.earlier (s : State) (id : Nat) (r : Req) : List Req :=
  (s.reqs.filter fun kv => kv.1 < id && kv.2.port == r.port && r.port.isSome).map (·.2)

/-- The order rules allow the first access (R279 rules 2 to 4). -/
def State.orderOk (s : State) (id : Nat) (r : Req) : Bool :=
  (s.earlier id r).all fun e =>
    let sameBlock := e.ext == r.ext && e.block == r.block && !e.gen && !r.gen
    if r.op.isWrite then !(sameBlock && e.op.isRead && !(e.started && e.phases.length ≤ 1))
    else !(e.open_ && (!r.ro || sameBlock))

/-- A write stands before another in the order of R119, or holds a stored unit of it (R177): an earlier write of the same
block until it has ended, any other of the same codeword from its release until its commit. -/
def State.holdsBack (s : State) (id : Nat) (r : Req) (k : Nat) (w : Req) : Bool :=
  k != id && w.op.isWrite && !w.late && s.sameUnit w r &&
    (if w.block = r.block then k < id || w.planned else w.planned && !w.visible)

/-- No earlier write and no repair holds a stored unit of the write (R119, R177, R445). -/
def State.unheld (s : State) (id : Nat) (r : Req) : Bool :=
  !r.op.isWrite ||
    ((s.reqs.all fun kv => !s.holdsBack id r kv.1 kv.2) &&
     !(s.ras.work.any fun w => (s.writeLocs r).any w.holds))

/-- A write with RO = 0 becomes visible after every earlier write of its port (R279 rule 1). -/
def State.visibleOrder (s : State) (id : Nat) (r : Req) (at_ : Bool × Nat × Nat) : Bool :=
  r.ro || (s.earlier id r).all fun e =>
    !e.open_ || (!e.flyingW.isEmpty && e.visibleAfter (e.phases.drop 1) &&
      match e.issued with
      | some q => commitsBy q at_
      | none => false)

/-- The gap after the read whose data the round needs (R178). -/
def gapOk (last : Option (Bool × Nat × Nat)) (at_ : Bool × Nat × Nat) : Bool :=
  match last with
  | none => true
  | some (true, p, k) => match at_ with
    | (true, p', k') => p < p' || (p == p' && k + 11 ≤ k')
    | (false, p', _) => p < p'
  | some (false, p, k) => match at_ with
    | (false, p', k') => p + 1 < p' || (p + 1 == p' && k + 30 ≤ k')
    | (true, p', _) => p + 2 ≤ p'

/-- A request touches an overflow entry. -/
def State.touchesEntry (s : State) (r : Req) : Bool :=
  r.entry.isSome || match s.ext? r.ext with
    | some x => (x.entryOf r.block).isSome
    | none => false

/-- A round accesses the far tier. -/
def Phase.isFar (ph : Phase) : Bool :=
  match ph with
  | .read ls => ls.any fun l => l.home.1 == .far
  | .write is => is.any fun i => i.loc.home.1 == .far
  | .gen => false

def Phase.isWrite (ph : Phase) : Bool := match ph with | .write _ => true | _ => false

/-- Last start pick of a host request after its arrival (R280). -/
def State.lastStart (s : State) (r : Req) : Nat :=
  if s.touchesEntry r then 7
  else if r.op.isWrite && r.phases.any (fun ph => ph.isFar && !ph.isWrite) then 8
  else 10

/-- The first access may still issue (R280); Shuttle requests have no ceiling. -/
def State.inTime (s : State) (r : Req) : Bool :=
  r.started || r.port.isNone || (!r.late && s.time.pick ≤ r.arrival + s.lastStart r)

/-- A write may need a far access: its block is far-resident or has an overflow entry, or its extent is protected. -/
def State.needsFar (s : State) (r : Req) : Bool :=
  !r.near || s.touchesEntry r || (s.ext? r.ext).any fun x => x.prot != .none

/-- The descriptor that runs on an engine is a PULL. -/
def State.pulls (s : State) (e : Nat) : Bool := ((s.engine e).bind (·.cur)).any fun c => c.d.kind == 3

/-- What a brace that began in pick `b` lets issue: from pick `b` + 1 no far write, and no first access of a host's write that
needs a far one (spec/17_reset_power.md R459); of an engine only what it had begun, and near writes of blocks that a COPY has
read and near write-backs (spec/12_shuttles.md R324). -/
def State.braceOk (s : State) (r : Req) : Bool :=
  let ph := r.phases.headD .gen
  let after := decide (s.power.bracePick < s.time.pick)
  !s.power.braced ||
    (!(after && ph.isWrite && ph.isFar) &&
      (r.started || match r.origin with
        | .host .. => !(after && r.op.isWrite && s.needsFar r)
        | .shuttle e _ => r.op.isWrite && !s.pulls e && !s.needsFar r
        | .fetch .. => false
        | .list .. | .bolt .. => !s.needsFar r))

/-- The next round of a request may take a position: a write has been released. -/
def State.ready (s : State) (id : Nat) (r : Req) (at_ : Bool × Nat × Nat) : Bool :=
  s.inTime r && s.braceOk r && gapOk r.lastRead at_ &&
    (r.planned || s.orderOk id r) &&
    (!(r.op.isWrite && (r.phases.headD .gen).isWrite && r.visibleAfter (r.phases.drop 1)) || r.visible ||
      s.visibleOrder id r at_)

end Sys2Proof.Machine
end

