-- ==== Sys2Proof/Machine/Tier.lean ====
section
/-! DEFINITION. Tiering bookkeeping (spec/05_tiering.md): access counters, near frames, zero-on-read, fills, page copies. -/

namespace Sys2Proof.Machine

/-! ### Near frames (R130, R141) -/

/-- Runs of frames in use, as first frame and length: near pages, destinations of copies, frames to be overwritten. -/
def State.usedRuns (s : State) : List (Nat × Nat) :=
  (s.exts.flatMap fun kv =>
    (kv.2.pages.filter fun pg => pg.2.near).map (fun pg => (pg.2.slot, kv.2.frames)) ++
      (match kv.2.clear with | some c => c.frames.map fun f => (f.1, 1) | none => []) ++
      kv.2.looseFrames.map fun f => (f.1, 1)) ++
  s.tier.copies.filterMap fun kv =>
    match kv.2.kind with
    | .evict => none
    | _ => (s.ext? kv.2.ext).map fun x => (kv.2.dest, x.frames)

/-- Two runs of frames overlap. -/
def overlap (a b : Nat × Nat) : Bool := a.1 < b.1 + b.2 && b.1 < a.1 + a.2

/-- A run is free. -/
def runFree (used : List (Nat × Nat)) (r : Nat × Nat) : Bool := used.all fun u => !overlap u r

/-- Smallest multiple of `f` that is at least `a`. -/
def alignUp (a f : Nat) : Nat := ceilDiv a f * f

/-- The lowest-numbered free aligned run of `f` frames of a section (R141 step 1): it starts at the section's first frame
or right after a run in use. -/
def State.freeRun (s : State) (sec f : Nat) : Option Nat :=
  let used := s.usedRuns
  let lo := sec * framesPerSection
  let cands := (alignUp lo f :: used.map fun u => alignUp (u.1 + u.2) f).filter fun a =>
    lo ≤ a && a + f ≤ lo + framesPerSection && runFree used (a, f)
  cands.foldl (fun best a => match best with | none => some a | some b => some (min a b)) none

/-- An evictable page (R140). -/
def State.evictable (s : State) (p : Page) : Bool :=
  p.near && !p.pin && p.st == .settled && !p.zor && p.last + s.tier.policy.horizon < s.tier.beats

/-- The near pages of a section: extent, page, entry, frames. -/
def State.nearPages (s : State) (sec : Nat) : List (Nat × Nat × Page × Nat) :=
  s.exts.flatMap fun kv =>
    (kv.2.pages.filter fun pg => pg.2.near && frameSection pg.2.slot == sec).map fun pg => (kv.1, pg.1, pg.2, kv.2.frames)

/-- A candidate run for eviction: first frame, most recent access, victims. -/
structure VictimRun where
  start   : Nat
  last    : Nat
  victims : List (Nat × Nat)
deriving DecidableEq, Repr

/-- The run of R141 step 2: only free frames and evictable pages; the most recently accessed page the oldest; the lower
first frame on a tie. -/
def State.victimRun (s : State) (sec f : Nat) : Option VictimRun :=
  let pages := s.nearPages sec
  let used := s.usedRuns
  let cands := pages.filterMap fun pg =>
    let start := pg.2.2.1.slot / f * f
    let inRun := pages.filter fun q => overlap (q.2.2.1.slot, q.2.2.2) (start, f)
    let others := used.filter fun u => overlap u (start, f) && !(inRun.any fun q => q.2.2.1.slot == u.1 && q.2.2.2 == u.2)
    if others.isEmpty && inRun.all (fun q => s.evictable q.2.2.1) then
      some { start := start, last := (inRun.map fun q => q.2.2.1.last).foldl max 0
             victims := inRun.map fun q => (q.1, q.2.1) : VictimRun }
    else none
  cands.foldl (fun best c =>
    match best with
    | none => some c
    | some b => if c.last < b.last ∨ (c.last = b.last ∧ c.start < b.start) then some c else some b) none

/-! ### Access counters (R136, R139) -/

/-- An access updates the last-access beat, or the pending one of a page under way, and cancels a pending eviction
(R131, R136, R154). -/
def State.touch (s : State) (e p : Nat) : State :=
  s.modPage e p fun pg =>
    if pg.near || pg.st != .settled || pg.pin then { pg with last := s.tier.beats, evict := false } else pg

/-- The halving of every counter that a beat boundary left due (R137): nothing once it has taken place. -/
def State.halve (s : State) : State :=
  if s.tier.ageDue then
    (s.setExts (Table.mapV s.exts fun _ x =>
        { x with counters := (x.counters.map fun kv => (kv.1, kv.2 / 2)).filter fun kv => kv.2 != 0 })).modTier
      fun t => { t with ageDue := false }
  else s

/-- An access that advances the counter (R136) and may queue a promotion (R139), after a halving that is due (R137). -/
def State.countAccess (s0 : State) (e p : Nat) : State :=
  let s := s0.halve
  match s.ext? e with
  | none => s
  | some x =>
    let n := min 255 (Table.getD x.counters p 0 + 1)
    let s1 := (s.modExt e fun x => { x with counters := Table.set x.counters p n }).touch e p
    let pg := s1.page e p
    if !pg.near && pg.st == .settled && !pg.zor && x.promoteEn && n ≥ s.tier.policy.threshold then
      if s1.tier.queue.length ≥ 1024 then s1.modTier fun t => { t with dropped := t.dropped + 1 }
      else
        (s1.modPage e p fun pg => { pg with st := .queued, last := s.tier.beats }).modTier
          fun t => { t with queue := t.queue ++ [{ ext := e, page := p }] }
    else s1

/-! ### Page copies (R152, R154) -/

/-- The copy of a page in flight. -/
def State.copyOf (s : State) (e p : Nat) : Option (Nat × Copy) :=
  s.tier.copies.find? fun kv => kv.2.ext == e && kv.2.page == p

/-- Drop a copy. -/
def State.dropCopy (s : State) (c : Nat) : State := s.modTier fun t => { t with copies := Table.erase t.copies c }

/-- A copy starts again from its first block. -/
def Copy.restart (c : Copy) : Copy := { c with next := 0, held := [], part := [], wr := 0, poison := 0, done := false }

/-- A run of near frames for which a promotion or a pin waits: first frame and length (R141, R144). -/
def State.waitedRuns (s : State) : List (Nat × Nat) :=
  let frames := fun (e : Nat) => match s.ext? e with | some x => x.frames | none => 0
  s.tier.queue.filterMap (fun q => q.wait.map fun r => (r, frames q.ext)) ++
    s.pins.filterMap fun kv => kv.2.wait.map fun r => (r, frames kv.2.ext)

/-- Pages marked for an eviction that nothing waits for any more are unmarked: no page is evicted but to make room (R141). -/
def State.sweepMarks (s : State) : State :=
  let runs := s.waitedRuns
  s.setExts (Table.mapV s.exts fun _ x => { x with pages := x.pages.map fun pg =>
    if pg.2.evict && !(runs.any fun r => overlap r (pg.2.slot, x.frames)) then (pg.1, { pg.2 with evict := false }) else pg })

/-- The clear of an extent over every stored unit (spec/13_isolation_crypto.md R339). -/
def Extent.startClear (x : Extent) (order : Nat) (frames : List (Nat × Nat)) : Extent :=
  let far := (groupsOf x.groups).map fun g => (g, x.unitBase g * 3072)
  let c : Clear := { order := order, far := far, skip := [], frames := frames }
  { x with clear := some c }

/-- SAFE loses how far the overwrite of an extent that clears has come (spec/17_reset_power.md R468). -/
def Extent.clearAgain (x : Extent) : Extent :=
  match x.st, x.clear with
  | .clearing, some c => x.startClear c.order (c.frames.map fun f => (f.1, 0))
  | _, _ => x

/-- Frames of a page's run, each still to be overwritten from its first codeword. -/
def runFrames (slot n : Nat) : List (Nat × Nat) := (List.range n).map fun i => (slot + i, 0)

/-- Start a fill of a page that is zero-on-read: fill-table entry, STATE ZFILL (R133, R135); nothing where the table is full
or a write has taken an entry for the page. -/
def State.startFill (s : State) (e p : Nat) : State :=
  match Table.free s.tier.fills 64, s.fillOf e p with
  | none, _ | _, some _ => s
  | some i, none =>
    (s.modTier fun t => { t with
      fills := Table.set t.fills i { ext := e, page := p, bits := 0, order := t.nextCopy }
      nextCopy := t.nextCopy + 1 }).modPage e p fun pg => { pg with zor := false, st := .zfill }

/-- A fill with every bit set ends: STATE returns to SETTLED and the entry is freed (R133). -/
def State.endFill (s : State) (e p : Nat) : State :=
  match s.tier.fills.find? fun kv => kv.2.ext == e && kv.2.page == p with
  | some (i, f) =>
    if f.bits = BitVec.allOnes 256 ∧ f.owed.isEmpty then
      (s.modTier fun t => { t with fills := Table.erase t.fills i }).modPage e p fun pg => { pg with st := .settled }
    else s
  | none => s

/-- Unfix the rounds of requests to a page that has become zero-on-read: such a write is a first write of the page, to the
tier that now holds it (R133, R154). -/
def State.unplan (s : State) (e p : Nat) : State :=
  let pg := s.page e p
  (s.setReqs (Table.mapV s.reqs fun _ r =>
      if r.ext == e && r.page == p && r.op.isWrite && !r.visible then
        { r with near := pg.near, slot := pg.slot, planned := false, phases := [], flying := [], flyingW := [], snap := [], got := []
                 entry := none, merged := none, lastRead := none, issued := none }
      else r))

/-- Work queued for the units of a page is dropped (R447). -/
def State.dropWork (s : State) (e p : Nat) : State :=
  s.modRas fun r => { r with work := r.work.filter fun w =>
    match w.unit with
    | some l => !((s.unitBlocks (s.useOf l)).any fun b => b.1 == e && b.2 / 256 == p)
    | none => true }

/-- ZOR is set on a page (R132, R135, R154). `clearing`: the released frames count in the extent's clear; else they are
clearing work that holds no CLEAR_PENDING (R339). -/
def State.zorPage (s : State) (e p : Nat) (clearing : Bool) : State :=
  match s.ext? e with
  | none => s
  | some x =>
    let pg := x.page p
    let s := s.dropWork e p
    let copy := s.copyOf e p
    let s := s.modTier fun t => { t with
      copies := t.copies.filter fun kv => !(kv.2.ext == e && kv.2.page == p)
      queue := t.queue.filter fun q => !(q.ext == e && q.page == p)
      fills := t.fills.filter fun kv => !(kv.2.ext == e && kv.2.page == p) }
    -- frames the page keeps: a pinned page, or the destination of its pin copy or move
    let (keep, slot, freed) : Bool × Nat × List (Nat × Nat) :=
      match copy with
      | some (_, c) =>
        let dest := runFrames c.dest x.frames
        match c.kind with
        | .pinCopy => if pg.pin then (true, c.dest, []) else (false, 0, dest)
        | .move => if pg.pin then (true, c.dest, runFrames pg.slot x.frames)
                   else (false, 0, dest ++ runFrames pg.slot x.frames)
        | .promote => (false, 0, dest)
        | .evict => (false, 0, runFrames pg.slot x.frames)
      | none => if pg.near then (if pg.pin then (true, pg.slot, []) else (false, 0, runFrames pg.slot x.frames))
                else (false, 0, [])
    let s := s.modExt e fun x =>
      let x := x.setPage p { zor := true, near := keep, pin := pg.pin, slot := slot, last := s.tier.beats
                             dirty := keep && x.prot == .none }
      let x := { x with ovf := x.ovf.filter fun kv => kv.1 / 256 != p }
      match x.clear, clearing with
      | some c, true => { x with clear := some { c with frames := c.frames ++ freed } }
      | _, _ => { x with
          looseFrames := x.looseFrames ++ freed
          looseOrder := if x.looseFrames.isEmpty then s.ras.clearOrder else x.looseOrder }
    let s := if freed.isEmpty then s else s.modRas fun r => { r with clearOrder := r.clearOrder + 1 }
    let s := (s.unplan e p).sweepMarks
    if keep then s.startFill e p
    else if pg.pin then (s.setPins (Table.mapV s.pins fun _ pn =>
        if !pn.done && pn.ext == e && pn.first ≤ p && p < pn.first + pn.pages && !pn.todo.contains p then
          { pn with todo := p :: pn.todo } else pn))
    else s

/-- ZOR is set on every page that has an entry; an unlisted page is zero-on-read already. -/
def State.zorPages (s : State) (e : Nat) (ps : List Nat) (clearing : Bool) : State :=
  ps.foldl (fun s p => s.zorPage e p clearing) s

/-- The pages of an extent that have an entry. -/
def State.listedPages (s : State) (e : Nat) : List Nat :=
  match s.ext? e with
  | some x => x.pages.map (·.1)
  | none => []

end Sys2Proof.Machine
end

