-- ==== Sys2Proof/Machine/Serve.lean ====
section
/-! DEFINITION. Serving requests: completion, what a committed write changes, which requests a position carries, and the
arrival of a host's transaction (spec/03_pool_extents.md R80 to R93, spec/04_compression.md R112 to R122,
spec/05_tiering.md R133 to R154, spec/10_host_link.md R278 to R283, spec/12_shuttles.md R312 to R316). -/

namespace Sys2Proof.Machine

/-! ### Leases (spec/03_pool_extents.md R85 to R88) -/

/-- The lease that covers a page and has taken effect. -/
def State.leaseAt (s : State) (e p : Nat) : Option (Nat × Lease) :=
  s.leases.find? fun kv => kv.2.ext == e && kv.2.first ≤ p && p < kv.2.first + kv.2.pages && kv.2.from_ ≤ s.time.pick

/-- A block is TORN. -/
def State.tornBlock (s : State) (e b : Nat) : Bool :=
  match s.leaseAt e (b / 256) with
  | some (_, l) => l.torn && !l.whole.contains b
  | none => false

/-- A lease that is not TORN keeps writers other than `p` out of a page. -/
def State.leasedAway (s : State) (e pg : Nat) (p : Option Nat) : Bool :=
  match s.leaseAt e pg with
  | some (_, l) => !l.torn && p != some l.holder
  | none => false

/-- Bytes of a block that a write sets. -/
def Req.coverage (r : Req) : Nat :=
  match r.op with
  | .wr256 => 2 ^ 256 - 1
  | .wr64 => (2 ^ 64 - 1) * 2 ^ (64 * r.quarter)
  | _ => r.mask.toNat * 2 ^ (64 * r.quarter)

/-- Pool bytes that a write sets. -/
def Req.bytesWritten (r : Req) : Nat :=
  match r.op with
  | .wr256 => 256
  | .wr64 => 64
  | _ => ((List.range 64).filter fun i => r.mask.toNat.testBit i).length

/-- A committed write takes its block out of TORN once every byte has been set; the lease ends with its last block (R88). -/
def State.untear (s : State) (r : Req) : State :=
  match s.leaseAt r.ext r.page with
  | some (n, l) =>
    if !l.torn || l.whole.contains r.block then s
    else
      let set := (Table.getD l.part r.block 0) ||| BitVec.ofNat 256 r.coverage
      if set = BitVec.allOnes 256 then
        let whole := r.block :: l.whole
        if whole.length = 256 * l.pages then (s.setLeases (Table.erase s.leases n))
        else s.modLease n fun l => { l with whole := whole, part := Table.erase l.part r.block }
      else s.modLease n fun l => { l with part := Table.set l.part r.block set }
  | none => s

/-! ### Shuttle blocks (spec/12_shuttles.md R312 to R316) -/

/-- Count leading blocks that have committed (R313). -/
def absorb : Nat → Nat → List Nat → Nat × List Nat
  | 0, d, c => (d, c)
  | n + 1, d, c => if c.contains d then absorb n (d + 1) (c.filter (· != d)) else (d, c)

/-- A block has committed, or left in a push. -/
def Cur.commit (c : Cur) (j : Nat) : Cur :=
  let (d, rest) := absorb (c.committed.length + 1) c.done (j :: c.committed)
  { c with done := d, committed := rest, inflight := c.inflight.filter (· != j) }

/-- A block has failed: the first failed block ends the descriptor (R313). -/
def Cur.failAt (c : Cur) (j st : Nat) : Cur :=
  let c := { c with inflight := c.inflight.filter (· != j) }
  match c.fail with
  | some (i, _) => if j < i then { c with fail := some (j, st) } else c
  | none => { c with fail := some (j, st) }

/-- Descriptor status of a completion status (R322). -/
def descStatus (st : Nat) : Nat :=
  if st = stPoison then 0x01 else if st = stDivergent then 0x02 else if st = stTorn then 0x03
  else if st = stUnmapped then 0x04 else if st = stOverflow then 0x06 else if st = stSafe then 0x0A else 0x05

/-- Add a request to the pool controller. -/
def State.addReq (s : State) (r : Req) : State :=
  ((s.setReqs (Table.set s.reqs s.nextReq r)).setNextReq (s.nextReq + 1))

/-- The port whose mailbox issued a job, for leases (R312). -/
def Job.port (j : Job) : Option Nat := match j.mbx with | .port p => some p | _ => none

/-- A block access of an engine at a pool address; none outside every extent (R312). -/
def State.engineReq (s : State) (origin : Origin) (op : ReqOp) (addr : Nat) (data : List Byte) (mask : W64) : Option Req :=
  (s.extentAt addr).map fun (e, x, off) =>
    let pg := x.page (off / 65536)
    { origin := origin, op := op, code := 0, ext := e, block := off / 256, quarter := off / 64 % 4, data := data, mask := mask
      ro := true, arrival := s.time.pick, near := pg.near, slot := pg.slot, gen := false : Req }

/-- Write a block for a descriptor (COPY or PULL): refused under a lease, or into a SEALED extent (R116, R312). -/
def State.engineWrite (s : State) (e j addr : Nat) (data : List Byte) : State :=
  let port := match s.engine e with | some job => job.port | none => none
  match s.engineReq (.shuttle e j) .wr256 addr data fullMask with
  | none => s.modCur e fun c => c.failAt j 0x04
  | some r =>
    let sealed_ := match s.ext? r.ext with | some x => x.sealed || x.sealing || x.st != .granted | none => true
    if s.leasedAway r.ext r.page port || sealed_ then s.modCur e fun c => c.failAt j 0x05
    else (s.countAccess r.ext r.page).addReq r

/-- A block access of an engine has ended. -/
def State.engineDone (s : State) (e j : Nat) (r : Req) (st : Nat) (data : Option (List Byte)) : State :=
  match s.engine e with
  | none => s
  | some job =>
    match job.cur with
    | none => s
    | some c =>
      if st != stOk then s.modCur e fun c => c.failAt j (descStatus st)
      else if r.op.isWrite then s.modCur e fun c => c.commit j
      else
        let beyond := match c.fail with | some (i, _) => decide (i < j) | none => false
        if beyond then s.modCur e fun c => { c with inflight := c.inflight.filter (· != j) }
        else if c.d.kind = 1 then s.engineWrite e j (c.d.dst + 256 * j) (data.getD [])
        else s.modCur e fun c => { c with out := Table.set c.out j (data.getD []) }

/-! ### Blocks of a bolt load (spec/13_isolation_crypto.md R349, R350) -/

/-- Change the bolt load that runs on an engine. -/
def State.modBolt (s : State) (e : Nat) (f : BoltJob → BoltJob) : State := s.modJob e fun j => { j with bolt := j.bolt.map f }

/-- A block of the image has been read; one that cannot be read counts as zero bytes (log entry 46). -/
def State.boltFetched (s : State) (e n : Nat) (data : Option (List Byte)) : State :=
  s.modBolt e fun b => { b with asked := b.asked.filter (· != n), buf := Table.set b.buf n (data.getD (zeros 256)) }

/-- The status of a load whose block write fails: a full overflow area gives NO_RESOURCE, a refused write DENIED; for a block that
cannot be written for another cause R350 names none: STATE (log entry 46). -/
def boltStatus (st : Nat) : Nat := if st = stOverflow then mNoResource else if st = stDenied then mDenied else mState

/-- A block write of the target has ended. -/
def State.boltWrote (s : State) (e n st : Nat) : State :=
  s.modBolt e fun b => { b with
    writes := b.writes.filter (· != n), bad := if st = stOk then b.bad else some (b.bad.getD (boltStatus st))
    plain := if st = stOk then b.plain else [] }

/-! ### Completion (spec/10_host_link.md R275, R280) -/

/-- Queue a completion on a port. -/
def State.pushCpl (s : State) (p : Nat) (c : Cpl) : State := s.modPort p fun q => { q with cpls := q.cpls ++ [c] }

/-- A write that ends with no effect gives back its place in the fill table (R134). -/
def State.leaveFill (s : State) (id : Nat) (r : Req) : State :=
  match s.fillOf r.ext r.page with
  | none => s
  | some i =>
    let zor := (s.page r.ext r.page).zor
    s.modTier fun t =>
      let t := { t with fills := Table.modify t.fills i fun f => { f with takers := f.takers.filter (· != id) } }
      match Table.get? t.fills i with
      | some f => if zor && f.takers.isEmpty then { t with fills := Table.erase t.fills i } else t
      | none => t

/-- First pick whose frame may carry a completion: LATE leaves in pick a + 12, with a FENCE that LATE writes have held until
then (R280); others leave in the next frame or later. -/
def State.leavesFrom (s : State) (r : Req) (st : Nat) : Nat :=
  if st = stLate then r.arrival + 12
  else if r.op = .fence ∧ r.arrival + 12 ≤ s.time.pick then s.time.pick
  else s.nextPick

/-- End a request with a status. -/
def State.finishReq (s : State) (id : Nat) (r : Req) (st : Nat) (data : Option (List Byte)) : State :=
  let s := ((s.leaveFill id r).setReqs (Table.erase s.reqs id))
  match r.origin with
  | .host p tag =>
    let ok := st == stOk
    let c : Cpl :=
      { tag := tag, status := st, data := if ok then data else none, arrival := r.arrival
        from_ := s.leavesFrom r st, fixed := r.op.isWrite || r.op == .mbxWr
        ext := some r.ext, ctx := r.ctx, rdBytes := if ok && !r.gen then (data.getD []).length else 0
        wrBytes := if ok && r.op.isWrite then r.bytesWritten else 0 }
    if r.orphan then s else s.pushCpl p c
  | .shuttle e j => s.engineDone e j r st data
  | .fetch e n => s.boltFetched e n (if st = stOk then data else none)
  | .bolt e n => s.boltWrote e n st
  | .list e i =>
    s.modJob e fun job => { job with back := job.back.filter fun b => b.1 != i }

/-! ### What a committed write changes -/

/-- Far bursts that a write commits to leave the set of a clear that has not reached them (R73, R339). -/
def Clear.leave (c : Clear) (locs : List Loc) : Clear :=
  locs.foldl (fun c l =>
    match l with
    | .far g j k =>
      match Table.get? c.far g with
      | some n =>
        let c := { c with owed := c.owed.filter (· != (g, j, k)) }
        if n ≤ k * 12 + j ∧ !c.skip.contains (g, j, k) then { c with skip := (g, j, k) :: c.skip } else c
      | none => c
    | .near _ _ => c) c

def State.leaveClear (s : State) (e : Nat) (locs : List Loc) : State :=
  s.modExt e fun x => { x with clear := x.clear.map fun c => c.leave locs }

/-- A write to a page whose copy or eviction is under way (R154). -/
def State.writeMeetsCopy (s : State) (r : Req) (at_ : Nat × Nat) : State :=
  match s.copyOf r.ext r.page, s.ext? r.ext with
  | some (k, c), some x =>
    match c.kind with
    | .evict => if x.prot = Prot.none then
        (s.dropCopy k).modPage r.ext r.page fun pg => { pg with st := .settled, dirty := true, evict := false }
      else s
    | kind =>
      if kind = .pinCopy ∧ c.aborts ≥ 3 then
        -- also to the destination where the block has been copied, and to what the copy has read of it
        let b := r.block % 256
        let form := s.seal x r.block false (encodeBlock x.cls x.src x.budget r.entry (r.merged.getD []))
        let part := x.cls == .plain && !r.whole
        let off := if part then 64 * r.quarter else 0
        let bytes := if part then slice form off 64 else form
        if b < c.wr then
          s.commitItem { loc := nearLoc x.cls x.budget c.dest b, off := nearOff x.cls x.budget b + off, bytes := bytes } at_
        else s.modTier fun t => { t with copies := Table.modify t.copies k fun c => { c with held := c.held.map fun h =>
          if h.1 == b then
            (h.1, h.2.1, patch h.2.2.1 off bytes, (List.range h.2.2.2.length).map fun i =>
              h.2.2.2.getD i false && !(decide (off ≤ 64 * i ∧ 64 * i < off + bytes.length)))
          else h } }
      else s.modTier fun t => { t with copies := Table.modify t.copies k fun c => { c.restart with aborts := c.aborts + 1 } }
  | _, _ => s

/-- The block leaves the damaged table where it has been rewritten, and its queued rebuild is dropped (R430, R432, R435). -/
def State.repairedBy (s : State) (x : Extent) (r : Req) : State :=
  if r.whole then
    let ls := (if r.near && blocksPerWord x.cls x.budget == 1 then [r.nearLoc x] else []) ++
      (if r.near && x.prot == .none then []
       else (List.range x.copies).flatMap fun c => (x.blockRefs r.page (r.block % 256)).map (x.burstLoc c))
    (s.undamage r.ext r.block).modRas fun ras => { ras with work := ras.work.filter fun w =>
      match w.unit with
      | some l => !ls.contains l
      | none => true }
  else if (s.ras.damaged.any fun d => d.ext == r.ext && d.block == r.block && !d.diverge) || s.unlistedBlock r.ext r.block then
    if (!r.near || s.blockClean x r.block true) && ((r.near && x.prot == .none) || s.blockClean x r.block false) then
      s.undamage r.ext r.block
    else s
  else s

/-- What becomes true when a write becomes visible: fill, DIRTY, generation, overflow bit, damage, leases, page copies. -/
def State.becomeVisible (s : State) (id : Nat) (r : Req) (at_ : Nat × Nat) : State :=
  match s.ext? r.ext with
  | none => s
  | some x =>
    let blk := r.merged.getD []
    let s := s.writeMeetsCopy r at_
    let s := match s.fillOf r.ext r.page with
      | some i =>
        (s.modTier fun t => { t with fills := Table.modify t.fills i fun f =>
          { f with bits := f.bits ||| BitVec.ofNat 256 (2 ^ (r.block % 256)), takers := f.takers.filter (· != id) } }).modPage
          r.ext r.page fun pg => if pg.zor then { pg with zor := false, st := .zfill } else pg
      | none => s
    let s := s.endFill r.ext r.page
    let s := s.modPage r.ext r.page fun pg => if r.near && pg.near && x.prot == .none then { pg with dirty := true } else pg
    let s := s.modExt r.ext fun x =>
      let x := x.bumpGen r.page
      let x := match r.entry with
        | some en => { x with ovf := Table.set x.ovf r.block en }
        | none => if x.cls = .satin then { x with ovf := Table.erase x.ovf r.block } else x
      match twillOf x.cls x.src with
      | some t => if twillLost t x.src.fmt blk then { x with nonfinite := satInc x.nonfinite } else x
      | none => x
    (s.repairedBy x r).untear r

/-! ### Going on after an access -/

/-- Marked write-backs of the units of a block's stored form: its slot of the codeword, or its bursts. -/
def State.markedForm (s : State) (x : Extent) (near : Bool) (b : Nat) : List WItem :=
  let n := storedSize x.cls x.budget / 64
  if near then
    let l := x.nearUnit b
    [{ loc := l, off := nearOff x.cls x.budget (b % 256), bytes := slice (s.stored l) (nearOff x.cls x.budget (b % 256)) (64 * n)
       mark := List.replicate n true : WItem }]
  else ((x.blockRefs (b / 256) (b % 256)).map (x.burstLoc 0)).map s.markedItem

/-- A malformed stored form counts as an uncorrectable unit of its block (R107, R109, R431): damage, then the rebuild of its
units where a source exists, else marked write-backs. -/
def State.malformedAt (s : State) (e b : Nat) (x : Extent) (near : Bool) : State :=
  if (s.damagedIn e b (!near)).isSome || s.unlistedBlock e b then s
  else
    let items := s.markedForm x near b
    let s := s.damageBlock e b (!near) false
    items.foldl (fun s i =>
      if s.ras.work.any fun w => w.unit == some i.loc then s
      else
        let w : RasWork := if !(s.sources i.loc).isEmpty && s.rebuildRoom i.loc then .rebuild i.loc 0 none none else .write i none
        s.modRas fun r => { r with work := r.work ++ [w] }) s

/-- A request has met a malformed form. -/
def State.foundMalformed (s : State) (x : Extent) (r : Req) : State := s.malformedAt r.ext r.block x r.near

/-- End a read with what its units gave; a block that has become DIVERGENT meanwhile gives DIVERGENT (spec/16_ras.md R440). -/
def State.endRead (s : State) (id : Nat) (r : Req) (x : Extent) : State :=
  if s.divergent r.ext r.block then s.finishReq id r stDivergent none
  else match s.blockGot r.ext x r r.got with
  | (some b, _) => s.finishReq id r stOk (some (r.pick b))
  | (none, malformed) => (if malformed then s.foundMalformed x r else s).finishReq id r stPoison none

/-- The contents that a partial write leaves, from what its reads gave; none: it completes POISON (R430). -/
def State.mergedGot (s : State) (r : Req) (x : Extent) : Option (List Byte) × Bool :=
  match x.cls with
  | .plain =>
    match s.formGot x r r.got with
    | some (form, marks) =>
      let m := if marks.length = 1 then marks.headD false else marks.getD r.quarter false
      if m && !r.coversQuarter then (none, false) else (some (r.merge form), false)
    | none => (none, false)
  | _ =>
    let (b, bad) := s.blockGot r.ext x r r.got
    (b.map r.merge, bad)

/-- A write goes on after a round (R120, R430, R435). -/
def State.advanceWrite (s : State) (id : Nat) (r : Req) (x : Extent) : State :=
  let base := s.baseReads x r
  if r.got.any fun i => i.ue && base.contains i.loc && !r.visible then s.finishReq id r stPoison none
  else if !r.phases.isEmpty then s
  else match r.merged with
    | some _ => s.finishReq id r stOk none
    | none =>
      match s.mergedGot r x with
      | (none, bad) => (if bad then s.foundMalformed x r else s).finishReq id r stPoison none
      | (some blk, _) =>
        match s.chooseEntry r.ext x r.block blk with
        | .full => s.finishReq id r stOverflow none
        | .fits => s.modReq id fun r => { r with merged := some blk, phases := s.writePhases x r blk none }
        | .entry n => s.modReq id fun r => { r with merged := some blk, entry := some n, phases := s.writePhases x r blk (some n) }

/-- A request goes on after a round has ended. -/
def State.advance (s : State) (id : Nat) : State :=
  match Table.get? s.reqs id with
  | none => s
  | some r =>
    match s.ext? r.ext with
    | none => s.finishReq id r stUnmapped none
    | some x =>
      if r.op.isWrite then s.advanceWrite id r x
      else if r.phases.isEmpty then s.endRead id r x
      else s

/-! ### Requests that need no position -/

/-- Data of a GEN window read: generations, page 0 first, four bytes each; 0 beyond the last page (spec/03 R78). -/
def Extent.genBytes (x : Extent) (off n : Nat) : List Byte :=
  (List.range n).map fun i =>
    let p := (off + i) / 4
    if p < x.pageCount then (toLe 4 (x.gen p).toNat).getD ((off + i) % 4) 0 else 0

/-- Generation bytes from offset `off` on with the generation of page `p` one higher. -/
def genBump (b : List Byte) (off p : Nat) : List Byte :=
  if off ≤ 4 * p ∧ 4 * p + 4 ≤ off + b.length then
    patch b (4 * p - off) (toLe 4 ((le (slice b (4 * p - off) 4) + 1) % 2 ^ 32))
  else b

/-- Serve a mailbox request of a port whose turn has come (R279 rule 5, R283). -/
def State.serveMbx (s : State) (id : Nat) (r : Req) : State :=
  match r.origin with
  | .host p _ =>
    let before := s.earlier id r
    let mbxFirst := before.all fun e => !(e.op == .mbxWr || (e.op == .mbxRd && r.op == .mbxWr))
    let writesDone := r.ro || before.all fun e => !e.unended
    if mbxFirst && writesDone then
      match r.op with
      | .mbxWr => s.finishReq id r stOk none |>.writeImage (.port p) r.off r.data
      | _ => s.finishReq id r stOk (some (s.imageBytes (.port p) r.off 256))
    else s
  | _ => s

/-- Take a place in the fill table for the first write to a page (R133). -/
def State.takeFill (s : State) (id : Nat) (r : Req) : State :=
  if !(r.op.isWrite && (s.page r.ext r.page).zor) then s
  else match s.fillOf r.ext r.page with
    | some i =>
      let take := fun (f : Fill) => if f.takers.contains id then f else { f with takers := f.takers ++ [id] }
      s.modTier fun t => { t with fills := Table.modify t.fills i take }
    | none => match Table.free s.tier.fills 64 with
      | some i => s.modTier fun t => { t with
          fills := Table.set t.fills i { ext := r.ext, page := r.page, bits := 0, takers := [id], order := t.nextCopy }
          nextCopy := t.nextCopy + 1 }
      | none => s

/-- A write is released to take its first access: its rounds and its overflow entry are fixed, it holds its stored unit, and it
has its place in the fill table (spec/04_compression.md R115, spec/05_tiering.md R133, spec/06_memory_channels.md R177). -/
def State.planWrite (s : State) (id : Nat) (r : Req) : State :=
  (s.takeFill id r).modReq id fun _ => { r with planned := true }

/-- A read that meets a block lost to a failed channel records it as damaged, with no event of its own (spec/16_ras.md R434,
R437). -/
def State.lostRead (s : State) (r : Req) : State :=
  match s.ext? r.ext with
  | some x =>
    if r.op.isRead && !r.gen && s.blockLost x r && !(s.zeroBlock r.ext r.block) && (s.damagedIn r.ext r.block true).isNone &&
        !(s.unlistedBlock r.ext r.block) then
      s.damageBlock r.ext r.block true true
    else s
  | none => s

/-- Release a request once the order rules and the holds allow it: one that takes no tier access completes, a write has its
rounds fixed. -/
def State.pumpOne (s : State) (id : Nat) : State :=
  match Table.get? s.reqs id with
  | none => s
  | some r =>
    match r.op with
    | .fence => if (s.earlier id r).all fun e => !e.unended then s.finishReq id r stOk none else s
    | .mbxRd | .mbxWr => s.serveMbx id r
    | _ =>
      if r.planned || r.late || !(s.orderOk id r && s.unheld id r) then s
      else match s.release r with
        | .finish st d => (s.lostRead r).finishReq id r st d
        | .go r' => if r.op.isWrite then s.planWrite id r' else s
        | .wait => s

/-- Complete whatever needs no access, in request order. -/
def State.pump (s : State) : State := (s.reqs.map (·.1)).foldl State.pumpOne s

/-! ### Positions (spec/06_memory_channels.md R162, R176) -/

/-- Units of the next round that lie in a section or group. -/
def Phase.mine (ph : Phase) (q : Position) : List Loc :=
  let here := fun (l : Loc) => l.home == (q.tier, q.unit)
  match ph with
  | .read ls => ls.filter here
  | .write is => ((is.map (·.loc)).filter here).eraseDups
  | .gen => if q.tier = .near then [.near q.unit metaWord] else []

/-- The first units on distinct lanes: those that share one position. -/
def oneEachLane (ls : List Loc) : List Loc :=
  ls.foldl (fun acc l => if acc.any fun k => k.lane == l.lane then acc else acc ++ [l]) []

/-- The round with some of its units issued. -/
def Phase.without (ph : Phase) (ls : List Loc) : Phase :=
  match ph with
  | .read us => .read (us.filter fun u => !ls.contains u)
  | .write is => .write (is.filter fun i => !ls.contains i.loc)
  | .gen => .read []

/-- A far burst wakes its rank and counts the rank as used in this pick (R175); the ranks of a failed channel stay powered down
(spec/16_ras.md R436). -/
def State.useRanks (s : State) (ls : List Loc) : State :=
  let rs := (ls.filterMap fun l => match l with
    | .far g j k => if s.locFailed l then none else some (rankIndex g j k)
    | _ => none).eraseDups
  (s.setFar ({ s.far with down := s.far.down.filter fun r => !rs.contains r, used := (s.far.used ++ rs).eraseDups }))

/-- A read that takes its first position: a GEN read takes the generations as they stand there (spec/03_pool_extents.md R93),
a read of a block fixes the overflow entry that it follows. -/
def State.firstRead (s : State) (r : Req) : Req :=
  match s.ext? r.ext with
  | some x => if r.started || !r.op.isRead then r
    else if r.gen then { r with merged := some (x.genBytes r.off (if r.op = .rd64 then 64 else 256)) }
    else s.followEntry x r
  | none => r

/-- Units of read rounds. -/
def readUnitsOf (phs : List Phase) : List Loc := phs.flatMap fun ph => match ph with | .read us => us | _ => []

/-- Units whose bytes a request takes with a position. The reads of a write take what they read: its unit is held. A read takes
the whole block with its first position, so that it never sees half of a write, and its overflow entry anew with that one's own
position while the block still has it (R119, R173, R177). -/
def State.snapLocs (s : State) (r : Req) (ls : List Loc) : List Loc :=
  if r.op.isWrite then ls
  else if !r.started then (ls ++ readUnitsOf r.phases).eraseDups
  else if r.phases.length = 1 ∧ r.entry.isSome ∧ (s.ext? r.ext).any fun x => s.entryNow x r == r.entry then ls
  else []

/-- Issue units of a request's next round at a position: reads take the bytes that earlier positions left, writes leave theirs
for later ones (spec/06_memory_channels.md R163, R173). -/
def State.issueUnits (s : State) (id : Nat) (r0 : Req) (ls : List Loc) (at_ : Bool × Nat × Nat) : State :=
  let r := s.firstRead r0
  let ph := r.phases.headD .gen
  let items := match ph with
    | .write is => is.filter fun i => ls.contains i.loc
    | _ => []
  let reads := match ph with
    | .write _ => []
    | _ => ls
  let taken := if reads.isEmpty then [] else s.snapLocs r reads
  let snap := taken.map (fun l => (l, s.stored l)) ++ r.snap.filter fun x => !taken.contains x.1
  let s := (s.useRanks ls).commitItems items (at_.2.1, at_.2.2)
  s.modReq id fun _ => { r with
    phases := ph.without ls :: r.phases.drop 1, flying := r.flying ++ reads, flyingW := r.flyingW ++ items, snap := snap
    issued := some at_, started := true, planned := true }

/-- Consider one request of the position's owner: oldest first, one access for each lane (R162, R176). A ready access that
finds a lane taken keeps its other lanes from younger ones. -/
def State.issueOne (q : Position) (acc : State × List Nat) (id : Nat) : State × List Nat :=
  let (s, used) := acc
  match Table.get? s.reqs id with
  | none => acc
  | some r0 =>
    let at_ := (q.tier == .near, s.time.pick, q.pos)
    match s.released r0 with
    | none => acc
    | some r =>
      match r.phases with
      | [] => acc
      | ph :: _ =>
        let ls := oneEachLane (ph.mine q)
        if ls.isEmpty || !s.ready id r at_ then acc
        else if ls.any fun l => used.contains l.lane then (s, used ++ ls.map Loc.lane)
        else (s.issueUnits id r ls at_, used ++ ls.map Loc.lane)

/-- Requests of an owner code: a port, or an engine (spec/02_beats_and_tieup.md R54). -/
def Req.ownerCode (r : Req) : Nat :=
  match r.origin with
  | .host p _ => p + 1
  | .shuttle e _ | .list e _ | .fetch e _ | .bolt e _ => 8 + e

/-- The position carries accesses of its owner. -/
def State.issueAt (s : State) (q : Position) (code : Nat) (used : List Nat) : State × List Nat :=
  ((s.reqs.filter fun kv => kv.2.ownerCode == code).map (·.1)).foldl (State.issueOne q) (s, used)

/-- A read round whose units have all issued is delivered (R163, R173): earliest in its pick near, in the next far. -/
def Req.readDue (r : Req) (pick : Nat) : Bool :=
  !r.flying.isEmpty && (match r.phases with | .read [] :: _ => true | _ => false) &&
    match r.issued with
    | some (near, p, _) => if near then p ≤ pick else p + 1 ≤ pick
    | none => false

/-- A write round whose units have all issued commits (R163, R173). -/
def Req.writeDue (r : Req) (pick : Nat) : Bool :=
  !r.flyingW.isEmpty && (match r.phases with | .write [] :: _ => true | _ => false) &&
    match r.issued with
    | some (near, p, _) => if near then p ≤ pick else p + 1 ≤ pick
    | none => false

/-- What a read took of a unit at its position. -/
def Req.taken (r : Req) (s : State) (l : Loc) : List Byte :=
  match r.snap.find? fun x => x.1 == l with
  | some x => x.2
  | none => s.stored l

/-- Stored bytes with the errors of an access: those that meet its unit number `n`. -/
def flipped (b : List Byte) (errs : List CellError) (n : Nat) : List Byte :=
  (errs.filter fun e => e.unit == n).foldl (fun b e => List.modifyAt b e.off (· ^^^ e.flip)) b

/-- One unit of a read round is delivered. Errors of the array stand in what the read took, and in the array where no later
write has replaced it. -/
def State.deliverUnit (s : State) (r : Req) (errs : List CellError) (n : Nat) (l : Loc) : State × RItem :=
  let b := r.taken s l
  let b' := flipped b errs n
  let s := if b' ≠ b ∧ s.stored l = b then s.setStored l b' else s
  s.deliver l b'

/-- Deliver the units of a read round: what they held at their position. -/
def State.deliverRound (s : State) (id : Nat) (r : Req) (errs : List CellError) : State :=
  let (s, items) := (List.range r.flying.length).foldl (fun acc n =>
    match r.flying[n]? with
    | some l => let (s', i) := acc.1.deliverUnit r errs n l
                (s', acc.2 ++ [i])
    | none => acc) (s, ([] : List RItem))
  (s.modReq id fun r => { r with
    got := r.got ++ items, flying := [], phases := r.phases.drop 1, lastRead := r.issued }).advance id

/-- A GEN read is delivered: the generations as they stood at its position (R93). -/
def State.deliverGen (s : State) (id : Nat) (r : Req) : State :=
  match s.ext? r.ext with
  | some _ => s.finishReq id r stOk r.merged
  | none => s.finishReq id r stUnmapped none

/-- A write of an extent whose position comes before that of a GEN read has still to commit: the read waits for it (R93). -/
def State.genWaits (s : State) (r : Req) : Bool :=
  s.reqs.any fun kv => kv.2.ext == r.ext && kv.2.op.isWrite && !kv.2.visible && !kv.2.flyingW.isEmpty &&
    kv.2.visibleAfter (kv.2.phases.drop 1) && match kv.2.issued, r.issued with
      | some a, some b => commitsBy a b
      | _, _ => false

/-- A write that becomes visible counts in the GEN reads that took a later position (R93). -/
def State.countInGen (s : State) (w : Req) : State :=
  s.setReqs (Table.mapV s.reqs fun _ r =>
    if r.gen && r.ext == w.ext && r.started && (match w.issued, r.issued with | some a, some b => commitsBy a b | _, _ => false) then
      { r with merged := r.merged.map fun b => genBump b r.off w.page }
    else r)

/-- Commit the units of a write round, whose bytes stand since their positions. -/
def State.commitRound (s : State) (id : Nat) (r : Req) : State :=
  let at_ := match r.issued with | some (_, p, k) => (p, k) | none => (s.time.pick, 0)
  let s := s.leaveClear r.ext (r.flyingW.map (·.loc))
  let rest := r.phases.drop 1
  let s := s.modReq id fun r => { r with flyingW := [], phases := rest }
  if !r.visible && r.visibleAfter rest then
    (((s.becomeVisible id r at_).countInGen r).modReq id fun r => { r with visible := true }).advance id
  else s.advance id

/-! ### Arrival (spec/03_pool_extents.md R80, spec/10_host_link.md R269 to R278) -/

/-- Fields of a request record (R269). -/
def recOpc (w : W64) : Nat := bits w.toNat 3 0
def recTag (w : W64) : Nat := bits w.toNat 15 4
def recRo (w : W64) : Bool := bit w.toNat 16
def recDir (w : W64) : Bool := bit w.toNat 17
def recAddr (w : W64) : Nat := w.toNat / 2 ^ 18 * 64

/-- Fields of an aperture entry (spec/03_pool_extents.md R77). -/
def Apt.base (a : Apt) : Nat := bits a.link.toNat 51 21 * 2 ^ 21
def Apt.en (a : Apt) : Bool := bit a.map.toNat 63
def Apt.wrEn (a : Apt) : Bool := bit a.map.toNat 62
def Apt.gen (a : Apt) : Bool := bit a.map.toNat 61
def Apt.ext (a : Apt) : Nat := bits a.map.toNat 55 46
def Apt.size (a : Apt) : Nat := bits a.map.toNat 45 23 + 1
def Apt.off (a : Apt) : Nat := bits a.map.toNat 22 0

/-- The entry covers a link address. -/
def Apt.covers (a : Apt) (addr : Nat) : Bool := a.en && a.base ≤ addr && addr < a.base + a.size * 2 ^ 21

/-- Outcome of the access checks: a refusing status, or the extent, whether through a GEN window, and the byte offset in the
extent's pool space or generation array (R78). -/
inductive Access where
  | refused (status : Nat)
  | served (ext : Nat) (gen : Bool) (off : Nat)
deriving DecidableEq, Repr

/-- The access checks of R80, in order, for a request that arrives now on port `p`. -/
def State.access (s : State) (p addr : Nat) (write : Bool) : Access :=
  if s.power.safe then .refused stSafe
  else match ((s.port p).active.find? fun kv => kv.2.covers addr).map (·.2) with
    | none => .refused stUnmapped
    | some a =>
      let off := addr - a.base + a.off * 2 ^ 21
      match s.ext? a.ext with
      | none => .refused stUnmapped
      | some x =>
        if !x.shares p s.time.pick then .refused stUnmapped
        else if write && !a.wrEn then .refused stDenied
        else if x.bound then .refused stDenied
        else if write && (x.sealed || x.sealing) then .refused stDenied
        else if a.gen then (if write then .refused stDenied else .served a.ext true off)
        else if write && s.leasedAway a.ext (off / 65536) (some p) then .refused stDenied
        else if !write && s.tornBlock a.ext (off / 256) then .refused stTorn
        else .served a.ext false off

/-- A host tag is outstanding on a port (R277). -/
def State.tagOut (s : State) (p tag : Nat) : Bool :=
  (s.reqs.any fun kv => kv.2.origin == .host p tag && !kv.2.orphan) || (s.port p).cpls.any fun c => c.tag == tag

/-- Complete a request that is refused at its arrival (R280). -/
def State.refuse (s : State) (p tag st : Nat) (fixed : Bool) : State :=
  s.pushCpl p { tag := tag, status := st, data := none, arrival := s.time.pick, from_ := s.nextPick, fixed := fixed }

/-- Count a protocol fault (R278). -/
def State.protoErr (s : State) (p : Nat) : State := s.modPort p fun q => { q with protoErr := satInc q.protoErr }

/-- A WRP whose mask is 0 (R278). -/
def emptyWrp (op : ReqOp) (data : List Byte) : Bool := op == .wrp && le (slice data 64 8) == 0

/-- A request record of opcode RD64, RD256, WR64, WR256, WRP or FENCE arrives (R80, R278). -/
def State.arriveReq (s : State) (p : Nat) (a : Arrival) (op : ReqOp) : State :=
  let tag := recTag a.rec_
  let addr := recAddr a.rec_
  let blockOp := op == .rd256 || op == .wr256
  -- a WRP with a mask of 0 is counted, whatever row of R80 then ends it
  let s := if !s.tagOut p tag && a.credit && !a.damaged && emptyWrp op a.data then s.protoErr p else s
  if s.tagOut p tag then s.protoErr p
  else if s.power.safe then s.refuse p tag stSafe (!op.isRead)
  else if !a.credit then (s.protoErr p).refuse p tag stDenied (!op.isRead)
  else if blockOp && addr % 256 != 0 then (s.protoErr p).refuse p tag stDenied (!op.isRead)
  else if a.damaged then s.refuse p tag stPoison (!op.isRead)
  else if op == .fence then
    s.addReq { origin := .host p tag, op := op, code := p + 1, ext := 1024, block := 0, quarter := 0, data := [], mask := 0
               ro := recRo a.rec_, arrival := s.time.pick, near := false, slot := 0, gen := false }
  else match s.access p addr op.isWrite with
    | .refused st => s.refuse p tag st (!op.isRead)
    | .served e gen off =>
      let pg := s.page e (off / 65536)
      let mask := BitVec.ofNat 64 (le (slice a.data 64 8))
      let r : Req := { origin := .host p tag, op := op, code := p + 1, ext := e, block := off / 256, quarter := off / 64 % 4
                       data := a.data, mask := mask, ro := recRo a.rec_, arrival := s.time.pick, near := pg.near
                       slot := pg.slot, gen := gen, off := off, ctx := (s.port p).ctx }
      ((if gen then s else s.countAccess e (off / 65536)).addReq r).pump

/-- An MBX record arrives (R278, R283). -/
def State.arriveMbx (s : State) (p : Nat) (a : Arrival) (write : Bool) : State :=
  let tag := recTag a.rec_
  let addr := recAddr a.rec_
  if s.tagOut p tag then s.protoErr p
  else if s.power.safe then s.refuse p tag stSafe write
  else if !a.credit || addr % 256 != 0 || addr ≥ 4096 then (s.protoErr p).refuse p tag stDenied write
  else if a.damaged then s.refuse p tag stPoison write
  else
    (s.addReq { origin := .host p tag, op := if write then .mbxWr else .mbxRd, code := p + 1, ext := 1024, block := 0
                quarter := 0, data := a.data.take 256, mask := 0, ro := recRo a.rec_, arrival := s.time.pick, near := false
                slot := 0, gen := false, off := addr }).pump

end Sys2Proof.Machine
end

