-- ==== Sys2Proof/Machine/Shuttle.lean ====
section
/-! DEFINITION. Shuttle engines: blocks of a descriptor, sealed segments, the end of descriptors and of jobs
(spec/12_shuttles.md R305 to R325). -/

namespace Sys2Proof.Machine

/-! ### Descriptor statuses (R322) -/

def dOk : Nat := 0x00
def dPoison : Nat := 0x01
def dTorn : Nat := 0x03
def dUnmapped : Nat := 0x04
def dDenied : Nat := 0x05
def dTimeout : Nat := 0x07
def dAborted : Nat := 0x08
def dAuthFail : Nat := 0x09
def dSafe : Nat := 0x0A
def dNotRun : Nat := 0x0B
def dBadDesc : Nat := 0x0C
def dPortLost : Nat := 0x0D

/-- Mailbox status of a job whose list a descriptor status stops (R322). -/
def stopStatus (d : Nat) : Nat :=
  if d = 0x05 then mDenied else if d = 0x06 then mNoResource else if d = 0x07 then mTimeout else if d = 0x08 then mAborted
  else if d = 0x0A then mSafe else if d = 0x0C then mBadArg else mState

/-! ### Reads that take effect in one act -/

/-- A read of a whole block for a reader that reads once, as one act: a descriptor list (R306), the length of a bolt image, a
draft container (spec/08_drafts.md R213). -/
def State.readNow (s : State) (e b : Nat) : State × Option (List Byte) :=
  match s.ext? e with
  | none => (s, none)
  | some x =>
    if s.zeroBlock e b then (s, some (zeros 256))
    else
      let pg := s.page e (b / 256)
      let r : Req :=
        { origin := .shuttle 8 0, op := .rd256, code := 0, ext := e, block := b, quarter := 0, data := [], mask := 0
          ro := true, arrival := s.time.pick, near := pg.near, slot := pg.slot, gen := false }
      if s.divergent e b || s.blockLost x r then (s, none)
      else
        let r := s.followEntry x { r with phases := s.readPhases x r }
        let locs := (readUnitsOf r.phases).eraseDups
        let (s, got) := (s.useRanks locs).readUnits locs
        (s, (s.blockGot e x r got).1)

/-- Bytes of a range of an extent; none where a block cannot be read. -/
def State.bytesNow (s : State) (e off len : Nat) : State × List (Option Byte) :=
  let first := off / 256
  let last := (off + len + 255) / 256
  let (s, bs) := (List.range (last - first)).foldl (fun acc i =>
    let (s', b) := acc.1.readNow e (first + i)
    (s', acc.2 ++ (match b with | some l => l.map some | none => List.replicate 256 none))) (s, [])
  (s, (bs.drop (off % 256)).take len)

/-- Shuttle reads of the blocks of a range count as accesses of their pages (spec/05_tiering.md R136). -/
def State.countBlocks (s : State) (e off len : Nat) : State :=
  (List.range ((off + len + 255) / 256 - off / 256)).foldl (fun s i => s.countAccess e ((off / 256 + i) / 256)) s

/-! ### Sealed segments (R319 to R321) -/

/-- Host block of data block `j` (R319). -/
def hostBlock (conf : Bool) (j : Nat) : Nat := if conf then 256 * (j / 255) + j % 255 else j

/-- Data blocks of segment `g` of a descriptor of `n` blocks. -/
def segBlocks (n g : Nat) : Nat := min 255 (n - 255 * g)

/-- Host block of the seal of segment `g`. -/
def sealBlock (n g : Nat) : Nat := 256 * g + segBlocks n g

/-- The IV of a segment: COUNTER, DIR, PORT and two zero bytes (R320). -/
def sealIv (ctr dir p : Nat) : List Byte := toLe 8 ctr ++ toLe 1 dir ++ toLe 1 p ++ zeros 2

/-- Bytes 0x10 to 0xFF of a seal block (R320). -/
def sealBody (ctr dir p blocks addr : Nat) : List Byte :=
  sealIv ctr dir p ++ toLe 4 blocks ++ toLe 8 addr ++ zeros 216

/-- Number under which the read of a segment's seal stands among a descriptor's reads. -/
def sealRead (g : Nat) : Nat := 2 ^ 32 + g

/-- Host block that a read of a descriptor fetches. -/
def readHostBlock (c : Cur) (n : Nat) : Nat :=
  if n ≥ 2 ^ 32 then sealBlock c.d.len (n - 2 ^ 32) else hostBlock c.conf n

/-- Lowest block that the failure of a read ends the descriptor at: a seal's segment is not written at all. -/
def readBlock (n : Nat) : Nat := if n ≥ 2 ^ 32 then 255 * (n - 2 ^ 32) else n

/-! ### Ends (R307, R308, R313, R322) -/

/-- Outstanding reads of an engine on a port. -/
def Port.readsOf (q : Port) (e : Nat) : List (Nat × ExpRead) := q.rdTags.filter fun kv => kv.2.engine == e

/-- Pool accesses of an engine's descriptor that have not ended. -/
def State.engineBusy (s : State) (e : Nat) : Bool :=
  s.reqs.any fun kv => match kv.2.origin with | .shuttle k _ => k == e | _ => false

/-- The engine's reads on the descriptor's port. -/
def State.pullsOut (s : State) (e : Nat) (c : Cur) : List (Nat × ExpRead) := (s.port c.d.port).readsOf e

/-- A push segment's seal has still to leave. -/
def Cur.sealDue (c : Cur) : Bool := c.conf && c.d.kind == 2 && !c.segCt.isEmpty && (c.done % 255 == 0 || c.done == c.d.len)

/-- The descriptor has ended: every block has moved, or every block before the first failed one (R313), and the seal of every
segment that has left whole (R319). -/
def State.curEnded (s : State) (e : Nat) (c : Cur) : Bool :=
  !s.engineBusy e && !c.sealDue &&
    match c.fail with
    | some (i, _) =>
      (s.pullsOut e c).all (fun kv => c.stop.isNone && readBlock kv.2.block ≥ i) && c.toRead.all (fun n => readBlock n ≥ i) &&
        (c.out.all fun kv => kv.1 ≥ i) && (c.inflight.all fun j => j ≥ i || c.d.kind == 3)
    | none => c.done == c.d.len

/-- Tags of reads that a descriptor leaves behind are not used again for 1,024 picks (R317). -/
def State.dropReads (s : State) (e : Nat) (c : Cur) : State :=
  s.modPort c.d.port fun q => { q with
    rdTags := q.rdTags.filter fun kv => kv.2.engine != e
    deadTags := (q.readsOf e).foldl (fun t kv => Table.set t kv.1 (s.time.pick + 1024)) q.deadTags }

/-- Record the end of descriptor `idx` of a job with a status and its count of leading blocks (R307, R308). -/
def Job.record (j : Job) (idx st done : Nat) (cont : Bool) : Job :=
  let bad := st != dOk
  let j := { j with
    ran := j.ran + 1, failed := j.failed + b2n bad, idx := idx + 1, cur := none
    firstIdx := if bad && j.firstIdx == 0xFFFF then idx else j.firstIdx
    firstSt := if bad && j.firstIdx == 0xFFFF then st else j.firstSt
    back := j.back ++ [(idx, st, done)] }
  if bad && (!cont || j.abort) then
    { j with stop := some st, idx := j.count
             back := j.back ++ (List.range (j.count - (idx + 1))).map fun i => (idx + 1 + i, dNotRun, 0) }
  else j

/-- Response body of SHUTTLE_RUN (spec/15_mailboxes.md R418). -/
def Job.body (j : Job) (e : Nat) : List Byte :=
  toLe 1 e ++ toLe 1 j.firstSt ++ toLe 2 j.ran ++ toLe 2 j.failed ++ toLe 2 j.firstIdx

/-- BOLT_ID as a response gives it: 0 before step 1 completes. -/
def BoltJob.id (b : BoltJob) : List Byte := if b.step = 1 then zeros 16 else slice b.header 0x20 16

/-- Response body of BOLT_LOAD: BOLT_ID and the step (spec/15_mailboxes.md R418). -/
def BoltJob.body (b : BoltJob) (step : Nat) : List Byte := b.id ++ toLe 1 step ++ zeros 7

/-- End the descriptor that runs, where it has ended. -/
def State.endDesc (s : State) (e : Nat) : State :=
  match s.engine e with
  | none => s
  | some j =>
    match j.cur with
    | none => s
    | some c =>
      if !s.curEnded e c then s
      else
        let st := match c.stop, c.fail with
          | some st, _ => st
          | none, some (_, st) => st
          | none, none => dOk
        let s := if c.d.kind = 3 then s.dropReads e c else s
        s.modJob e fun j => j.record c.idx st c.done (bit c.d.flags 0)

/-- An abort that finds no descriptor running ends the list (R323). -/
def State.abortIdle (s : State) (e : Nat) : State :=
  match s.engine e with
  | none => s
  | some j =>
    if j.abort && j.cur.isNone && j.bolt.isNone && j.idx < j.count then
      s.modJob e fun j => { j with
        stop := some dAborted, idx := j.count
        back := j.back ++ (List.range (j.count - j.idx)).map fun i => (j.idx + i, dNotRun, 0) }
    else s

/-- A write-back of the engine is on its way. -/
def State.listOut (s : State) (e : Nat) : Bool :=
  s.reqs.any fun kv => match kv.2.origin with | .list k _ => k == e | _ => false

/-- A SHUTTLE_ABORT whose job has ended: it waits for the job's own command to complete, or completes (R323 step 5). -/
def State.abortEnds (s : State) (e : Nat) (first : Bool) (m : Mbx) : State :=
  if first then s.modMbox m fun b => { b with wait := b.wait.map fun w => { w with what := .aborted e } }
  else s.markReady m mOk []

/-- A job ends: its command may complete, and after it every SHUTTLE_ABORT of the engine (R323 steps 4 and 5). -/
def State.freeEngine (s : State) (e : Nat) (w : WaitFor) (st : Nat) (body : List Byte) : State :=
  let first := s.isWaiting (· == w)
  let s := (s.readyWaiter w st body).modEngine e fun _ => none
  (s.waiting (· == .abort e)).foldl (fun s m => s.abortEnds e first m) s

/-- End a job whose write-backs are visible (R308, R323): SHUTTLE_RUN may complete, then SHUTTLE_ABORT. -/
def State.endJob (s : State) (e : Nat) : State :=
  match s.engine e with
  | none => s
  | some j =>
    if j.bolt.isNone && j.cur.isNone && j.idx == j.count && !s.listOut e && (j.back.isEmpty || j.dropBack) then
      let st := if j.abort then mAborted else match j.stop with | some d => stopStatus d | none => mOk
      s.freeEngine e (.shuttle e) st (j.body e)
    else s

/-- Carry an engine on after one of its events. -/
def State.settle (s : State) (e : Nat) : State := ((s.endDesc e).abortIdle e).endJob e

/-- Carry every engine on. -/
def State.settleAll (s : State) : State := (List.range 8).foldl State.settle s

/-- Stop the descriptor that runs on an engine: it issues no further block, its blocks and pull reads in flight finish, and it
ends with a status (R295, R323, R83). -/
def State.stopDesc (s : State) (e st : Nat) : State :=
  s.modCur e fun c => { c.failAt (c.toRead.foldl (fun a n => min a (readBlock n)) c.next) st with
    toRead := [], stop := some (c.stop.getD st) }

/-- Abort a job (R323): blocks in flight finish; the later descriptors do not run. -/
def State.abortJob (s : State) (e : Nat) : State :=
  ((s.modJob e fun j => { j with abort := true }).stopDesc e dAborted).settle e

/-- Every descriptor that runs on a port ends PORT_LOST; its reads are no longer outstanding (R297, R322). -/
def State.losePort (s : State) (p : Nat) : State :=
  (List.range 8).foldl (fun s e =>
    match s.engine e with
    | some j =>
      match j.cur with
      | some c =>
        if c.d.kind ≥ 2 ∧ c.d.port = p then
          let low := (s.pullsOut e c).foldl (fun a kv => min a (readBlock kv.2.block)) c.next
          let low := c.toRead.foldl (fun a n => min a (readBlock n)) low
          let low := if c.d.kind = 2 then min low c.done else low
          ((s.modCur e fun c => { c.failAt low dPortLost with toRead := [], out := [], segCt := [] }).dropReads e c).settle e
        else s
      | none => s
    | none => s) s

/-! ### Host completions of expander reads (R316, R317, R321) -/

/-- Write verified blocks of a pull. -/
def State.writePull (s : State) (e : Nat) (c : Cur) (js : List Nat) : State :=
  js.foldl (fun s j => s.engineWrite e j (c.d.dst + 256 * j) (Table.getD c.staged j [])) s

/-- A pull segment whose blocks and seal have all arrived is verified, then written (R320, R321). -/
def State.verifySegment (s : State) (e g : Nat) : State :=
  match s.engine e with
  | none => s
  | some job =>
    match job.cur with
    | none => s
    | some c =>
      let js := (List.range (segBlocks c.d.len g)).map fun i => 255 * g + i
      match Table.get? c.seals g with
      | none => s
      | some sl =>
        if !(js.all fun j => (Table.get? c.staged j).isSome) then s
        else
          let q := s.port c.d.port
          let ctr := le (slice sl 16 8)
          let ct := js.flatMap fun j => Table.getD c.staged j []
          let fits := slice sl 16 240 == sealBody ctr 1 c.d.port js.length (c.d.src + 256 * (256 * g)) && q.pullCtr < ctr
          let plain := match q.xferKey with
            | some k => gcmOpen k (sealIv ctr 1 c.d.port) (slice sl 16 240) ct (slice sl 0 16)
            | none => none
          match fits, plain with
          | true, some pt =>
            let c' := { c with staged := (List.range js.length).foldl (fun t i =>
              Table.set t (255 * g + i) (slice pt (256 * i) 256)) c.staged }
            (((s.modPort c.d.port fun q => { q with pullCtr := ctr }).modCur e fun _ => c').writePull e c' js).modCur e
              fun c => { c with staged := c.staged.filter fun kv => kv.1 / 255 != g, seals := Table.erase c.seals g }
          | _, _ => s.modCur e fun c => c.failAt (255 * g) dAuthFail

/-- Stage a block of a confidential pull, or its seal; write a block of a plaintext one. -/
def State.pullStore (s : State) (e n : Nat) (data : List Byte) (c : Cur) : State :=
  if n ≥ 2 ^ 32 then (s.modCur e fun c => { c with seals := Table.set c.seals (n - 2 ^ 32) data }).verifySegment e (n - 2 ^ 32)
  else if c.conf then (s.modCur e fun c => { c with staged := Table.set c.staged n data }).verifySegment e (n / 255)
  else s.engineWrite e n (c.d.dst + 256 * n) data

/-- Data of a pull read has arrived; data beyond the first failed block is not written. -/
def State.pullData (s : State) (e n : Nat) (data : List Byte) : State :=
  match s.engine e with
  | none => s
  | some job =>
    match job.cur with
    | none => s
    | some c =>
      match c.fail with
      | some (i, _) =>
        if readBlock n ≥ i then s.modCur e fun c => { c with inflight := c.inflight.filter (· != n) }
        else s.pullStore e n data c
      | none => s.pullStore e n data c

/-- The host completed the read of a pull block (R316): data that is OK, or the status that ends the descriptor. -/
def State.pullDone (s : State) (p tag st : Nat) (data : List Byte) : State :=
  match Table.get? (s.port p).rdTags tag with
  | none => s
  | some r =>
    let s := s.modPort p fun q => { q with rdTags := Table.erase q.rdTags tag }
    let s := if st = dOk then s.pullData r.engine r.block data
      else s.modCur r.engine fun c => c.failAt (readBlock r.block) st
    s.settle r.engine

end Sys2Proof.Machine
end

