-- ==== Sys2Proof/Machine/Ports.lean ====
section
/-! DEFINITION. Ports and slots: which record a port takes next, slot status bits, the loss of a host, the PORT reset, torn
leases (spec/10_host_link.md R278, spec/11_port_slots.md R290 to R298, spec/03_pool_extents.md R86 to R90,
spec/17_reset_power.md R452). -/

namespace Sys2Proof.Machine

/-! ### Records in port order (spec/10_host_link.md R269, R270) -/

def opcNull : Nat := 0x0
def opcRd64 : Nat := 0x1
def opcRd256 : Nat := 0x2
def opcWr64 : Nat := 0x3
def opcWr256 : Nat := 0x4
def opcWrp : Nat := 0x5
def opcFence : Nat := 0x6
def opcMbx : Nat := 0x7
def opcCpl : Nat := 0x8
def opcCplD : Nat := 0x9
def opcEvt : Nat := 0xA

/-- A host completion arrives (R278, R316, R317, R342): one that no read awaits, or whose slot was not opened for it, is
discarded and counted. -/
def State.arriveCpl (s : State) (p : Nat) (a : Arrival) (withData : Bool) : State :=
  let tag := recTag a.rec_
  let st := bits a.rec_.toNat 19 16
  match Table.get? (s.port p).rdTags tag with
  | none => s.protoErr p
  | some _ =>
    if !a.credit then s.protoErr p
    else if withData then
      if st != stOk then (s.protoErr p).pullDone p tag dDenied []
      else if a.damaged then s.pullDone p tag dPoison []
      else s.pullDone p tag dOk (slice a.data 0 256)
    else if st = stPoison then s.pullDone p tag dPoison []
    else if st = stUnmapped then s.pullDone p tag dUnmapped []
    else if st = stDenied then s.pullDone p tag dDenied []
    else (s.protoErr p).pullDone p tag dDenied []

/-- Take one record of a port. -/
def State.takeRecord (s : State) (p : Nat) (a : Arrival) : State :=
  let o := recOpc a.rec_
  if o = opcRd64 then s.arriveReq p a .rd64
  else if o = opcRd256 then s.arriveReq p a .rd256
  else if o = opcWr64 then s.arriveReq p a .wr64
  else if o = opcWr256 then s.arriveReq p a .wr256
  else if o = opcWrp then s.arriveReq p a .wrp
  else if o = opcFence then (s.arriveReq p a .fence).pump
  else if o = opcMbx then s.arriveMbx p a (recDir a.rec_)
  else if o = opcCpl then s.arriveCpl p a false
  else if o = opcCplD then s.arriveCpl p a true
  else s.protoErr p

/-- Take the record at the front of a port's arrivals if `want` holds of it. -/
def State.takeFront (s : State) (p : Nat) (want : W64 → Bool) : State :=
  match (s.port p).arrivals with
  | [] => s
  | a :: rest =>
    if want a.rec_ then (s.modPort p fun q => { q with arrivals := rest }).takeRecord p a else s

/-- Take every record that has arrived on a port. -/
def State.takeAll (s : State) (p : Nat) : State :=
  let as := (s.port p).arrivals
  as.foldl (fun s a => s.takeRecord p a) (s.modPort p fun q => { q with arrivals := [] })

/-- At the end of a pick, take the records of frames that ended in an earlier one. Those of a frame that ended in this pick may
still arrive in the next: a boundary can fall within an ingress frame (spec/10_host_link.md R289, log entry 40). -/
def State.takeOld (s : State) (p : Nat) : State :=
  let as := (s.port p).arrivals
  (as.filter fun a => a.pick < s.time.pick).foldl (fun s a => s.takeRecord p a)
    (s.modPort p fun q => { q with arrivals := as.filter fun a => !(a.pick < s.time.pick) })

/-! ### Slot status (spec/11_port_slots.md R303) -/

def stsDrainDone : Nat := 0
def stsPwrFault : Nat := 1
def stsButton : Nat := 2
def stsPresence : Nat := 3
def stsLink : Nat := 4

/-- Set a W1C bit of SLOT_STS; one that was clear and is enabled raises the slot's vector once. -/
def State.setSts (s : State) (p i : Nat) : State :=
  let old := (s.slot p).sts.toNat.testBit i
  let s1 := s.modSlot p fun t => { t with sts := t.sts ||| BitVec.ofNat 5 (2 ^ i) }
  if !old && (s.slot p).ie.toNat.testBit i then s1.raise (4 + p) else s1

def State.setSlot (s : State) (p : Nat) (st : SlotSt) : State := s.modSlot p fun t => { t with st := st }

/-- Cage power off (R292, R293). -/
def State.cageOff (s : State) (p : Nat) : State := s.modSlot p fun t => { t with pwrOn := false, pwrGood := false }

/-- Cage power on: the slot enters POWERING (R293). -/
def State.cageOn (s : State) (p : Nat) : State :=
  s.modSlot p fun t => { t with pwrOn := true, st := .powering, awaits := false }

/-- No request or completion of the current pick exists: the boundary at which the pick began has still to be passed by
traffic, so an effect boundary may be this one (R508). -/
def State.atBoundary (s : State) : Bool :=
  (s.reqs.all fun kv => kv.2.port.isNone || kv.2.arrival != s.time.pick) &&
    s.ports.all fun q => q.cpls.all fun c => c.arrival != s.time.pick

/-! ### Leases (spec/03_pool_extents.md R86 to R90) -/

/-- A port holds leases that are not TORN and whose LEASE_DROP has not been accepted. -/
def State.holdsLease (s : State) (p : Nat) : Bool :=
  s.leases.any fun kv => kv.2.holder == p && !kv.2.torn && !kv.2.dropping

/-- The lease becomes TORN: LEASE_TORN goes to every other UP port in PORT_SHARE of its extent (R87, R297 step 7). -/
def State.tearLease (s : State) (n : Nat) (l : Lease) : State :=
  let s := s.modLease n fun l => { l with torn := true, whole := [], part := [] }
  let s := match s.ext? l.ext with
    | some x => s.sendEvts (x.share &&& ~~~(portMask l.holder))
        { code := 0x030, p0 := BitVec.ofNat 32 n, p1 := BitVec.ofNat 64 (x.base + 65536 * l.first) }
    | none => s
  (s.setRasEvent 5).modRas fun r => { r with lastTorn := some n }

/-- Every lease that a lost port holds becomes TORN, except one that is being dropped. -/
def State.tearLeases (s : State) (p : Nat) : State :=
  let ls := s.leases.filter fun kv => kv.2.holder == p && !kv.2.torn && !kv.2.dropping
  ls.foldl (fun s kv => s.tearLease kv.1 kv.2) (s.modPort p fun q => { q with lossDue := false })

/-- Writes of a lost port that have still to commit (R297 step 2). -/
def State.orphanWrites (s : State) (p : Nat) : Bool :=
  s.reqs.any fun kv => kv.2.port == some p && kv.2.orphan && kv.2.open_

/-- End leases without making them TORN (R90): LEASE_DROP of one completes OK, LEASE_RESOLVE STATE. -/
def State.endLeases (s : State) (which : Lease → Bool) : State :=
  let gone := s.leases.filter fun kv => which kv.2
  let s := (s.setLeases (s.leases.filter fun kv => !which kv.2))
  gone.foldl (fun s kv => ((s.readyWaiter (.leaseDrop kv.1) mOk []).readyWaiter (.leaseResolve kv.1) mState []).readyWaiter
    (.leaseTake kv.1) mState []) s

/-! ### Loss of a host and PORT reset (spec/11_port_slots.md R297, spec/17_reset_power.md R452) -/

/-- Requests of a lost port: writes go on without a completion; a read that has issued finishes and its data is discarded;
everything else is dropped (R297 steps 2 and 3). -/
def Table.orphaned (t : Table Req) (p : Nat) : Table Req :=
  (t.filter fun kv => kv.2.port != some p || kv.2.orphan || kv.2.op.isWrite || (kv.2.op.isRead && kv.2.started)).map fun kv =>
    if kv.2.port == some p then (kv.1, { kv.2 with orphan := true }) else kv

/-- The mailbox of a lost port (R297 step 5): a command that the Umpire owns, accepted or still to be accepted, runs on and its
response is discarded; without one the image is zeroed at once. -/
def State.loseMailbox (s : State) (p : Nat) : State :=
  let m : Mbx := .port p
  let b := s.mbox m
  if b.accepted || s.umpire.queue.contains m then s.modMbox m fun b => { b with discard := true, spdm := {} }
  else s.modMbox m fun _ => { owner := !s.umpire.ready }

/-- A port as a PORT reset leaves it; apertures, attachment and the PRT counters are kept. -/
def Port.afterReset (q : Port) : Port :=
  { q with
    width := 0, txFrame := 0, rxFrame := none, grants := [], arrivals := [], cpls := [], evts := [], rdTags := []
    conf := false, confFrom := none, rekeyAt := none, keyE := none, keyI := none, keyINext := none, genE := 0, genI := 0
    keyPhase := false, xferKey := none, pushCtr := 0, pullCtr := 0, bounce := [], closed := false, hold := none
    badRun := 0, tagRun := 0, lastFrame := none }

/-- Steps 1 to 7 of R297 and the PORT reset. The leases become TORN at LEASE_TORN. -/
def State.portReset (s : State) (p : Nat) : State :=
  let up := s.linkUp p
  let s := if up then s.takeAll p else s
  let s := s.losePort p
  let held := s.holdsLease p
  let s := (s.setReqs (Table.orphaned s.reqs p))
  let s := s.loseMailbox p
  let s := s.modPort p fun q => { q.afterReset with lossDue := q.lossDue || held }
  let s := s.modSlot p fun t => { t with drain := none, drainPick := none, wake := false }
  if up then s.setSts p stsLink else s

/-- A POWER_OFF that waits for the slot ends with a status; its body is the slot state (R300, R422). -/
def State.endPowerOff (s : State) (p st : Nat) : State :=
  s.readyWaiter (.slot p) st (if st = mOk then toLe 1 (s.slot p).st.code ++ zeros 7 else [])

/-- A slot enters EMPTY: with APT_CLEAR its apertures go, in the store too (R298). -/
def State.slotEmptied (s : State) (p : Nat) : State :=
  let s := s.setSlot p .empty
  if (s.slot p).aptClear then
    (s.modPort p fun q => { q with active := [], staged := [], reserve := none }).modNor
      fun n => { n with apts := Table.erase n.apts p }
  else s

/-- The port loses its host by presence loss, a power fault or link failure: a drain in progress ends (R297). -/
def State.surpriseLoss (s : State) (p : Nat) : State :=
  let draining := (s.slot p).st == .draining
  let s := s.portReset p
  if draining then s.setSts p stsDrainDone else s

/-- Link failure (R265, R293): the slot trains again; a loss during DRAINING powers the cage off. In SAFE the PORT reset runs,
while the slot keeps its state and the link keeps running (R294). -/
def State.linkFailure (s : State) (p : Nat) : State :=
  if !s.linkUp p then s
  else if s.power.safe then
    let w := (s.port p).width
    (s.surpriseLoss p).modPort p fun q => { q with width := w }
  else
    let draining := (s.slot p).st == .draining
    let s := s.surpriseLoss p
    if draining then ((s.cageOff p).setSlot p .off).endPowerOff p mOk
    else s.setSlot p .training

end Sys2Proof.Machine
end

