-- ==== Sys2Proof/Machine/Safe.lean ====
section
/-! DEFINITION. SAFE entry and the open-drain pins (spec/17_reset_power.md R459 to R466). -/

namespace Sys2Proof.Machine

/-- ALERT_N follows its causes: a brace, the thermal or input condition, SAFE (R466). -/
def State.setAlert (s : State) : State :=
  s.modPower fun w => { w with alertN := !(w.braced || w.hot || w.inputAlert || w.safe) }

/-- SAFE meets the Loom: the draft that runs overruns with no replay, and every RUNNING draft is HALTED with cause OVERRUN
(spec/02_beats_and_tieup.md R46, R50; spec/17_reset_power.md R468). -/
def State.haltForSafe (s : State) (cause : Nat) : State :=
  let l := s.loom
  let counts := (l.kind == .issue && l.overrun.isNone) && match l.run with
    | some h => (Table.get? l.drafts h).any fun d => d.st == .running
    | none => false
  let row := l.overrun.getD (if cause = 0x06 then 4 else 5)
  let halt := fun (_ : Nat) (d : Draft) =>
    if d.st = .running then
      { d with st := .halted, cause := .overrun, ovrBeat := s.beatNow, ovrCause := row, stopDue := none, ending := false }
    else if d.st = .pending then { d with st := .loaded, starter := none }
    else d
  s.modLoom fun l => { l with
    drafts := Table.mapV l.drafts halt, overruns := if counts then satInc l.overruns else l.overruns
    extra := if l.kind == .recovery || l.overrun.isSome then satInc l.extra else l.extra
    pushes := [], nextPushes := [], accs := [], nextAccs := [], run := none, live := false, halted := counts || l.overrun.isSome }

/-- Shuttle jobs and bolt loads end SAFE: no write-back is made (spec/12_shuttles.md R324, spec/15_mailboxes.md R418). -/
def State.enginesSafe (s : State) : State :=
  (List.range 8).foldl (fun s e =>
    match s.engine e with
    | some j =>
      let s := match j.cur with
        | some c => if c.d.kind = 3 then s.dropReads e c else s
        | none => s
      let j := match j.cur with
        | some c => j.record c.idx dSafe c.done false
        | none => j
      let s := match j.bolt with
        | some b => s.readyWaiter (.bolt e) mSafe (b.body b.step)
        | none => s.readyWaiter (.shuttle e) mSafe (j.body e)
      s.modEngine e fun _ => none
    | none => s) s

/-- Every command that waits completes SAFE (spec/15_mailboxes.md R399). -/
def State.waitersSafe (s : State) : State :=
  s.modUmpire fun u => { u with mboxes := u.mboxes.map fun x =>
    match x.2.wait with
    | some w => if w.ready then x else (x.1, { x.2 with wait := some { w with ready := true, status := mSafe } })
    | none => x }

/-- Enter SAFE (R463 steps 1, 3 and 5); a later cause is only logged (R462). -/
def State.enterSafe (s : State) (cause : Nat) : State :=
  if s.power.safe then s.auditAppend { kind := 3, opcode := cause }
  else
    let s := (s.modPower fun w =>
      { w with safe := true, safeCause := cause, safeDue := true, safeN := false, braced := false, recoverDue := false }).setAlert
    -- BEAT_OUT is held low in SAFE entered through loss of beat sync (spec/02_beats_and_tieup.md R37)
    let s := if cause = 0x06 then s.modTime fun t => { t with beatOut := [0, 0] } else s
    let s := ((s.setEvent 1).fuseStop mSafe).haltForSafe cause |>.enginesSafe.waitersSafe
    let s := s.sendEvtAll { code := 0x050, p0 := BitVec.ofNat 32 cause, p1 := s.beatNow }
    s.auditAppend { kind := 3, opcode := cause }

/-- A request at the boundary where SAFE begins (R463 step 2): writes that took positions commit; a write whose last tier
write took a position completes OK; everything else completes SAFE. -/
def State.endForSafe (s : State) (id : Nat) (r : Req) : State :=
  if r.flyingW.isEmpty then s.finishReq id r stSafe none
  else
    let at_ := match r.issued with | some (_, p, k) => (p, k) | none => (s.time.pick, 0)
    let last := r.phases.drop 1 |>.isEmpty
    let all := match r.phases with | .write [] :: _ => true | _ => false
    let s := if !r.visible && all && r.visibleAfter (r.phases.drop 1) then s.becomeVisible id r at_ else s
    s.finishReq id r (if last && all then stOk else stSafe) none

/-- The first boundary of SAFE: accesses end, work stops, both tiers enter self-refresh, the Loom clocks stop (R463). Of the
completions that wait, those of committed writes and of refused ones stand; any other becomes SAFE (spec/10_host_link.md
R280). -/
def State.safeBoundary (s : State) : State :=
  let s := s.reqs.foldl (fun s kv => s.endForSafe kv.1 kv.2) s
  let s := (s.setPorts (s.ports.map fun (q : Port) => { q with
    cpls := q.cpls.map fun (c : Cpl) =>
      if c.fixed && (c.status == stOk || c.ext.isNone) then c else { c with status := stSafe, data := none } }))
  let s := s.modTier fun t => { t with copies := [], fills := [], queue := [] }
  let s := s.setExts (Table.mapV s.exts fun _ x => x.clearAgain)
  let s := s.modRas fun r => { r with work := [], nearPatrol := [], farPatrol := [] }
  let s := s.modLoom fun l => { l with clocked := false }
  s.modPower fun w => { w with safeDue := false, selfRefresh := true }

end Sys2Proof.Machine
end

