-- ==== Sys2Proof/Machine/Migration.lean ====
section
/-! DEFINITION. Migration: promotions, evictions, pins, page copies, fills, and the background work of the far controllers
(spec/05_tiering.md R132 to R157, spec/06_memory_channels.md R174 and R175, spec/13_isolation_crypto.md R339). One row
carries the whole work of its position (log entry 22). -/

namespace Sys2Proof.Machine

/-! ### Positions (spec/02_beats_and_tieup.md R52, spec/06_memory_channels.md R162) -/

/-- Accesses may take positions: not in SAFE from its first boundary on, not in self-refresh, not while the Umpire restarts
(spec/17_reset_power.md R451, R456, R463). -/
def State.tiersOpen (s : State) : Bool := (!s.power.safe || s.power.safeDue) && !s.power.selfRefresh && s.umpire.ready

/-- Scrub positions carry work: not in SAFE, not while STANDBY is requested (spec/17_reset_power.md R456, R463). -/
def State.scrubOn (s : State) : Bool := s.tiersOpen && !s.power.standby && !s.power.standbyReq && !s.power.safe

/-- Migration and fills run: a brace stops them as well (spec/05_tiering.md R153). -/
def State.backgroundOn (s : State) : Bool := s.scrubOn && !s.power.braced

/-- Writes of scrub positions of a tier: none to the far tier during a brace (spec/16_ras.md R447). -/
def State.scrubWrites (s : State) (t : Tier) : Bool := s.scrubOn && !(s.power.braced && t == .far)

/-- Lanes already used at a position; none where the pick has passed it. -/
def State.lanesAt (s : State) (q : Position) : Option (List Nat) :=
  match Table.get? (match q.tier with | .near => s.tie.nearNext | .far => s.tie.farNext) q.unit with
  | none => some []
  | some (k, used) => if q.pos < k then none else if q.pos = k then some used else some []

/-- Record the lanes that a position has used. -/
def State.useLanes (s : State) (q : Position) (used : List Nat) : State :=
  s.modTie fun t =>
    match q.tier with
    | .near => { t with nearNext := Table.set t.nearNext q.unit (q.pos, used) }
    | .far => { t with farNext := Table.set t.farNext q.unit (q.pos, used) }

/-- Every lane of a position. -/
def allLanes (q : Position) : List Nat := List.range (match q.tier with | .near => 512 | .far => 12)

/-- A position is of an owner and may still be used: the lanes it has used. -/
def State.positionOf (s : State) (q : Position) (code : Nat) : Option (List Nat) :=
  if s.tiersOpen && s.ownerAt q == code then s.lanesAt q else none

/-- The unit of a position holds a stored unit. -/
def posHolds (q : Position) (l : Loc) : Bool := l.home == (q.tier, q.unit)

/-- Units that all lie in the position's section or group, on lanes that are free, none twice. -/
def posFits (q : Position) (used : List Nat) (ls : List Loc) : Bool :=
  ls.all (fun l => posHolds q l && !used.contains l.lane) && (ls.map Loc.lane).eraseDups.length == ls.length

/-! ### Copies and fills in flight (R152) -/

/-- Copies that move data: a clean eviction moves none. -/
def Copy.active (c : Copy) : Bool := !c.done

/-- Numbers of the copies and fills in flight, in order of start. -/
def State.inFlight (s : State) : List (Nat × Bool) :=
  let cs := (s.tier.copies.filter fun kv => kv.2.active).map fun kv => (kv.1, true)
  let fs := (s.tier.fills.filter fun kv => (s.page kv.2.ext kv.2.page).st == .zfill).map fun kv => (kv.2.order, false)
  (sortBy (fun (a b : Nat × Bool) => a.1 < b.1) (cs ++ fs)).take 16

/-- A copy or fill may start. -/
def State.mayStart (s : State) : Bool := s.inFlight.length < 16

/-- Start a copy of a page to a run of near frames, or from one. -/
def State.startCopy (s : State) (e p : Nat) (kind : CopyKind) (dest src : Nat) : State :=
  s.modTier fun t => { t with
    copies := Table.set t.copies t.nextCopy { ext := e, page := p, kind := kind, dest := dest, src := src }
    nextCopy := t.nextCopy + 1 }

/-! ### Placement (R141, R144) -/

/-- Mark the pages of a run for eviction (R142). -/
def State.markVictims (s : State) (v : VictimRun) : State :=
  v.victims.foldl (fun s ep => s.modPage ep.1 ep.2 fun pg => { pg with evict := true }) s

/-- Pages that hold frames of a run. -/
def State.runPages (s : State) (start f : Nat) : List (Nat × Nat × Page × Nat) :=
  (s.nearPages (frameSection start)).filter fun q => overlap (q.2.2.1.slot, q.2.2.2) (start, f)

/-- A waiting promotion's evictions have not all ended, and none has been cancelled. -/
def State.stillWaits (s : State) (start f : Nat) : Bool :=
  let ps := s.runPages start f
  !ps.isEmpty && ps.all fun q => q.2.2.1.evict || q.2.2.1.st == .evicting

/-- Take a queued page out of the promotion queue; the evictions that it waited for alone are called off. -/
def State.unqueue (s : State) (e p : Nat) : State :=
  (s.modTier fun t => { t with queue := t.queue.filter fun q => !(q.ext == e && q.page == p) }).sweepMarks

/-- The run that a queued page waits for. -/
def State.setWait (s : State) (e p : Nat) (run : Option Nat) : State :=
  s.modTier fun t => { t with queue := t.queue.map fun r => if r.ext == e && r.page == p then { r with wait := run } else r }

/-- The run that a promotion or pin has waited for is free now. -/
def State.waitedFree (s : State) (wait : Option Nat) (f : Nat) : Option Nat :=
  wait.filter fun run => runFree s.usedRuns (run, f)

/-- Start the copy of a promotion (R141 step 1): STATE PROMOTING, NEAR_SLOT the destination. -/
def State.startPromotion (s : State) (e p run : Nat) (kind : CopyKind) : State :=
  ((s.unqueue e p).modPage e p fun pg => { pg with st := .promoting, slot := run }).startCopy e p kind run 0

/-- Place a queued page: the run that evictions have freed for it, or by R141 a free run, victims, or nothing. Marks of a
placement that has been called off go first. -/
def State.placePromo (s0 : State) (q : Promo) : State :=
  match s0.ext? q.ext with
  | none => s0.unqueue q.ext q.page
  | some x =>
    let h := x.targetSection q.page
    let s := (s0.setWait q.ext q.page none).sweepMarks
    match (match s0.waitedFree q.wait x.frames with | some run => some run | none => s.freeRun h x.frames) with
    | some run => s.startPromotion q.ext q.page run .promote
    | none => match s.victimRun h x.frames with
      | some v => (s.markVictims v).setWait q.ext q.page (some v.start)
      | none => ((s.unqueue q.ext q.page).modPage q.ext q.page fun pg => { pg with st := .settled }).modTier
          fun t => { t with blocked := t.blocked + 1 }

/-- The far group from which the copy of a page reads block 0. -/
def State.sourceGroup (s : State) (e p : Nat) : Option Nat :=
  (s.ext? e).bind fun x =>
    let refs := x.blockRefs p 0
    match refs.map (x.burstLoc (s.readCopy x refs)) with
    | .far g _ _ :: _ => some g
    | _ => none

/-- The promotion that a far migration position of a group places: the first that need not wait, and that reads there. -/
def State.nextPromo (s : State) (g : Nat) : Option Promo :=
  match s.tier.queue.find? fun q =>
      match q.wait with
      | some run => !(s.stillWaits run (match s.ext? q.ext with | some x => x.frames | none => 1))
      | none => true with
  | some q => if s.sourceGroup q.ext q.page = some g then some q else none
  | none => none

/-- PROMOTION_PLACE (R141). -/
def execPromotionPlace (g pos : Nat) (s : State) : Out :=
  .next <|
    if s.backgroundOn && s.farOwner s.pattern g pos == ownMigration && s.mayStart then
      match s.nextPromo g with
      | some q => s.placePromo q
      | none => s
    else s

/-- EVICTION_START (R142): a clean page needs no copy; a DIRTY one is copied near to far. R142 says only that a migration
position starts the eviction, also of a clean page, which moves nothing: the model takes one of the page's own section (DESIGN
CHOICE, log entry 23). -/
def execEvictionStart (e p : Nat) (q : Position) (s : State) : Out :=
  .next <|
    let pg := s.page e p
    if s.backgroundOn && s.ownerAt q == ownMigration && q.tier == .near && frameSection pg.slot == q.unit &&
        pg.evict && pg.near && !pg.pin && pg.st == .settled && (s.lanesAt q).isSome && (!pg.dirty || s.mayStart) then
      let id := s.tier.nextCopy
      let s := (s.modPage e p fun pg => { pg with st := .evicting, evict := false }).startCopy e p .evict 0 pg.slot
      if pg.dirty then s
      else s.modTier fun t => { t with copies := Table.modify t.copies id fun c => { c with done := true, donePick := s.time.pick } }
    else s

/-! ### Pins (R143, R144) -/

/-- Frames that pinned pages hold in a section, copies under way counted at their destination. -/
def State.pinnedFrames (s : State) (sec : Nat) : Nat :=
  let near := s.exts.foldl (fun a kv =>
    a + kv.2.frames * (kv.2.pages.filter fun pg => pg.2.pin && pg.2.near && frameSection pg.2.slot == sec).length) 0
  let coming := s.tier.copies.foldl (fun a kv => match s.ext? kv.2.ext with
    | some x => if (x.page kv.2.page).pin && kv.2.kind != .evict && frameSection kv.2.dest == sec then a + x.frames else a
    | none => a) 0
  near + coming

/-- Where a pin may place a page: a free run, or a run that evictions will free. -/
inductive Place where
  | run (start : Nat)
  | wait (v : VictimRun)
  | nowhere
deriving DecidableEq, Repr

/-- The first masked section from `h` that succeeds (R144). -/
def State.pinPlace (s : State) (h f : Nat) (mask : BitVec 16) : Place :=
  ((List.range 16).map fun i => (h + i) % 16).foldl (fun acc sec =>
    match acc with
    | .nowhere =>
      if mask.toNat.testBit sec && s.pinnedFrames sec + f ≤ s.tier.policy.pinLimit then
        match s.freeRun sec f with
        | some r => .run r
        | none => match s.victimRun sec f with
          | some v => .wait v
          | none => .nowhere
      else .nowhere
    | a => a) .nowhere

/-- A page of a pin is near in a masked section, and filled. -/
def Page.placed (pg : Page) (mask : BitVec 16) : Bool :=
  pg.near && mask.toNat.testBit (frameSection pg.slot) && pg.st == .settled && !pg.zor

/-- Release a pin: its pages stay near and protected for AGE_HORIZON beats (R145). -/
def State.releasePin (s : State) (n : Nat) : State :=
  match Table.get? s.pins n with
  | none => s
  | some pn =>
    let s := (s.setPins (Table.erase s.pins n)).sweepMarks
    (List.range pn.pages).foldl (fun s i => s.modPage pn.ext (pn.first + i) fun pg =>
      { pg with pin := false, last := if pg.near then s.tier.beats else pg.last }) s

/-- A PIN that cannot place a page, or that is ended early (R143, R145): its pages stay where they are, unpinned. -/
def State.endPin (s : State) (n st : Nat) : State := (s.releasePin n).readyWaiter (.pin n) st []

/-- What a pin does with its next page: done with it, started and done with it, to wait, or impossible. -/
inductive PinStep where
  | pass (s : State)
  | hold (s : State)
  | fail

/-- Change a pin. -/
def State.modPin (s : State) (n : Nat) (f : Pin → Pin) : State := s.setPins (Table.modify s.pins n f)

/-- Place a page of a pin by R144: in the run that it has waited for, in a free one, or in one that evictions will free. -/
def State.pinInto (s : State) (n : Nat) (pn : Pin) (p : Nat) (x : Extent) (go : Nat → State → State) : PinStep :=
  let placed := fun (r : Nat) (s : State) => PinStep.pass (go r ((s.modPin n fun pn => { pn with wait := none }).sweepMarks))
  match pn.wait.filter fun run => s.stillWaits run x.frames with
  | some _ => .hold s
  | none => match s.waitedFree pn.wait x.frames with
    | some r => placed r s
    | none =>
      let s := (s.modPin n fun pn => { pn with wait := none }).sweepMarks
      match s.pinPlace (x.targetSection p) x.frames pn.mask with
      | .run r => placed r s
      | .wait v => .hold ((s.markVictims v).modPin n fun pn => { pn with wait := some v.start })
      | .nowhere => .fail

/-- One page of a pin at a pick boundary (R144). -/
def State.pinPage (s : State) (n : Nat) (pn : Pin) (p : Nat) : PinStep :=
  match s.ext? pn.ext with
  | none => .fail
  | some x =>
    let pg := x.page p
    let inMask := fun (slot : Nat) => pn.mask.toNat.testBit (frameSection slot)
    let moved := fun (s : State) => s.modPin n fun pn => { pn with moved := pn.moved + 1 }
    match pg.st with
    | .evicting => .hold s
    | .moving =>
      if (s.copyOf pn.ext p).any fun c => inMask c.2.dest then .pass s else .hold s
    | .promoting => if inMask pg.slot then .pass s else .hold s
    | .zfill => if pg.near && inMask pg.slot then .pass s else .hold s
    | _ =>
      if pg.near && inMask pg.slot then .pass s
      else if !s.backgroundOn || !s.mayStart then .hold s
      else if pg.near then
        s.pinInto n pn p x fun r s => moved ((s.modPage pn.ext p fun pg => { pg with st := .moving, evict := false }).startCopy pn.ext p
          .move r pg.slot)
      else if pg.zor then
        -- a write under way is a first write of the far page (R133)
        if (Table.free s.tier.fills 64).isNone || s.reqs.any fun kv => kv.2.ext == pn.ext && kv.2.page == p && kv.2.open_ then
          .hold s
        else s.pinInto n pn p x fun r s => (s.modPage pn.ext p fun pg =>
          { pg with near := true, slot := r, dirty := x.prot == .none }).startFill pn.ext p
      else s.pinInto n pn p x fun r s => moved (s.startPromotion pn.ext p r .pinCopy)

/-- Place pages of a pin in page order, as far as they go now. -/
def State.pinRun : Nat → State → Nat → State
  | 0, s, _ => s
  | k + 1, s, n =>
    match Table.get? s.pins n with
    | none => s
    | some pn =>
      match pn.todo with
      | [] => s
      | p :: rest =>
        match s.pinPage n pn p with
        | .pass s => State.pinRun k (s.modPin n fun pn => { pn with todo := rest }) n
        | .hold s => s
        | .fail => s.endPin n mNoResource

/-- Counter promotions into sections that the mask of a pin excludes stop at the pick boundary: the destination frames are free
and the page is far-resident (R144, R154). -/
def State.pinStops (s : State) : State :=
  s.pins.foldl (fun s kv => kv.2.todo.foldl (fun s p =>
    match s.copyOf kv.2.ext p with
    | some (c, cp) =>
      if (s.page kv.2.ext p).st = .promoting ∧ !kv.2.mask.toNat.testBit (frameSection cp.dest) then
        (s.dropCopy c).modPage kv.2.ext p fun pg => { pg with st := .settled, slot := 0 }
      else s
    | none => s) s) s

/-- PIN completes once every page is near in a masked section and filled (R143, R156). -/
def State.pinDone (s : State) (n : Nat) : State :=
  match Table.get? s.pins n with
  | none => s
  | some pn =>
    if !pn.done && pn.todo.isEmpty && (List.range pn.pages).all fun i => (s.page pn.ext (pn.first + i)).placed pn.mask then
      (s.setPins (Table.modify s.pins n fun pn => { pn with done := true })).readyWaiter (.pin n) mOk
        (toLe 2 n ++ zeros 2 ++ toLe 4 pn.poisoned ++ toLe 8 pn.moved)
    else s

/-- A pinned page that is near and zero-on-read waits for a free fill-table entry (R135). -/
def State.refill (s : State) : State :=
  if s.power.safe then s
  else s.exts.foldl (fun s kv => (kv.2.pages.filter fun pg => pg.2.pin && pg.2.near && pg.2.zor).foldl
    (fun s pg => s.startFill kv.1 pg.1) s) s

/-- Complete the pins whose pages are all in place. -/
def State.pinsDone (s : State) : State := s.pins.foldl (fun s kv => if kv.2.done then s else s.pinDone kv.1) s

/-- A pick boundary carries every pin on: entries change only there (R154). -/
def State.pinsGo (s : State) : State :=
  (s.pinStops.pins.foldl (fun s kv => if kv.2.done then s else State.pinRun (kv.2.todo.length + 1) s kv.1) s.pinStops).pinsDone

/-! ### Reading and writing a copy (R149 to R151, R156) -/

/-- A page is read near by this copy. -/
def Copy.fromNear (c : Copy) : Bool := c.kind == .move || c.kind == .evict

/-- A page is written near by this copy. -/
def Copy.toNear (c : Copy) : Bool := c.kind != .evict

/-- Units that a copy reads for a block. -/
def State.copyReads (s : State) (x : Extent) (c : Copy) (b : Nat) : List Loc :=
  if c.fromNear then [nearLoc x.cls x.budget c.src b] else s.readLocs x (x.blockRefs c.page b)

/-- Units that a copy writes for a block. -/
def Copy.writes (c : Copy) (x : Extent) (b : Nat) : List Loc :=
  if c.toNear then [nearLoc x.cls x.budget c.dest b]
  else (List.range x.copies).flatMap fun k => (x.blockRefs c.page b).map (x.burstLoc k)

/-- The redundancy of a far unit: its MIRROR twin, or the rest of its PARITY stripe (R171); none where a failed channel holds
a unit of it. -/
def State.spare (s : State) (x : Extent) (l : Loc) : List Loc :=
  let ls := match x.prot with
    | .mirror => (x.twin l).toList
    | .parity => stripeOthers l
    | .none => []
  if ls.any s.locFailed then [] else ls

/-- Units that a copy reads for a block, given what it has read: those of the block, and then the redundancy of each burst
that did not read clean (R156). -/
def State.copyNeeds (s : State) (x : Extent) (c : Copy) (b : Nat) (got : List RItem) : List Loc :=
  let ls := s.copyReads x c b
  if c.fromNear then ls
  else (ls ++ ls.flatMap fun l => if (gotUnit got l).any fun i => !i.clean then s.spare x l else []).eraseDups

/-- A burst rebuilt within the copy from its redundancy, where all of that has been read clean (R156). -/
def State.rescue (s : State) (x : Extent) (got : List RItem) (l : Loc) : Option (List Byte) :=
  match s.spare x l with
  | [] => none
  | ls => ls.foldl (fun acc k => match acc, (gotUnit got k).filter RItem.clean with
    | some a, some i => some (xorBytes a i.bytes)
    | _, _ => none) (some (zeros 64))

/-- Stored bytes of a block as the copy read them, with a mark for each quarter; what cannot be read is poison. -/
def State.copied (s : State) (x : Extent) (c : Copy) (b : Nat) (got : List RItem) : List Byte × List Bool :=
  let n := storedSize x.cls x.budget
  if c.fromNear then
    match gotUnit got (nearLoc x.cls x.budget c.src b) with
    | some i =>
      let off := nearOff x.cls x.budget b
      (slice i.bytes off n, (List.range (n / 64)).map fun j => i.ue || i.marks.getD (off / 64 + j) false)
    | none => (zeros n, List.replicate (n / 64) true)
  else
    let refs := x.blockRefs c.page b
    let quarters := refs.map fun r =>
      match s.burstGot x refs got r with
      | some (d, false) => (d, false)
      | other =>
        match s.rescue x got (x.burstLoc (s.readCopy x refs) r), other with
        | some d, _ => (d, false)
        | none, some (d, m) => (d, m)
        | none, none => ((s.stored (x.burstLoc (s.readCopy x refs) r)).take 64, true)
    (quarters.flatMap (·.1), quarters.map (·.2))

/-- Two far units lie in one stripe row. -/
def sameRow (a b : Loc) : Bool :=
  match a, b with
  | .far _ _ k, .far _ _ k' => k == k'
  | _, _ => true

/-- Blocks that a copy reads in a position, ascending from its next one while their units fit, and the units it reads. Blocks of
one near codeword share its access. Of a PARITY page a position carries one stripe row: a block whose bursts lie in two is
read in two positions (R150). The redundancy of a burst that has not read clean takes positions like the burst (R26). -/
def State.readable (s : State) (x : Extent) (c : Copy) (q : Position) : Nat → List Nat → List Loc → Nat → List Nat × List Loc
  | 0, _, ls, _ => ([], ls)
  | k + 1, used, ls, b =>
    if b ≥ 256 then ([], ls)
    else
      let need := (s.copyNeeds x c b c.part).filter fun l => !ls.contains l && !(c.part.any fun i => i.loc == l)
      let row := (ls ++ need).headD (.near 16 0)
      let want := if x.prot = .parity then need.filter (sameRow row) else need
      if posFits q used want && need.all (posHolds q) then
        if want.length = need.length then
          let (bs, ls') := s.readable x c q k (used ++ want.map Loc.lane) (ls ++ want) (b + 1)
          (b :: bs, ls')
        else ([], ls ++ want)
      else ([], ls)

/-- The gap from read to write of a copy (R151). -/
def Copy.gap (c : Copy) : Nat := if c.fromNear then 1 else 2

/-- A block has been read long enough ago to be written. -/
def Copy.heldFor (c : Copy) (pick b : Nat) : Bool := c.held.any fun h => h.1 == b && h.2.1 + c.gap ≤ pick

/-- Blocks that a copy may write in a position, ascending; a near codeword is written whole. -/
def Copy.writable (c : Copy) (x : Extent) (q : Position) (pick : Nat) : Nat → List Nat → Nat → List Nat
  | 0, _, _ => []
  | n + 1, used, b =>
    let k := if c.toNear then blocksPerWord x.cls x.budget else 1
    let bs := (List.range k).map (b + ·)
    let ls := (bs.flatMap (c.writes x)).eraseDups
    if b < 256 ∧ (bs.all (c.heldFor pick)) ∧ ls.all (posHolds q) ∧ posFits q used ls then
      bs ++ c.writable x q pick n (used ++ ls.map Loc.lane) (b + k)
    else []

/-- Whether a copy has work for a position, and of which kind: blocks and units to read, or blocks to write. -/
def State.copyWork (s : State) (c : Copy) (q : Position) (used : List Nat) : List Nat × List Loc × List Nat :=
  match s.ext? c.ext with
  | none => ([], [], [])
  | some x =>
    let ws := c.writable x q s.time.pick 257 used c.wr
    if ws.isEmpty then
      let (bs, ls) := s.readable x c q 257 used [] c.next
      (bs, ls, [])
    else ([], [], ws)

/-- The items that write a block of a copy. -/
def State.copyItems (s : State) (x : Extent) (c : Copy) (b : Nat) : List WItem :=
  match c.held.find? fun h => h.1 == b with
  | none => []
  | some (_, _, bytes, marks) =>
    if c.toNear then
      [{ loc := nearLoc x.cls x.budget c.dest b, off := nearOff x.cls x.budget b
         bytes := padTo (256 / blocksPerWord x.cls x.budget) bytes, mark := marks }]
    else s.burstItems x false (x.blockRefs c.page b) bytes marks

/-- Rebuilds and marked writes of units that have been written anew, or given up, are dropped. -/
def State.dropUnits (s : State) (gone : Loc → Bool) : State :=
  s.modRas fun r => { r with work := r.work.filter fun w => match w.unit with
    | some l => !gone l
    | none => true }

/-- A copy writes blocks: the last one completes it (R151); blocks of an eviction that a failed channel loses are recorded
(R157). -/
def State.copyWrite (s : State) (id : Nat) (c : Copy) (x : Extent) (bs : List Nat) (q : Position) : State :=
  let items := bs.flatMap (s.copyItems x c)
  let lost := if c.toNear then [] else bs.filter fun b => (c.writes x b).any s.locFailed
  let poison := (bs.filter fun b => c.held.any fun h => h.1 == b && h.2.2.2.any fun b => b).length
  let s := (s.commitItems items (s.time.pick, q.pos)).leaveClear c.ext (items.map (·.loc))
  let s := if c.toNear then s else s.dropUnits fun l => items.any fun i => i.loc == l
  let s := lost.foldl (fun s b => s.damageBlock c.ext (256 * c.page + b) true true) s
  let wr := c.wr + bs.length
  s.modTier fun t => { t with copies := Table.modify t.copies id fun c => { c with
    wr := wr, held := c.held.filter fun h => wr ≤ h.1, poison := c.poison + poison
    done := 256 ≤ wr, donePick := s.time.pick } }

/-- A copy has read all that it needs for a block. -/
def State.copyGot (s : State) (x : Extent) (c : Copy) (got : List RItem) (b : Nat) : Bool :=
  (s.copyNeeds x c b got).all fun l => (gotUnit got l).isSome

/-- A copy reads units, which complete blocks up to the first one that needs its redundancy too; units of blocks that it has
not completed are kept. -/
def State.copyRead (s : State) (id : Nat) (c : Copy) (x : Extent) (bs : List Nat) (ls : List Loc) (errs : List CellError) :
    State :=
  let (s, new) := (s.flipCells ls errs).readUnits ls
  let got := c.part ++ new
  let full := bs.takeWhile (s.copyGot x c got)
  let held := full.map fun b =>
    let (bytes, marks) := s.copied x c b got
    (b, s.time.pick, bytes, marks)
  let next := c.next + full.length
  let open_ := (List.range (bs.length + 1 - full.length)).map (next + ·)
  s.modTier fun t => { t with copies := Table.modify t.copies id fun c => { c with
    next := next, held := c.held ++ held
    part := got.filter fun i => open_.any fun b => (s.copyNeeds x c b got).contains i.loc } }

/-! ### Fills (R133 to R135) -/

/-- A block that a write has taken and not committed is left to the write. -/
def State.writing (s : State) (e b : Nat) : Bool :=
  s.reqs.any fun kv => kv.2.ext == e && kv.2.block == b && kv.2.open_ && kv.2.planned

/-- Blocks of the page that a fill has still to write, ascending (R133 step 3). -/
def State.toFill (s : State) (f : Fill) : List Nat :=
  (List.range 256).filter fun b => !f.bits.toNat.testBit b && !s.writing f.ext (256 * f.page + b)

/-- The stored form of a zero block. -/
def State.zeroForm (s : State) (x : Extent) (blk : Nat) : List Byte :=
  s.seal x blk false (encodeBlock x.cls x.src x.budget none (zeros 256))

/-- Blocks whose near slot a fill writes in a position: ascending, while their codewords find free lanes. -/
def State.fillNear (s : State) (x : Extent) (f : Fill) (q : Position) (used : List Nat) : List Nat :=
  let slot := (x.page f.page).slot
  let todo := (s.toFill f).filter fun b => !f.done.contains (0, b)
  (todo.foldl (fun (acc : List Nat × List Loc × Bool) b =>
    let l := nearLoc x.cls x.budget slot b
    let free := acc.2.1.contains l || !(used ++ acc.2.1.map Loc.lane).contains l.lane
    if acc.2.2 || !posHolds q l || !free then (acc.1, acc.2.1, true)
    else (acc.1 ++ [b], if acc.2.1.contains l then acc.2.1 else acc.2.1 ++ [l], false)) ([], [], false)).1

/-- Bursts of the page that a fill has still to write to a copy: number in the page, unit, bytes. -/
def State.fillBursts (s : State) (x : Extent) (f : Fill) (copy : Nat) : List (Nat × Loc × List Byte) :=
  let owed := f.owed.flatMap fun o => o.data.map (·.1)
  (s.toFill f).flatMap fun b =>
    let form := s.zeroForm x (256 * f.page + b)
    (List.range x.bursts).filterMap fun i =>
      let n := x.bursts * b + i
      if f.done.contains (1 + copy, n) || owed.contains n then none
      else some (n, x.burstLoc copy (.primary f.page n), slice form (64 * i) 64)

/-- The first bursts that a position of a group carries: ascending, while their lanes are free. -/
def fitting (q : Position) (used : List Nat) (l : List (Nat × Loc × List Byte)) : List (Nat × Loc × List Byte) :=
  (l.foldl (fun (acc : List (Nat × Loc × List Byte) × List Nat × Bool) w =>
    if acc.2.2 || !posHolds q w.2.1 || acc.2.1.contains w.2.1.lane then (acc.1, acc.2.1, true)
    else (acc.1 ++ [w], acc.2.1 ++ [w.2.1.lane], false)) ([], used, false)).1

/-- Blocks of a fill of which every part has been written: near where the page is near, in every copy where it is far or
protected. -/
def Fill.settle (f : Fill) (x : Extent) : Fill :=
  let pg := x.page f.page
  let far := !pg.near || x.prot != .none
  let whole := (List.range 256).filter fun b => !f.bits.toNat.testBit b && (!pg.near || f.done.contains (0, b)) &&
    (!far || (List.range x.copies).all fun c => (List.range x.bursts).all fun i => f.done.contains (1 + c, x.bursts * b + i)) &&
    (pg.near || far)
  { f with
    bits := whole.foldl (fun a b => a ||| BitVec.ofNat 256 (2 ^ b)) f.bits
    done := f.done.filter fun d => !whole.contains (if d.1 = 0 then d.2 else d.2 / max 1 x.bursts) }

/-- A fill has written units of these parts of the page (R133 step 3): blocks that it has written whole leave the damaged table
(spec/16_ras.md R432). -/
def State.filled (s : State) (i : Nat) (f : Fill) (x : Extent) (parts : List (Nat × Nat)) (items : List WItem) (q : Position) :
    State :=
  let s := (s.useRanks (items.map (·.loc))).commitItems items (s.time.pick, q.pos)
  let s := s.leaveClear f.ext (items.map (·.loc))
  let g := ({ f with done := f.done ++ parts } : Fill).settle x
  let s := s.modTier fun t => { t with fills := Table.set t.fills i g }
  ((List.range 256).filter fun b => g.bits.toNat.testBit b && !f.bits.toNat.testBit b).foldl
    (fun s b => s.undamage f.ext (256 * f.page + b)) s

/-- Units of a stripe that a fill writes in part. -/
def FillStripe.locs (o : FillStripe) : List Loc := o.parity :: o.data.map (·.2.1)

/-- A fill goes on with a stripe that it writes in part (R150, R438): it reads the old bursts and the parity, and after the gap
writes those whose blocks no write has taken, with what they change in the parity. -/
def State.fillOwed (s : State) (i : Nat) (f : Fill) (x : Extent) (q : Position) (o : FillStripe) : State :=
  let keep := fun (f : Fill) (new : List FillStripe) => { f with owed := (f.owed.filter (· != o)) ++ new }
  match o.at_ with
  | none =>
    let (s, _) := (s.useRanks o.locs).readUnits (o.locs.filter fun l => !s.locFailed l)
    s.modTier fun t => { t with fills := Table.set t.fills i (keep f [{ o with at_ := some (false, s.time.pick, q.pos) }]) }
  | some _ =>
    let todo := s.toFill f
    let data := o.data.filter fun w => todo.contains (w.1 / max 1 x.bursts)
    let ws := data.map fun w => (BurstRef.primary f.page w.1, w.2.2)
    let items := (data.map fun w => { loc := w.2.1, off := 0, bytes := w.2.2, mark := [false] : WItem }) ++
      (if ws.isEmpty then [] else [s.parityItem x false o.parity ws])
    s.filled i (keep f []) x (data.map fun w => (1, w.1)) (items.filter fun it => !s.locFailed it.loc) q

/-- The stripe row that a fill of a PARITY page writes next in a position: a stripe with all its five bursts is written with its
parity at once, any other is owed (R150). -/
def State.fillRow (s : State) (i : Nat) (f : Fill) (x : Extent) (q : Position) (used : List Nat) : Option State :=
  match s.fillBursts x f 0 with
  | [] => none
  | w :: ws =>
    if !posHolds q w.2.1 then none
    else
      let row := (w :: ws).filter fun v => sameRow w.2.1 v.2.1
      let stripes := [0, 1].filterMap fun sub =>
        let data := row.filter fun v => (x.stripe (.primary f.page v.1)).2.2 == sub
        match data with
        | [] => none
        | v :: _ => let (g, l, sub) := x.stripe (.primary f.page v.1)
                    some ({ data := data, parity := stripeParity g l sub } : FillStripe)
      let full := stripes.filter fun o => o.data.length == 5
      let partly := stripes.filter fun o => o.data.length != 5
      let f := { f with owed := f.owed ++ partly }
      match full, partly with
      | [], o :: _ => if posFits q used o.locs then some (s.fillOwed i f x q o) else none
      | _, _ => if !posFits q used (full.flatMap FillStripe.locs) then none
        else
          let items := full.flatMap fun o =>
            (o.data.map fun v => { loc := v.2.1, off := 0, bytes := v.2.2, mark := [false] : WItem }) ++
              [s.parityItem x false o.parity (o.data.map fun v => (BurstRef.primary f.page v.1, v.2.2))]
          some (s.filled i f x (full.flatMap fun o => o.data.map fun v => (1, v.1)) (items.filter fun it => !s.locFailed it.loc) q)

/-- What a fill does in a position, if it can use it: its near slots, or its far bursts in each copy, or stripes (R133, R150). -/
def State.fillServe (s : State) (i : Nat) (f : Fill) (x : Extent) (q : Position) (used : List Nat) : Option State :=
  let pg := x.page f.page
  match q.tier with
  | .near =>
    if !pg.near then none
    else match s.fillNear x f q used with
      | [] => none
      | bs => some (s.filled i f x (bs.map fun b => (0, b))
          (bs.map fun b => nearItem x pg.slot (256 * f.page + b) (s.zeroForm x (256 * f.page + b)) none) q)
  | .far =>
    if pg.near && x.prot == .none then none
    else if x.prot = .parity then
      let at_ := (false, s.time.pick, q.pos)
      match f.owed.find? fun o => posFits q used o.locs && gapOk o.at_ at_ with
      | some o => some (s.fillOwed i f x q o)
      | none => s.fillRow i f x q used
    else
      (List.range x.copies).findSome? fun c =>
        match fitting q used (s.fillBursts x f c) with
        | [] => none
        | ws => some (s.filled i f x (ws.map fun w => (1 + c, w.1))
            ((ws.map fun w => { loc := w.2.1, off := 0, bytes := w.2.2, mark := [false] : WItem }).filter
              fun it => !s.locFailed it.loc) q)

/-! ### Migration positions (R152) -/

/-- What the earliest-started copy or fill does in a position. -/
inductive MigWork where
  | read (id : Nat) (c : Copy) (x : Extent) (bs : List Nat) (ls : List Loc)
  | write (id : Nat) (c : Copy) (x : Extent) (bs : List Nat)
  | fill (i : Nat) (f : Fill) (x : Extent)
  | idle
deriving DecidableEq, Repr

/-- The work of a position. -/
def State.migWork (s : State) (q : Position) (used : List Nat) : MigWork :=
  s.inFlight.foldl (fun acc it =>
    match acc with
    | .idle =>
      if it.2 then
        match Table.get? s.tier.copies it.1 with
        | some c => match s.ext? c.ext with
          | some x => match s.copyWork c q used with
            | (_, _, w :: ws) => .write it.1 c x (w :: ws)
            | (b :: bs, ls, []) => .read it.1 c x (b :: bs) ls
            | ([], l :: ls, []) => .read it.1 c x [] (l :: ls)
            | ([], [], []) => .idle
          | none => .idle
        | none => .idle
      else
        match s.tier.fills.find? fun kv => kv.2.order == it.1 with
        | some (i, f) => match s.ext? f.ext with
          | some x => if (s.fillServe i f x q used).isSome then .fill i f x else .idle
          | none => .idle
        | none => .idle
    | a => a) .idle

/-- ZFILL_STEP (R133): the position belongs to a fill. -/
def execZfillStep (q : Position) (s : State) : Out :=
  .next <|
    match s.positionOf q ownMigration with
    | none => s
    | some used =>
      if !s.backgroundOn then s
      else match s.migWork q used with
        | .fill i f x => match s.fillServe i f x q used with
          | some t => ((t.endFill f.ext f.page).useLanes q (allLanes q)).pump.pinsDone
          | none => s
        | _ => s

/-- PAGE_COPY_STEP (R150, R151): the position belongs to a copy. -/
def execPageCopyStep (q : Position) (errs : List CellError) (s : State) : Out :=
  .next <|
    match s.positionOf q ownMigration with
    | none => s
    | some used =>
      if !s.backgroundOn then s
      else match s.migWork q used with
        | .read id c x bs ls => ((s.copyRead id c x bs ls errs).useRanks ls).useLanes q (allLanes q)
        | .write id c x bs => ((s.copyWrite id c x bs q).useRanks (bs.flatMap (c.writes x))).useLanes q (allLanes q)
        | _ => s

/-- Count a page move in the counters of the device and of the owner's context. -/
def State.countMove (s : State) (e : Nat) (up : Bool) : State :=
  let s := s.modTier fun t => if up then { t with promotions := t.promotions + 1 } else { t with evictions := t.evictions + 1 }
  match s.ext? e with
  | some x => s.modCtx x.owner fun c => if up then { c with telProm := c.telProm + 1 } else { c with telEvict := c.telEvict + 1 }
  | none => s

/-- A unit lies in a run of near frames. -/
def inRun (slot n : Nat) (l : Loc) : Bool :=
  match l with
  | .near sec w => slot ≤ sec * framesPerSection + w / 64 && sec * framesPerSection + w / 64 < slot + n
  | .far _ _ _ => false

/-- Damage of a page that has become far-resident: a block whose far copy reads clean is damaged no more, and any other is damaged
in the far tier (log entry 23). -/
def State.damageFell (s : State) (e p : Nat) (x : Extent) : State :=
  let mine := fun (d : Damaged) => d.ext == e && d.block / 256 == p && !d.diverge
  let bs := ((s.ras.damaged.filter mine).map (·.block) ++ x.unlisted.filter fun b => b / 256 == p).eraseDups
  bs.foldl (fun s b =>
    if s.blockClean x b false then s.undamage e b
    else if s.unlistedBlock e b then s
    else s.modRas fun r => { r with damaged :=
      (r.damaged.filter fun d => !(mine d && d.block == b)) ++ [{ ext := e, block := b, diverge := false, far := true }] }) s

/-- The pick has begun and no position of it has been passed. -/
def State.pickFresh (s : State) : Bool := s.atBoundary && s.tie.nearNext.isEmpty && s.tie.farNext.isEmpty

/-- The commit of a write of a page belongs to an earlier pick, and its row is still to come. -/
def State.commitOverdue (s : State) (e p : Nat) : Bool :=
  s.reqs.any fun kv => kv.2.ext == e && kv.2.page == p && kv.2.writeDue (s.time.pick - 1)

/-- A request goes on at the residence that its page has changed to (log entry 23): a read that has taken its data keeps it, a
write that has taken its position is made there too, and one whose rounds are fixed has them fixed anew. -/
def State.retarget (s : State) (id : Nat) (r0 : Req) (x : Extent) (pg : Page) : State :=
  let r := { r0 with near := pg.near, slot := pg.slot }
  if r0.op.isRead then (if r0.started then s else s.modReq id fun _ => r)
  else if r0.visible then s
  else if !r0.flyingW.isEmpty then
    let form := s.seal x r.block false (encodeBlock x.cls x.src x.budget r.entry (r.merged.getD []))
    let q := if x.cls = .plain ∧ !r.whole ∧ !s.baseZero r then some r.quarter else none
    (s.commitItem (nearItem x pg.slot r.block form q) (s.time.pick, 0)).modReq id fun _ => r
  else if !r0.planned then s.modReq id fun _ => r
  else
    match r.merged with
    | some blk =>
      let reads := if r.started then [] else s.writeReads x r
      s.modReq id fun _ => { r with phases := reads ++ s.writePhases x r blk r.entry }
    | none => s.modReq id fun _ => { r with phases := s.writeReads x r, flying := [], snap := [], got := [] }

/-- Every open request of a page goes on at its new residence. -/
def State.retargetPage (s : State) (e p : Nat) : State :=
  match s.ext? e with
  | none => s
  | some x => (s.reqs.filter fun kv => kv.2.ext == e && kv.2.page == p && !kv.2.gen && (kv.2.op.isRead || kv.2.op.isWrite)).foldl
      (fun s kv => s.retarget kv.1 kv.2 x (x.page p)) s

/-- The pins that a copy has served count the blocks that it wrote as poison (R156). -/
def State.countPoison (s : State) (c : Copy) : State :=
  if !c.toNear then s
  else s.setPins (s.pins.map fun (kv : Nat × Pin) =>
    if kv.2.ext == c.ext && kv.2.first ≤ c.page && c.page < kv.2.first + kv.2.pages && !kv.2.done then
      (kv.1, { kv.2 with poisoned := kv.2.poisoned + c.poison }) else kv)

/-- RESIDENCE_SWITCH (R142, R151): the residence switches at the boundary after the copy has completed, before the pick that
begins there uses a position, once the commits of the picks before have been reported. -/
def execResidenceSwitch (id : Nat) (s : State) : Out :=
  .next <|
    match Table.get? s.tier.copies id with
    | none => s
    | some c =>
      if !c.done || s.time.pick ≤ c.donePick || !s.pickFresh || s.commitOverdue c.ext c.page || s.power.safe then s
      else
        let s := if c.fromNear then s.dropUnits (inRun c.src (match s.ext? c.ext with | some x => x.frames | none => 0)) else s
        let s := (s.dropCopy id).modPage c.ext c.page fun pg =>
          if c.toNear then { pg with near := true, slot := c.dest, st := .settled, dirty := pg.dirty && c.kind == .move, evict := false }
          else { pg with near := false, slot := 0, st := .settled, dirty := false, evict := false }
        let s := match s.ext? c.ext with
          | some x => if c.toNear then s else s.damageFell c.ext c.page x
          | none => s
        let s := if c.kind = .move then s else s.countMove c.ext c.toNear
        ((s.retargetPage c.ext c.page).countPoison c).pump.pinsDone

/-! ### Far ranks (spec/06_memory_channels.md R174, R175) -/

/-- Idle picks of a rank: picks since a position last took a burst for it. -/
def State.rankIdle (s : State) (r : Nat) : Nat := s.time.pick - Table.getD s.far.idle r 0

/-- RANK_POWER_DOWN (R175). -/
def execRankPowerDown (ch sub rank : Nat) (s : State) : Out :=
  .next <|
    let r := (ch * 2 + sub) * 2 + rank
    if s.far.pdEn && max 1 s.far.idlePicks ≤ s.rankIdle r && !s.far.down.contains r && !s.far.used.contains r &&
        s.hasGroup (ch / 6) && !s.chFailed ch && !s.power.selfRefresh then
      (s.setFar ({ s.far with down := r :: s.far.down }))
    else s

/-- MR4_READ (R174): the ranks whose warmest package reports more than 85 °C refresh every 1.95 µs until the next read. -/
def execMr4Read (hot : List (Nat × Nat × Nat)) (s : State) : Out :=
  .next <|
    if s.far.mr4Pick + 1024 ≤ s.time.pick then
      (s.setFar ({ s.far with
          fastRef := (hot.filter fun h => s.hasGroup (h.1 / 6)).map fun h => (h.1 * 2 + h.2.1) * 2 + h.2.2
          mr4Pick := s.time.pick }))
    else s

/-! ### Physical clearing (spec/13_isolation_crypto.md R339, R340) -/

/-- Stored units that an extent has still to overwrite (R339). -/
def Extent.toClear (x : Extent) : Nat :=
  let far := match x.clear with
    | some c => c.far.foldl (fun a kv => a + ((x.unitBase kv.1 + x.units) * 3072 - kv.2)) 0 + c.owed.length - c.skip.length +
        c.frames.foldl (fun a f => a + (64 - f.2)) 0
    | none => 0
  far + x.looseFrames.foldl (fun a f => a + (64 - f.2)) 0

/-- A clear whose units are done ends: CLEARING becomes UNGRANTED, CLEAR_PENDING 0 (spec/03 R73). -/
def State.clearDone (s : State) (e : Nat) : State :=
  match s.ext? e with
  | none => s
  | some x =>
    let own := match x.clear with
      | some c => c.frames.isEmpty && c.owed.isEmpty && c.far.all fun kv => (x.unitBase kv.1 + x.units) * 3072 ≤ kv.2
      | none => true
    if !own then s
    else
      let x := { x with clear := none, clearPend := false }
      if x.st = .clearing ∧ x.looseFrames.isEmpty then
        -- the extent enters UNGRANTED, and its blocks leave the damaged table (spec/16_ras.md R432)
        (s.setExts (Table.set s.exts e { x with st := .ungranted })).undamageExt e
      else s.setExts (Table.set s.exts e x)

/-- A write to a unit is under way. -/
def State.flyingTo (s : State) (l : Loc) : Bool := s.reqs.any fun kv => kv.2.flyingW.any fun i => i.loc == l

/-- Overwrite a unit with zero bytes and valid check symbols. -/
def State.zeroUnit (s : State) (l : Loc) (at_ : Nat × Nat) : State :=
  let s := (s.snapReads l at_).useRanks [l]
  s.writeUnit l (zeros l.dataSize) 0

/-- Bursts of a group's run that a position clears: owed ones, then those from the cursor on. -/
def State.clearFar (s : State) (e : Nat) (x : Extent) (c : Clear) (q : Position) (used : List Nat) : State × List Nat :=
  match Table.get? c.far q.unit with
  | none => (s, used)
  | some n =>
    let stop := (x.unitBase q.unit + x.units) * 3072
    let owed := (c.owed.filter fun o => o.1 == q.unit).map fun o => (o.2.2 * 12 + o.2.1, true)
    let next := ((List.range 12).map fun i => (n + i, false)).filter fun i => i.1 < stop
    let (s, used, c) := (owed ++ next).foldl (fun (acc : State × List Nat × Clear) it =>
      let (s, used, c) := acc
      let key := (q.unit, it.1 % 12, it.1 / 12)
      let l : Loc := .far q.unit (it.1 % 12) (it.1 / 12)
      if !it.2 && c.skip.contains key then (s, used, { c with skip := c.skip.filter (· != key) })
      else if used.contains l.lane || s.flyingTo l then
        (s, used, if it.2 then c else { c with owed := c.owed ++ [key] })
      else (s.zeroUnit l (s.time.pick, q.pos), used ++ [l.lane], { c with owed := c.owed.filter (· != key) })) (s, used, c)
    let c := { c with far := Table.set c.far q.unit (min stop (n + 12)) }
    (s.modExt e fun x => { x with clear := some c }, used)

/-- Codewords of released frames that a position clears; frames that are done join the free ones. -/
def State.clearFrames (s : State) (frames : List (Nat × Nat)) (q : Position) (used : List Nat) :
    State × List (Nat × Nat) × List Nat :=
  frames.foldl (fun (acc : State × List (Nat × Nat) × List Nat) f =>
    let (s, keep, used) := acc
    if frameSection f.1 ≠ q.unit then (s, keep ++ [f], used)
    else
      let run := ((List.range (64 - f.2)).map (f.2 + ·)).foldl (fun (a : State × List Nat × Nat × Bool) i =>
        let l : Loc := .near q.unit (frameWord f.1 i)
        if a.2.2.2 || a.2.1.contains l.lane then (a.1, a.2.1, a.2.2.1, true)
        else (a.1.zeroUnit l (s.time.pick, q.pos), a.2.1 ++ [l.lane], i + 1, false)) (s, used, f.2, false)
      (run.1, if run.2.2.1 < 64 then keep ++ [(f.1, run.2.2.1)] else keep, run.2.1)) (s, [], used)

/-- Clear what one extent owes in a position. -/
def State.clearExt (s : State) (e : Nat) (q : Position) (used : List Nat) : State × List Nat :=
  match s.ext? e with
  | none => (s, used)
  | some x =>
    match q.tier with
    | .far => match x.clear with
      | some c => let (s, used) := s.clearFar e x c q used
                  (s.clearDone e, used)
      | none => (s, used)
    | .near =>
      let (s, frames, used) := s.clearFrames (match x.clear with | some c => c.frames | none => []) q used
      let (s, loose, used) := s.clearFrames x.looseFrames q used
      let s := s.modExt e fun x => { x with
        clear := x.clear.map fun c => { c with frames := frames }, looseFrames := loose }
      (s.clearDone e, used)

/-- When the clearing of an extent began. -/
def Extent.clearBegan (x : Extent) : Nat := match x.clear with | some c => c.order | none => x.looseOrder

/-- Extents with clearing work that a position may serve, in the order in which their clears began (R340); after a loss of far
contents, in ascending unit order within the group (spec/16_ras.md R446). -/
def State.clearing (s : State) (q : Position) : List Nat :=
  let l := s.exts.filter fun (kv : Nat × Extent) => kv.2.clear.isSome || !kv.2.looseFrames.isEmpty
  let key := fun (x : Extent) =>
    if q.tier == .far && (Table.get? s.ras.initCursor q.unit).isSome then x.unitBase q.unit else x.clearBegan
  (sortBy (fun (a b : Nat × Extent) => key a.2 < key b.2) l).map (·.1)

/-- After a loss of far contents, the bursts outside every clear are overwritten too (spec/16_ras.md R446). -/
def State.initFar (s : State) (q : Position) (used : List Nat) : State × List Nat :=
  match q.tier, Table.get? s.ras.initCursor q.unit with
  | .far, some n =>
    let (s, used, k) := ((List.range 12).map (n + ·)).foldl (fun (acc : State × List Nat × Nat) i =>
      let (s, used, k) := acc
      let l : Loc := .far q.unit (i % 12) (i / 12)
      if k < i then acc
      else if used.contains l.lane then acc
      else
        match s.useOf l with
        | .free => (s.zeroUnit l (s.time.pick, q.pos), used ++ [l.lane], i + 1)
        | _ => (s, used, i + 1)) (s, used, n)
    (s.modRas fun r => { r with initCursor :=
      if k ≥ 12 * 2 ^ 32 then Table.erase r.initCursor q.unit else Table.set r.initCursor q.unit k }, used)
  | _, _ => (s, used)

/-! ### Accesses of hosts and engines -/

/-- WRITE_COMMIT (R177): the write round of a request whose accesses have all issued commits. A write with RO = 0 becomes
visible only after every earlier write of its port (spec/10_host_link.md R279 rule 1). -/
def execWriteCommit (id : Nat) (s : State) : Out :=
  .next <|
    match Table.get? s.reqs id with
    | none => s
    | some r =>
      let first := !r.visible && r.visibleAfter (r.phases.drop 1)
      let waits := first && !r.ro && (s.earlier id r).any fun e => e.open_
      if s.tiersOpen && r.writeDue s.time.pick && !waits then ((s.commitRound id r).pump.settleAll).pinsDone else s

/-- READ_DATA_DELIVERED (R163, R173, R431): the read round of a request is delivered. An uncorrectable metadata codeword
enters SAFE (spec/05_tiering.md R128). -/
def execReadDataDelivered (id : Nat) (errs : List CellError) (s : State) : Out :=
  .next <|
    match Table.get? s.reqs id with
    | none => s
    | some r =>
      if !(s.tiersOpen && r.readDue s.time.pick) then s
      else if r.gen then
        if s.genWaits r then s
        else
        let s := s.flipCells r.flying errs
        match r.flying with
        | l :: _ => match s.readUnit l with
          | some d => ((s.recordCe l d).deliverGen id r).pump
          | none => s.enterSafe 0x04
        | [] => s
      else ((s.deliverRound id r errs).pump.settleAll).pinsDone

/-- A request that has not issued its first access by the end of its last start pick completes LATE (R280): a read at once, a
write in pick a + 12, until when FENCE and MBX writes wait for it (R279). -/
def State.lateOne (s : State) (id : Nat) : State :=
  match Table.get? s.reqs id with
  | none => s
  | some r =>
    if r.port.isSome && (r.op.isRead || r.op.isWrite) && !r.started &&
        (r.late || r.arrival + s.lastStart (s.wouldBe r) < s.time.pick) then
      if r.op.isRead || r.arrival + 12 ≤ s.time.pick then (s.finishReq id r stLate none).pump
      else (s.modReq id fun r => { r with late := true }).pump
    else s

/-- LATE_CEILING (R280). -/
def execLateCeiling (id : Nat) (s : State) : Out := .next (s.lateOne id)

end Sys2Proof.Machine
end

