-- ==== Sys2Proof/Machine/Scrub.lean ====
section
/-! DEFINITION. The RAS unit: patrol scrubbing, rebuilds, divergence, device marks and channel failure, and the RAS commands
(spec/16_ras.md R426 to R447, spec/15_mailboxes.md R420). -/

namespace Sys2Proof.Machine

/-! ### Work queued for scrub positions (R431, R435, R441, R445) -/

/-- A request's write that has been released holds a unit (R177). -/
def State.writeHolds (s : State) (l : Loc) : Bool :=
  s.reqs.any fun kv => kv.2.op.isWrite && kv.2.planned && !kv.2.late && (s.writeLocs kv.2).contains l

/-- A unit has room at a position. -/
def laneFree (q : Position) (used : List Nat) (ls : List Loc) : Bool :=
  ls.all fun l => posHolds q l && !used.contains l.lane

/-- Units of a block's stored form and overflow entry in one copy of a MIRROR extent. -/
def Extent.copyLocs (x : Extent) (copy b : Nat) : List Loc :=
  let refs := x.blockRefs (b / 256) (b % 256) ++ (match x.entryOf b with | some en => entryRefs en | none => [])
  refs.map (x.burstLoc copy)

/-- The next source of a rebuild. -/
def State.rebuildSource (s : State) (l : Loc) (skip : Nat) : Option (List Loc) := (s.sources l)[skip]?

/-- What a work item reads next: a rebuild its source, a copy its source copy. -/
def State.workReads (s : State) (w : RasWork) : List Loc :=
  match w with
  | .rebuild l skip none _ => (s.rebuildSource l skip).getD []
  | .copy e b low none _ _ => match s.ext? e with
    | some x => x.copyLocs (if low then 0 else 1) b
    | none => []
  | _ => []

/-- What a work item writes next. -/
def State.workWrites (s : State) (w : RasWork) : List Loc :=
  match w with
  | .rebuild l _ (some _) _ => [l]
  | .write i _ => [i.loc]
  | .copy e b low (some _) _ _ => match s.ext? e with
    | some x => x.copyLocs (if low then 1 else 0) b
    | none => []
  | _ => []

/-- The position of the read that a work item's write follows. -/
def RasWork.readAt (w : RasWork) : Option (Bool × Nat × Nat) :=
  match w with
  | .rebuild _ _ _ a | .write _ a | .copy _ _ _ _ a _ => a

/-- A work item can use a position now: reading, or writing after its gap (R178). -/
def State.workFits (s : State) (w : RasWork) (q : Position) (used : List Nat) : Bool × Bool :=
  let rd := s.workReads w
  let wr := s.workWrites w
  let at_ := (q.tier == .near, s.time.pick, q.pos)
  let held := match w with
    | .rebuild l .. => s.writeHolds l
    | _ => false
  (!rd.isEmpty && laneFree q used rd && !held,
   !wr.isEmpty && laneFree q used wr && gapOk w.readAt at_ && s.scrubWrites q.tier && !(wr.any s.writeHolds))

/-- Rebuilds claim a position of a section or group. -/
def State.workClaims (s : State) (q : Position) : Bool :=
  s.ras.work.any fun w => (s.workFits w q []).1 || (s.workFits w q []).2

/-- Lanes that rebuild work would take of a position (R340). -/
def State.rebuildLanes (s : State) (q : Position) (used : List Nat) : List Nat :=
  (s.ras.work.flatMap fun w =>
    let fits := s.workFits w q used
    (if fits.1 then (s.workReads w).map Loc.lane else []) ++ (if fits.2 then (s.workWrites w).map Loc.lane else [])).eraseDups

/-- CLEAR_OVERWRITE_STEP (R339, R340): the free slots of a scrub position, extents in the order of their clears. -/
def execClearOverwriteStep (q : Position) (s : State) : Out :=
  .next <|
    match s.positionOf q ownScrub with
    | none => s
    | some used =>
      if !s.scrubWrites q.tier then s
      else
        -- rebuilds take their slots first (R340)
        let rebuild := s.rebuildLanes q used
        let (s, taken) := (s.clearing q).foldl (fun acc e => acc.1.clearExt e q acc.2) (s, used ++ rebuild)
        let (s, taken) := s.initFar q taken
        s.useLanes q (used ++ (taken.drop (used.length + rebuild.length)))

/-- Clearing claims the positions of a section or group. -/
def State.clearClaims (s : State) (q : Position) : Bool :=
  s.scrubWrites q.tier && match q.tier with
    | .far => (Table.get? s.ras.initCursor q.unit).isSome || s.exts.any fun kv => match kv.2.clear with
      | some c => (c.owed.any fun o => o.1 == q.unit) || (match Table.get? c.far q.unit with
        | some n => decide (n < (kv.2.unitBase q.unit + kv.2.units) * 3072)
        | none => false)
      | none => false
    | .near => s.exts.any fun kv =>
      (kv.2.looseFrames ++ (match kv.2.clear with | some c => c.frames | none => [])).any fun f => frameSection f.1 == q.unit

/-- Replace the `i`-th work item by a list of items. -/
def State.putWork (s : State) (i : Nat) (ws : List RasWork) : State :=
  s.modRas fun r => { r with work := r.work.take i ++ ws ++ r.work.drop (i + 1) }

/-- Every delivered unit decoded and bears no mark (R435). -/
def cleanItems (got : List RItem) : Bool := got.all fun i => !i.ue && i.marks.all (· == false)

/-- Read for one work item: a clean source gives a rebuild its data, an unclean one passes on to the next; with none left the
unit is written marked (R435). -/
def State.workRead (s : State) (i : Nat) (w : RasWork) (q : Position) (errs : List CellError) : State :=
  let ls := s.workReads w
  let at_ := (q.tier == .near, s.time.pick, q.pos)
  let (s, got) := (s.flipCells ls errs).readUnits ls
  let s := s.useRanks ls
  match w with
  | .rebuild l skip _ _ =>
    if cleanItems got then s.putWork i [.rebuild l skip (some (s.rebuilt l ls (got.map (·.bytes)))) (some at_)]
    else if (s.rebuildSource l (skip + 1)).isSome then s.putWork i [.rebuild l (skip + 1) none none]
    else s.putWork i [.write (s.markedItem l) none]
  | .copy e b low _ _ m =>
    s.putWork i [.copy e b low (some (got.map fun g => (g.bytes, g.ue || g.marks.headD false))) (some at_) m]
  | .write .. => s

/-- The work items that a position may serve, by a fold that keeps the lanes used; the work list only changes in place or
grows at its end while one item is served. -/
def State.workPass (s : State) (q : Position) (used : List Nat) (write : Bool)
    (serve : State → Nat → RasWork → State) : State × List Nat :=
  let (s, used, _) := (List.range s.ras.work.length).foldl (fun (acc : State × List Nat × Nat) _ =>
    let (s, used, i) := acc
    match s.ras.work[i]? with
    | none => acc
    | some w =>
      let fits := s.workFits w q used
      let ls := if write then s.workWrites w else s.workReads w
      if if write then fits.2 else fits.1 then
        let s' := serve s i w
        -- a written item has left the list
        (s', used ++ ls.map Loc.lane, if write then i else i + 1)
      else (s, used, i + 1)) (s, used, 0)
  (s, used)

/-- REBUILD_READ (R435, R340): rebuilds and copies whose source lies in the position's section or group read it. -/
def execRebuildRead (q : Position) (errs : List CellError) (s : State) : Out :=
  .next <|
    match s.positionOf q ownScrub with
    | none => s
    | some used =>
      if !s.scrubOn then s
      else
        let (s, used) := s.workPass q used false fun s i w => s.workRead i w q errs
        s.useLanes q used

/-- The pick boundary from which a scrub write to a tier is in force: near it commits in its pick, far in the next. -/
def State.scrubDue (s : State) (t : Tier) : Nat := match t with | .near => s.time.pick + 1 | .far => s.time.pick + 2

/-- Blocks whose data a unit holds still count as damaged; a unit that holds no block does while it does not decode. -/
def State.stillBad (s : State) (l : Loc) : Bool :=
  let bs := s.unitBlocks (s.useOf l)
  let far := l.home.1 == .far
  if bs.isEmpty then (s.readUnit l).isNone
  else bs.any fun eb => (s.damagedIn eb.1 eb.2 far).isSome ||
    match s.ext? eb.1 with
    | some x => x.unlisted.contains eb.2
    | none => false

/-- Write for one work item, which leaves the queue. -/
def State.workWrite (s : State) (i : Nat) (w : RasWork) (q : Position) : State :=
  let at_ := (s.time.pick, q.pos)
  let locs := s.workWrites w
  let s := (s.putWork i []).useRanks locs
  match w with
  | .rebuild l _ (some d) _ =>
    let s := (s.snapReads l at_).writeUnit l d 0
    (s.unitBlocks (s.useOf l)).foldl (fun s eb => s.modUmpire fun u =>
      { u with deferred := u.deferred ++ [.undamage eb.1 eb.2 (s.scrubDue q.tier)] }) s
  | .write item none =>
    if s.stillBad item.loc then
      s.commitItem { item with bytes := slice ((s.stored item.loc).take item.loc.dataSize) item.off item.bytes.length } at_
    else s
  | .write item (some _) =>
    -- a write-back applies to the unit as committed, and keeps its marks (R445, R447)
    if item.xor then s.commitItem item at_
    else match s.readUnit item.loc with
      | some d => (s.snapReads item.loc at_).writeUnit item.loc d.data d.mark
      | none => s
  | .copy e b _ (some got) _ m =>
    let s := (List.range locs.length).foldl (fun s i =>
      match locs[i]?, got[i]? with
      | some l, some g => (s.snapReads l at_).writeUnit l g.1 (b2n g.2)
      | _, _ => s) s
    let due := s.scrubDue q.tier
    s.modUmpire fun u => { u with deferred := u.deferred ++ [.undamage e b due, .resolveOn e b 3 due m] }
  | _ => s

/-- REBUILD_WRITE (R435, R431 step 5, R441, R445): what has been read is written after its gap. -/
def execRebuildWrite (q : Position) (s : State) : Out :=
  .next <|
    match s.positionOf q ownScrub with
    | none => s
    | some used =>
      if !s.scrubWrites q.tier then s
      else
        let (s, used) := s.workPass q used true fun s i w => s.workWrite i w q
        (s.useLanes q used).pump

/-- The copies of a MIRROR block, entry included, hold the same data. -/
def State.copiesAgree (s : State) (x : Extent) (b : Nat) : Bool :=
  (x.copyLocs 0 b).zip (x.copyLocs 1 b) |>.all fun p => match s.readUnit p.1, s.readUnit p.2 with
    | some d, some d' => d.data == d'.data
    | _, _ => false

/-- The first boundary after a rebuild or a copy committed: each entry of the block leaves the damaged table where all that it
stands for reads clean. Requests to that tier that arrived before complete POISON, but for writes of the whole block; those to a
block that was DIVERGENT go on (R435, R441). -/
def State.repaired (s : State) (e b : Nat) : State :=
  match s.ext? e with
  | none => s
  | some x =>
    let far := s.blockClean x b false
    let near := !(x.page (b / 256)).near || s.blockClean x b true
    let fixed := fun (d : Damaged) => if d.diverge then far && s.copiesAgree x b else if d.far then far else near
    let gone := s.ras.damaged.filter fun d => d.ext == e && d.block == b && fixed d
    let listed := far && near && x.unlisted.contains b
    let early := s.reqs.filter fun kv => kv.2.ext == e && kv.2.block == b && !kv.2.gen && !kv.2.whole && !kv.2.visible &&
      (kv.2.op.isRead || kv.2.op.isWrite) && kv.2.flyingW.isEmpty &&
      (listed || gone.any fun d => !d.diverge && d.far == !kv.2.near)
    let s := gone.foldl (fun s d => s.undamageKind e b d.diverge d.far) s
    let s := if listed then s.modExt e fun x => { x with unlisted := x.unlisted.filter (· != b) } else s
    early.foldl (fun s kv => s.finishReq kv.1 kv.2 stPoison none) s

/-! ### Divergence and parity (R439, R442) -/

/-- A block's copies differ: it becomes DIVERGENT, or, with the table full, poisoned with both copies written marked (R432). -/
def State.diverge (s : State) (e b : Nat) : State :=
  match s.ext? e with
  | none => s
  | some x =>
    if s.divergent e b then s
    else if s.ras.damaged.length ≥ 65536 then
      let items := (List.range x.copies).flatMap fun c => ((x.blockRefs (b / 256) (b % 256)).map (x.burstLoc c)).map s.markedItem
      (s.damageBlock e b true false).modRas fun r => { r with work := r.work ++ items.map fun i => .write i none }
    else
      let s := s.modRas fun r => { r with damaged := r.damaged ++ [{ ext := e, block := b, diverge := true, far := true }] }
      (s.sendEvts x.share
        { code := 0x021, p0 := BitVec.ofNat 32 e, p1 := BitVec.ofNat 64 (x.blockAddr b) }).setRasEvent 1

/-- A write of some unit is under way. -/
def State.writesUnder (s : State) (ls : List Loc) : Bool := ls.any fun l => s.writeHolds l || s.flyingTo l

/-- Compare a unit of the lower group with its twin: both decode unmarked and their bytes differ. -/
def State.compareTwin (s : State) (l t : Loc) : State :=
  match s.readUnit l, s.readUnit t with
  | some a, some b =>
    if a.mark = 0 ∧ b.mark = 0 ∧ a.data ≠ b.data ∧ !s.writesUnder [l, t] then
      (s.unitBlocks (s.useOf l)).foldl (fun s eb => s.diverge eb.1 eb.2) s
    else s
  | _, _ => s

/-- The stripe of a far unit of a PARITY extent: its six bursts; none for other units. -/
def State.stripeOf (s : State) (l : Loc) : List Loc :=
  match (s.useOf l).ext? with
  | some e => match s.ext? e with
    | some x => if x.prot = Prot.parity then l :: stripeOthers l else []
    | none => []
  | none => []

/-- Check the stripe of a unit that the scrubber has read: an unmarked stripe whose parity differs is mended (R442). -/
def State.checkStripe (s : State) (l : Loc) (at_ : Bool × Nat × Nat) : State :=
  match s.useOf l, s.stripeOf l with
  | .parity _, ls =>
    let ds := ls.map s.readUnit
    if ds.all (fun d => match d with | some d => d.mark == 0 | none => false) ∧ !s.writesUnder ls then
      let delta := ds.foldl (fun a d => match d with | some d => xorBytes a d.data | none => a) (zeros 64)
      if delta.any (· != 0) then
        (s.modRas fun r => { r with
          work := r.work ++ [.write { loc := l, off := 0, bytes := delta, xor := true } (some at_)]
          parityFixed := r.parityFixed + 1 }).setRasEvent 4
      else s
    else s
  | _, _ => s

/-! ### Patrol scrubbing (R443 to R445) -/

/-- Steps of a scrubber in a pass. -/
def patrolSteps (t : Tier) : Nat := match t with | .near => 32768 | .far => 2 ^ 32

def State.patrol (s : State) (t : Tier) (u : Nat) : Patrol :=
  Table.getD (match t with | .near => s.ras.nearPatrol | .far => s.ras.farPatrol) u {}

def State.setPatrol (s : State) (t : Tier) (u : Nat) (p : Patrol) : State :=
  s.modRas fun r => match t with
    | .near => { r with nearPatrol := Table.set r.nearPatrol u p }
    | .far => { r with farPatrol := Table.set r.farPatrol u p }

/-- Picks of a pass (R444). -/
def passPicks (hours : Nat) : Nat := hours * 11953125000

/-- The pick from which step `n` of the running pass is due. -/
def State.stepDue (s : State) (t : Tier) (n : Nat) : Nat :=
  match t with
  | .near => s.ras.nearStart + n * passPicks s.ras.nearPass / patrolSteps .near
  | .far => s.ras.farStart + n * passPicks s.ras.farPass / patrolSteps .far

/-- A scrubber exists: a section, or the group where present. Patrols wait for the clearing after a loss of far contents (R446). -/
def State.scrubber (s : State) (t : Tier) (u : Nat) : Bool :=
  s.ras.patrols && match t with
    | .near => u < 16
    | .far => s.hasGroup u

/-- SCRUB_STEP_DUE (R444): the next step of a scrubber becomes due. -/
def execScrubStepDue (t : Tier) (u : Nat) (s : State) : Out :=
  .next <|
    let p := s.patrol t u
    let n := p.step + p.due
    if s.scrubber t u && !p.ended && n < patrolSteps t && s.stepDue t n ≤ s.time.pick then s.setPatrol t u { p with due := p.due + 1 }
    else s

/-- Units that a patrol step reads (R443): near only codewords of frames that hold a page, and the metadata region; far every
subchannel that has not failed. -/
def State.stepLocs (s : State) (t : Tier) (u n : Nat) : List Loc :=
  match t with
  | .near =>
    let frames := (List.range 8).filter fun k =>
      metaWord ≤ 512 * n + 64 * k || (s.framePage (u * framesPerSection + 8 * n + k)).isSome
    frames.flatMap fun k => (List.range 64).map fun i => .near u (512 * n + 64 * k + i)
  | .far => ((List.range 12).map fun j => Loc.far u j n).filter fun l => !s.locFailed l

/-- A marked unit has a source that reads clean now (R435). -/
def State.cleanSource (s : State) (l : Loc) : Bool :=
  (s.sources l).any fun ls => ls.all fun k => match s.readUnit k with
    | some d => d.mark == 0
    | none => false

/-- The scrubber reads one unit: a correction is written back, damage is recorded, a marked unit with a clean source is
rebuilt (R431, R435, R445). -/
def State.scrubUnit (s : State) (l : Loc) (at_ : Bool × Nat × Nat) : State :=
  match s.readUnit l with
  | some d =>
    let s := s.recordCe l d
    let queued := s.ras.work.any fun w => w.unit == some l
    let back : List RasWork :=
      if d.fixed = 0 || queued then []
      else [.write { loc := l, off := 0, bytes := d.data, mark := markBits l d.mark } (some at_)]
    let again : List RasWork :=
      if d.mark ≠ 0 ∧ s.cleanSource l ∧ s.rebuildRoom l ∧ !queued then
        [.rebuild l 0 none none]
      else []
    s.modRas fun r => { r with work := r.work ++ (if again.isEmpty then back else again) }
  | none => match s.useOf l with
    | .metadata => s.enterSafe 0x04
    | _ => s.foundBad l

/-- Twins in another group that a patrol step leaves to be read there (R439). -/
def State.twinsOf (s : State) (ls : List Loc) : List (Loc × Loc) :=
  ls.filterMap fun l => match (s.useOf l).ext? with
    | some e => match s.ext? e with
      | some x => match x.prot, x.twin l with
        | .mirror, some t => if (groupsOf x.groups).headD 0 = l.home.2 ∧ !s.locFailed t then some (l, t) else none
        | _, _ => none
      | none => none
    | none => none

/-- A step of a scrubber is done (R443, R444). -/
def State.stepDone (s : State) (t : Tier) (u : Nat) (owed : List (Loc × Loc)) : State :=
  let p := s.patrol t u
  let n := p.step + 1
  let s := s.setPatrol t u { p with step := n, due := p.due - 1, owed := p.owed ++ owed, ended := n == patrolSteps t }
  if t = .far ∧ n % 256 = 0 then s.modRas fun r => { r with passDone := r.passDone + 1 } else s

/-- Twins owed to a group: the reads of the upper copies, which take a whole scrub position there. -/
def State.twinsDue (s : State) (g : Nat) : List (Loc × Loc) :=
  (s.ras.farPatrol.flatMap fun kv => kv.2.owed).filter fun o => o.2.home == (.far, g)

/-- SCRUB_STEP (R443, R439, R442, R445): a scrub position that rebuild and clearing leave free. -/
def execScrubStep (q : Position) (errs : List CellError) (s : State) : Out :=
  .next <|
    match s.positionOf q ownScrub with
    | some [] =>
      if !s.scrubOn || !s.scrubber q.tier q.unit || s.workClaims q || s.clearClaims q then s
      else
        let at_ := (q.tier == .near, s.time.pick, q.pos)
        let due := if q.tier = .far then s.twinsDue q.unit else []
        match due with
        | o :: _ =>
          let row := due.filter fun x => (match x.2, o.2 with | .far _ _ a, .far _ _ b => a == b | _, _ => false)
          let ls := row.map (·.2)
          let s := (s.flipCells ls errs).useRanks ls
          let s := ls.foldl (fun s l => s.scrubUnit l at_) s
          let s := row.foldl (fun s x => s.compareTwin x.1 x.2) s
          let s := s.modRas fun r => { r with farPatrol := Table.mapV r.farPatrol fun _ p =>
            { p with owed := p.owed.filter fun x => !row.contains x } }
          s.useLanes q (allLanes q)
        | [] =>
          let p := s.patrol q.tier q.unit
          if p.due = 0 || p.ended then s
          else
            let ls := s.stepLocs q.tier q.unit p.step
            let s := (s.flipCells ls errs).useRanks ls
            let s := ls.foldl (fun s l => s.scrubUnit l at_) s
            let s := if q.tier = .far then ls.foldl (fun s l => s.checkStripe l at_) s else s
            let owed := if q.tier = .far then s.twinsOf ls else []
            let s := s.stepDone q.tier q.unit owed
            if ls.isEmpty then s else s.useLanes q (allLanes q)
    | _ => s

/-- Overwriting after a loss of far contents still runs: free units, or an extent whose clear that loss began (R446). -/
def State.initRuns (s : State) : Bool :=
  !s.ras.initCursor.isEmpty || s.exts.any fun kv => kv.2.clear.any fun c => decide (c.order < s.ras.initOrder)

/-- The scrubbers start their first passes at the pick boundary after that overwriting has ended (R444, R446). -/
def State.startPatrols (s : State) : State :=
  if s.ras.patrols || s.initRuns then s
  else s.modRas fun r => { r with
    patrols := true, nearPatrol := [], farPatrol := [], nearStart := s.time.pick, farStart := s.time.pick, nearPass := r.nearHours
    farPass := r.farHours, passBeat := s.beatNow, passDone := 0, devCount := [] }

/-- A pass ends when all its scrubbers have finished; the next begins at this pick boundary (R444). -/
def State.passes (s0 : State) : State :=
  let s := s0.startPatrols
  let groups := (List.range 4).filter s.hasGroup
  let s := if (List.range 16).all fun u => (s.patrol .near u).ended then
      s.modRas fun r => { r with nearPatrol := [], nearStart := s.time.pick, nearPass := r.nearHours }
    else s
  if !groups.isEmpty && groups.all fun u => (s.patrol .far u).ended && (s.patrol .far u).owed.isEmpty then
    s.modRas fun r => { r with
      farPatrol := [], farStart := s.time.pick, farPass := r.farHours, passBeat := s.beatNow, passDone := 0, devCount := [] }
  else s

/-! ### Device marks and channel failure (R426, R436) -/

/-- DEVICE_MARK (R426): 4,096 corrections of one device in a far pass mark it; a rank holds one mark. -/
def execDeviceMark (ch sub rank dev : Nat) (s : State) : Out :=
  .next <|
    let r := (ch * 2 + sub) * 2 + rank
    if 4096 ≤ Table.getD s.ras.devCount (r * 10 + dev) 0 && dev < 10 && (Table.get? s.nor.devMarks r).isNone then
      (s.modNor fun n => { n with devMarks := Table.set n.devMarks r dev }).setRasEvent 2
    else s

/-- A second mark is due in a rank of a channel. -/
def State.secondMark (s : State) (ch : Nat) : Bool :=
  (List.range 4).any fun i =>
    let r := ch * 4 + i
    match Table.get? s.nor.devMarks r with
    | some d => (List.range 10).any fun v => v != d && decide (4096 ≤ Table.getD s.ras.devCount (r * 10 + v) 0)
    | none => false

/-- Work that a failed channel leaves: a rebuild of a unit there is dropped, any other restarts its choice of source (R447). -/
def State.workAfterFail (s : State) (w : RasWork) : Option RasWork :=
  match w with
  | .rebuild l _ none _ => if s.locFailed l then none else if (s.sources l).isEmpty then some (.write (s.markedItem l) none)
      else some (.rebuild l 0 none none)
  | .rebuild l _ (some _) _ => if s.locFailed l then none else some w
  | .write i _ => if s.locFailed i.loc then none else some w
  | .copy .. => some w

/-- CHANNEL_FAIL (R436): a second device mark in a rank of the channel, or ALERT_n in 16 consecutive picks. The channel is taken
out at the next pick boundary; its accesses from now on read as uncorrectable, its writes are lost (`State.locDead`). -/
def execChannelFail (ch : Nat) (alert : Bool) (s : State) : Out :=
  .next <|
    if 24 ≤ ch || s.chFailed ch || s.ras.failing.toNat.testBit ch || !s.hasGroup (ch / 6) || !(alert || s.secondMark ch) then s
    else s.modRas fun r => { r with failing := r.failing ||| BitVec.ofNat 24 (2 ^ ch) }

/-- The pick boundary after channels have failed: they take no access, their ranks are powered down, FAILED_CHANNELS and the
event show them, and queued work that needs them changes (R436, R447). -/
def State.channelsFail (s : State) : State :=
  if s.ras.failing = 0 then s
  else
    let chs := (List.range 24).filter fun c => s.ras.failing.toNat.testBit c
    let s := (s.modNor fun n => { n with failedCh := n.failedCh ||| s.ras.failing }).setRasEvent 3
    let s := s.modRas fun r => { r with failing := 0, work := r.work.filterMap s.workAfterFail }
    (s.setFar ({ s.far with down := (s.far.down ++ chs.flatMap fun c => (List.range 4).map (c * 4 + ·)).eraseDups }))

/-! ### Commands (spec/15_mailboxes.md R403, R420) -/

/-- The extents that a RAS query counts: all, or those of one context. -/
inductive RasScope where
  | device
  | context (c : Nat)
deriving DecidableEq, Repr

/-- The scope that a query names, or the status that refuses it. -/
def State.rasScope (s : State) (m : Mbx) : RasScope ⊕ Nat :=
  if m ≠ .operator ∧ s.rq m 1 1 = 0xFF then .inl .device
  else match s.commandCtx m (s.rq m 1 1) with
    | .inl c => .inl (.context c)
    | .inr st => .inr st

/-- An extent lies in the scope of a query. -/
def State.inScope (s : State) (sc : RasScope) (e : Nat) : Bool :=
  match sc with
  | .device => (s.ext? e).isSome
  | .context c => match s.ext? e with
    | some x => x.st == .granted && x.owner == c
    | none => false

/-- Groups with far rebuilds queued. -/
def State.rebuilding_ (s : State) : Nat :=
  (List.range 4).foldl (fun a g => a + b2n (s.ras.work.any fun w => match w with
    | .rebuild l .. => l.home == (.far, g)
    | _ => false) * 2 ^ g) 0

/-- SUMMARY (R420). -/
def State.rasSummary (s : State) (sc : RasScope) (operator : Bool) : List Byte :=
  let mine := s.exts.filter fun kv => s.inScope sc kv.1
  let sum := fun (f : Extent → Nat) => mine.foldl (fun a kv => a + f kv.2) 0
  let all := fun (t : Table Nat) => t.foldl (fun a kv => a + kv.2) 0
  let (ceN, ceF, ueN, ueF) := match sc with
    | .device => (all s.ras.ceNear, all s.ras.ceFar, s.ras.nearUe.toNat, s.ras.farUe.toNat)
    | .context _ => (sum (·.ceNear), sum (·.ceFar), sum (·.ueNear), sum (·.ueFar))
  let listed := s.ras.damaged.filter fun d => s.inScope sc d.ext
  let bad := (listed.filter fun d => !d.diverge).length + sum fun x => x.unlisted.length
  let div := (listed.filter fun d => d.diverge).length
  let dev := fun (v : Nat) => if operator then 0 else v
  toLe 8 ceN ++ toLe 8 ceF ++ toLe 8 ueN ++ toLe 8 ueF ++ toLe 4 bad ++ toLe 4 div ++
    toLe 4 (dev s.nor.failedCh.toNat) ++ toLe 1 (dev s.rebuilding_) ++ zeros 3 ++ toLe 8 (dev s.ras.passBeat.toNat) ++
    toLe 8 (dev s.ras.passDone.toNat) ++ toLe 8 (dev s.ras.sramCe.toNat) ++ toLe 8 (dev s.ras.parityFixed.toNat)

/-- RAS_QUERY with SCOPE SUMMARY. -/
def execRasQuerySummary (m : Mbx) (s : State) : Out :=
  .next <| s.runCommand m 0x00B0 (s.rq m 0 1 == 0) fun s =>
    match s.rasScope m with
    | .inr st => s.fail m st
    | .inl sc => s.complete m mOk (s.rasSummary sc (m == .operator))

/-- An entry of the damaged table as LIST gives it. -/
def State.damagedEntry (s : State) (d : Damaged) : List Byte :=
  let a := match s.ext? d.ext with | some x => x.blockAddr d.block | none => 0
  toLe 8 a ++ toLe 2 d.ext ++ toLe 1 (b2n d.diverge) ++ toLe 1 (b2n d.far) ++ zeros 4

/-- RAS_QUERY with SCOPE LIST; a SCOPE of no form completes BAD_ARG. -/
def execRasQueryList (m : Mbx) (s : State) : Out :=
  .next <| s.runCommand m 0x00B0 (s.rq m 0 1 != 0) fun s =>
    if s.rq m 0 1 ≠ 1 then s.fail m mBadArg
    else match s.rasScope m with
      | .inr st => s.fail m st
      | .inl sc =>
        let want := s.rq m 2 2
        let all := s.ras.damaged.filter fun d => s.inScope sc d.ext && (want == 0xFFFF || d.ext == want)
        let page := (all.drop (s.rq m 4 4)).take 125
        s.complete m mOk (toLe 4 all.length ++ toLe 2 page.length ++ zeros 2 ++ page.flatMap s.damagedEntry)

/-- CE_TABLE_READ (R433, R420). -/
def execCeTableRead (m : Mbx) (s : State) : Out :=
  .next <| s.runCommand m 0x00B1 true fun s =>
    let t := s.rq m 0 1
    if t > 1 then s.fail m mBadArg
    else
      let tab := if t = 0 then s.ras.tabNear else s.ras.tabFar
      let ovf := if t = 0 then s.ras.ovfNear else s.ras.ovfFar
      let entry := fun (i : Nat) => match tab[i]? with
        | some e => toLe 8 e.loc.toNat ++ toLe 4 e.hits ++ zeros 4
        | none => zeros 16
      let body := toLe 1 tab.length ++ zeros 3 ++ toLe 4 ovf ++ (List.range 32).flatMap entry
      let s := if !s.flag m 0 then s
        else s.modRas fun r => if t = 0 then { r with tabNear := [], ovfNear := 0 } else { r with tabFar := [], ovfFar := 0 }
      s.complete m mOk body

/-- DIVERGENCE_RESOLVE up to its boundary (R441, R420, R509). -/
def State.resolve (s : State) (m : Mbx) (action : Nat) : State :=
  let a := s.rq m 0 8
  let e := s.rq m 8 2
  match s.ext? e with
  | none => s.fail m mBadArg
  | some x =>
    let b := (a - x.base) / 256
    if a < x.base ∨ x.blockCount ≤ b ∨ a % 256 ≠ 0 ∨ x.prot ≠ Prot.mirror then s.fail m mBadArg
    else if x.st ≠ .granted ∨ !s.divergent e b then s.fail m mState
    else if s.isWaiting (· == .resolve e b) then s.fail m mBusy
    else (s.await m (.resolve e b)).modUmpire fun u => { u with deferred := u.deferred ++ [.resolveOn e b action 0 m] }

/-- DIVERGENCE_RESOLVE with ACTION COPY_LOW. -/
def execCopyLow (m : Mbx) (s : State) : Out :=
  .next <| s.runCommand m 0x00B2 (s.rq m 0x0A 1 == 0) fun s => s.resolve m 0

/-- DIVERGENCE_RESOLVE with ACTION COPY_HIGH. -/
def execCopyHigh (m : Mbx) (s : State) : Out :=
  .next <| s.runCommand m 0x00B2 (s.rq m 0x0A 1 == 1) fun s => s.resolve m 1

/-- DIVERGENCE_RESOLVE with ACTION REWRITE; an ACTION of no form completes BAD_ARG. -/
def execRewrite (m : Mbx) (s : State) : Out :=
  .next <| s.runCommand m 0x00B2 (decide (2 ≤ s.rq m 0x0A 1)) fun s =>
    if s.rq m 0x0A 1 = 2 then s.resolve m 2 else s.fail m mBadArg

/-- The first boundary after DIVERGENCE_RESOLVE, or (action 3) after its copy committed (R441). -/
def State.resolveAt (s : State) (e b action : Nat) (m : Mbx) : State :=
  if action = 3 then s.markReady m mOk []
  else if !s.divergent e b then s.markReady m mState []
  else if action = 2 then
    (s.modRas fun r => { r with damaged := r.damaged.map fun d =>
      if d.ext == e && d.block == b then { d with rewrite := true } else d }).markReady m mOk []
  else s.modRas fun r => { r with work := r.work ++ [.copy e b (action == 0) none none m] }

/-- Queued work for the units of an extent is dropped, and what waits for it completes STATE (R441, R447). -/
def State.dropExtWork (s : State) (e : Nat) : State :=
  let gone := fun (w : RasWork) => match w with
    | .copy k .. => k == e
    | w => match w.unit with
      | some l => (s.useOf l).ext? == some e
      | none => false
  let s' := s.modRas fun r => { r with work := r.work.filter fun w => !gone w }
  (s.waiting fun w => match w with | .resolve k _ => k == e | _ => false).foldl (fun s m => s.markReady m mState []) s'

/-- The settings in force, as SCRUB_CONFIG reports them. -/
def State.scrubBody (s : State) : List Byte :=
  toLe 2 s.nor.farHours ++ toLe 2 s.nor.nearHours ++ toLe 2 s.nor.idlePicks ++ toLe 1 (b2n s.nor.pdEn) ++ zeros 1

/-- SCRUB_CONFIG (R444, spec/06_memory_channels.md R175): in force at the next pick boundary, pass lengths from the next pass. -/
def execScrubConfig (m : Mbx) (s : State) : Out :=
  .next <| s.runCommand m 0x00B3 true fun s =>
    if s.flag m 0 then s.complete m mOk s.scrubBody
    else
      let far := s.rq m 0 2
      let near := s.rq m 2 2
      if far < 1 ∨ 168 < far ∨ near < 1 ∨ 168 < near ∨ 1 < s.rq m 6 1 then s.fail m mBadArg
      else
        let s := s.modNor fun n => { n with
          farHours := far, nearHours := near, idlePicks := s.rq m 4 2, pdEn := s.rq m 6 1 == 1 }
        (s.await m .scrubCfg).modUmpire fun u => { u with deferred := u.deferred ++ [.scrubOn m] }

/-- The boundary of a SCRUB_CONFIG; PD_EN = 0 wakes every rank (R175). -/
def State.scrubSet (s : State) (m : Mbx) : State :=
  let s := s.modRas fun r => { r with farHours := s.nor.farHours, nearHours := s.nor.nearHours }
  let s := (s.setFar ({ s.far with
    pdEn := s.nor.pdEn, idlePicks := s.nor.idlePicks
    down := if s.nor.pdEn then s.far.down else s.far.down.filter fun r => s.chFailed (r / 4) }))
  s.markReady m mOk s.scrubBody

end Sys2Proof.Machine
end

