-- ==== Sys2Proof/Machine/Slots.lean ====
section
/-! DEFINITION. Slots: presence, button, power, training, drains, low power of a port, and PORT_SLOT_CTL
(spec/11_port_slots.md R290 to R304, spec/17_reset_power.md R455, spec/15_mailboxes.md R422). -/

namespace Sys2Proof.Machine

/-! ### Inputs of a slot (R291 to R294) -/

/-- PRESENCE_GAINED (R291, R293, R302): an EMPTY slot becomes OFF, and POWERING with AUTO_POWER; before the store has loaded
it waits. In SAFE presence is only shown (R294). -/
def execPresenceGained (p : Nat) (s : State) : Out :=
  .next <|
    if !s.hasPort p || (s.slot p).prsnt then s
    else
      let s := (s.modSlot p fun t => { t with prsnt := true }).setSts p stsPresence
      if (s.slot p).st ≠ .empty || s.power.safe then s
      else
        let s := s.setSlot p .off
        if !s.umpire.ready then s.modSlot p fun t => { t with awaits := true }
        else if (s.slot p).autoPower then s.cageOn p
        else s

/-- PRESENCE_LOST (R293, R297, R298). -/
def execPresenceLost (p : Nat) (s : State) : Out :=
  .next <|
    if !s.hasPort p || !(s.slot p).prsnt then s
    else
      let s := (s.modSlot p fun t => { t with prsnt := false, awaits := false }).setSts p stsPresence
      match (s.slot p).st with
      | .empty => s
      | .fault => s.slotEmptied p
      | _ => (((s.surpriseLoss p).cageOff p).slotEmptied p).endPowerOff p mAborted

/-- BUTTON_PRESS (R293, R294). -/
def execButtonPress (p : Nat) (s : State) : Out :=
  .next <|
    if !s.hasPort p then s
    else
      let s := s.setSts p stsButton
      if s.power.safe || !(s.slot p).buttonEn then s
      else match (s.slot p).st with
        | .off => s.cageOn p
        | .powering | .training => (s.cageOff p).setSlot p .off
        | .up => s.setSlot p .hold
        | .hold => s.setSlot p .up
        | _ => s

/-- POWER_FAULT (R292, R293, R300): cage power goes off, the slot enters FAULT, the attention indicator goes on. -/
def execPowerFault (p : Nat) (s : State) : Out :=
  .next <|
    if !s.hasPort p || !(s.slot p).pwrOn then s
    else
      let s := ((s.surpriseLoss p).cageOff p).setSts p stsPwrFault
      ((s.modSlot p fun t => { t with attn := 1#2 }).setSlot p .fault).endPowerOff p mAborted

/-! ### Training (R263, R293, R455) -/

/-- TRAINING_START (R293): PWR_GOOD has risen and 200 ms have elapsed. -/
def execTrainingStart (p : Nat) (s : State) : Out :=
  .next <|
    if (s.slot p).st = .powering && !s.power.safe then
      (s.modSlot p fun t => { t with pwrGood := true }).setSlot p .training
    else s

/-- A port trains at x16 or x8 (R263). -/
def widthOk (w : Nat) : Bool := w == 16 || w == 8

/-- Frames start on a port. -/
def State.framesStart (s : State) (p width : Nat) : State :=
  ((s.modPort p fun q => { q with width := width, closed := false }).setSlot p .up).setSts p stsLink

/-- LINK_TRAINED (R263, R293): the slot is UP and frames start. -/
def execLinkTrained (p width : Nat) (s : State) : Out :=
  .next <|
    if (s.slot p).st = .training && widthOk width && s.umpire.ready && !s.power.safe then s.framesStart p width else s

/-- TRAINING_RETRY (R293, R455): an attempt has failed; the slot trains again and keeps its state. -/
def execTrainingRetry (p : Nat) (s : State) : Out :=
  .next <|
    match (s.slot p).st with
    | .training => s.setSlot p .training
    | _ => s

/-- LINK_FAILURE (R265, R293, R297, R452). -/
def execLinkFailure (p : Nat) (s : State) : Out := .next (s.linkFailure p)

/-- The next boundary of a lost port's last write: its leases become TORN (R87, R297 step 7). -/
def execLeaseTorn (p : Nat) (s : State) : Out :=
  .next <| if (s.port p).lossDue && !s.orphanWrites p && s.atBoundary then s.tearLeases p else s

/-- KEY_HOLD_END (spec/13_isolation_crypto.md R341 steps 7 and 8): the fourth frame of the hold has ended; the port is reset
and trains again in plaintext; in SAFE the destroy has stopped and the slot keeps its state (R294, R343). -/
def execKeyHoldEnd (p : Nat) (s : State) : Out :=
  .next <|
    if (s.port p).hold = some 0 && !s.power.safe then (s.portReset p).setSlot p .training else s

/-! ### Drains (R295, R455) -/

/-- HOLD_TIMEOUT (R293): 5 s in HOLD start the drain. -/
def execHoldTimeout (p : Nat) (s : State) : Out :=
  .next <|
    if (s.slot p).st = .hold && !s.power.safe then
      s.modSlot p fun t => { t with st := .draining, drain := some .off, drainPick := none }
    else s

/-- PORT_DORMANT_ENTER (R455, spec/17_reset_power.md R456 step 2): the drain of an UP port whose DORMANT bit is 1, or whose
expander enters STANDBY, is due. -/
def execPortDormantEnter (p : Nat) (s : State) : Out :=
  .next <|
    if (s.slot p).st = .up && (s.slot p).drain.isNone && (maskHas s.power.dormant p || s.power.standbyReq) && !s.power.safe then
      s.modSlot p fun t => { t with drain := some (if maskHas s.power.dormant p then .dormant else .standby), drainPick := none }
    else s

/-- Descriptors that move data over a port end ABORTED: blocks that have been issued finish; pull reads that have not been
sent are not sent (R295 step 2). -/
def State.stopOnPort (s : State) (p : Nat) : State :=
  (List.range 8).foldl (fun s e =>
    match s.engine e with
    | some j =>
      match j.cur with
      | some c =>
        if c.d.kind ≥ 2 ∧ c.d.port = p then
          (s.stopDesc e dAborted).settle e
        else s
      | none => s
    | none => s) s

/-- DRAIN_START (R295): the next pick boundary is boundary q of the drain of a port that is due. -/
def execDrainStart (p : Nat) (s : State) : Out :=
  .next <|
    if (s.slot p).drain.isSome && (s.slot p).drainPick.isNone && !s.power.safe then
      s.modSlot p fun t => { t with drainPick := some s.nextPick }
    else s

/-- Boundary q of a drain (R295 steps 1 and 2): from this pick's HEAD on the port opens no slot and grants no credit, and
descriptors that involve it end. -/
def State.drainAt (s : State) (p : Nat) : State :=
  if (s.slot p).drain.isSome && (s.slot p).drainPick == some s.time.pick && !s.power.safe then
    (s.modPort p fun q => { q with closed := true }).stopOnPort p
  else s

/-- Nothing of a draining port is left: requests, completions, writes, expander reads (R295 step 4). -/
def State.drainedPort (s : State) (p : Nat) : Bool :=
  !(s.reqs.any fun kv => kv.2.port == some p) && (s.port p).cpls.isEmpty && (s.port p).arrivals.isEmpty &&
    (s.port p).rdTags.isEmpty

/-- DRAIN_END (R295 steps 4 and 5, R455 step 2): the drain has nothing left, or 48 picks have passed. -/
def execDrainEnd (p : Nat) (s : State) : Out :=
  .next <|
    match (s.slot p).drainPick with
    | none => s
    | some q =>
      if s.power.safe || s.time.pick < q || !(s.drainedPort p || q + 48 ≤ s.time.pick) then s
      else match (s.slot p).drain with
        | some .off =>
          let s := ((s.losePort p).setSts p stsDrainDone).portReset p
          (((s.cageOff p).setSlot p .off).endPowerOff p mOk)
        | _ =>
          let s := ((s.takeAll p).losePort p).modPort p fun t => { t with closed := false }
          let s := s.modSlot p fun t => { t with st := .dormant, drain := none, drainPick := none, wake := false }
          s.setSts p stsLink

/-- PORT_DORMANT_WAKE (R455): a port whose DORMANT bit is 0, with STANDBY 0, has trained; frames go on from its FRAME count. -/
def execPortDormantWake (p width : Nat) (s : State) : Out :=
  .next <|
    if (s.slot p).st = .dormant && !maskHas s.power.dormant p && !s.power.standbyBit && widthOk width && s.umpire.ready &&
        !s.power.safe then
      s.framesStart p width
    else s

/-! ### PORT_SLOT_CTL (R300, spec/15_mailboxes.md R422) -/

/-- Body of a response: the state of the slot. -/
def State.slotBody (s : State) (p : Nat) : List Byte := toLe 1 (s.slot p).st.code ++ zeros 7

/-- Run an action on a slot that exists. -/
def State.slotCtl (s : State) (m : Mbx) (own : Nat → State → State) : State :=
  let p := s.rq m 0 1
  if 5 < p then s.fail m mBadArg
  else if !s.hasPort p then s.fail m mNotPresent
  else own p s

/-- Complete an action with the slot's state. -/
def State.slotOk (s : State) (m : Mbx) (p : Nat) : State := s.complete m mOk (s.slotBody p)

/-- POWER_ON. -/
def execSlotPowerOn (m : Mbx) (s : State) : Out :=
  .next <| s.runCommand m 0x00E0 (s.rq m 1 1 == 0) fun s => s.slotCtl m fun p s =>
    let fault := (s.slot p).sts.toNat.testBit stsPwrFault
    if (s.slot p).st = .off || ((s.slot p).st = .fault && !fault) then (s.cageOn p).slotOk m p
    else s.fail m mState

/-- POWER_OFF: a drain from UP and HOLD, at once from the others. -/
def execSlotPowerOff (m : Mbx) (s : State) : Out :=
  .next <| s.runCommand m 0x00E0 (s.rq m 1 1 == 1) fun s => s.slotCtl m fun p s =>
    match (s.slot p).st with
    | .up | .hold => (s.modSlot p fun t => { t with st := .draining, drain := some .off, drainPick := none }).await m (.slot p)
    | .powering | .training => ((s.cageOff p).setSlot p .off).slotOk m p
    | .dormant => (((s.portReset p).cageOff p).setSlot p .off).slotOk m p
    | _ => s.fail m mState

/-- CANCEL. -/
def execSlotCancel (m : Mbx) (s : State) : Out :=
  .next <| s.runCommand m 0x00E0 (s.rq m 1 1 == 2) fun s => s.slotCtl m fun p s =>
    if (s.slot p).st = .hold then (s.setSlot p .up).slotOk m p else s.fail m mState

/-- PORT_RESET: cage power is kept; the port's leases become TORN. -/
def execSlotPortReset (m : Mbx) (s : State) : Out :=
  .next <| s.runCommand m 0x00E0 (s.rq m 1 1 == 3) fun s => s.slotCtl m fun p s =>
    match (s.slot p).st with
    | .up | .dormant => ((s.portReset p).setSlot p .training).slotOk m p
    | _ => s.fail m mState

/-- SET_ATTN. -/
def execSetAttn (m : Mbx) (s : State) : Out :=
  .next <| s.runCommand m 0x00E0 (s.rq m 1 1 == 4) fun s => s.slotCtl m fun p s =>
    if 2 < s.rq m 2 1 then s.fail m mBadArg
    else (s.modSlot p fun t => { t with attn := BitVec.ofNat 2 (s.rq m 2 1) }).slotOk m p

/-- SET_POLICY takes effect at the next pick boundary; an ACTION of no form completes BAD_ARG, once the slot is known to exist
(R404). -/
def execSetPolicy (m : Mbx) (s : State) : Out :=
  .next <| s.runCommand m 0x00E0 (decide (5 ≤ s.rq m 1 1)) fun s =>
    s.slotCtl m fun p s =>
      if 5 < s.rq m 1 1 then s.fail m mBadArg
      else
        let v := s.rq m 3 1
        (s.await m (.slotPolicy p)).modUmpire fun u => { u with
          deferred := u.deferred ++ [.policyOn p (bit v 0) (bit v 1) (bit v 2) m] }

/-- The boundary of a SET_POLICY: the slot's policy and the store. -/
def State.policySet (s : State) (p : Nat) (auto btn clr : Bool) (m : Mbx) : State :=
  let s := s.modSlot p fun t => { t with autoPower := auto, buttonEn := btn, aptClear := clr }
  let s := s.modNor fun n => { n with slotPolicy := n.slotPolicy.set p (auto, btn, clr) }
  s.markReady m mOk (s.slotBody p)

end Sys2Proof.Machine
end

