-- ==== Sys2Proof/Machine/Contexts.lean ====
section
/-! DEFINITION. Discovery, submission of commands, contexts (spec/13_isolation_crypto.md R326 to R329 and R341 to R343,
spec/15_mailboxes.md R395, R407 and R408). -/

namespace Sys2Proof.Machine

/-! ### Submission (R392, R395) -/

/-- MBX_SUBMIT: software writes MBX_CTL; a port image is unreachable in SAFE (spec/10_host_link.md R283). -/
def execMbxSubmit (m : Mbx) (ctl : W32) (s : State) : Out :=
  .next <|
    match m with
    | .port _ => if s.power.safe then s else s.writeCtl m ctl.toNat
    | _ => s.writeCtl m ctl.toNat

/-! ### Discovery (R407) -/

/-- UNITS: the bitwise NOT of VARIANT_DIS in bits [11:0]. -/
def State.units (s : State) : Nat := xorN 0xFFF (s.variantDis % 4096)

/-- Width of a port as GET_CAPS gives it: 0 while its link is down. -/
def State.widthNow (s : State) (p : Nat) : Nat := if s.linkUp p then (s.port p).width else 0

/-- Near data bytes (R407). -/
def nearData : Nat := 66571993088

/-- GET_CAPS response. -/
def State.capsBody (s : State) (m : Mbx) : List Byte :=
  let role := match roleOf m (s.keyId m) with | some r => roleCode (some r) | none => 0xFF
  toLe 2 s.units ++ toLe 1 0xB0 ++ toLe 1 s.umpire.svn ++ toLe 4 s.umpire.fwVersion.toNat ++
    (List.range 6).flatMap (fun p => toLe 1 (s.widthNow p)) ++ toLe 2 448 ++ toLe 2 s.time.cfg.picks ++
    toLe 1 s.patterns ++ toLe 1 s.time.sync.code ++ toLe 4 s.loomPool ++ toLe 8 nearData ++ toLe 8 s.farData ++
    toLe 2 s.qContexts ++ toLe 2 s.qExtents ++ toLe 2 s.qLeases ++ toLe 2 s.qPins ++ toLe 1 s.qBound ++ toLe 1 role ++
    toLe 2 1696 ++ toLe 4 (if isManaged m then 524288 else 0) ++ zeros 8

/-- GET_CAPS. -/
def execGetCaps (m : Mbx) (s : State) : Out :=
  .next <| s.runCommand m 0x0001 true fun s => s.complete m mOk (s.capsBody m)

/-- CONTEXT_MAP: through a port mailbox the attached context alone. -/
def State.contextMap (s : State) (m : Mbx) : Nat :=
  match m with
  | .port p => match s.attachedTo p with
    | some c => 2 ^ c
    | none => 0
  | _ => s.ctxs.foldl (fun a kv => a + 2 ^ kv.1) 0

/-- GET_STATUS response. -/
def State.statusBody (s : State) (m : Mbx) : List Byte :=
  toLe 4 s.statusFlags ++ toLe 1 s.safeCauseNow ++ toLe 1 s.time.sync.code ++ toLe 1 s.umpire.boot.toNat ++
    toLe 1 s.fuses.svnF ++ toLe 8 s.beatNow.toNat ++ toLe 8 s.picks ++ toLe 4 s.nor.bootCount ++ zeros 4 ++
    toLe 8 (s.contextMap m) ++ zeros 24

/-- GET_STATUS. -/
def execGetStatus (m : Mbx) (s : State) : Out :=
  .next <| s.runCommand m 0x0002 true fun s => s.complete m mOk (s.statusBody m)

/-! ### What drains (spec/03_pool_extents.md R82, R83) -/

/-- Host requests of a kind from before a pick that have not completed at their port; writes of a lost port count until they
have ended (spec/11_port_slots.md R297 step 2). -/
def State.pendingHost (s : State) (before_ : Nat) (ports : List Nat) (ext : Option Nat) : Nat :=
  let reqs := (s.reqs.filter fun kv => match kv.2.port with
    | some p => ports.contains p && decide (kv.2.arrival < before_) && (!kv.2.orphan || kv.2.op.isWrite) && (ext.isNone || ext == some kv.2.ext)
    | none => false).length
  let cpls := ports.foldl (fun a p => a +
    ((s.port p).cpls.filter fun c => decide (c.arrival < before_) && (ext.isNone || c.ext == ext)).length) 0
  reqs + cpls

/-- Writes to an extent that have not become visible or are still writing through. -/
def State.writesOf (s : State) (e : Nat) : Bool := s.reqs.any fun kv => kv.2.ext == e && kv.2.op.isWrite

/-- An engine still touches an extent. -/
def State.engineOn (s : State) (e : Nat) : Bool :=
  s.reqs.any fun kv => kv.2.ext == e && kv.2.port.isNone

/-! ### Drafts against other objects -/

/-- A running draft, of one context or of any, streams an extent. -/
def State.streams (s : State) (owner : Option Nat) (e : Nat) : Bool :=
  s.loom.drafts.any fun kv => kv.2.st == .running && (owner.isNone || owner == some kv.2.ctx) &&
    kv.2.streamed.any fun x => x.2.1 == e

/-- A running draft pushes to a port (spec/08_drafts.md R237). -/
def State.pushesTo (s : State) (p : Nat) : Bool :=
  s.loom.drafts.any fun kv => kv.2.st == .running && kv.2.pushPorts.contains p

/-! ### CTX_CREATE (R327) -/

/-- Ports named by a request's mask. -/
def State.rqPorts (s : State) (m : Mbx) (off : Nat) : BitVec 6 := BitVec.ofNat 6 (s.rq m off 1)

/-- The lowest free context number. -/
def State.freeCtx (s : State) : Option Nat := Table.free s.ctxs 64

/-- A port is attached to a context, or will be by an attachment change that has been accepted (R396). -/
def State.portTaken (s : State) (p : Nat) : Bool :=
  (s.port p).ctx.isSome || s.ctxs.any fun kv => match kv.2.attach with
    | some (add, _) => kv.2.attachQ.isNone && maskHas add p
    | none => false

/-- The status of R327 that refuses a CTX_CREATE. -/
def State.ctxRefusal (s : State) (m : Mbx) : Option Nat :=
  let n := s.rq m 0 1
  let ports := maskPorts (s.rqPorts m 1)
  if 64 ≤ n ∧ n ≤ 254 then some mBadArg
  else if n < 64 ∧ (s.ctx? n).isSome then some mState
  else if n = 0xFF ∧ s.freeCtx.isNone then some mNoResource
  else if ports.any fun p => !s.hasPort p then some mBadArg
  else if ports.any s.portTaken then some mState
  else if s.umpire.entropyFail || s.umpire.debugUnlocked then some mState
  else if s.qContexts ≤ s.ctxs.length then some mNoResource
  else none

/-- Attach the ports of a mask to a context. -/
def State.attachPorts (s : State) (c : Nat) (mask : BitVec 6) : State :=
  (maskPorts mask).foldl (fun s p => s.modPort p fun q => { q with ctx := some c }) s

/-- Bytes of a memory key: without the cipher unit the expander creates none (R332, R335). -/
def State.memKeyBytes (s : State) : Nat := if s.hasCipher then 64 else 0

/-- Create a context with a fresh memory key. -/
def State.newCtx (s : State) (c : Nat) (mask : BitVec 6) (seed : W64) : State :=
  let key := s.random s.memKeyBytes
  let s := s.drewRandom s.memKeyBytes
  (s.setCtxs (Table.set s.ctxs c { ports := mask, seed := seed, memKey := key, born := s.time.pick })).attachPorts
    c mask

/-- CTX_CREATE with ATTACH = 0. -/
def execCtxCreate (m : Mbx) (s : State) : Out :=
  .next <| s.runCommand m 0x0010 (!s.flag m 0) fun s =>
    match s.ctxRefusal m with
    | some st => s.fail m st
    | none =>
      let c := if s.rq m 0 1 = 0xFF then s.freeCtx.getD 0 else s.rq m 0 1
      (s.newCtx c (s.rqPorts m 1) (BitVec.ofNat 64 (s.rq m 8 8))).complete m mOk (toLe 1 c ++ zeros 7)

/-! ### CTX_CREATE with ATTACH (R328) -/

/-- CTX_CREATE with ATTACH = 1: the attachment changes at the next boundary; drains and key holds follow. -/
def execCtxAttach (m : Mbx) (s : State) : Out :=
  .next <| s.runCommand m 0x0010 (s.flag m 0) fun s =>
    let n := s.rq m 0 1
    let want := s.rqPorts m 1
    match s.ctx? n with
    | none => s.fail m mBadArg
    | some c =>
      let add := want &&& ~~~c.ports
      let rem := c.ports &&& ~~~want
      if (maskPorts want).any fun p => !s.hasPort p then s.fail m mBadArg
      else if c.dying.isSome then s.fail m mState
      else if (maskPorts rem).any s.pushesTo || (maskPorts add).any s.portTaken then s.fail m mState
      else if c.attach.isSome then s.fail m mBusy
      else
        ((s.modCtx n fun c => { c with attach := some (add, rem), attachQ := none }).await m (.attach n)).modUmpire fun u => { u with
          deferred := u.deferred ++ [.attachOn n add] }

/-- Leases of a set of extents that some ports hold end as LEASE_DROP ends them, once the holder's writes from before this
boundary have ended, and never become TORN (R75, R86, R90). -/
def State.dropLeasesOf (s : State) (exts : Nat → Bool) (ports : BitVec 6) : State :=
  s.setLeases (Table.mapV s.leases fun _ l =>
    if exts l.ext && maskHas ports l.holder && !l.torn && !l.dropping then
      { l with dropping := true, dropPick := s.time.pick - 1 }
    else l)

/-- The boundary of an attachment change: added ports attach; removed ports leave, with their shares and leases. -/
def State.attachAt (s : State) (c : Nat) : State :=
  match s.ctx? c with
  | none => s
  | some x =>
    match x.attach with
    | none => s
    | some (add, rem) =>
      let mine : Nat → Bool := fun e => match s.ext? e with
        | some y => y.st == .granted && y.owner == c
        | none => false
      let s := (s.setExts (Table.mapV s.exts fun e y => if mine e then { y with share := y.share &&& ~~~rem } else y))
      let s := s.dropLeasesOf mine rem
      let s := (maskPorts rem).foldl (fun s p => s.modPort p fun q => { q with ctx := none }) s
      (s.attachPorts c add).modCtx c fun x => { x with ports := (x.ports ||| add) &&& ~~~rem, attachQ := some s.stamp }

/-- Begin the key hold of a confidential port whose part of a drain has ended, once its completions and EVTs have left (R341
step 7); true once the port is done with. SAFE stops it (R294, R343). -/
def State.holdPort (s : State) (p : Nat) (ended : Bool) : State × Bool :=
  let q := s.port p
  if !q.conf then (s, ended)
  else if ended && q.hold.isNone && q.cpls.isEmpty && q.evts.isEmpty && !s.power.safe then (s.modPort p fun q => { q with hold := some 4 }, false)
  else (s, false)

/-- Carry an attachment change on (R328). -/
def State.attachGo (s : State) (c : Nat) : State :=
  match s.ctx? c with
  | none => s
  | some x =>
    match x.attach, x.attachQ with
    | some (_, rem), some q =>
      let (s, done) := (maskPorts rem).foldl (fun (acc : State × Bool) p =>
        let (s, d) := acc
        let (s', ok) := s.holdPort p (s.pendingHost q.pick [p] none == 0)
        (s', d && ok)) (s, true)
      if done then (s.modCtx c fun x => { x with attach := none, attachQ := none }).readyWaiter (.attach c) mOk (toLe 1 c ++ zeros 7)
      else s
    | _, _ => s

/-! ### CTX_DESTROY (R341 to R343) -/

/-- CTX_DESTROY up to its boundary. -/
def execCtxDestroy (m : Mbx) (s : State) : Out :=
  .next <| s.runCommand m 0x0011 true fun s =>
    let n := s.rq m 0 1
    match s.ctx? n with
    | none => s.fail m mBadArg
    | some c =>
      if c.dying.isSome then s.fail m mState
      else (s.modCtx n fun c => { c with dying := some m, q := none }).await m (.destroy n)

/-- Extents granted to a context. -/
def State.extsOf (s : State) (c : Nat) : List Nat :=
  (s.exts.filter fun kv => kv.2.st == .granted && kv.2.owner == c).map (·.1)

/-- Release the pins of an extent; a PIN that still places its pages completes ABORTED (R145). -/
def State.endPinsOf (s : State) (e : Nat) : State :=
  (s.pins.filter fun kv => kv.2.ext == e).foldl (fun s kv =>
    if kv.2.done then s.releasePin kv.1 else s.endPin kv.1 mAborted) s

/-- Drafts that a destroy stops: the context's own, and those that stream its BOUND extents (R341 step 4). -/
def State.stopDrafts (s : State) (c : Nat) (bound : List Nat) : State :=
  let hit := fun (d : Draft) => d.ctx == c || d.streamed.any fun x => bound.contains x.2.1
  let pend := s.loom.drafts.filter fun kv => kv.2.st == .pending && kv.2.ctx == c
  let s := pend.foldl (fun s kv => match kv.2.starter with
    | some m => s.markReady m mAborted []
    | none => s) s
  s.modLoom fun l => { l with drafts := Table.mapV l.drafts fun _ d =>
    if d.st = .pending ∧ d.ctx = c then { d with st := .loaded, starter := none }
    else if d.st = .running ∧ hit d then { d with stopDue := some .destroyed }
    else d }

/-- DESTROY_BOUNDARY (R341 steps 2 to 4). -/
def execDestroyBoundary (c : Nat) (s : State) : Out :=
  .next <|
    match s.ctx? c with
    | none => s
    | some x =>
      let es := s.extsOf c
      let revoking := es.any fun e => match s.ext? e with | some y => y.revoking | none => false
      if x.dying.isNone || x.q.isSome || revoking || !s.atBoundary || s.power.safe then s
      else
        let jobs := (List.range 8).filter fun e => match s.engine e with | some j => j.ctx == c | none => false
        let running := (jobs.filter fun e => match s.engine e with | some j => j.cur.isSome || j.bolt.isSome | none => false).length
        let drained := es.foldl (fun a e => a + s.pendingHost s.time.pick (List.range 6) (some e)) 0
        let s := s.modCtx c fun x => { x with q := some s.stamp, drained := drained, aborted := running }
        let s := es.foldl (fun s e => (s.endPinsOf e).modExt e fun y => { y with ending := true }) s
        let s := s.endLeases fun l => es.contains l.ext
        let s := jobs.foldl (fun s e => s.abortJob e) s
        s.stopDrafts c (es.filter fun e => match s.ext? e with | some y => y.bound | none => false)

/-- A draft of a context, or one that a destroy stops, still runs. -/
def State.draftsDone (s : State) (c : Nat) : Bool :=
  s.loom.drafts.all fun kv => !(kv.2.st == .running && (kv.2.ctx == c || kv.2.stopDue == some .destroyed))

/-- Every push to a port of the drafts that a destroy stops has left. -/
def State.pushesLeft (s : State) (c p : Nat) : Bool :=
  (s.loom.pushes ++ s.loom.nextPushes).all (fun x => x.port != p) && s.loom.drafts.all fun kv =>
    !(kv.2.st == .running && (kv.2.ctx == c || kv.2.stopDue == some .destroyed) && kv.2.pushPorts.contains p)

/-- A port's part of a destroy has ended (R341 step 6); it does not wait for the rest of the drain. -/
def State.portPart (s : State) (c p pick : Nat) : Bool :=
  s.pendingHost pick [p] none == 0 && s.pushesLeft c p && (s.port p).rdTags.isEmpty &&
    (List.range 8).all fun e => match s.engine e with
      | some j => !(j.ctx == c && (match j.cur with | some d => d.d.kind ≥ 2 && d.d.port == p | none => false))
      | none => true

/-- The drain of a destroy has ended (R341 step 9): the keys of the context go; the rest follows at the next boundary. -/
def State.dropKeys (s : State) (c : Nat) (x : Ctx) : State :=
  let s := (s.extsOf c).foldl (fun s e => s.modExt e fun y => { y with boundKey := none }) s
  let s := (maskPorts x.ports).foldl (fun s p => s.modPort p fun r => { r with xferKey := none }) s
  (s.modCtx c fun y => { y with memKey := [], keysGone := true }).modUmpire fun u => { u with
    deferred := u.deferred ++ [.destroyed c] }

/-- Carry a destroy on (R341 steps 5 to 9). -/
def State.destroyGo (s : State) (c : Nat) : State :=
  match s.ctx? c with
  | none => s
  | some x =>
    match x.dying, x.q with
    | some _, some q =>
      let (s, held) := (maskPorts x.ports).foldl (fun (acc : State × Bool) p =>
        let (s, d) := acc
        let (s', ok) := s.holdPort p (s.portPart c p q.pick)
        (s', d && ok)) (s, true)
      let es := s.extsOf c
      let drained := es.all fun e => s.pendingHost q.pick (List.range 6) (some e) == 0 && !s.writesOf e && !s.engineOn e
      let jobs := (List.range 8).all fun e => match s.engine e with | some j => j.ctx != c | none => true
      if held && drained && jobs && s.draftsDone c && !s.power.safe && !x.keysGone then s.dropKeys c x else s
    | _, _ => s

end Sys2Proof.Machine
end

