-- ==== Sys2Proof/Machine/Extents.lean ====
section
/-! DEFINITION. Extents: creation, grants, revocation, clearing, sealing, queries (spec/03_pool_extents.md R67 to R84,
spec/04_compression.md R112 and R116, spec/05_tiering.md R127, spec/06_memory_channels.md R168,
spec/15_mailboxes.md R408 to R411). -/

namespace Sys2Proof.Machine

/-! ### EXT_CREATE (R68 to R71, R127, R168) -/

def Cls.ofCode : Nat → Option Cls
  | 0 => some .plain
  | 1 => some .twill2
  | 2 => some .twill4
  | 3 => some .satin
  | _ => none

def Cls.code : Cls → Nat
  | .plain => 0
  | .twill2 => 1
  | .twill4 => 2
  | .satin => 3

def SrcType.ofCode : Nat → Option SrcType
  | 0 => some .raw
  | 1 => some .bf16
  | 2 => some .fp16
  | 3 => some .fp32
  | 4 => some .e4m3
  | 5 => some .e5m2
  | _ => none

def SrcType.code : SrcType → Nat
  | .raw => 0
  | .bf16 => 1
  | .fp16 => 2
  | .fp32 => 3
  | .e4m3 => 4
  | .e5m2 => 5

def Prot.ofCode : Nat → Option Prot
  | 0 => some .none
  | 1 => some .mirror
  | 2 => some .parity
  | _ => Option.none

def Prot.code : Prot → Nat
  | .none => 0
  | .mirror => 1
  | .parity => 2

/-- The extent that a request describes, with its base as given; none where a field holds a reserved encoding. -/
def State.extOf (s : State) (m : Mbx) : Option Extent :=
  match Cls.ofCode (s.rq m 0x0C 1), SrcType.ofCode (s.rq m 0x0D 1), Prot.ofCode (s.rq m 0x10 1) with
  | some c, some t, some p =>
    some { base := s.rq m 0 8, granules := s.rq m 8 4, cls := c, src := t, budget := s.rq m 0x0E 1, ovfPct := s.rq m 0x0F 1
           prot := p, groups := BitVec.ofNat 4 (s.rq m 0x11 1), ports := s.rqPorts m 0x12, runs := [] }
  | _, _, _ => none

/-- A BASE that leaves the choice to the expander. -/
def anyBase : Nat := 0xFFFFFFFFFFFFFFFF

/-- Bytes of pool space of an extent. -/
def Extent.bytes (x : Extent) : Nat := x.granules * 2 ^ 21

/-- A range of pool space overlaps no extent. -/
def State.rangeFree (s : State) (base len : Nat) : Bool :=
  s.exts.all fun kv => base + len ≤ kv.2.base || kv.2.base + kv.2.bytes ≤ base

/-- The lowest free base for a size. -/
def State.chooseBase (s : State) (len : Nat) : Option Nat :=
  let cands := (0 :: s.exts.map fun kv => kv.2.base + kv.2.bytes).filter fun b => b + len ≤ 2 ^ 48 && s.rangeFree b len
  cands.foldl (fun best b => match best with | none => some b | some a => some (min a b)) none

/-- R68: the request breaks no item. -/
def State.extArgsOk (s : State) (x : Extent) : Bool :=
  let satin := x.cls == .satin
  (1 ≤ x.granules && x.granules ≤ 8388608) &&
  (x.base == anyBase || (x.base % 2 ^ 21 == 0 && x.base + x.bytes ≤ 2 ^ 48 && s.rangeFree x.base x.bytes)) &&
  !((x.cls == .twill2 || x.cls == .twill4) && x.src == .raw) &&
  !(x.cls == .twill4 && (x.src == .e4m3 || x.src == .e5m2)) &&
  (if satin then 1 ≤ x.budget && x.budget ≤ 4 && 1 ≤ x.ovfPct && x.ovfPct ≤ 25 else x.budget == 0 && x.ovfPct == 0) &&
  !(groupsOf x.groups).isEmpty && (groupsOf x.groups).all s.hasGroup &&
  (x.prot != .mirror || (groupsOf x.groups).length == 2) &&
  (x.prot != .parity || (groupsOf x.groups).length == 1) &&
  x.ports != 0 && (maskPorts x.ports).all s.hasPort

/-- The lowest-numbered free, initialised run of far units of a group (R168, spec/16_ras.md R446). -/
def State.freeUnits (s : State) (g len : Nat) : Option Nat :=
  let used := s.exts.filterMap fun kv => (Table.get? kv.2.runs g).map fun b => (b, kv.2.units)
  let ready := fun (a : Nat) => match Table.get? s.ras.initCursor g with
    | some n => decide ((a + len) * 3072 ≤ n)
    | none => true
  let cands := (0 :: used.map fun u => u.1 + u.2).filter fun a =>
    a + len ≤ 16777216 && ready a && used.all fun u => a + len ≤ u.1 || u.1 + u.2 ≤ a
  cands.foldl (fun best a => match best with | none => some a | some b => some (min a b)) none

/-- The runs of an extent in its groups; none where a group has no room. -/
def State.allocate (s : State) (x : Extent) : Option (Table Nat) :=
  (groupsOf x.groups).foldl (fun acc g =>
    match acc, s.freeUnits g x.units with
    | some t, some a => some (Table.set t g a)
    | _, _ => none) (some [])

/-- Bytes of the metadata region that an extent takes (R127). -/
def Extent.metaBytes (x : Extent) : Nat := (if x.cls = .satin then 41 else 9) * x.pageCount

/-- Free bytes of the metadata region (R127). -/
def State.metaFree (s : State) : Nat := 2080374784 - s.exts.foldl (fun a kv => a + kv.2.metaBytes) 0

/-- Some enabled aperture, active or staged, maps an extent (R70). -/
def State.mapped (s : State) (e : Nat) : Bool :=
  s.ports.any fun q => (q.active.any fun a => a.2.en && a.2.ext == e) || q.staged.any fun a => a.2.en && a.2.ext == e

/-- Response of EXT_CREATE. -/
def extBody (e base : Nat) : List Byte := toLe 2 e ++ zeros 6 ++ toLe 8 base

/-- EXT_CREATE with REMOVE (R70). -/
def State.extRemove (s : State) (m : Mbx) : State :=
  let e := s.rq m 0x14 2
  match s.ext? e with
  | none => s.fail m mBadArg
  | some x =>
    if x.st ≠ .ungranted ∨ s.isWaiting (· == .grant e) ∨ s.mapped e then s.fail m mState
    else
      let s := s.undamageExt e
      (s.setExts (Table.erase s.exts e)).complete m mOk (extBody e x.base)

/-- EXT_CREATE. -/
def execExtCreate (m : Mbx) (s : State) : Out :=
  .next <| s.runCommand m 0x0020 (!s.flag m 0) fun s =>
    match s.extOf m with
    | none => s.fail m mBadArg
    | some x =>
      if !s.extArgsOk x then s.fail m mBadArg
      else
        let base := if x.base = anyBase then s.chooseBase x.bytes else some x.base
        match Table.free s.exts 1024, base, s.allocate x with
        | some e, some b, some runs =>
          if s.metaFree < x.metaBytes then s.fail m mNoResource
          else (s.setExts (Table.set s.exts e { x with base := b, runs := runs })).complete m mOk (extBody e b)
        | _, _, _ => s.fail m mNoResource

/-- EXT_CREATE with REMOVE. -/
def execExtRemove (m : Mbx) (s : State) : Out :=
  .next <| s.runCommand m 0x0020 (s.flag m 0) fun s => s.extRemove m

/-! ### EXT_GRANT (R74, R75) -/

/-- Grants that have been accepted and wait for their boundary: owner, and whether BOUND. -/
def State.grantsDue (s : State) : List (Nat × Bool) :=
  s.umpire.deferred.filterMap fun d => match d with
    | .grantOn _ c _ key _ => some (c, key.isSome)
    | _ => none

/-- Extents that a context holds, or is about to. -/
def State.grantsOf (s : State) (c : Nat) (bound : Bool) : Nat :=
  (s.exts.filter fun kv => kv.2.owner == c && kv.2.st == .granted && (!bound || kv.2.bound)).length +
    (s.grantsDue.filter fun g => g.1 == c && (!bound || g.2)).length

/-- Bound keys in the key store (R332). -/
def State.boundKeys (s : State) : Nat :=
  (s.exts.filter fun kv => kv.2.boundKey.isSome).length + (s.grantsDue.filter (·.2)).length

/-- The status of R74 that refuses a grant. -/
def State.grantRefusal (s : State) (e : Nat) (x : Extent) (c : Nat) (share : BitVec 6) (bound : Bool) : Option Nat :=
  let new := x.st == .ungranted
  if x.st = .granted ∧ x.owner = c ∧ x.bound ≠ bound then some mState
  else if (x.st = .granted ∧ x.owner ≠ c) ∨ x.st = .clearing then some mState
  else if share &&& ~~~x.ports ≠ 0 ∨ (maskPorts share).any (fun p => s.attachedTo p != some c) then some mBadArg
  else if bound ∧ !s.hasCipher then some mNotPresent
  else if x.revoking ∨ x.sharing ∨ s.isWaiting (· == .grant e) then some mBusy
  else if new ∧ s.qExtents ≤ s.grantsOf c false then some mNoResource
  else if new ∧ bound ∧ (s.qBound ≤ s.grantsOf c true ∨ 64 ≤ s.boundKeys) then some mNoResource
  else if new ∧ bound ∧ s.umpire.entropyFail then some mState
  else none

/-- EXT_GRANT up to its boundary: a new grant leaves the extent as it is until then. -/
def execExtGrant (m : Mbx) (s : State) : Out :=
  .next <| s.runCommand m 0x0021 true fun s =>
    let e := s.rq m 0 2
    let share := s.rqPorts m 3
    let bound := s.flag m 0
    match s.ext? e, s.commandCtx m (s.rq m 2 1) with
    | none, _ => s.fail m mBadArg
    | _, .inr st => s.fail m st
    | some x, .inl c =>
      match s.grantRefusal e x c share bound with
      | some st => s.fail m st
      | none =>
        let s := s.await m (.grant e)
        if x.st = .granted then
          (s.modExt e fun x => { x with sharing := true, q := none }).modUmpire fun u => { u with
            deferred := u.deferred ++ [.shareOn e share] }
        else
          let key := if bound then some (s.random 64) else none
          let s := if bound then s.drewRandom 64 else s
          s.modUmpire fun u => { u with deferred := u.deferred ++ [.grantOn e c share key m] }

/-- The boundary of a new grant (R74, R92). -/
def State.grantAt (s : State) (e c : Nat) (share : BitVec 6) (key : Option (List Byte)) (m : Mbx) : State :=
  match s.ext? e with
  | none => s.markReady m mState []
  | some x =>
    if x.st ≠ .ungranted ∨ !s.ctxLive c then s.markReady m mState []
    else
      (s.modExt e fun x => { x with
        st := .granted, owner := c, share := share, bound := key.isSome, boundKey := key, grantPick := s.time.pick, sharePick := [], sealed := false, promoteEn := true, gens := [], genAll := 0
        counters := [], nonfinite := 0, ceNear := 0, ceFar := 0, ueNear := 0, ueFar := 0, ending := false }).markReady m mOk
        (stampBytes s.stamp 6)

/-- The boundary of a share change (R75): the leases of removed ports on the extent end as LEASE_DROP ends them; added ports
gain access. -/
def State.shareAt (s : State) (e : Nat) (share : BitVec 6) : State :=
  match s.ext? e with
  | none => s
  | some x =>
    if x.st ≠ .granted ∨ x.ending then s
    else
      let removed := x.share &&& ~~~share
      let added := share &&& ~~~x.share
      let s := s.dropLeasesOf (fun k => k == e) removed
      let picks := (maskPorts added).foldl (fun t p => Table.set t p s.time.pick) x.sharePick
      s.modExt e fun x => { x with share := share, sharePick := picks, q := some s.stamp }

/-- Ports outside the share of an extent. -/
def Extent.otherPorts (x : Extent) : List Nat := (List.range 6).filter fun p => !maskHas x.share p

/-- Carry a share change on: it ends when the removed ports' requests have completed. -/
def State.shareGo (s : State) (e : Nat) : State :=
  match s.ext? e with
  | none => s
  | some x =>
    match x.sharing, x.q with
    | true, some q =>
      if s.pendingHost q.pick x.otherPorts (some e) = 0 then
        (s.modExt e fun x => { x with sharing := false, q := none }).readyWaiter (.grant e) mOk (stampBytes q 6)
      else s
    | _, _ => s

/-! ### Entering CLEARING (R73, R339) -/

/-- An extent enters CLEARING: every page becomes zero-on-read, what its grant held ends, its overwrite begins. -/
def State.enterClearing (s : State) (e : Nat) : State :=
  match s.ext? e with
  | none => s
  | some x0 =>
    let s := (s.dropExtWork e).endPinsOf e
    let s := s.endLeases fun l => l.ext == e
    let order := s.ras.clearOrder
    let s := s.modRas fun r => { r with clearOrder := order + 1 }
    let old := match x0.clear with | some c => c.frames | none => []
    let s := s.modExt e fun x => x.startClear order (old ++ x.looseFrames)
    let s := s.modExt e fun x => { x with looseFrames := [] }
    let s := s.zorPages e (s.listedPages e) true
    let s := s.modExt e fun x => { x with
      st := .clearing, owner := 0, share := 0, bound := false, sealed := false, promoteEn := true, grantPick := 0
      sharePick := [], pages := [], gens := [], genAll := 0, counters := [], ovf := [], nonfinite := 0, clearPend := false
      revoking := false, ending := false, sharing := false, sealing := false, q := none, bolt := none, boltLoading := false
      boundKey := none }
    (((s.readyWaiter (.grant e) mState []).readyWaiter (.seal e) mState (toLe 8 x0.ovf.length)).readyWaiter (.clear e) mState []).readyWaiter
      (.policyExt e) mState []

/-! ### EXT_REVOKE (R83, R84) -/

/-- EXT_REVOKE up to its boundary. -/
def execExtRevoke (m : Mbx) (s : State) : Out :=
  .next <| s.runCommand m 0x0022 true fun s =>
    let e := s.rq m 0 2
    match s.ext? e with
    | none => s.fail m mBadArg
    | some x =>
      match s.extRefusal m x with
      | some st => s.fail m st
      | none =>
        if x.st ≠ .granted then s.fail m mState
        else if s.streams (if x.bound then none else some x.owner) e then s.fail m mState
        else if x.revoking ∨ x.sharing ∨ s.isWaiting (· == .grant e) then s.fail m mBusy
        else (s.modExt e fun x => { x with revoking := true, q := none }).await m (.revoke e)

/-- A descriptor names an extent. -/
def State.descNames (s : State) (d : Desc) (e : Nat) : Bool :=
  let on := fun (a : Nat) => match s.extentAt a with | some (k, _, _) => k == e | none => false
  (d.kind != 3 && on d.src) || (d.kind != 2 && on d.dst)

/-- A bolt load writes into an extent, or reads its image from it. -/
def State.boltNames (s : State) (b : BoltJob) (e : Nat) : Bool :=
  b.ext == e || (match s.extentAt b.src with | some (k, _, _) => k == e | none => false)

/-- The list of a job lies in an extent: the job ends ABORTED, and write-backs that have not been issued are dropped
(spec/12_shuttles.md R324). -/
def State.dropList (s : State) (g : Nat) : State :=
  let unsent := fun (kv : Nat × Req) => (match kv.2.origin with | .list k _ => k == g | _ => false) && !kv.2.started
  ((s.setReqs (s.reqs.filter fun kv => !unsent kv)).modJob g fun j => { j with dropBack := true }).abortJob g

/-- Descriptors and bolt loads that move an extent's data stop, and jobs whose list it holds end (R83 step 4). -/
def State.stopOnExt (s : State) (e : Nat) : State :=
  (List.range 8).foldl (fun s g =>
    match s.engine g with
    | some j =>
      match j.cur, j.bolt with
      | _, some b => if s.boltNames b e then s.abortJob g else s
      | c, none =>
        if j.listExt = e then s.dropList g
        else match c with
          | some c => if s.descNames c.d e then (s.stopDesc g dAborted).settle g else s
          | none => s
    | none => s) s

/-- REVOCATION_BOUNDARY (R83 steps 2 to 5). -/
def execRevocationBoundary (e : Nat) (s : State) : Out :=
  .next <|
    match s.ext? e with
    | none => s
    | some x =>
      if !x.revoking || x.q.isSome || !s.atBoundary || s.power.safe then s
      else
        let s := s.sendEvts x.share { code := 0x040, p0 := BitVec.ofNat 32 e, p1 := s.beatNow }
        let n := s.pendingHost s.time.pick (List.range 6) (some e)
        let s := (s.endPinsOf e).endLeases fun l => l.ext == e
        (s.modExt e fun x => { x with ending := true, q := some s.stamp, drained := n }).stopOnExt e

/-- An engine runs a descriptor that names an extent, or a bolt into it. -/
def State.jobOn (s : State) (e : Nat) : Bool :=
  (List.range 8).any fun g => match s.engine g with
    | some j => (match j.cur with | some c => s.descNames c.d e | none => false) ||
        (match j.bolt with | some b => s.boltNames b e | none => j.listExt == e)
    | none => false

/-- REVOKE_DRAIN_END (R83 steps 6 and 7): the extent enters CLEARING. -/
def execRevokeDrainEnd (e : Nat) (s : State) : Out :=
  .next <|
    match s.ext? e with
    | none => s
    | some x =>
      match x.revoking, x.q with
      | true, some q =>
        if s.pendingHost q.pick (List.range 6) (some e) = 0 && !s.writesOf e && !s.engineOn e && !s.jobOn e && !s.power.safe then
          (s.enterClearing e).readyWaiter (.revoke e) mOk (stampBytes q 2 ++ toLe 4 x.drained)
        else s
      | _, _ => s

/-! ### EXT_CLEAR (R73, R410) -/

/-- EXT_CLEAR up to its boundary. -/
def execExtClear (m : Mbx) (s : State) : Out :=
  .next <| s.runCommand m 0x0023 true fun s =>
    let e := s.rq m 0 2
    match s.ext? e with
    | none => s.fail m (s.absent m mBadArg)
    | some x =>
      match s.extRefusal m x with
      | some st => s.fail m st
      | none =>
        if x.st ≠ .granted then s.fail m mState
        else if x.bound then s.fail m mDenied
        else if s.streams (some x.owner) e then s.fail m mState
        else (s.await m (.clear e)).modUmpire fun u => { u with deferred := u.deferred ++ [.clearExt e m] }

/-- The boundary of an EXT_CLEAR: logical clearing, one generation more for every page, the overwrite over every unit. -/
def State.clearAt (s : State) (e : Nat) (m : Mbx) : State :=
  match s.ext? e with
  | none => s.markReady m mState []
  | some x0 =>
    if x0.st ≠ .granted then s.markReady m mState []
    else
      let order := s.ras.clearOrder
      let s := s.modRas fun r => { r with clearOrder := order + 1 }
      let old := match x0.clear with | some c => c.frames | none => []
      let s := s.modExt e fun x => x.startClear order old
      let s := s.zorPages e (s.listedPages e) true
      (s.modExt e fun x => { x with genAll := x.genAll + 1, clearPend := true, ovf := [] }).markReady m mOk (stampBytes s.stamp 6)

/-! ### EXT_SEAL (R116) -/

/-- Refuse an EXT_SEAL: on STATE the body gives the overflowed blocks of an extent that the mailbox may name (R116, R409). -/
def State.sealRefuse (s : State) (m : Mbx) (st n : Nat) : State :=
  s.complete m st (if st = mState then toLe 8 (if (s.portRefusal m).isSome then 0 else n) else [])

/-- EXT_SEAL up to its boundary. -/
def execExtSeal (m : Mbx) (s : State) : Out :=
  .next <| s.runCommand m 0x0024 true fun s =>
    let e := s.rq m 0 2
    match s.ext? e with
    | none => s.sealRefuse m (s.absent m mBadArg) 0
    | some x =>
      match s.extRefusal m x with
      | some st => s.sealRefuse m st x.ovf.length
      | none =>
        if x.cls ≠ .satin then s.fail m mBadArg
        else if x.st ≠ .granted then s.sealRefuse m mState x.ovf.length
        else if x.sealed then s.complete m mOk (zeros 8)
        else if s.isWaiting (· == .seal e) then s.fail m mBusy
        else (s.await m (.seal e)).modUmpire fun u => { u with deferred := u.deferred ++ [.sealOn e] }

/-- Writes of a seal's drain have ended (R116 step 3). -/
def State.sealDrained (s : State) (e pick : Nat) : Bool :=
  s.reqs.all fun kv => !(kv.2.ext == e && kv.2.op.isWrite && kv.2.arrival < pick)

/-- Carry a seal on (R116 steps 4 and 5). -/
def State.sealGo (s : State) (e : Nat) : State :=
  match s.ext? e with
  | none => s
  | some x =>
    if !x.sealing then s
    else match x.q with
      | some q =>
        if !s.sealDrained e q.pick || !s.isWaiting (· == .seal e) then s
        else if x.ovf.isEmpty then
          (s.modExt e fun x => { x with sealed := true, sealing := false, q := none }).readyWaiter (.seal e) mOk (zeros 8)
        else
          (s.readyWaiter (.seal e) mState (toLe 8 x.ovf.length)).modUmpire fun u => { u with
            deferred := u.deferred ++ [.unseal e] }
      | none => s

/-! ### EXT_QUERY (R411, R129) -/

def PgSt.code : PgSt → Nat
  | .settled => 0
  | .queued => 1
  | .promoting => 2
  | .evicting => 3
  | .moving => 4
  | .zfill => 5

/-- A residency map entry (R129). -/
def Page.entry (p : Page) : Nat :=
  b2n p.zor * 2 ^ 31 + b2n p.near * 2 ^ 30 + p.st.code * 2 ^ 27 + b2n p.pin * 2 ^ 26 + b2n (p.near && p.dirty) * 2 ^ 25 +
    p.slot % 2 ^ 22

def ExtSt.code : ExtSt → Nat
  | .ungranted => 0
  | .granted => 1
  | .clearing => 2

/-- The fixed part of EXT_QUERY's response. -/
def Extent.queryBody (x : Extent) (e : Nat) : List Byte :=
  let bits := b2n x.bound + 2 * b2n x.sealed + 4 * b2n x.clearPend + 8 * b2n x.bolt.isSome + 16 * b2n x.promoteEn
  let near := (x.pages.filter fun p => p.2.near).length
  let pinned := (x.pages.filter fun p => p.2.pin).length
  toLe 2 e ++ toLe 1 x.st.code ++ toLe 1 bits ++ toLe 1 (if x.st = .granted then x.owner else 0xFF) ++ toLe 1 x.share.toNat ++
    toLe 1 x.cls.code ++ toLe 1 x.src.code ++ toLe 1 x.budget ++ toLe 1 x.ovfPct ++ toLe 1 x.prot.code ++
    toLe 1 x.groups.toNat ++ toLe 1 x.ports.toNat ++ toLe 8 x.base ++ toLe 4 x.granules ++ zeros 7 ++ toLe 8 x.toClear ++
    toLe 4 (x.ovfCount - x.ovf.length) ++ toLe 4 x.nonfinite ++ toLe 8 near ++ toLe 8 pinned

/-- EXT_QUERY. A port mailbox is answered for its context's own extents and the region alone. -/
def execExtQuery (m : Mbx) (s : State) : Out :=
  .next <| s.runCommand m 0x0025 true fun s =>
    let e := s.rq m 0 2
    let port := match m with | .port _ => true | _ => false
    if e = 0xFFFF then
      match s.portRefusal m with
      | some st => s.fail m st
      | none => s.complete m mOk (toLe 8 s.metaFree ++ toLe 2 s.exts.length ++ zeros 6)
    else match s.ext? e with
      | none => s.fail m (s.absent m mBadArg)
      | some x =>
        match (if port then s.extRefusal m x else none) with
        | some st => s.fail m st
        | none =>
          if !s.flag m 0 then s.complete m mOk (x.queryBody e)
          else
            let first := s.rq m 8 8
            let n := s.rq m 0x10 2
            if n < 1 ∨ 256 < n ∨ x.pageCount < first + n then s.fail m mBadArg
            else
              s.complete m mOk (x.queryBody e ++ (List.range n).flatMap fun i => toLe 4 (x.page (first + i)).entry)

end Sys2Proof.Machine
end

