-- ==== Sys2Proof/Machine/Access.lean ====
section
/-! DEFINITION. Apertures, leases, pins and migration policy (spec/03_pool_extents.md R77 to R90,
spec/05_tiering.md R138 and R143 to R145, spec/15_mailboxes.md R412 to R414). -/

namespace Sys2Proof.Machine

/-! ### Aperture entries (R77, R79) -/

/-- A LINK register without its reserved bits. -/
def aptLink (v : Nat) : W64 := BitVec.ofNat 64 (bits v 51 21 * 2 ^ 21)

/-- A MAP register without its reserved bits. -/
def aptMap (v : Nat) : W64 := BitVec.ofNat 64 (bits v 63 61 * 2 ^ 61 + bits v 55 0)

/-- Granules of an extent's generation array. -/
def Extent.genGranules (x : Extent) : Nat := ceilDiv (x.pageCount * 4) (2 ^ 21)

/-- Rules 1, 2, 3 and 5 of R79 for one entry. -/
def State.aptOk (s : State) (a : Apt) : Bool :=
  !a.en ||
    match s.ext? a.ext with
    | none => false
    | some x => if a.gen then !a.wrEn && a.off + a.size ≤ x.genGranules else a.off + a.size ≤ x.granules

/-- Two enabled entries overlap in link space (rule 4). -/
def aptsMeet (a b : Apt) : Bool :=
  a.en && b.en && a.base < b.base + b.size * 2 ^ 21 && b.base < a.base + a.size * 2 ^ 21

/-- Rule 4 between the entries of a list of indices and every other entry of a set. -/
def aptsApart (t : Table Apt) (idx : List Nat) : Bool :=
  idx.all fun i => match Table.get? t i with
    | some a => t.all fun b => b.1 == i || !aptsMeet a b.2
    | none => true

/-! ### APT_STAGE (R79, R82) -/

/-- The items of an APT_STAGE request: index and entry. -/
def State.aptItems (s : State) (m : Mbx) : List (Nat × Apt) :=
  (List.range (s.rq m 1 1)).map fun i =>
    (s.rq m (8 + 24 * i) 1, ({ link := aptLink (s.rq m (16 + 24 * i) 8), map := aptMap (s.rq m (24 + 24 * i) 8) } : Apt))

/-- Another mailbox holds the port's staged set. -/
def State.aptBusy (s : State) (m : Mbx) (p : Nat) : Bool :=
  match (s.port p).reserve with
  | some r => r != m
  | none => false

/-- Run an aperture command on a port that exists. -/
def State.aptCtl (s : State) (m : Mbx) (own : Nat → State → State) : State :=
  let p := s.rq m 0 1
  if 5 < p then s.fail m mBadArg
  else if !s.hasPort p then s.fail m mNotPresent
  else own p s

/-- Keep a port's sets in the store. -/
def State.storeApts (s : State) (p : Nat) : State :=
  s.modNor fun n => { n with apts := Table.set n.apts p ((s.port p).active, (s.port p).staged) }

/-- APT_STAGE. -/
def execAptStage (m : Mbx) (s : State) : Out :=
  .next <| s.runCommand m 0x0030 (!s.flag m 0) fun s => s.aptCtl m fun p s =>
    let items := s.aptItems m
    let idx := items.map (·.1)
    let set := items.foldl (fun t it => Table.set t it.1 it.2) (s.port p).staged
    if items.isEmpty || 64 < items.length || idx.any (fun i => 63 < i) || idx.eraseDups.length != idx.length then s.fail m mBadArg
    else if !(items.all fun it => s.aptOk it.2) || !aptsApart set idx then s.fail m mBadArg
    else if s.aptBusy m p then s.fail m mBusy
    else ((s.modPort p fun q => { q with staged := set, reserve := some m }).storeApts p).complete m mOk []

/-- APT_STAGE with DISCARD: the active set over the staged one; the reservation ends. -/
def execAptStageDiscard (m : Mbx) (s : State) : Out :=
  .next <| s.runCommand m 0x0030 (s.flag m 0) fun s => s.aptCtl m fun p s =>
    if s.rq m 1 1 ≠ 0 then s.fail m mBadArg
    else if s.aptBusy m p then s.fail m mBusy
    else ((s.modPort p fun q => { q with staged := q.active, reserve := none }).storeApts p).complete m mOk []

/-! ### APT_COMMIT (R82) -/

/-- APT_COMMIT up to its switch. -/
def execAptCommit (m : Mbx) (s : State) : Out :=
  .next <| s.runCommand m 0x0031 true fun s => s.aptCtl m fun p s =>
    let set := (s.port p).staged
    if !(set.all fun it => s.aptOk it.2) || !aptsApart set (set.map (·.1)) then s.fail m mBadArg
    else if s.aptBusy m p then s.fail m mBusy
    else (s.modPort p fun q => { q with reserve := some m, switchDue := true, switchQ := none }).await m (.aptCommit p)

/-- APT_SWITCH: the pick boundary at which the staged set becomes the active one. -/
def execAptSwitch (p : Nat) (s : State) : Out :=
  .next <|
    if !(s.port p).switchDue || !s.atBoundary || s.power.safe then s
    else s.modPort p fun q => { q with active := q.staged, switchDue := false, switchQ := some s.stamp }

/-- Carry a commit on: it completes when the requests from before the switch have. -/
def State.switchGo (s : State) (p : Nat) : State :=
  match (s.port p).switchQ with
  | some q =>
    if s.pendingHost q.pick [p] none = 0 && !s.power.safe then
      ((s.modPort p fun t => { t with staged := t.active, reserve := none, switchQ := none }).storeApts p).readyWaiter (.aptCommit p)
        mOk (stampBytes q 6)
    else s
  | none => s

/-! ### Ranges in pages -/

/-- OFFSET and LENGTH of a request as a range of pages of an extent: none where R85 or R143 finds it faulty. -/
def State.rqPages (s : State) (m : Mbx) (x : Extent) : Option (Nat × Nat) :=
  let off := s.rq m 8 8
  let len := s.rq m 0x10 8
  if off % 65536 = 0 ∧ len % 65536 = 0 ∧ 0 < len ∧ off + len ≤ 65536 * x.pageCount then some (off / 65536, len / 65536) else none

/-- Two page ranges overlap. -/
def pagesMeet (f n f' n' : Nat) : Bool := decide (f < f' + n') && decide (f' < f + n)

/-- Context that owns an extent. -/
def State.ownerOf (s : State) (e : Nat) : Option Nat :=
  match s.ext? e with
  | some x => if x.st = .granted then some x.owner else none
  | none => none

/-! ### Leases (R85 to R89) -/

/-- Leases of one context. -/
def State.leasesOf (s : State) (c : Nat) : Nat := (s.leases.filter fun kv => s.ownerOf kv.2.ext == some c).length

/-- LEASE_TAKE. -/
def execLeaseTake (m : Mbx) (s : State) : Out :=
  .next <| s.runCommand m 0x0040 true fun s =>
    let e := s.rq m 0 2
    let holder := match m with | .port p => p | _ => s.rq m 2 1
    match s.ext? e with
    | none => s.fail m (s.absent m mDenied)
    | some x =>
      match s.extRefusal m x with
      | some st => s.fail m st
      | none =>
        if x.st ≠ .granted ∨ !(holder < 6 && maskHas x.share holder) then s.fail m mDenied
        else match s.rqPages m x with
          | none => s.fail m mBadArg
          | some (first, n) =>
            if s.leases.any fun kv => kv.2.ext == e && pagesMeet kv.2.first kv.2.pages first n then s.fail m mState
            else match Table.free s.leases 4096 with
              | none => s.fail m mNoResource
              | some k =>
                if s.qLeases ≤ s.leasesOf x.owner then s.fail m mNoResource
                else
                  let l : Lease := { ext := e, first := first, pages := n, holder := holder, from_ := s.nextPick }
                  ((s.setLeases (Table.set s.leases k l)).await m (.leaseTake k)).modUmpire fun u => { u with
                    deferred := u.deferred ++ [.leaseOn k m] }

/-- The boundary at which a lease takes effect. -/
def State.leaseAtBoundary (s : State) (n : Nat) (m : Mbx) : State := s.markReady m mOk (toLe 2 n ++ zeros 6)

/-- The lease a command names, or the status that refuses it: the holder's port (a TORN lease's former holder) or OPERATOR may
drop it; the owner's mailboxes may resolve it (R86, R89, R403). -/
def State.leaseFor (s : State) (m : Mbx) (n : Nat) (drop : Bool) : Lease ⊕ Nat :=
  match Table.get? s.leases n with
  | none => .inr (s.absent m mBadArg)
  | some l =>
    match s.ext? l.ext with
    | none => .inr mBadArg
    | some x => match s.extRefusal m x with
      | some st => .inr st
      | none => match m with
        | .port p => if drop && p != l.holder then .inr mDenied else .inl l
        | _ => .inl l

/-- A LEASE_DROP or LEASE_RESOLVE of the lease waits (R509). -/
def State.leaseBusy (s : State) (n : Nat) : Bool := s.isWaiting (· == .leaseDrop n) || s.isWaiting (· == .leaseResolve n)

/-- LEASE_DROP up to the end of the holder's earlier writes. -/
def execLeaseDrop (m : Mbx) (s : State) : Out :=
  .next <| s.runCommand m 0x0041 true fun s =>
    let n := s.rq m 0 2
    match s.leaseFor m n true with
    | .inr st => s.fail m st
    | .inl l =>
      if s.leaseBusy n then s.fail m mBusy
      else if l.torn then s.fail m mState
      else (s.modLease n fun l => { l with dropping := true, dropPick := s.time.pick }).await m (.leaseDrop n)

/-- Writes of the holder to the range from before the drop have ended (R86 step 1). -/
def State.dropDrained (s : State) (l : Lease) : Bool :=
  s.reqs.all fun kv => !(kv.2.port == some l.holder && kv.2.op.isWrite && !kv.2.visible && kv.2.ext == l.ext &&
    l.first ≤ kv.2.page && kv.2.page < l.first + l.pages && kv.2.arrival ≤ l.dropPick)

/-- Carry every LEASE_DROP on at a pick boundary (R86 steps 2 and 3). -/
def State.dropsGo (s : State) : State :=
  let gone := (s.leases.filter fun kv => kv.2.dropping && s.dropDrained kv.2).map (·.1)
  let s := (s.setLeases (s.leases.filter fun kv => !gone.contains kv.1))
  gone.foldl (fun s n => s.readyWaiter (.leaseDrop n) mOk []) s

/-- LEASE_RESOLVE. -/
def execLeaseResolve (m : Mbx) (s : State) : Out :=
  .next <| s.runCommand m 0x0042 true fun s =>
    let n := s.rq m 0 2
    match s.leaseFor m n false with
    | .inr st => s.fail m st
    | .inl l =>
      if 1 < s.rq m 2 1 then s.fail m mBadArg
      else if s.leaseBusy n then s.fail m mBusy
      else if !l.torn then s.fail m mState
      else (s.await m (.leaseResolve n)).modUmpire fun u => { u with
        deferred := u.deferred ++ [.leaseResolve n (s.rq m 2 1 == 1) m] }

/-- The boundary of a LEASE_RESOLVE (R89). -/
def State.resolveLease (s : State) (n : Nat) (zero : Bool) (m : Mbx) : State :=
  match Table.get? s.leases n with
  | none => s.markReady m mState []
  | some l =>
    let s := (s.setLeases (Table.erase s.leases n))
    let s := if zero then
        (List.range l.pages).foldl (fun s i =>
          (s.zorPage l.ext (l.first + i) false).modExt l.ext fun x => x.bumpGen (l.first + i)) s
      else s
    s.markReady m mOk []

/-! ### Pins (spec/05_tiering.md R143 to R145) -/

/-- Pins of one context. -/
def State.pinsOf (s : State) (c : Nat) : Nat := (s.pins.filter fun kv => kv.2.ctx == c).length

/-- Frames that the pages of a range still need in the masked sections (R143). -/
def Extent.pinNeeds (x : Extent) (first n : Nat) (mask : BitVec 16) : Nat :=
  x.frames * ((List.range n).filter fun i =>
    let pg := x.page (first + i)
    !(pg.near && mask.toNat.testBit (frameSection pg.slot))).length

/-- Room that PIN_LIMIT leaves in the masked sections together. -/
def State.pinRoom (s : State) (mask : BitVec 16) : Nat :=
  (List.range 16).foldl (fun a sec => if mask.toNat.testBit sec then a + (s.tier.policy.pinLimit - s.pinnedFrames sec) else a) 0

/-- A page that a PIN accepts: PIN is set, a pending eviction is cancelled, and the pending last-access beat of a page that the
pin will copy, fill or move begins; a counter promotion that the pin keeps has one already (R131, R144, R154). -/
def Page.pinned (pg : Page) (mask : BitVec 16) (beats : Nat) : Page :=
  let stays := (pg.near || pg.st == .promoting) && mask.toNat.testBit (frameSection pg.slot) && pg.st != .evicting && pg.st != .moving
  { pg with pin := true, evict := false, last := if stays then pg.last else beats }

/-- PIN: pages are placed at pick boundaries. Blocks that a copy under way has written as poison before are not counted
(R156). -/
def execPin (m : Mbx) (s : State) : Out :=
  .next <| s.runCommand m 0x0050 true fun s =>
    let e := s.rq m 0 2
    let mask := BitVec.ofNat 16 (s.rq m 2 2)
    match s.ext? e with
    | none => s.fail m (s.absent m mDenied)
    | some x =>
      match s.extRefusal m x with
      | some st => s.fail m st
      | none =>
        if x.st ≠ .granted then s.fail m mDenied
        else match s.rqPages m x with
          | none => s.fail m mBadArg
          | some (first, n) =>
            if mask = 0 then s.fail m mBadArg
            else if s.pins.any fun kv => kv.2.ext == e && pagesMeet kv.2.first kv.2.pages first n then s.fail m mState
            else match Table.free s.pins 4096 with
              | none => s.fail m mNoResource
              | some k =>
                if s.pinRoom mask < x.pinNeeds first n mask || s.qPins ≤ s.pinsOf x.owner then s.fail m mNoResource
                else
                  let todo := (List.range n).map (first + ·)
                  let pn : Pin := { ext := e, first := first, pages := n, mask := mask, ctx := x.owner, todo := todo }
                  let s := (s.setPins (Table.set s.pins k pn))
                  let s := todo.foldl (fun s p => s.modPage e p fun pg => pg.pinned mask s.tier.beats) s
                  let s := s.modTier fun t => { t with copies := Table.mapV t.copies fun _ c =>
                    if c.ext == e && first ≤ c.page && c.page < first + n then { c with poison := 0 } else c }
                  (s.sweepMarks.await m (.pin k)).pinsDone

/-- A running draft of a context streams a page range (R145). -/
def State.streamsRange (s : State) (c e first n : Nat) : Bool :=
  s.loom.drafts.any fun kv => kv.2.st == .running && kv.2.ctx == c &&
    kv.2.streamed.any fun x => x.2.1 == e && pagesMeet x.2.2.1 (x.2.2.2 + 1 - x.2.2.1) first n

/-- UNPIN. -/
def execUnpin (m : Mbx) (s : State) : Out :=
  .next <| s.runCommand m 0x0051 true fun s =>
    let n := s.rq m 0 2
    match Table.get? s.pins n with
    | none => s.fail m (s.absent m mBadArg)
    | some pn =>
      match s.ext? pn.ext with
      | none => s.fail m mBadArg
      | some x => match s.extRefusal m x with
        | some st => s.fail m st
        | none =>
          if s.streamsRange pn.ctx pn.ext pn.first pn.pages then s.fail m mState
          else (s.await m (.unpin n)).modUmpire fun u => { u with deferred := u.deferred ++ [.unpin n m] }

/-- The boundary of an UNPIN; a PIN that still places its pages completes ABORTED. -/
def State.unpinAt (s : State) (n : Nat) (m : Mbx) : State :=
  match Table.get? s.pins n with
  | none => s.markReady m mState []
  | some pn => ((if pn.done then s.releasePin n else s.endPin n mAborted)).markReady m mOk []

/-! ### MIG_POLICY (spec/05_tiering.md R138, spec/15_mailboxes.md R414) -/

/-- GLOBAL settings as laid out. -/
def MigPolicy.body (p : MigPolicy) : List Byte :=
  toLe 1 p.threshold ++ zeros 3 ++ toLe 4 p.ageBeats ++ toLe 4 p.horizon ++ toLe 4 p.pinLimit

/-- The settings of a request; none where a value lies outside its range. -/
def State.policyOf (s : State) (m : Mbx) : Option MigPolicy :=
  let p : MigPolicy := { threshold := s.rq m 0 1, ageBeats := s.rq m 4 4, horizon := s.rq m 8 4, pinLimit := s.rq m 12 4 }
  if 1 ≤ p.threshold ∧ 1 ≤ p.ageBeats ∧ p.ageBeats ≤ 1048576 ∧ 1 ≤ p.horizon ∧ p.horizon ≤ 1048576 ∧ p.pinLimit ≤ 253952 then
    some p
  else none

/-- MIG_POLICY GLOBAL. -/
def execMigPolicyGlobal (m : Mbx) (s : State) : Out :=
  .next <| s.runCommand m 0x0052 (!s.flag m 0 && !s.flag m 1) fun s =>
    if m ≠ .installer then s.fail m mDenied
    else match s.policyOf m with
      | none => s.fail m mBadArg
      | some p =>
        if (List.range 16).any fun sec => p.pinLimit < s.pinnedFrames sec then s.fail m mState
        else (s.modTier fun t => { t with pendPolicy := some p }).await m .policy

/-- GLOBAL settings take effect at a beat boundary. -/
def State.policyBoundary (s : State) : State :=
  match s.tier.pendPolicy with
  | none => s
  | some p =>
    if s.standbyHolds then s else
    let s := (s.modTier fun t => { t with policy := p, pendPolicy := none }).modNor fun n => { n with policy := p }
    (s.waiting (· == .policy)).foldl (fun s m => s.markReady m mOk p.body) s

/-- EXTENT settings as laid out. -/
def promoteBody (e : Nat) (en : Bool) : List Byte := toLe 2 e ++ toLe 1 (b2n en) ++ zeros 5

/-- The extent of an EXTENT form, or the status that refuses it. -/
def State.policyExt (s : State) (m : Mbx) : Extent ⊕ Nat :=
  match s.ext? (s.rq m 0 2) with
  | none => .inr (s.absent m mBadArg)
  | some x => match s.extRefusal m x with
    | some st => .inr st
    | none => if x.st = .granted then .inl x else .inr mState

/-- MIG_POLICY EXTENT. -/
def execMigPolicyExtent (m : Mbx) (s : State) : Out :=
  .next <| s.runCommand m 0x0052 (s.flag m 0 && !s.flag m 1) fun s =>
    match s.policyExt m with
    | .inr st => s.fail m st
    | .inl _ =>
      if 1 < s.rq m 2 1 then s.fail m mBadArg
      else
        let e := s.rq m 0 2
        (s.await m (.policyExt e)).modUmpire fun u => { u with deferred := u.deferred ++ [.promoteEn e (s.rq m 2 1 == 1) m] }

/-- The boundary of an EXTENT form. -/
def State.promoteAt (s : State) (e : Nat) (en : Bool) (m : Mbx) : State :=
  match s.ownerOf e with
  | none => s.markReady m mState []
  | some _ => (s.modExt e fun x => { x with promoteEn := en }).markReady m mOk (promoteBody e en)

/-- MIG_POLICY with READ. -/
def execMigPolicyRead (m : Mbx) (s : State) : Out :=
  .next <| s.runCommand m 0x0052 (s.flag m 1) fun s =>
    if s.flag m 0 then
      match s.policyExt m with
      | .inr st => s.fail m st
      | .inl x => s.complete m mOk (promoteBody (s.rq m 0 2) x.promoteEn)
    else if m ≠ .installer then s.fail m mDenied
    else s.complete m mOk s.tier.policy.body

end Sys2Proof.Machine
end

