-- ==== Sys2Proof/Machine/Jobs.lean ====
section
/-! DEFINITION. Shuttle jobs and bolt loads: the rows of spec/12_shuttles.md R305 to R325 and of
spec/13_isolation_crypto.md R344 to R350, with the layouts of spec/15_mailboxes.md R418. -/

namespace Sys2Proof.Machine

/-! ### Engines -/

/-- Engines issue blocks: not in SAFE, STANDBY or a brace (R324, spec/17_reset_power.md R456, R459). -/
def State.enginesOn (s : State) : Bool := s.backgroundOn

/-- The plan gives the engine a near or far position in the pick in force. -/
def State.engineHere (s : State) (e : Nat) : Bool :=
  ((List.range 16).any fun sec => (List.range 32).any fun k => s.nearOwner s.pattern sec k == ownShuttle e) ||
    (List.range 4).any fun g => (List.range 96).any fun k => s.farOwner s.pattern g k == ownShuttle e

/-- The lowest-numbered idle engine. -/
def State.idleEngine (s : State) : Option Nat := (List.range 8).find? fun e => (s.engine e).isNone

/-- The engine that a request's ENGINE field gives; none where it is busy, or every engine is. -/
def State.rqEngine (s : State) (m : Mbx) : Option Nat :=
  let n := s.rq m 1 1
  if n = 0xFF then s.idleEngine else if (s.engine n).isNone then some n else none

/-- An extent is GRANTED to a context, for a command or a descriptor that starts now. -/
def Extent.grantedTo (x : Extent) (c : Nat) : Bool := x.st == .granted && x.owner == c && !x.ending

/-! ### SHUTTLE_RUN (R305, R306) -/

/-- The status of R306 that refuses a job. -/
def State.runRefusal (s : State) (m : Mbx) (c : Nat) : Option Nat :=
  let n := s.rq m 1 1
  let tmo := s.rq m 2 2
  let cnt := s.rq m 4 2
  let addr := s.rq m 8 8
  let busy := (n == 0xFF || n < 8) && (s.rqEngine m).isNone
  if busy then some mBusy
  else if (7 < n ∧ n ≠ 0xFF) ∨ (tmo ≠ 0 ∧ (tmo < 48 ∨ 4096 < tmo)) ∨ cnt = 0 ∨ 4096 < cnt then some mBadArg
  else match s.extentAt addr with
    | none => some mBadArg
    | some (_, x, off) =>
      if x.granules * 2 ^ 21 < off + 32 * cnt ∨ x.cls ≠ .plain ∨ addr % 32 ≠ 0 then some mBadArg
      else if !x.grantedTo c ∨ x.bound ∨ x.sealed then some mDenied
      else
        let code := ownShuttle ((s.rqEngine m).getD 0)
        if !s.ownsNear code || !s.ownsFar code then some mNoResource else none

/-- The body of a SHUTTLE_RUN that completes STATE at acceptance (spec/15_mailboxes.md R418): no engine ran it (0xFF; log
entry 46), no descriptor ran or failed. -/
def noRunBody : List Byte := toLe 1 0xFF ++ toLe 1 0 ++ toLe 2 0 ++ toLe 2 0 ++ toLe 2 0xFFFF

/-- SHUTTLE_RUN up to the start of its job. -/
def execShuttleRun (m : Mbx) (s : State) : Out :=
  .next <| s.runCommand m 0x0080 true fun s =>
    match s.commandCtx m (s.rq m 0 1) with
    | .inr st => s.complete m st (if st = mState then noRunBody else [])
    | .inl c =>
      match s.runRefusal m c, s.rqEngine m, s.extentAt (s.rq m 8 8) with
      | some st, _, _ => s.fail m st
      | none, some e, some (le_, _, _) =>
        let tmo := if s.rq m 2 2 = 0 then 64 else s.rq m 2 2
        let j : Job := { ctx := c, mbx := m, list := s.rq m 8 8, count := s.rq m 4 2, timeout := tmo, listExt := le_ }
        (s.modEngine e fun _ => some j).await m (.shuttle e)
      | none, _, _ => s.fail m mBadArg

/-! ### The list (R306, R307, R309) -/

/-- A descriptor from its 32 bytes; `rsv` holds its reserved bytes. -/
def descOf (b : List Byte) : Desc :=
  { kind := le (slice b 0 1), flags := le (slice b 1 1), port := le (slice b 2 1)
    rsv := le (slice b 3 1) + 256 * le (slice b 0x19 3), len := le (slice b 4 4), src := le (slice b 8 8)
    dst := le (slice b 0x10 8) }

/-- SHUTTLE_LIST_READ (R306): the whole list, once. A block that cannot be read gives zero bytes. -/
def execShuttleListRead (e : Nat) (s : State) : Out :=
  .next <|
    match s.engine e with
    | none => s
    | some j =>
      if j.descs.isSome || j.bolt.isSome || j.idx ≠ 0 || j.count = 0 || j.abort || !s.enginesOn || !s.engineHere e then s
      else match s.extentAt j.list with
        | none => s
        | some (x, _, off) =>
          let (s, bs) := (s.countBlocks x off (32 * j.count)).bytesNow x off (32 * j.count)
          let bytes := bs.map fun b => b.getD 0
          s.modJob e fun j => { j with descs := some ((List.range j.count).map fun i => descOf (slice bytes (32 * i) 32)) }

/-! ### DESCRIPTOR_START (R311) -/

/-- Host blocks of a descriptor (R319). -/
def Desc.hostBlocks (d : Desc) (conf : Bool) : Nat := if conf then d.len + ceilDiv d.len 255 else d.len

/-- A host address (R310). -/
def hostAddrOk (a : Nat) : Bool := a % 256 == 0 && a < 2 ^ 52

/-- A run of blocks of the pool that lies inside one extent: the extent. -/
def State.poolRun (s : State) (addr len : Nat) : Option (Nat × Extent) :=
  match s.extentAt addr with
  | some (e, x, off) => if addr % 256 = 0 ∧ off + 256 * len ≤ x.granules * 2 ^ 21 then some (e, x) else none
  | none => none

/-- The host address of a PUSH or PULL. -/
def Desc.host (d : Desc) : Nat := if d.kind = 2 then d.dst else d.src

/-- First row of R311: the descriptor's own fields and ranges. -/
def State.badDesc (s : State) (d : Desc) : Bool :=
  let src := d.kind == 3 || (s.poolRun d.src d.len).isSome
  let dst := d.kind == 2 || (s.poolRun d.dst d.len).isSome
  !(1 ≤ d.kind && d.kind ≤ 3) || 1 < d.flags || d.rsv != 0 || !(if d.kind = 1 then d.port == 0 else d.port ≤ 5) ||
    d.len == 0 || 16777216 < d.len || (d.kind != 1 && !hostAddrOk d.host) || !src || !dst ||
    (d.kind == 1 && pagesMeet d.src (256 * d.len) d.dst (256 * d.len))

/-- The extents a descriptor reads from and writes to. -/
def State.descExts (s : State) (d : Desc) : Option Extent × Option Extent :=
  (if d.kind = 3 then none else (s.poolRun d.src d.len).map (·.2), if d.kind = 2 then none else (s.poolRun d.dst d.len).map (·.2))

/-- A host range lies inside one bounce window of the port (R318). -/
def Port.inBounce (q : Port) (addr bytes : Nat) : Bool := q.bounce.any fun w => w.1 ≤ addr && addr + bytes ≤ w.1 + w.2

/-- The status of R311 at which a descriptor ends at once. One that names an extent past its revocation boundary, or a port
whose drain has begun, ends ABORTED (spec/03 R83 step 4, spec/11 R295 step 2). -/
def State.startRefusal (s : State) (e c : Nat) (d : Desc) : Option Nat :=
  if s.badDesc d then some dBadDesc
  else
    let (src, dst) := s.descExts d
    let any := fun (f : Extent → Bool) => src.any f || dst.any f
    let q := s.port d.port
    let host := decide (d.kind ≥ 2)
    if any (fun x => x.st == .granted && x.owner == c && x.ending) || (host && q.closed) then some dAborted
    else if any fun x => !x.grantedTo c then some dUnmapped
    else if src.any (·.bound) || dst.any fun x => x.bound || x.sealed || x.sealing then some dDenied
    else if host && !(s.hasPort d.port && s.isUp d.port && s.attachedTo d.port == some c) then some dPortLost
    else if host && !(if d.kind = 2 then s.ownsEgress d.port (ownShuttle e) else s.ownsIngress d.port (ownShuttle e)) then
      some dBadDesc
    else if host && q.conf && !q.inBounce d.host (256 * d.hostBlocks true) then some dDenied
    else none

/-- DESCRIPTOR_START. -/
def execDescriptorStart (e : Nat) (s : State) : Out :=
  .next <|
    match s.engine e with
    | none => s
    | some j =>
      match j.descs with
      | none => s
      | some ds =>
        if j.cur.isSome || j.abort || !j.back.isEmpty || s.listOut e || j.count ≤ j.idx || !s.enginesOn then s
        else
          let d := ds.getD j.idx (descOf [])
          match s.startRefusal e j.ctx d with
          | some st => (s.modJob e fun j => j.record j.idx st 0 (bit d.flags 0)).settle e
          | none => s.modJob e fun j => { j with cur := some { d := d, idx := j.idx, conf := decide (d.kind ≥ 2) && (s.port d.port).conf } }

/-! ### SHUTTLE_BLOCK_ISSUE (R312, R313, R316, R319) -/

/-- Issue the read of a source block: it counts as an access (spec/05_tiering.md R136); a TORN block ends the descriptor. -/
def State.issueRead (s : State) (e j addr : Nat) : State :=
  match s.engineReq (.shuttle e j) .rd256 addr [] 0 with
  | none => s.modCur e fun c => c.failAt j dUnmapped
  | some r =>
    if s.tornBlock r.ext r.block then s.modCur e fun c => c.failAt j dTorn
    else (((s.modCur e fun c => { c with inflight := c.inflight ++ [j] }).countAccess r.ext r.page).addReq r).pump

/-- Reads that a pull issues for block `j`: the block, and after a segment's last block its seal. -/
def Cur.pullReads (c : Cur) (j : Nat) : List Nat :=
  if c.conf ∧ (j % 255 = 254 ∨ j + 1 = c.d.len) then [j, sealRead (j / 255)] else [j]

/-- SHUTTLE_BLOCK_ISSUE: the next block of the descriptor that runs. -/
def execShuttleBlockIssue (e : Nat) (s : State) : Out :=
  .next <|
    match s.engine e with
    | none => s
    | some j =>
      match j.cur with
      | none => s
      | some c =>
        if j.abort || c.fail.isSome || c.d.len ≤ c.next || 512 ≤ c.inflight.length || !s.enginesOn then s
        else
          let n := c.next
          let s := s.modCur e fun c => { c with next := n + 1 }
          let s := if c.d.kind = 3 then
              s.modCur e fun c => { c with inflight := c.inflight ++ [n], toRead := c.toRead ++ c.pullReads n }
            else s.issueRead e n (c.d.src + 256 * n)
          s.settle e

/-! ### PULL_TIMEOUT (R317) -/

/-- PULL_TIMEOUT: a read whose completion has not arrived PULL_TIMEOUT picks after the pick in which it left. -/
def execPullTimeout (e tag : Nat) (s : State) : Out :=
  .next <|
    match s.engine e with
    | none => s
    | some j =>
      match j.cur with
      | none => s
      | some c =>
        match Table.get? (s.port c.d.port).rdTags tag with
        | none => s
        | some r =>
          if r.engine ≠ e || c.d.kind ≠ 3 || s.time.pick < r.left + j.timeout then s
          else
            let s := s.modPort c.d.port fun q => { q with
              rdTags := Table.erase q.rdTags tag, deadTags := Table.set q.deadTags tag (s.time.pick + 1024) }
            (s.modCur e fun c => c.failAt (readBlock r.block) dTimeout).settle e

/-! ### DESCRIPTOR_WRITE_BACK (R307) -/

/-- STATUS and DONE as a masked 64 B write at byte `off` of an entry's quarter: data and mask. -/
def backBytes (off st done : Nat) : List Byte × W64 :=
  (patch (patch (zeros 64) (off + 0x18) (toLe 1 st)) (off + 0x1C) (toLe 4 done),
   BitVec.ofNat 64 (2 ^ (off + 0x18) + 15 * 2 ^ (off + 0x1C)))

/-- DESCRIPTOR_WRITE_BACK: the write-back of an ended descriptor's entry is issued at the cost of a WRP. -/
def execDescriptorWriteBack (e : Nat) (s : State) : Out :=
  .next <|
    match s.engine e with
    | none => s
    | some j =>
      match j.back with
      | [] => s
      | (i, st, done) :: _ =>
        if s.listOut e || j.dropBack || !s.scrubOn then s
        else
          let addr := j.list + 32 * i
          let (data, mask) := backBytes (addr % 64) st done
          match s.engineReq (.list e i) .wrp addr data mask with
          | none => s
          | some r => ((s.countAccess r.ext r.page).addReq r).pump

/-! ### SHUTTLE_ABORT (R323) -/

/-- SHUTTLE_ABORT: the job's later descriptors do not run; the command completes after the job's own. -/
def execShuttleAbort (m : Mbx) (s : State) : Out :=
  .next <| s.runCommand m 0x0081 true fun s =>
    let e := s.rq m 0 1
    match s.portRefusal m with
    | some st => s.fail m st
    | none =>
      if 7 < e then s.fail m mBadArg
      else match s.engine e with
        | none => s.fail m mState
        | some j =>
          let mine := match m with | .port p => s.attachedTo p == some j.ctx | _ => true
          if !mine then s.fail m mDenied
          else if !s.ctxLive j.ctx then s.fail m mState
          else (s.await m (.abort e)).abortJob e

/-! ### BOLT_LOAD (spec/13_isolation_crypto.md R349) -/

/-- Pool bytes as read now, for the length check at acceptance; bytes that cannot be read count as zero. -/
def State.poolBytes (s : State) (addr len : Nat) : State × List Byte :=
  match s.extentAt addr with
  | some (e, _, off) => let (s, bs) := (s.countBlocks e off len).bytesNow e off len
                        (s, bs.map fun b => b.getD 0)
  | none => (s, zeros len)

/-- The source range of a bolt lies inside one Plain extent of the context. -/
def State.boltSource (s : State) (c addr len : Nat) : Bool :=
  match s.extentAt addr with
  | some (_, x, off) => x.grantedTo c && x.cls == .plain && !x.bound && decide (off + len ≤ x.granules * 2 ^ 21)
  | none => false

/-- BOLT_LOAD up to the start of the load. -/
def execBoltLoad (m : Mbx) (s : State) : Out :=
  .next <| s.runCommand m 0x0090 true fun s =>
    if !s.hasCipher then s.fail m mNotPresent
    else match s.commandCtx m (s.rq m 0 1) with
      | .inr st => s.fail m st
      | .inl c =>
        let n := s.rq m 1 1
        let e := s.rq m 2 2
        let src := s.rq m 8 8
        let len := s.rq m 0x10 8
        match s.ext? e with
        | none => s.fail m mDenied
        | some x =>
          if s.umpire.idBad then s.fail m mState
          else if !x.grantedTo c ∨ !x.bound then s.fail m mDenied
          else if x.bolt.isSome ∨ x.boltLoading then s.fail m mState
          else if (7 < n ∧ n ≠ 0xFF) ∨ !s.boltSource c src len then s.fail m mBadArg
          else
            let (s, size) := s.poolBytes (src + 8) 8
            if le size ≠ len then s.fail m mBadArg
            else match s.rqEngine m with
              | none => s.fail m mBusy
              | some g =>
                if s.umpire.entropyFail then s.fail m mState
                else
                  let b : BoltJob := { ext := e, src := src, len := len }
                  let j : Job := { ctx := c, mbx := m, list := 0, count := 0, timeout := 64, listExt := 0xFFFF, bolt := some b }
                  ((s.modExt e fun x => { x with boltLoading := true }).modEngine g fun _ => some j).await m (.bolt g)

/-! ### BOLT_CHUNK (R345 to R350) -/

/-- Fields of a bolt header (R346). -/
def hdr (h : List Byte) (off n : Nat) : Nat := le (slice h off n)

def BoltJob.recipients (b : BoltJob) : Nat := hdr b.header 6 2
def BoltJob.payload (b : BoltJob) : Nat := hdr b.header 0x10 8
def BoltJob.chunkSize (b : BoltJob) : Nat := hdr b.header 0x18 4
def BoltJob.chunks_ (b : BoltJob) : Nat := hdr b.header 0x1C 4

/-- Step 1: MAGIC, VERSION, sizes, reserved bytes, READER_MASK. -/
def boltHeaderOk (h : List Byte) (len : Nat) : Bool :=
  let r := hdr h 6 2
  let total := hdr h 8 8
  let pay := hdr h 0x10 8
  let cs := hdr h 0x18 4
  let cc := hdr h 0x1C 4
  hdr h 0 4 == 0x544C4F42 && hdr h 4 2 == 1 && 1 ≤ r && r ≤ 64 && total == 128 + 144 * r + pay + 16 * cc + 64 && total == len &&
    pay != 0 && pay % 256 == 0 && cs % 65536 == 0 && 65536 ≤ cs && cs ≤ 16777216 && cc == ceilDiv pay cs &&
    (slice h 0x62 30).all (· == 0) && hdr h 0x50 8 != 0

/-- Step 3: the target's class, type and size. -/
def boltFits (h : List Byte) (x : Extent) : Bool :=
  let want := hdr h 0x60 1
  let typ := hdr h 0x61 1
  let mine := match x.cls with
    | .plain => 0
    | .twill2 => 1
    | .twill4 => 2
    | .satin => 2 + x.budget
  (want == 0xFF || want == mine) && (typ == 0xFF || typ == x.src.code) && hdr h 0x10 8 ≤ x.granules * 2 ^ 21

/-- The issuer key of a header (R344). -/
def State.issuer (s : State) (h : List Byte) : Option (List Byte) := s.nor.issuers.find? fun k => sha256 k == slice h 0x30 32

/-- The device's key-agreement public key (spec/14_identity_roles.md R372). -/
def State.kaPublic (s : State) : List Byte := ecPublic s.umpire.kaKey

/-- The first recipient entry for this device. -/
def State.recipient (s : State) (entries : List Byte) (n : Nat) : Option (List Byte) :=
  let me := sha256 s.kaPublic
  ((List.range n).map fun i => slice entries (144 * i) 144).find? fun r => slice r 0 32 == me

/-- The content key of a recipient entry (R347); none where it does not unwrap. -/
def State.contentKey (s : State) (h r : List Byte) : Option (List Byte) :=
  match pointOf (slice r 0x20 64) with
  | none => none
  | some q =>
    let kek := hkdf (ecdhX s.umpire.kaKey q) (slice h 0x20 16) (ascii "PYRMIKA-BOLT-KEK" ++ slice r 0 32)
    kwUnwrap kek (slice r 0x60 40)

/-- A load ends: its response body gives BOLT_ID and the step (R418). -/
def State.boltDone (s : State) (e : Nat) (b : BoltJob) (st step : Nat) : State :=
  (s.modExt b.ext fun x => { x with boltLoading := false }).freeEngine e (.bolt e) st (b.body step)

/-- After a failure at step 6 or 7, or an abort, every page of the target becomes zero-on-read and its overwrite starts. -/
def State.boltSpoiled (s : State) (b : BoltJob) : State :=
  match s.ext? b.ext with
  | none => s
  | some x0 =>
    if x0.st ≠ .granted then s
    else
      let order := s.ras.clearOrder
      let s := s.modRas fun r => { r with clearOrder := order + 1 }
      let old := match x0.clear with | some c => c.frames | none => []
      let s := s.modExt b.ext fun x => x.startClear order old
      (s.zorPages b.ext (s.listedPages b.ext) true).modExt b.ext fun x => { x with ovf := [] }

/-- Bytes of a chunk record, its tag included (R345). -/
def BoltJob.recordSize (b : BoltJob) (i : Nat) : Nat := min b.chunkSize (b.payload - i * b.chunkSize) + 16

/-- The bytes of the image that the load reads next: the header, the recipient entries, a chunk record, the signature (R345). -/
def BoltJob.range (b : BoltJob) : Nat × Nat :=
  if b.step = 1 then (0, 128)
  else if b.step = 5 then (128, 144 * b.recipients)
  else if b.step = 6 then (128 + 144 * b.recipients + b.chunk * (b.chunkSize + 16), b.recordSize b.chunk)
  else (b.len - 64, 64)

/-- Pool block numbers of the range. -/
def BoltJob.blocks (b : BoltJob) : List Nat :=
  let a := b.src + b.range.1
  (List.range ((a + b.range.2 + 255) / 256 - a / 256)).map (a / 256 + ·)

/-- The bytes of the range, once every block of it has been read. -/
def BoltJob.bytes (b : BoltJob) : List Byte :=
  slice (b.blocks.flatMap fun n => Table.getD b.buf n (zeros 256)) ((b.src + b.range.1) % 256) b.range.2

/-- The load goes to a step and a chunk; image blocks of no further use leave the buffer. -/
def BoltJob.goTo (b : BoltJob) (step chunk : Nat) : BoltJob :=
  let b := { b with step := step, chunk := chunk }
  { b with buf := b.buf.filter fun kv => b.blocks.contains kv.1 }

/-- Accesses of the load have not ended. -/
def BoltJob.busy (b : BoltJob) : Bool := !b.asked.isEmpty || !b.writes.isEmpty

/-- An aborted load ends ABORTED once its blocks in flight have finished (R350, R323). -/
def State.boltAborted (s : State) (e : Nat) (b : BoltJob) : State :=
  if b.busy then s else (s.boltSpoiled b).boltDone e b mAborted b.step

/-- Read a block of the image; TORN and absent blocks count as bytes that cannot be read. -/
def State.boltFetch (s : State) (e n : Nat) : State :=
  match s.engineReq (.fetch e n) .rd256 (256 * n) [] 0 with
  | none => s.boltFetched e n none
  | some r =>
    if s.tornBlock r.ext r.block then s.boltFetched e n none
    else ((s.modBolt e fun b => { b with asked := b.asked ++ [n] }).countAccess r.ext r.page).addReq r

/-- Write a block of the target: one that starts after a seal's boundary is refused (spec/04_compression.md R116). -/
def State.boltStore (s : State) (e ext n : Nat) (data : List Byte) : State :=
  match s.ext? ext with
  | none => s.boltWrote e n stDenied
  | some x =>
    let s := s.modBolt e fun b => { b with plain := Table.erase b.plain n, writes := b.writes ++ [n] }
    if x.sealed || x.sealing || x.st != .granted then s.boltWrote e n stDenied
    else
      let pg := x.page (n / 256)
      (s.countAccess ext (n / 256)).addReq
        { origin := .bolt e n, op := .wr256, code := 0, ext := ext, block := n, quarter := 0, data := data, mask := fullMask
          ro := true, arrival := s.time.pick, near := pg.near, slot := pg.slot, gen := false }

/-- Steps 1 to 4, from the header. -/
def State.boltOpen (s : State) (e : Nat) (b : BoltJob) : State :=
  let h := b.bytes
  let end_ := fun (st step : Nat) => s.boltDone e { b with header := h, step := step } st step
  if !boltHeaderOk h b.len then end_ mBadArg 1
  else if (s.issuer h).isNone then end_ mDenied 2
  else if !(match s.ext? b.ext with | some x => boltFits h x | none => false) then end_ mBadArg 3
  else if s.umpire.svn < hdr h 0x58 8 then end_ mDenied 4
  else s.modBolt e fun _ => ({ b with header := h, seen := h } : BoltJob).goTo 5 0

/-- Step 5, from the recipient entries. -/
def State.boltUnwrap (s : State) (e : Nat) (b : BoltJob) : State :=
  let es := b.bytes
  match s.recipient es b.recipients with
  | none => s.boltDone e b mDenied 5
  | some r => match s.contentKey b.header r with
    | none => s.boltDone e b mSigFail 5
    | some k => s.modBolt e fun _ => ({ b with key := some k, seen := b.seen ++ es } : BoltJob).goTo 6 0

/-- Step 6 for the chunk that has been read: its tag is checked, and its plaintext is to be written. -/
def State.boltOpenChunk (s : State) (e : Nat) (b : BoltJob) : State :=
  let i := b.chunk
  let rec_ := b.bytes
  let n := rec_.length - 16
  match gcmOpen (b.key.getD []) (zeros 4 ++ toLe 8 i) (slice b.header 0x20 16 ++ toLe 4 i) (rec_.take n) (rec_.drop n) with
  | none => (s.boltSpoiled b).boltDone e b mSigFail 6
  | some pt =>
    let base := i * (b.chunkSize / 256)
    let plain := (List.range (pt.length / 256)).map fun k => (base + k, slice pt (256 * k) 256)
    s.modBolt e fun _ =>
      ({ b with plain := plain, seen := b.seen ++ rec_ } : BoltJob).goTo (if i + 1 = b.chunks_ then 7 else 6) (i + 1)

/-- Steps 7 and 8, from the signature. -/
def State.boltVerify (s : State) (e : Nat) (b : BoltJob) : State :=
  let ok := match s.issuer b.header with
    | some k => ecdsaVerify k (sha256 b.seen) b.bytes
    | none => false
  if ok then (s.modExt b.ext fun x => { x with bolt := some (BitVec.ofNat 64 (hdr b.header 0x50 8)) }).boltDone e b mOk 0
  else (s.boltSpoiled b).boltDone e b mSigFail 7

/-- What the load does with the bytes that it has read. -/
def State.boltAct (s : State) (e : Nat) (b : BoltJob) : State :=
  if b.step = 1 then s.boltOpen e b
  else if b.step = 5 then s.boltUnwrap e b
  else if b.step = 6 then s.boltOpenChunk e b
  else s.boltVerify e b

/-- The next act of a load: the failure of a write ends it; plaintext blocks are written, at most 512 at a time (R314); the image
blocks of the next range are read, and then it does with them what its step says. -/
def State.boltTurn (s : State) (e : Nat) (b : BoltJob) : State :=
  match b.bad with
  | some st => if b.busy then s else (s.boltSpoiled b).boltDone e b st 6
  | none =>
    if !b.plain.isEmpty then
      ((b.plain.take (512 - b.writes.length)).foldl (fun s w => s.boltStore e b.ext w.1 w.2) s).pump
    else if b.busy then s
    else match b.blocks.filter fun n => (Table.get? b.buf n).isNone with
      | [] => s.boltAct e b
      | ns => ((ns.take 512).foldl (fun s n => s.boltFetch e n) s).pump

/-- BOLT_CHUNK: the next act of a bolt load. Its block reads and writes are accesses of the engine, in its own positions at the
costs of a COPY (R349, R350). -/
def execBoltChunk (e : Nat) (s : State) : Out :=
  .next <|
    match s.engine e with
    | none => s
    | some j =>
      match j.bolt with
      | none => s
      | some b =>
        if !s.enginesOn then s
        else if j.abort then s.boltAborted e b
        else s.boltTurn e b

/-- Carry aborted loads on. -/
def State.boltsGo (s : State) : State :=
  (List.range 8).foldl (fun s e =>
    match s.engine e with
    | some j => match j.bolt with
      | some b => if j.abort then s.boltAborted e b else s
      | none => s
    | none => s) s

/-! ### BOLT_ISSUERS (R344) -/

/-- BOLT_ISSUERS ADD. -/
def execBoltIssuersAdd (m : Mbx) (s : State) : Out :=
  .next <| s.runCommand m 0x0091 (s.rq m 0 1 == 0) fun s =>
    let k := s.rqBytes m 8 64
    if !s.hasCipher then s.fail m mNotPresent
    else if (pointOf k).isNone then s.fail m mBadArg
    else if s.nor.issuers.contains k then s.complete m mOk []
    else if 16 ≤ s.nor.issuers.length then s.fail m mNoResource
    else (s.modNor fun n => { n with issuers := n.issuers ++ [k] }).complete m mOk []

/-- BOLT_ISSUERS REMOVE. -/
def execBoltIssuersRemove (m : Mbx) (s : State) : Out :=
  .next <| s.runCommand m 0x0091 (s.rq m 0 1 == 1) fun s =>
    let k := s.rqBytes m 8 64
    if !s.hasCipher then s.fail m mNotPresent
    else if !s.nor.issuers.contains k then s.fail m mBadArg
    else (s.modNor fun n => { n with issuers := n.issuers.filter (· != k) }).complete m mOk []

/-- BOLT_ISSUERS LIST; a FUNCTION of no form completes BAD_ARG. -/
def execBoltIssuersList (m : Mbx) (s : State) : Out :=
  .next <| s.runCommand m 0x0091 (decide (2 ≤ s.rq m 0 1)) fun s =>
    if !s.hasCipher then s.fail m mNotPresent
    else if 2 < s.rq m 0 1 then s.fail m mBadArg
    else s.complete m mOk (toLe 1 s.nor.issuers.length ++ zeros 7 ++ s.nor.issuers.flatMap sha256)

end Sys2Proof.Machine
end

