-- ==== Sys2Proof/Machine/LoomNum.lean ====
section
/-! DEFINITION. The arithmetic of the Loom (spec/07_loom.md R185 to R205): exact values, one rounding, special cases, sticky
flags.

An operand is an exact number of units of 2^-300, which every operand format reaches, MX scales included.  A result is a
magnitude known down to a unit of 2^-k together with whether anything remains below that unit: enough to round it once, in
any mode, exactly. -/

namespace Sys2Proof.Machine

/-! ### Values -/

/-- An operand; a finite magnitude counts units of 2^-300. -/
inductive Num where
  | nan
  | inf (neg : Bool)
  | fin (neg : Bool) (m : Nat)
deriving DecidableEq, Repr

/-- An exact result: magnitude `m` units of 2^-k, and whether something remains below the last unit. -/
inductive Res where
  | nan
  | inf (neg : Bool)
  | fin (neg : Bool) (m k : Nat) (more : Bool)
deriving DecidableEq, Repr

/-- Sticky flags (R202): INVALID, DIV_BY_ZERO, OVERFLOW, UNDERFLOW in bits 0 to 3. -/
abbrev Flags4 := BitVec 4

def flInvalid : Flags4 := 0b0001#4
def flDivZero : Flags4 := 0b0010#4
def flOverflow : Flags4 := 0b0100#4
def flUnderflow : Flags4 := 0b1000#4

/-- An operand as a result. -/
def Num.res : Num → Res
  | .nan => .nan
  | .inf n => .inf n
  | .fin n m => .fin n m 300 false

/-- The sign of a number that is no NaN. -/
def Num.neg : Num → Bool
  | .nan => false
  | .inf n => n
  | .fin n _ => n

def Num.isNan : Num → Bool
  | .nan => true
  | _ => false

/-- The canonical NaN of FP32 (R194, R198). -/
def nan32 : Nat := 0x7FC00000

/-- The value of a bit pattern of a floating-point format with its special values. -/
def Fmt.num (f : Fmt) (b : Nat) : Num :=
  if f.isNan b then .nan
  else if f.isInf b then .inf (f.signBit b)
  else .fin (f.signBit b) (f.units b * 2 ^ 140)

/-- FP32 (R180). -/
def num32 (b : Nat) : Num := fmtFp32.num b

/-- The pattern is a signaling NaN: a NaN whose first mantissa bit is 0 (IEEE 754-2019; E4M3 has quiet NaNs only). -/
def Fmt.isSignaling (f : Fmt) (b : Nat) : Bool := f.hasInf && f.isNan b && !bit b (f.mant - 1)

/-- INVALID for the signaling NaNs among operands. -/
def signaling32 (bs : List Nat) : Flags4 := if bs.any fmtFp32.isSignaling then flInvalid else 0

/-! ### Rounding (R197, R198, R205) -/

/-- Rounding modes; stochastic rounding carries its 24-bit draw (R204). -/
inductive Rm where
  | rne | rtz
  | sr (u : Nat)
deriving DecidableEq, Repr

/-- What a target does with a finite value that rounds beyond its largest finite one (R200, R198). -/
inductive Over where
  | inf | largest | nan
deriving DecidableEq, Repr

/-- A floating-point target: mantissa bits, exponent bits, bias, code of the largest finite value. -/
structure Target where
  mant : Nat
  bias : Nat
  top  : Nat
  sign : Nat
deriving DecidableEq, Repr

def tgtFp32 : Target := { mant := 23, bias := 127, top := 0x7F7FFFFF, sign := 31 }
def tgtBf16 : Target := { mant := 7, bias := 127, top := 0x7F7F, sign := 15 }
def tgtFp16 : Target := { mant := 10, bias := 15, top := 0x7BFF, sign := 15 }
def tgtE4m3 : Target := { mant := 3, bias := 7, top := 0x7E, sign := 7 }
def tgtE5m2 : Target := { mant := 2, bias := 15, top := 0x7B, sign := 7 }
def tgtE2m3 : Target := { mant := 3, bias := 1, top := 0x1F, sign := 5 }
def tgtE3m2 : Target := { mant := 2, bias := 3, top := 0x1F, sign := 5 }
def tgtE2m1 : Target := { mant := 1, bias := 1, top := 0x7, sign := 3 }

/-- Whether a magnitude with quotient `q` and remainder `r` of a step of 2^w units rounds up (R205 for SR). -/
def roundsUp (rm : Rm) (q r w : Nat) (more : Bool) : Bool :=
  match rm with
  | .rtz => false
  | .rne =>
    let half := 2 ^ (w - 1)
    decide (half < r) || (r == half && (more || q % 2 == 1))
  | .sr u =>
    let f := r / 2 ^ (w - 24)
    decide (u < f) || (f == u && (more || r % 2 ^ (w - 24) != 0))

/-- A magnitude rounded to a target, as if its exponent had no upper bound: code without sign; whether it was inexact; whether
it was tiny: before rounding, or once rounded as if its exponent had no lower bound either (IEEE 754-2019 7.5). -/
def Target.round (t : Target) (rm : Rm) (m k : Nat) (more : Bool) : Nat × Bool × Bool :=
  -- exponent of the value, and of the smallest normal value, both plus k
  let e := Nat.log2 m
  let emin := k + 1 - t.bias
  let tiny := m = 0 ∨ e < emin
  let e' := max e emin
  let w := e' - t.mant
  let q := m / 2 ^ w
  let r := m % 2 ^ w
  let q' := if roundsUp rm q r w more then q + 1 else q
  -- rounded with the precision of a normal value, a tiny one may reach the smallest normal value
  let v := e - t.mant
  let p := m / 2 ^ v
  let p' := if roundsUp rm p (m % 2 ^ v) v more then p + 1 else p
  let tinyAfter := tiny ∧ ¬(e + 1 = emin ∧ p' = 2 ^ (t.mant + 1))
  ((e' - emin) * 2 ^ t.mant + q', r != 0 || more, if Config.tinyBeforeRounding 0 then decide tiny else decide tinyAfter)

/-- UNDERFLOW: a tiny inexact result. -/
def underflowFlag (inexact tiny : Bool) : Flags4 := if inexact && tiny then flUnderflow else 0

/-- Put a sign on a code. -/
def Target.signed (t : Target) (neg : Bool) (code : Nat) : Nat := code + (if neg then 2 ^ t.sign else 0)

/-- Round a result to FP32 (R198): code and flags. -/
def toFp32 (rm : Rm) (r : Res) : Nat × Flags4 :=
  let t := tgtFp32
  match r with
  | .nan => (nan32, 0)
  | .inf n => (t.signed n 0x7F800000, 0)
  | .fin n m k more =>
    let (c, inexact, tiny) := t.round rm m k more
    if t.top < c then (t.signed n (if rm = .rtz then t.top else 0x7F800000), flOverflow)
    else (t.signed n c, underflowFlag inexact tiny)

/-! ### Exact operations -/

/-- A signed integer of units. -/
def signedUnits (neg : Bool) (m : Nat) : Int := if neg then -(m : Int) else m

/-- A sum of exact values of one unit; `zero`: the sign of an exact zero. -/
def sumRes (v : Int) (k : Nat) (zero : Bool) : Res :=
  if v = 0 then .fin zero 0 k false else .fin (decide (v < 0)) v.natAbs k false

/-- a + b (IEEE 754-2019; a zero sum of opposite signs is +0). -/
def addRes (a b : Num) : Res × Flags4 :=
  match a, b with
  | .nan, _ => (.nan, 0)
  | _, .nan => (.nan, 0)
  | .inf x, .inf y => if x = y then (.inf x, 0) else (.nan, flInvalid)
  | .inf x, _ => (.inf x, 0)
  | _, .inf y => (.inf y, 0)
  | .fin x m, .fin y n => (sumRes (signedUnits x m + signedUnits y n) 300 (x && y), 0)

/-- -a, for SUB and NEG. -/
def Num.flip : Num → Num
  | .nan => .nan
  | .inf n => .inf (!n)
  | .fin n m => .fin (!n) m

/-- A product: a NaN, an infinity, or a finite value in units of 2^-600. -/
def mulRes (a b : Num) : Res × Flags4 :=
  match a, b with
  | .nan, _ => (.nan, 0)
  | _, .nan => (.nan, 0)
  | .inf x, .inf y => (.inf (xor x y), 0)
  | .inf x, .fin y n => if n = 0 then (.nan, flInvalid) else (.inf (xor x y), 0)
  | .fin x m, .inf y => if m = 0 then (.nan, flInvalid) else (.inf (xor x y), 0)
  | .fin x m, .fin y n => (.fin (xor x y) (m * n) 600 false, 0)

/-- a × b + c with one rounding. DESIGN CHOICE: 0 × ∞ signals INVALID beside a quiet NaN too, which IEEE 754-2019 7.2 leaves to
the implementation (log entry 26). -/
def fmaRes (a b c : Num) : Res × Flags4 :=
  match mulRes a b, c with
  | (.nan, f), _ => (.nan, f)
  | _, .nan => (.nan, 0)
  | (.inf x, _), .inf y => if x = y then (.inf x, 0) else (.nan, flInvalid)
  | (.inf x, _), .fin _ _ => (.inf x, 0)
  | (.fin _ _ _ _, _), .inf y => (.inf y, 0)
  | (.fin x m _ _, _), .fin y n => (sumRes (signedUnits x m + signedUnits y (n * 2 ^ 300)) 600 (x && y), 0)

/-- a / b. -/
def divRes (a b : Num) : Res × Flags4 :=
  match a, b with
  | .nan, _ => (.nan, 0)
  | _, .nan => (.nan, 0)
  | .inf _, .inf _ => (.nan, flInvalid)
  | .inf x, .fin y _ => (.inf (xor x y), 0)
  | .fin x _, .inf y => (.fin (xor x y) 0 256 false, 0)
  | .fin x m, .fin y n =>
    if n = 0 then (if m = 0 then (.nan, flInvalid) else (.inf (xor x y), flDivZero))
    else (.fin (xor x y) (m * 2 ^ 256 / n) 256 (m * 2 ^ 256 % n != 0), 0)

/-- Integer square root, one bit at a time. -/
def isqrtFrom (n : Nat) : Nat → Nat → Nat
  | 0, r => r
  | b + 1, r => if (r + 2 ^ b) * (r + 2 ^ b) ≤ n then isqrtFrom n b (r + 2 ^ b) else isqrtFrom n b r

/-- The largest integer whose square is at most `n`. -/
def isqrt (n : Nat) : Nat := isqrtFrom n (Nat.log2 n / 2 + 1) 0

/-- √a. -/
def sqrtRes (a : Num) : Res × Flags4 :=
  match a with
  | .nan => (.nan, 0)
  | .inf n => if n then (.nan, flInvalid) else (.inf false, 0)
  | .fin n m =>
    if m = 0 then (.fin n 0 256 false, 0)
    else if n then (.nan, flInvalid)
    else
      let x := m * 2 ^ 212
      let r := isqrt x
      (.fin false r 256 (r * r != x), 0)

/-- 1/√a. -/
def rsqrtRes (a : Num) : Res × Flags4 :=
  match a with
  | .nan => (.nan, 0)
  | .inf n => if n then (.nan, flInvalid) else (.fin false 0 256 false, 0)
  | .fin n m =>
    if m = 0 then (.inf n, flDivZero)
    else if n then (.nan, flInvalid)
    else
      -- (2^256 / √a)^2 = 2^512 / a = 2^812 / m
      let x := 2 ^ 812 / m
      let r := isqrt x
      (.fin false r 256 (r * r * m != 2 ^ 812), 0)

/-- The product of the numbers 2^(2^-i), each to 512 bits, for the fraction bits of `frac` (of `n` bits) that are set. -/
def exp2Frac : Nat → Nat → Nat → Nat → Nat
  | 0, _, _, acc => acc
  | n + 1, frac, root, acc =>
    let root' := isqrt (root * 2 ^ 512)
    exp2Frac n frac root' (if bit frac n then acc * root' / 2 ^ 512 else acc)

/-- 2^a. Beyond ±300 the result only has to lie beyond every target's range. -/
def exp2Res (a : Num) : Res × Flags4 :=
  match a with
  | .nan => (.nan, 0)
  | .inf n => if n then (.fin false 0 256 false, 0) else (.inf false, 0)
  | .fin n m =>
    let u := 2 ^ 300
    if 300 * u < m then (if n then (.fin false 0 256 true, 0) else (.fin false (2 ^ 556) 256 false, 0))
    else
      -- a = i + frac with i an integer; 300 is added to i
      let v : Nat := if n then 300 * u - m else 300 * u + m
      let i := v / u
      let frac := v % u
      let p := exp2Frac 300 frac (2 ^ 513) (2 ^ 512)
      -- p · 2^(i - 300) in units of 2^-256
      let x := p * 2 ^ i
      (.fin false (x / 2 ^ 556) 256 (frac != 0 || x % 2 ^ 556 != 0), 0)

/-- Bits of log2 of y = `x` / 2^512, a value from 1 to 2, most significant first. -/
def log2Bits : Nat → Nat → Nat → Nat
  | 0, _, acc => acc
  | n + 1, x, acc =>
    let y := x * x / 2 ^ 512
    if 2 ^ 513 ≤ y then log2Bits n (y / 2) (2 * acc + 1) else log2Bits n y (2 * acc)

/-- log2 a. -/
def log2Res (a : Num) : Res × Flags4 :=
  match a with
  | .nan => (.nan, 0)
  | .inf n => if n then (.nan, flInvalid) else (.inf false, 0)
  | .fin n m =>
    if m = 0 then (.inf true, flDivZero)
    else if n then (.nan, flInvalid)
    else
      let e := Nat.log2 m
      let exact := m == 2 ^ e
      let x := m * 2 ^ 512 / 2 ^ e
      let f := if exact then 0 else log2Bits 256 x 0
      if 300 ≤ e then (.fin false ((e - 300) * 2 ^ 256 + f) 256 (!exact), 0)
      else (.fin true ((300 - e) * 2 ^ 256 - f - (if exact then 0 else 1)) 256 (!exact), 0)

/-! ### Order -/

/-- a < b of numbers that are no NaN; −0 equals +0. -/
def Num.lt (a b : Num) : Bool :=
  match a, b with
  | .inf x, .inf y => x && !y
  | .inf x, .fin _ _ => x
  | .fin _ _, .inf y => !y
  | .fin x m, .fin y n => decide (signedUnits x m < signedUnits y n)
  | _, _ => false

def Num.eq (a b : Num) : Bool := !a.isNan && !b.isNan && !a.lt b && !b.lt a

/-! ### Accumulator addition and RSUM (R192, R199) -/

/-- A ⊕ v: FP32 addition, nearest even. -/
def addFp32 (a b : Nat) : Nat × Flags4 :=
  let (r, f) := addRes (num32 a) (num32 b)
  let (c, g) := toFp32 .rne r
  (c, f ||| g)

/-- One level of the tree of R199. -/
def rsumLevel : List Nat → List Nat × Flags4
  | a :: b :: t =>
    let (c, f) := addFp32 a b
    let (r, g) := rsumLevel t
    (c :: r, f ||| g)
  | l => (l, 0)

/-- Eleven levels reduce 2,048 values to one. -/
def rsumTree : Nat → List Nat → List Nat × Flags4
  | 0, l => (l, 0)
  | n + 1, l =>
    let (a, f) := rsumLevel l
    let (b, g) := rsumTree n a
    (b, f ||| g)

/-! ### The chunk function (R193, R194) -/

/-- What the products of a chunk add up to. -/
structure ChunkSum where
  nan     : Bool := false
  invalid : Bool := false
  pinf    : Bool := false
  ninf    : Bool := false
  /-- sum of the finite products in units of 2^-600; every product is −0 so far -/
  sum     : Int := 0
  negZero : Bool := true
deriving DecidableEq, Repr

/-- Add one product. -/
def ChunkSum.add (c : ChunkSum) (ab : Num × Num) : ChunkSum :=
  match mulRes ab.1 ab.2 with
  | (.nan, f) => { c with nan := true, invalid := c.invalid || f != 0, negZero := false }
  | (.inf n, _) => { c with pinf := c.pinf || !n, ninf := c.ninf || n, negZero := false }
  | (.fin n m _ _, _) => { c with sum := c.sum + signedUnits n m, negZero := c.negZero && n && m == 0 }

/-- chunk(a, b) with its flags. -/
def chunk (a b : List Num) : Nat × Flags4 :=
  let c := (a.zip b).foldl ChunkSum.add {}
  let inv := if c.invalid then flInvalid else 0
  if c.nan then (nan32, inv)
  else if c.pinf && c.ninf then (nan32, inv ||| flInvalid)
  else if c.pinf || c.ninf then ((toFp32 .rne (.inf c.ninf)).1, inv)
  else
    let (v, f) := toFp32 .rne (sumRes c.sum 600 c.negZero)
    (v, f ||| inv)

/-! ### Conversion to a narrow format (R200, R201) -/

/-- A narrow target of CVT and ST. -/
inductive Narrow where
  | fp (t : Target) (ovr : Over) (nan inf : Nat)
  | int8
deriving DecidableEq, Repr

/-- BF16 and FP16: ±∞ on overflow, the largest finite value under RTZ. -/
def narrowBf16 : Narrow := .fp tgtBf16 .largest 0x7FC0 0x7F80
def narrowFp16 : Narrow := .fp tgtFp16 .largest 0x7E00 0x7C00
/-- E4M3 has no infinity: NaN 0x7F. -/
def narrowE4m3 : Narrow := .fp tgtE4m3 .nan 0x7F 0x7F
def narrowE5m2 : Narrow := .fp tgtE5m2 .inf 0x7F 0x7C

/-- A magnitude rounded to an integer. -/
def roundInt (rm : Rm) (m : Nat) : Nat :=
  let w := 300
  let q := m / 2 ^ w
  if roundsUp rm q (m % 2 ^ w) w false then q + 1 else q

/-- An FP32 value converted to a narrow code (R200). DESIGN CHOICE: an INT8 conversion of a NaN, an infinity or a value beyond
the range raises INVALID, for which spec/07_loom.md names no flag (log entry 26). -/
def Narrow.convert (n : Narrow) (rm : Rm) (sat : Bool) (v : Num) : Nat × Flags4 :=
  match n with
  | .int8 => match v with
    | .nan => (0, flInvalid)
    | .inf s => (if s then 0x80 else 0x7F, flInvalid)
    | .fin s m =>
      let q := roundInt rm m
      if s then (if 128 < q then (0x80, flInvalid) else ((256 - q) % 256, 0))
      else (if 127 < q then (0x7F, flInvalid) else (q, 0))
  | .fp t ovr nan inf =>
    -- only FP8 has the SAT option
    let sat := sat && t.sign == 7
    match v with
    | .nan => (nan, 0)
    | .inf s => if sat then (t.signed s t.top, 0) else if ovr = .nan then (nan, 0) else (t.signed s inf, 0)
    | .fin s m =>
      let (c, inexact, tiny) := t.round rm m 300 false
      if c ≤ t.top then (t.signed s c, underflowFlag inexact tiny)
      else if sat then (t.signed s t.top, flOverflow)
      else match ovr with
        | .nan => (nan, flOverflow)
        | .inf => (t.signed s inf, flOverflow)
        | .largest => (if rm = .rtz then t.signed s t.top else t.signed s inf, flOverflow)

/-- An MX element type: its target and E of R201. -/
def mxEmax (t : Target) : Nat := if t.sign = 7 then (if t.mant = 3 then 8 else 15) else if t.sign = 5 then (if t.mant = 3 then 2 else 4) else 2

/-- The scale byte of a group (R201). -/
def mxScale (t : Target) (vs : List Num) : Nat :=
  if vs.any fun v => match v with | .fin _ _ => false | _ => true then 0xFF
  else
    let amax := vs.foldl (fun a v => match v with | .fin _ m => max a m | _ => a) 0
    if amax = 0 then 0
    else
      -- floor(log2 amax) - E + 127, clamped to 0 to 254
      min 254 (Nat.log2 amax + 127 - (300 + mxEmax t))

/-- An MX group of 32 lanes (R201): scale byte, element codes, flags. `rms` gives each lane its mode. -/
def mxGroup (t : Target) (rms : List Rm) (vs : List Num) : Nat × List Nat × Flags4 :=
  let x := mxScale t vs
  let one := fun (rv : Rm × Num) => match rv.2 with
    | .fin s m =>
      if x = 0xFF then (0, (0 : Flags4))
      else
        -- v / 2^(x - 127) in units of 2^-(300 + x - 127), written over 2^-(300 + x)
        let (c, inexact, tiny) := t.round rv.1 (m * 2 ^ 127) (300 + x) false
        if t.top < c then (t.signed s t.top, flOverflow) else (t.signed s c, underflowFlag inexact tiny)
    | _ => (0, 0)
  let es := (rms.zip vs).map one
  (x, es.map (·.1), es.foldl (fun f e => f ||| e.2) 0)

/-! ### Stochastic rounding (R204) -/

/-- The mixer of R204. -/
def srMix (z : W64) : W64 :=
  let z := (z ^^^ (z >>> 30)) * 0xBF58476D1CE4E5B9#64
  let z := (z ^^^ (z >>> 27)) * 0x94D049BB133111EB#64
  z ^^^ (z >>> 31)

/-- The draw of a lane (R204): seed, beat, bay, pick index, issue cycle, lane. -/
def srDraw (seed n : W64) (s j y lane : Nat) : Nat :=
  let w := BitVec.ofNat 64 (s * 2 ^ 60) ||| BitVec.ofNat 64 (j * 2 ^ 48) ||| BitVec.ofNat 64 (y * 2 ^ 40) |||
    BitVec.ofNat 64 (lane * 2 ^ 24)
  (srMix (seed ^^^ srMix (n ^^^ srMix w))).toNat / 2 ^ 40

end Sys2Proof.Machine
end

