-- ==== Sys2Proof/Machine/LoomWord.lean ====
section
/-! DEFINITION. The fields of a pick word, the operand formats, stream generators, loops and beat conditions of drafts
(spec/07_loom.md R185 to R190, spec/08_drafts.md R217 to R236). -/

namespace Sys2Proof.Machine

/-! ### Operand formats (R185 to R188, R228) -/

/-- An operand format. -/
inductive LoomFmt where
  | float (f : Fmt)
  | int8
  | mx (f : Fmt) (t : Target) (width : Nat)
  | twill (t : Twill) (f : Fmt)
deriving DecidableEq, Repr

def fmtE2m3 : Fmt := { width := 1, expBits := 2, mant := 3, bias := 1, hasInf := false }
def fmtE3m2 : Fmt := { width := 1, expBits := 3, mant := 2, bias := 3, hasInf := false }
def fmtE2m1 : Fmt := { width := 1, expBits := 2, mant := 1, bias := 1, hasInf := false }

/-- The Twill parameters and source format of a tag (R98). -/
def twillTag (tag : Nat) : Option (Twill × Fmt) :=
  let of := fun (c : Cls) (t : SrcType) => (twillOf c t).map fun w => (w, t.fmt)
  match tag with
  | 1 => of .twill2 .bf16
  | 2 => of .twill4 .bf16
  | 3 => of .twill2 .fp16
  | 4 => of .twill4 .fp16
  | 5 => of .twill2 .fp32
  | 6 => of .twill4 .fp32
  | 7 => of .twill2 .e4m3
  | 8 => of .twill2 .e5m2
  | _ => none

/-- The format that a code and tag name (R228); none for a reserved pair. FP32 is a format of LD and ST alone. -/
def loomFmt (code tag : Nat) : Option LoomFmt :=
  if code = 0xA then (twillTag tag).map fun x => .twill x.1 x.2
  else if tag ≠ 0 then none
  else match code with
    | 0x0 => some (.float fmtE4m3)
    | 0x1 => some (.float fmtE5m2)
    | 0x2 => some .int8
    | 0x3 => some (.mx fmtE4m3 tgtE4m3 8)
    | 0x4 => some (.mx fmtE5m2 tgtE5m2 8)
    | 0x5 => some (.mx fmtE2m3 tgtE2m3 6)
    | 0x6 => some (.mx fmtE3m2 tgtE3m2 6)
    | 0x7 => some (.mx fmtE2m1 tgtE2m1 4)
    | 0x8 => some (.float fmtBf16)
    | 0x9 => some (.float fmtFp16)
    | 0xB => some (.float fmtFp32)
    | _ => none

def LoomFmt.isFp32 (f : LoomFmt) : Bool := f == .float fmtFp32

/-- A Twill-4 operand: a slot of 64 B. -/
def Twill.four (t : Twill) : Bool := t.slot == 512

/-- BF16 or FP16: what makes an operation quarter class. -/
def LoomFmt.isHalf (f : LoomFmt) : Bool := f == .float fmtBf16 || f == .float fmtFp16

/-- MXFP4 or Twill-4: what the double class pairs. -/
def LoomFmt.isFour (f : LoomFmt) : Bool :=
  match f with
  | .mx _ _ w => w == 4
  | .twill t _ => t.four
  | _ => false

def LoomFmt.isTwill (f : LoomFmt) : Bool := match f with | .twill _ _ => true | _ => false
def LoomFmt.isMx (f : LoomFmt) : Bool := match f with | .mx _ _ _ => true | _ => false

/-- Rate classes (R188). -/
inductive Rate where
  | full | double | quarter
deriving DecidableEq, Repr

/-- The class of a pair; none where R188 rule 1 forbids it. -/
def rateOf (a b : LoomFmt) : Option Rate :=
  if (a == .int8) != (b == .int8) then none
  else if a.isHalf || b.isHalf then some .quarter
  else if a.isFour && b.isFour then some .double
  else some .full

/-- K of a class (R187). -/
def Rate.k : Rate → Nat
  | .double => 256
  | _ => 128

/-- Element bytes of a row of `k` elements: half a slot for a Twill slot of FP8 source (R187). -/
def LoomFmt.rowBytes (f : LoomFmt) (k : Nat) : Nat :=
  match f with
  | .float f => k * f.width
  | .int8 => k
  | .mx _ _ w => k * w / 8
  | .twill t _ => k * (t.slot / 8) / t.n

/-- Scale bytes of a row. -/
def LoomFmt.scaleBytes (f : LoomFmt) (k : Nat) : Nat :=
  match f with
  | .mx _ _ _ => k / 32
  | _ => 0

/-- Bytes of bobbin that decoding a row reads: whole slots (R187). -/
def LoomFmt.spanBytes (f : LoomFmt) (k : Nat) : Nat :=
  match f with
  | .twill t _ => ceilDiv k t.n * (t.slot / 8)
  | f => f.rowBytes k

/-- The row start of a Twill slot of FP8 source lies in the middle of its slot (R231). -/
def LoomFmt.half (f : LoomFmt) (unit : Nat) : Bool :=
  match f with
  | .twill t _ => t.n == 256 && unit % 4 == 2
  | _ => false

/-- The bobbin unit where decoding starts: the slot's own start. -/
def LoomFmt.slotUnit (f : LoomFmt) (unit : Nat) : Nat := if f.half unit then unit - 2 else unit

/-- A row start and its scale row obey R231. -/
def LoomFmt.aligned (f : LoomFmt) (k unit scale : Nat) : Bool :=
  match f with
  | .twill t _ =>
    if t.four then unit % 2 == 0
    else if t.n = 256 then unit % 2 == 0
    else unit % 4 == 0
  | .mx _ _ w => w != 4 || k != 256 || scale % 2 == 0
  | _ => true

/-- An MX element pattern. -/
def mxElem (bytes : List Byte) (w i : Nat) : Nat :=
  match w with
  | 8 => (bytes.getD i 0).toNat
  | w => bits (le (slice bytes (w * i / 8) 2)) (w * i % 8 + w - 1) (w * i % 8)

/-- An element times its group's scale (R186). -/
def mxNum (f : Fmt) (w scale b : Nat) : Num :=
  if scale = 0xFF then .nan
  else
    let v := if w = 8 then f.num b else .fin (f.signBit b) (f.units b * 2 ^ 140)
    match v with
    | .fin n m => .fin n (m * 2 ^ scale / 2 ^ 127)
    | v => v

/-- INT8 (R185). -/
def int8Num (b : Nat) : Num := if b < 128 then .fin false (b * 2 ^ 300) else .fin true ((256 - b) * 2 ^ 300)

/-- The elements of Twill slots that lie one after another; none where one is malformed (R107, R187). -/
def twillElems (t : Twill) (f : Fmt) : Nat → List Byte → Option (List Nat)
  | 0, _ => some []
  | n + 1, bytes =>
    match twillDecode t f (bytes.take (t.slot / 8)) with
    | none => none
    | some blk => (twillElems t f n (bytes.drop (t.slot / 8))).map fun r => elements f blk ++ r

/-- `n` elements of a format from bytes and scale bytes: values, and whether one is a signaling NaN; none for a malformed
Twill slot. `skip` elements of the first slot are passed over. -/
def LoomFmt.values (f : LoomFmt) (n skip : Nat) (bytes scales : List Byte) : Option (List Num × Bool) :=
  match f with
  | .float g =>
    let es := (List.range n).map fun i => le (slice bytes (g.width * i) g.width)
    some (es.map g.num, es.any g.isSignaling)
  | .int8 => some ((List.range n).map fun i => int8Num (bytes.getD i 0).toNat, false)
  | .mx g _ w =>
    some ((List.range n).map fun i => mxNum g w (scales.getD (i / 32) 0).toNat (mxElem bytes w i), false)
  | .twill t g =>
    match twillElems t g (ceilDiv (n + skip) t.n) bytes with
    | none => none
    | some es =>
      let es := (es.drop skip).take n
      some (es.map g.num, es.any g.isSignaling)

/-! ### The pick word (R217 to R235) -/

/-- CTRL (R220). -/
structure Ctrl where
  stop   : Bool
  loop   : Bool
  level  : Nat
  target : Nat
  count  : Nat
  condEn : Bool
  k      : Nat
  r      : Nat
  gate   : Nat
deriving DecidableEq, Repr

def ctrlOf (w : BitVec 1024) : Ctrl :=
  let v := w.toNat
  { stop := bit v 0, loop := bit v 1, level := bits v 3 2, target := bits v 19 4, count := bits v 43 20
    condEn := bit v 44, k := bits v 51 45 + 1, r := bits v 58 52, gate := bits v 63 59 }

/-- A stream command (R223, R225). -/
structure StreamCmd where
  stream : Nat
  count  : Nat
  addr   : Nat
deriving DecidableEq, Repr

/-- The stream command at bit `b`, if it is enabled. -/
def streamAt (w : BitVec 1024) (b : Nat) : Option StreamCmd :=
  let v := bits w.toNat (b + 63) b
  if bit v 0 then some { stream := bits v 12 1, count := bits v 27 13, addr := bits v 46 28 } else none

/-- Stream-ins and stream-outs of a word, in command order. -/
def sinsOf (w : BitVec 1024) : List StreamCmd := [64, 128, 192].filterMap (streamAt w)
def soutsOf (w : BitVec 1024) : List StreamCmd := [256, 320].filterMap (streamAt w)

/-- An array operation (R229). -/
structure ArrOp where
  matvec : Bool
  ovr   : Bool
  sb     : Nat
  hb     : Nat
  fmtS   : Nat
  tagS   : Nat
  fmtB   : Nat
  tagB   : Nat
  n      : Nat
  kcLog  : Nat
  acc    : Nat
  src    : Nat
  stride : Nat
  scale  : Nat
  scaleStride : Nat
deriving DecidableEq, Repr

/-- The operation of array `a`. -/
def arrOp (w : BitVec 1024) (a : Nat) : Option ArrOp :=
  let v := bits w.toNat (511 + 256 * a) (384 + 256 * a)
  if bit v 0 then
    some { matvec := bit v 1, ovr := bit v 2, sb := bits v 3 3, hb := bits v 4 4, fmtS := bits v 8 5, tagS := bits v 12 9
           fmtB := bits v 16 13, tagB := bits v 20 17, n := bits v 28 21 + 1, kcLog := bits v 31 29, acc := bits v 41 32
           src := bits v 60 42, stride := bits v 79 61, scale := bits v 101 80, scaleStride := bits v 117 102 }
  else none

/-- A buffer load (R230). -/
structure BufLoad where
  held   : Bool
  sel    : Nat
  fmt    : Nat
  tag    : Nat
  kcLog  : Nat
  src    : Nat
  stride : Nat
  scale  : Nat
  scaleStride : Nat
deriving DecidableEq, Repr

/-- The buffer load of array `a`. -/
def bufLoad (w : BitVec 1024) (a : Nat) : Option BufLoad :=
  let v := bits w.toNat (639 + 256 * a) (512 + 256 * a)
  if bit v 0 then
    some { held := bit v 1, sel := bits v 2 2, fmt := bits v 6 3, tag := bits v 10 7, kcLog := bits v 13 11
           src := bits v 32 14, stride := bits v 51 33, scale := bits v 73 52, scaleStride := bits v 89 74 }
  else none

/-- Rows of a buffer load. -/
def BufLoad.rows (l : BufLoad) : Nat := if l.held then 2 ^ l.kcLog else 128

/-- Every row of an operand obeys the alignment of R231. -/
def rowsAligned (f : LoomFmt) (k rows src stride scale scaleStride : Nat) : Bool :=
  (List.range rows).all fun r => f.aligned k (src + r * stride) (scale + r * scaleStride)

/-- Bytes of the bobbin. -/
def bobbinBytes : Nat := 393216 * 32

/-- Every row of an operand lies in the bobbin. -/
def rowsInside (f : LoomFmt) (k rows src stride scale scaleStride : Nat) : Bool :=
  (List.range rows).all fun r =>
    32 * f.slotUnit (src + r * stride) + f.spanBytes k ≤ bobbinBytes &&
      4 * (scale + r * scaleStride) * b2n f.isMx + f.scaleBytes k ≤ bobbinBytes

/-- A load of rows of `k` elements obeys R231 and the capacity of its buffer (R189, R190). -/
def BufLoad.fits (l : BufLoad) (f : LoomFmt) (k : Nat) : Bool :=
  (if l.held then l.rows * f.rowBytes k ≤ 16384 && l.rows * f.scaleBytes k ≤ 256 && l.rows * k ≤ 8192
   else l.rows * f.rowBytes k ≤ 32768 && l.rows * f.scaleBytes k ≤ 1024) &&
    rowsAligned f k l.rows l.src l.stride l.scale l.scaleStride

/-- K of a load's rows, which the word does not name (R187): for MXFP4 and Twill-4, whose rows the double class takes with 256
elements, 256 where the load so obeys R231 and lies in the bobbin, else 128; 128 for any other format (log entry 25). -/
def BufLoad.k (l : BufLoad) : Nat :=
  match loomFmt l.fmt l.tag with
  | some f =>
    if f.isFour && l.fits f 256 && rowsInside f 256 l.rows l.src l.stride l.scale l.scaleStride then 256 else 128
  | none => 128

/-- Streaming rows of an operation: rows, or 128 for each tile (R231). -/
def ArrOp.rows (o : ArrOp) : Nat := if o.matvec then 128 * o.n else o.n

/-- Cycles of a tile (R190). -/
def tileCycles (rate : Rate) (f : LoomFmt) : Nat :=
  max (if rate = .quarter then 4 else 1) (ceilDiv (128 * f.rowBytes rate.k) 16384)

/-- The vector field (R232). -/
structure VecCmd where
  start  : Nat
  len    : Nat
  addr   : Nat
  acc    : Nat
deriving DecidableEq, Repr

def vecOf (w : BitVec 1024) : Option VecCmd :=
  let v := bits w.toNat 959 896
  if bit v 0 then some { start := bits v 14 1, len := bits v 22 15 + 1, addr := bits v 41 23, acc := bits v 51 42 } else none

/-- The push field (R235). -/
structure PushCmd where
  port   : Nat
  desc   : Nat
  blocks : Nat
  src    : Nat
deriving DecidableEq, Repr

def pushOf (w : BitVec 1024) : Option PushCmd :=
  let v := bits w.toNat 1023 960
  if bit v 0 then some { port := bits v 3 1, desc := bits v 11 4, blocks := bits v 19 12 + 1, src := bits v 38 20 } else none

/-! ### Vector instructions (R233, R234) -/

/-- A vector instruction: both forms of R233. -/
structure VInstr where
  opc  : Nat
  rm   : Nat
  sat  : Bool
  dst  : Nat
  a    : Nat
  b    : Nat
  c    : Nat
  row  : Nat
  fmt  : Nat
  tag  : Nat
  addr : Nat
  toAcc : Bool
  file : Nat
deriving DecidableEq, Repr

def vLd : Nat := 0x14
def vSt : Nat := 0x15

/-- Decode an instruction. -/
def vinstrOf (w : W64) : VInstr :=
  let v := w.toNat
  let opc := bits v 5 0
  let mem := opc == vLd || opc == vSt
  { opc := opc, rm := bits v 7 6, sat := bit v 8, dst := bits v 13 9, a := bits v 21 14, b := bits v 29 22, c := bits v 37 30
    row := if mem then bits v 44 35 else bits v 47 38
    fmt := if mem then bits v 48 45 else bits v 51 48
    tag := if mem then bits v 52 49 else bits v 55 52
    addr := bits v 32 14, toAcc := bit v 33, file := bits v 34 34 }

/-- Comparisons. -/
def VInstr.isCmp (i : VInstr) : Bool := 0x09 ≤ i.opc && i.opc ≤ 0x0B

/-- DIV, SQRT, RSQRT, EXP2, LOG2. -/
def VInstr.isLong (i : VInstr) : Bool := 0x0D ≤ i.opc && i.opc ≤ 0x11

/-- Issue cycles (R197). -/
def VInstr.issue (i : VInstr) : Nat := if i.isLong then 4 else 1

/-- L of R252: cycles until the result is visible to vector instructions. -/
def VInstr.latency (i : VInstr) : Nat :=
  if i.isCmp then 2 else if i.isLong then 12 else if i.opc = 0x12 then 14 else if i.opc = vLd then 6 else 4

/-- The operand selectors that an opcode uses. -/
def VInstr.sources (i : VInstr) : List Nat :=
  if i.opc = 0 ∨ i.opc ≥ vLd then []
  else if i.opc = 0x04 ∨ i.opc = 0x0C then [i.a, i.b, i.c]
  else if i.opc ∈ [0x07, 0x08, 0x0E, 0x0F, 0x10, 0x11, 0x12, 0x13] then [i.a]
  else [i.a, i.b]

/-- A selector that names something (R233). -/
def selectorOk (x : Nat) : Bool := x ≤ 0x27 || x == 0x40 || x == 0x41 || 0x80 ≤ x

/-- A mask register selector. -/
def selectsMask (x : Nat) : Bool := 0x20 ≤ x && x ≤ 0x27

/-- Bytes of element data that LD or ST of a format moves: 2,048 elements. -/
def LoomFmt.vecBytes (f : LoomFmt) : Nat := f.rowBytes 2048

/-- Scale bytes of a vector: 64 for MX. -/
def LoomFmt.vecScales (f : LoomFmt) : Nat := f.scaleBytes 2048

/-! ### Streams (R226, R227) -/

/-- A stream descriptor. -/
structure Stream where
  base   : Nat
  ext    : Nat
  out    : Bool
  counts : List Nat
  stride : List Int
deriving DecidableEq, Repr

/-- A signed 32-bit value. -/
def signed32 (v : Nat) : Int := (BitVec.ofNat 32 v).toInt

def streamOf (d : BitVec 256) : Stream :=
  let v := d.toNat
  { base := bits v 47 0, ext := bits v 57 48, out := bit v 58
    counts := (List.range 4).map fun x => bits v (64 + 16 * x + 15) (64 + 16 * x) + 1
    stride := (List.range 4).map fun x => signed32 (bits v (128 + 32 * x + 31) (128 + 32 * x)) }

/-- Elements of a stream before it wraps. -/
def Stream.total (t : Stream) : Nat := t.counts.foldl (· * ·) 1

/-- Offset in spans of element `k`: dimension 0 runs fastest (R227). -/
def streamOff : List Nat → List Int → Nat → Int
  | n :: ns, d :: ds, k => (k % n : Nat) * d + streamOff ns ds (k / n)
  | _, _, _ => 0

/-- Pool address of element `k`. -/
def Stream.elem (t : Stream) (k span : Nat) : Int :=
  t.base + span * streamOff t.counts t.stride (k % t.total)

/-- Lowest and highest element address over the whole index space. -/
def Stream.range (t : Stream) (span : Nat) : Int × Int :=
  let dims := (t.counts.zip t.stride).map fun nd => ((nd.1 - 1 : Nat) : Int) * nd.2
  let lo := dims.foldl (fun a d => if d < 0 then a + d else a) 0
  let hi := dims.foldl (fun a d => if d < 0 then a else a + d) 0
  (t.base + span * lo, t.base + span * hi)

/-- Span of a near codeword of an extent (R224). -/
def Extent.span (x : Extent) : Nat := 256 * blocksPerWord x.cls x.budget

/-- Bytes that a stream-in element lands in the bobbin (R224). -/
def Extent.landBytes (x : Extent) : Nat :=
  match x.cls with
  | .satin => x.span
  | _ => 256

/-- Bytes that a stream-out element reads from the bobbin. -/
def Extent.outBytes (x : Extent) : Nat := x.span

/-! ### Loops (R221) -/

/-- What follows the word at `pc`: the next position, or none after END. -/
def DraftPos.next (q : DraftPos) (c : Ctrl) : Option DraftPos :=
  if c.stop then none
  else if c.loop then
    let q := if q.active.getD c.level false then q
      else { q with active := q.active.set c.level true, left := q.left.set c.level c.count }
    if 0 < q.left.getD c.level 0 then
      some { q with left := q.left.set c.level (q.left.getD c.level 0 - 1), pc := c.target }
    else some { q with active := q.active.set c.level false, pc := q.pc + 1 }
  else some { q with pc := q.pc + 1 }

/-- The beat condition holds in beat `n` (R222). -/
def Ctrl.holds (c : Ctrl) (n : W64) : Bool := !c.condEn || n.toNat % c.k == c.r

/-- A unit of GATE does nothing in beat `n`: 0 stream-in, 1 arrays, 2 vector, 3 stream-out, 4 push. -/
def Ctrl.gated (c : Ctrl) (n : W64) (unit : Nat) : Bool := bit c.gate unit && !c.holds n

/-- A descriptor of the PUSHES section (R236). -/
structure PushDesc where
  addr : Nat
  len  : Nat
deriving DecidableEq, Repr

def pushDescOf (d : BitVec 128) : PushDesc := { addr := bits d.toNat 63 0, len := bits d.toNat 95 64 }

end Sys2Proof.Machine
end

