-- ==== Sys2Proof/Machine/LoomBay.lean ====
section
/-! DEFINITION. What one bay does with one pick word: arrays, buffer loads, the vector unit (spec/07_loom.md R180 to R205,
spec/09_timing_contract.md R247 to R252).

Everything that a bay reads in a pick stands at the first cycle of the pick, so one function gives the bay at the end of the
pick.  Results that become visible only in the next pick are carried as `Bay.vwrites` and `Bay.landings`. -/

namespace Sys2Proof.Machine

/-! ### Where a bay keeps things -/

/-- Byte address of row `j` of an operand buffer in `Bay.bufs`: array, kind, buffer number. DESIGN CHOICE: a row has 256 bytes
whatever its format, so that bytes past a loaded row keep what an earlier load left; spec/ gives no pitch (log entry 25). -/
def bufRow (a : Nat) (held : Bool) (sel j : Nat) : Nat := (4 * a + 2 * b2n held + sel) * 2 ^ 17 + 256 * j

/-- Byte address of the scale row `j` of a buffer. DESIGN CHOICE: 8 bytes a row (log entry 25). -/
def bufScale (a : Nat) (held : Bool) (sel j : Nat) : Nat := (4 * a + 2 * b2n held + sel) * 2 ^ 17 + 2 ^ 16 + 8 * j

/-- Where the buffer notes that row `j` starts in the middle of its Twill slot (R187, R231). -/
def bufHalf (a : Nat) (held : Bool) (sel j : Nat) : Nat := (4 * a + 2 * b2n held + sel) * 2 ^ 17 + 2 ^ 16 + 2 ^ 15 + j

/-- Byte address of an accumulator value in `Bay.acc`; row arithmetic wraps (R181). -/
def accAddr (file row col : Nat) : Nat := file * 524288 + row % 1024 * 512 + col * 4

/-- Byte address of a vector register and of a mask register. -/
def vregAddr (r : Nat) : Nat := r * 8192
def maskAddr (r : Nat) : Nat := r * 256

/-- Values as little-endian 32-bit words, and back. -/
def words32 (vs : List Nat) : List Byte := vs.flatMap (toLe 4)
def readWords (m : Mem) (a n : Nat) : List Nat := (List.range n).map fun i => le (m.readN (a + 4 * i) 4)

/-- NaN payloads and signs are not kept (R198). -/
def canonical32 (b : Nat) : Nat := if fmtFp32.isNan b then nan32 else b

/-! ### Arrays (R189 to R195, R229 to R231, R251) -/

/-- An update of one accumulator row: the cycle from which it is readable; whether it replaces. -/
structure AccUpd where
  cycle : Nat
  file  : Nat
  row   : Nat
  ovr  : Bool
  vals  : List Nat
deriving DecidableEq, Repr

/-- An operand row: values, INVALID for signaling NaNs, and whether a slot was malformed, in which case it counts as NaN. -/
structure Row where
  vals : List Num
  inv  : Flags4
  bad  : Bool
deriving DecidableEq, Repr

/-- A decoded row. -/
def rowOf (k : Nat) (v : Option (List Num × Bool)) : Row :=
  match v with
  | some (vs, sig) => { vals := vs, inv := if sig then flInvalid else 0, bad := false }
  | none => { vals := List.replicate k .nan, inv := 0, bad := true }

/-- The streaming row at a row start (R231). -/
def streamRow (bobbin : Mem) (f : LoomFmt) (k unit scale : Nat) : Row :=
  let bytes := bobbin.readN (32 * f.slotUnit unit) (f.spanBytes k)
  let scales := bobbin.readN (4 * scale) (f.scaleBytes k)
  rowOf k (f.values k (if f.half unit then 128 else 0) bytes scales)

/-- Row `j` of an operand buffer read in a format (R230). -/
def bufferRow (bufs : Mem) (a : Nat) (held : Bool) (sel : Nat) (f : LoomFmt) (k j : Nat) : Row :=
  let bytes := bufs.readN (bufRow a held sel j) 256
  let scales := bufs.readN (bufScale a held sel j) 8
  let half := match f with
    | .twill t _ => t.n == 256 && bufs.read (bufHalf a held sel j) != 0
    | _ => false
  rowOf k (f.values k (if half then 128 else 0) bytes scales)

/-- The updates, flags and malformed slots of an array operation. -/
def arrRun (bay : Bay) (bobbin : Mem) (a : Nat) (o : ArrOp) : List AccUpd × Flags4 × Bool :=
  match loomFmt o.fmtS o.tagS, loomFmt o.fmtB o.tagB with
  | some fs, some fb =>
    match rateOf fs fb with
    | none => ([], 0, false)
    | some rate =>
      let k := rate.k
      let delay := if fs.isTwill || fb.isTwill then 18 else 15
      let srow := fun (r : Nat) => streamRow bobbin fs k (o.src + r * o.stride) (o.scale + r * o.scaleStride)
      let held := o.matvec
      let sel := if held then o.hb else o.sb
      let kc := 2 ^ o.kcLog
      let brows := (List.range (if held then kc else 128)).map fun j => bufferRow bay.bufs a held sel fb k j
      let step := fun (acc : List AccUpd × Flags4 × Bool) (i : Nat) =>
        if held then
          let h := brows.getD (i % kc) { vals := [], inv := 0, bad := false }
          let rows := (List.range 128).map fun j => srow (128 * i + j)
          let outs := rows.map fun x => chunk x.vals h.vals
          let upd : AccUpd :=
            { cycle := i * tileCycles rate fs + delay, file := a, row := (o.acc + i / kc) % 1024
              ovr := o.ovr && i % kc == 0, vals := outs.map (·.1) }
          (acc.1 ++ [upd], rows.foldl (fun f x => f ||| x.inv) (outs.foldl (fun f x => f ||| x.2) (acc.2.1 ||| h.inv)),
           acc.2.2 || h.bad || rows.any (·.bad))
        else
          let x := srow i
          let outs := brows.map fun h => chunk x.vals h.vals
          let upd : AccUpd :=
            { cycle := (if rate = .quarter then 4 * i else i) + delay, file := a, row := (o.acc + i) % 1024
              ovr := o.ovr, vals := outs.map (·.1) }
          (acc.1 ++ [upd], brows.foldl (fun f h => f ||| h.inv) (outs.foldl (fun f v => f ||| v.2) (acc.2.1 ||| x.inv)),
           acc.2.2 || x.bad || brows.any (·.bad))
      (List.range o.n).foldl step ([], 0, false)
  | _, _ => ([], 0, false)

/-- The buffers after a load (R191): the rows copied from the bobbin. -/
def loadRun (bay : Bay) (bobbin : Mem) (a : Nat) (l : BufLoad) : Mem :=
  match loomFmt l.fmt l.tag with
  | none => bay.bufs
  | some f =>
    let k := l.k
    (List.range l.rows).foldl (fun m j =>
      let unit := l.src + j * l.stride
      let m := m.writeN (bufRow a l.held l.sel j) (bobbin.readN (32 * f.slotUnit unit) (f.spanBytes k))
      let m := m.writeN (bufScale a l.held l.sel j) (bobbin.readN (4 * (l.scale + j * l.scaleStride)) (f.scaleBytes k))
      m.write (bufHalf a l.held l.sel j) (if f.half unit then 1 else 0)) bay.bufs

/-! ### Events within a pick -/

/-- Something that becomes visible at a cycle: an array update, or a result of the vector unit, which prevails (R183). -/
inductive BayEv where
  | upd (u : AccUpd)
  | wr (w : VWrite)
deriving DecidableEq, Repr

def BayEv.cycle : BayEv → Nat
  | .upd u => u.cycle
  | .wr w => w.cycle

/-- Order of events: cycle, array updates first, then the order of issue (R251, R252). -/
def BayEv.before (a b : BayEv) : Bool :=
  a.cycle < b.cycle || (a.cycle == b.cycle &&
    match a, b with
    | .upd _, .wr _ => true
    | .wr x, .wr y => x.order < y.order
    | _, _ => false)

/-- An array update of its row (R192). -/
def applyUpd (acc : Mem) (u : AccUpd) : Mem × Flags4 :=
  if u.ovr then (acc.writeN (accAddr u.file u.row 0) (words32 u.vals), 0)
  else
    let old := readWords acc (accAddr u.file u.row 0) 128
    let sums := (old.zip u.vals).map fun x => addFp32 x.1 x.2
    (acc.writeN (accAddr u.file u.row 0) (words32 (sums.map (·.1))), sums.foldl (fun f x => f ||| x.2) 0)

/-- The accumulator rows that an ST writes: 2,048 values over 16 rows (R196). -/
def writeRows (acc : Mem) (file row : Nat) (vs : List Nat) : Mem :=
  (List.range 16).foldl (fun m i => m.writeN (accAddr file (row + i) 0) (words32 ((vs.drop (128 * i)).take 128))) acc

/-- The vector unit in a pick. -/
structure VState where
  bay    : Bay
  evs    : List BayEv
  flags  : Flags4 := 0
  bad    : Bool := false
  y      : Nat := 0
  order  : Nat := 1000
  /-- bobbin writes of this pick, for the next pick's other readers -/
  stores : List VWrite := []
deriving DecidableEq, Repr

/-- One event takes effect. -/
def VState.apply (v : VState) (e : BayEv) : VState :=
  match e with
  | .upd u =>
    let (acc, f) := applyUpd v.bay.acc u
    { v with bay := { v.bay with acc := acc }, flags := v.flags ||| f }
  | .wr w =>
    let b := v.bay
    { v with bay :=
        match w.kind with
        | 0 => { b with vregs := b.vregs.writeN w.addr w.bytes }
        | 1 => { b with masks := b.masks.writeN w.addr w.bytes }
        | 2 => { b with acc := writeRows b.acc (w.addr / 1024) (w.addr % 1024)
                          ((List.range 2048).map fun i => le (slice w.bytes (4 * i) 4)) }
        | _ => { b with bobbin := b.bobbin.writeN w.addr w.bytes } }

/-- Everything visible at cycle `y` has taken effect. -/
def VState.settle (v : VState) (y : Nat) : VState :=
  let due := v.evs.filter fun e => e.cycle ≤ y
  (sortBy BayEv.before due).foldl VState.apply { v with evs := v.evs.filter fun e => y < e.cycle }

/-! ### Vector instructions (R196 to R201) -/

/-- What instructions take from their draft, bay, beat and pick. -/
structure VCtx where
  consts : List W32
  addrOff : Nat
  accOff : Nat
  seed   : W64
  beat   : W64
  bayNo  : Nat
  pickIdx : Nat
deriving DecidableEq, Repr

/-- The rounding mode of a lane (R204). -/
def VCtx.mode (c : VCtx) (rm y lane : Nat) : Rm :=
  match rm with
  | 1 => .rtz
  | 2 => .sr (srDraw c.seed c.beat c.bayNo c.pickIdx y lane)
  | _ => .rne

/-- The 2,048 values of an operand selector (R196, R233). -/
def VState.operand (v : VState) (c : VCtx) (i : VInstr) (x : Nat) : List Nat :=
  if x < 0x20 then readWords v.bay.vregs (vregAddr x) 2048
  else if x = 0x40 ∨ x = 0x41 then
    (List.range 16).flatMap fun r => readWords v.bay.acc (accAddr (x - 0x40) (i.row + c.accOff + r) 0) 128
  else if 0x80 ≤ x then List.replicate 2048 (c.consts.getD (x - 0x80) 0).toNat
  else List.replicate 2048 0

/-- The bits of a mask register. -/
def VState.maskBits (v : VState) (x : Nat) : List Bool :=
  let n := le (v.bay.masks.readN (maskAddr (x % 8)) 256)
  (List.range 2048).map (bit n)

/-- The smaller, or the larger, of two values; −0 is smaller than +0 (R197). -/
def minMax (larger : Bool) (a b : Nat) : Nat :=
  let x := num32 a
  let y := num32 b
  if x.isNan || y.isNan then nan32
  else
    let aFirst := x.lt y || (x.eq y && x.neg)
    if aFirst == larger then b else a

/-- One lane of an arithmetic instruction, not RSUM, CVT or a comparison: result and flags. -/
def laneOp (opc : Nat) (rm : Rm) (a b c : Nat) : Nat × Flags4 :=
  let out := fun (p : Res × Flags4) =>
    let (v, f) := toFp32 rm p.1
    (v, f ||| p.2)
  let x := num32 a
  let y := num32 b
  match opc with
  | 0x01 => let r := out (addRes x y); (r.1, r.2 ||| signaling32 [a, b])
  | 0x02 => let r := out (addRes x y.flip); (r.1, r.2 ||| signaling32 [a, b])
  | 0x03 => let r := out (mulRes x y); (r.1, r.2 ||| signaling32 [a, b])
  | 0x04 => let r := out (fmaRes x y (num32 c)); (r.1, r.2 ||| signaling32 [a, b, c])
  | 0x05 => (minMax false a b, signaling32 [a, b])
  | 0x06 => (minMax true a b, signaling32 [a, b])
  | 0x07 => (if x.isNan then nan32 else a % 2 ^ 31, 0)
  | 0x08 => (if x.isNan then nan32 else (a + 2 ^ 31) % 2 ^ 32, 0)
  | 0x0C => (canonical32 (if c != 0 then a else b), 0)
  | 0x0D => let r := out (divRes x y); (r.1, r.2 ||| signaling32 [a, b])
  | 0x0E => let r := out (sqrtRes x); (r.1, r.2 ||| signaling32 [a])
  | 0x0F => let r := out (rsqrtRes x); (r.1, r.2 ||| signaling32 [a])
  | 0x10 => let r := out (exp2Res x); (r.1, r.2 ||| signaling32 [a])
  | 0x11 => let r := out (log2Res x); (r.1, r.2 ||| signaling32 [a])
  | _ => (0, 0)

/-- One lane of a comparison. -/
def laneCmp (opc a b : Nat) : Bool × Flags4 :=
  let x := num32 a
  let y := num32 b
  if x.isNan || y.isNan then
    (false, signaling32 [a, b] ||| if Config.compareSignals opc then flInvalid else 0)
  else match opc with
    | 0x09 => (x.lt y, 0)
    | 0x0A => (x.lt y || x.eq y, 0)
    | _ => (x.eq y, 0)

/-- The conversion that a format names as a target of CVT or ST; none for MX and Twill. -/
def narrowOf (f : LoomFmt) : Option Narrow :=
  match f with
  | .float g => if g = fmtBf16 then some narrowBf16 else if g = fmtFp16 then some narrowFp16
    else if g = fmtE4m3 then some narrowE4m3 else if g = fmtE5m2 then some narrowE5m2 else none
  | .int8 => some .int8
  | _ => none

/-- The MX groups of 2,048 lanes: scale bytes, element codes in lane order, flags (R201). -/
def mxVector (t : Target) (rm : Nat → Rm) (vs : List Nat) : List Nat × List Nat × Flags4 :=
  (List.range 64).foldl (fun acc j =>
    let g := (vs.drop (32 * j)).take 32
    let (x, es, f) := mxGroup t ((List.range 32).map fun i => rm (32 * j + i)) (g.map num32)
    (acc.1 ++ [x], acc.2.1 ++ es, acc.2.2 ||| f)) ([], [], 0)

/-- Pack codes of `w` bits. -/
def packCodes (w : Nat) (es : List Nat) : List Byte :=
  if w = 8 then es.map (BitVec.ofNat 8)
  else
    let per := if w = 6 then 4 else 2
    (List.range (es.length / per)).flatMap fun i =>
      toLe (per * w / 8) ((List.range per).foldl (fun a t => a + es.getD (per * i + t) 0 * 2 ^ (w * t)) 0)

/-- Element width of a narrow code in bytes. -/
def Narrow.bytes : Narrow → Nat
  | .int8 => 1
  | .fp t _ _ _ => if t.sign = 15 then 2 else 1

/-- A narrow code as FP32 (CVT, R197). -/
def Narrow.widen (n : Narrow) (f : LoomFmt) (c : Nat) : Nat :=
  match n, f with
  | .fp _ _ _ _, .float g => (toFp32 .rne (g.num c).res).1
  | _, _ => (toFp32 .rne (int8Num c).res).1

/-- A lane's rounding mode and draw as a number. -/
def Rm.code : Rm → Nat
  | .rne => 0
  | .rtz => 1
  | .sr u => u + 2

/-- Bytes of a Twill result that spec/ does not state: the operands decide them (log entry 26). -/
def twillBytes (tag : Nat) (sat : Bool) (rm : Nat → Rm) (vs : List Nat) (n : Nat) : List Byte :=
  (List.range n).map (Config.twillByte tag sat vs ((List.range 2048).map fun i => (rm i).code))

/-- CVT of 2,048 values: results and flags. -/
def cvtRun (f : LoomFmt) (tag : Nat) (sat : Bool) (rm : Nat → Rm) (vs : List Nat) : List Nat × Flags4 :=
  let sig := signaling32 vs
  match f with
  | .mx g t w =>
    let (xs, es, fl) := mxVector t rm vs
    let outs := (List.range 2048).map fun i => (toFp32 .rne (mxNum g w (xs.getD (i / 32) 0) (es.getD i 0)).res).1
    (outs, fl ||| sig)
  | .twill _ _ =>
    let b := twillBytes tag sat rm vs 8192
    ((List.range 2048).map fun i => canonical32 (le (slice b (4 * i) 4)), 0)
  | _ => match narrowOf f with
    | some n =>
      let r := (List.range 2048).map fun i => n.convert (rm i) sat (num32 (vs.getD i 0))
      (r.map fun x => n.widen f x.1, r.foldl (fun a x => a ||| x.2) sig)
    | none => (vs.map canonical32, sig)

/-- The bobbin bytes of ST in a format, scale bytes after element data (R200, R201, R233). -/
def stBytes (f : LoomFmt) (tag : Nat) (sat : Bool) (rm : Nat → Rm) (vs : List Nat) : List Byte × Flags4 :=
  match f with
  | .mx _ t w =>
    let (xs, es, fl) := mxVector t rm vs
    (packCodes w es ++ xs.map (BitVec.ofNat 8), fl)
  | .twill _ _ => (twillBytes tag sat rm vs f.vecBytes, 0)
  | _ => match narrowOf f with
    | some n =>
      let r := (List.range 2048).map fun i => n.convert (rm i) sat (num32 (vs.getD i 0))
      (r.flatMap fun x => toLe n.bytes x.1, r.foldl (fun a x => a ||| x.2) 0)
    | none => (words32 vs, 0)

/-- LD of 2,048 elements (R197): FP32 codes, flags, and whether a slot was malformed. -/
def ldValues (bobbin : Mem) (f : LoomFmt) (unit : Nat) : List Nat × Flags4 × Bool :=
  let bytes := bobbin.readN (32 * unit) f.vecBytes
  let scales := bobbin.readN (32 * unit + f.vecBytes) f.vecScales
  match f.values 2048 0 bytes scales with
  | some (vs, sig) =>
    let r := vs.map fun v => toFp32 .rne v.res
    (r.map (·.1), r.foldl (fun a x => a ||| x.2) (if sig then flInvalid else 0), false)
  | none => (List.replicate 2048 nan32, 0, true)

/-- Note a result that becomes visible later. -/
def VState.later (v : VState) (i : VInstr) (kind addr : Nat) (bytes : List Byte) : VState :=
  let w : VWrite := { cycle := v.y + i.latency, order := v.order, kind := kind, addr := addr, bytes := bytes }
  { v with evs := v.evs ++ [.wr w], stores := if kind = 3 then v.stores ++ [w] else v.stores }

/-- Execute one instruction at its issue cycle. -/
def VState.exec (c : VCtx) (v : VState) (i : VInstr) : VState :=
  let v := v.settle v.y
  let rm := c.mode i.rm v.y
  let op := v.operand c i
  let done := fun (v : VState) => { v with y := v.y + i.issue, order := v.order + 1 }
  let reg := fun (v : VState) (vs : List Nat) (f : Flags4) =>
    ({ v with flags := v.flags ||| f } : VState).later i 0 (vregAddr i.dst) (words32 vs)
  if i.opc = 0 then done v
  else if i.opc = vLd then
    match loomFmt i.fmt i.tag with
    | some f =>
      let (vs, fl, bad) := ldValues v.bay.bobbin f (i.addr + c.addrOff)
      done (reg { v with bad := v.bad || bad } vs fl)
    | none => done v
  else if i.opc = vSt then
    let vs := op i.dst
    if i.toAcc then done (v.later i 2 (i.file * 1024 + (i.row + c.accOff) % 1024) (words32 vs))
    else match loomFmt i.fmt i.tag with
      | some f =>
        let (b, fl) := stBytes f i.tag i.sat rm vs
        done (({ v with flags := v.flags ||| fl } : VState).later i 3 (32 * (i.addr + c.addrOff)) b)
      | none => done v
  else if i.isCmp then
    let as := op i.a
    let bs := op i.b
    let r := (List.range 2048).map fun l => laneCmp i.opc (as.getD l 0) (bs.getD l 0)
    let m := (List.range 2048).foldl (fun a l => a + b2n (r.getD l (false, 0)).1 * 2 ^ l) 0
    let fl := r.foldl (fun a x => a ||| x.2) (0 : Flags4)
    done (({ v with flags := v.flags ||| fl } : VState).later i 1 (maskAddr (i.dst % 8)) (toLe 256 m))
  else if i.opc = 0x12 then
    let as := op i.a
    let (t, f) := rsumTree 11 as
    done (reg v (canonical32 (t.headD 0) :: List.replicate 2047 0) (f ||| signaling32 as))
  else if i.opc = 0x13 then
    match loomFmt i.fmt i.tag with
    | some f =>
      let (vs, fl) := cvtRun f i.tag i.sat rm (op i.a)
      done (reg v vs fl)
    | none => done v
  else
    let as := op i.a
    let bs := if i.sources.length ≥ 2 then op i.b else []
    let cs := if i.opc = 0x0C then (v.maskBits (i.c - 0x20)).map b2n else if i.opc = 0x04 then op i.c else []
    let r := (List.range 2048).map fun l => laneOp i.opc (rm l) (as.getD l 0) (bs.getD l 0) (cs.getD l 0)
    done (reg v (r.map (·.1)) (r.foldl (fun a x => a ||| x.2) 0))

/-! ### The pick of a bay -/

/-- The bobbin at the first cycle of a pick (R250): landings that have become readable, in their order; then the vector
stores of the pick before, which prevail. -/
def Bay.open_ (b : Bay) (pick : Nat) : Bay :=
  let due := sortBy (fun (x y : Landing) => x.pick < y.pick || (x.pick == y.pick && x.order < y.order))
    (b.landings.filter fun l => l.pick ≤ pick)
  { b with bobbin := due.foldl (fun m l => m.writeN l.addr l.bytes) b.bobbin
           landings := b.landings.filter fun l => pick < l.pick }

/-- The bobbin as array reads, buffer loads, stream-outs and pushes see it in the pick (R250 items 2 and 3). -/
def Bay.readable (b : Bay) : Mem :=
  (b.vwrites.filter fun w => w.kind == 3).foldl (fun m w => m.writeN w.addr w.bytes) b.bobbin

/-- What a bay's pick leaves. -/
structure BayOut where
  bay   : Bay
  flags : Flags4
  bad   : Bool
deriving DecidableEq, Repr

/-- The pick of a bay that `open_` has brought to its first cycle: array operations, buffer loads and a vector sequence,
each where it runs. -/
def Bay.run (b : Bay) (ops : List (Nat × ArrOp)) (loads : List (Nat × BufLoad)) (seq : List VInstr) (c : VCtx) :
    BayOut :=
  let bobbin := b.readable
  let runs := ops.map fun o => arrRun b bobbin o.1 o.2
  let upds := runs.flatMap (·.1)
  let bufs := loads.foldl (fun m l => loadRun { b with bufs := m } bobbin l.1 l.2) b.bufs
  let v : VState :=
    { bay := { b with vwrites := [] }, evs := upds.map .upd ++ b.vwrites.map .wr
      flags := runs.foldl (fun f r => f ||| r.2.1) 0, bad := runs.any (·.2.2) }
  let v := (seq.foldl (VState.exec c) v).settle 255
  -- array updates of this pick come before every access of the next one
  let late := v.evs.filter fun e => match e with | .upd _ => true | .wr _ => false
  let v := (sortBy BayEv.before late).foldl VState.apply v
  let keep := v.evs.filterMap fun e => match e with | .wr w => if w.kind = 3 then none else some w | .upd _ => none
  let next := (keep ++ v.stores).map fun (w : VWrite) => { w with cycle := w.cycle - 256, order := w.order - 1000 }
  { bay := { v.bay with bufs := bufs, vwrites := next }, flags := v.flags, bad := v.bad }

end Sys2Proof.Machine
end

