-- ==== Sys2Proof/Machine/LoomRun.lean ====
section
/-! DEFINITION. How drafts run: words, stream accesses, pushes, overruns and the recovery replay, end beats, the ENGINE reset
(spec/07_loom.md R207 to R212, spec/08_drafts.md R217 to R246, spec/09_timing_contract.md R247 to R256,
spec/02_beats_and_tieup.md R46 to R51 and R57, spec/17_reset_power.md R453). -/

namespace Sys2Proof.Machine

/-! ### Drafts -/

def State.draft? (s : State) (h : Nat) : Option Draft := Table.get? s.loom.drafts h

def State.modDraft (s : State) (h : Nat) (f : Draft → Draft) : State :=
  s.modLoom fun l => { l with drafts := Table.modify l.drafts h f }

/-- Sections of a bay. -/
def Draft.bay (d : Draft) (b : Nat) : BaySec := Table.getD d.bays b {}

/-- Present bays, ascending. -/
def Draft.bayList (d : Draft) : List Nat := (List.range 16).filter fun b => bit d.bayMask.toNat b

/-- Set bits of a mask, ascending. -/
def setBits (mask n : Nat) : List Nat := (List.range n).filter (bit mask)

/-- Declared near positions of a section, and egress slots of a port, in a pattern (R238). -/
def Draft.nearDecl (d : Draft) (pattern sec : Nat) : List Nat := setBits ((d.declNear.getD pattern []).getD sec 0) 32
def Draft.slotDecl (d : Draft) (pattern p : Nat) : List Nat :=
  setBits ((d.declPort.getD pattern []).getD p 0) d.portSlots

/-- The word of a bay at an index. -/
def Draft.word (d : Draft) (b pc : Nat) : BitVec 1024 := (d.bay b).words.getD pc 0

/-- CTRL of word `pc`: the same in every present bay (R218). -/
def Draft.ctrl (d : Draft) (pc : Nat) : Ctrl := ctrlOf (d.word (d.bayList.headD 0) pc)

/-- A stream of a bay. -/
def Draft.stream (d : Draft) (b i : Nat) : Stream := streamOf ((d.bay b).streams.getD i 0)

/-- State code of DRAFT_QUERY (spec/15_mailboxes.md R415). -/
def DraftSt.code : DraftSt → Nat
  | .loaded => 0
  | .pending => 1
  | .running => 2
  | .done => 3
  | .halted => 4

def HaltCause.code : HaltCause → Nat
  | .none => 0
  | .overrun => 1
  | .stop => 2
  | .destroyed => 3
  | .reset => 4

/-- Let every DRAFT_STOP that waits for a draft complete with the state it has. -/
def State.readyStop (s : State) (h : Nat) : State :=
  match s.draft? h with
  | some d => (s.waiting fun w => w == .draftStop h).foldl (fun s m => s.markReady m 0 (toLe 1 d.st.code ++ zeros 7)) s
  | none => s

/-- A PENDING draft returns to LOADED: its DRAFT_START ends ABORTED (R241, R245, spec/17 R453, R456). -/
def State.cancelStart (s : State) (h : Nat) : State :=
  match s.draft? h with
  | some d =>
    if d.st = .pending then
      let s := match d.starter with
        | some m => s.markReady m mAborted []
        | none => s
      s.modDraft h fun d => { d with st := .loaded, starter := none }
    else s
  | none => s

/-- A RUNNING draft becomes HALTED. -/
def State.haltDraft (s : State) (h : Nat) (cause : HaltCause) : State :=
  (s.modDraft h fun d => { d with st := .halted, cause := cause, stopDue := none, ending := false }).readyStop h

/-! ### Overruns (R46 to R48) -/

/-- A cause of overrun is detected: the first in a beat in which a draft runs declares the overrun; later ones, and those in
a recovery beat, are counted (R47, R51). -/
def State.overrunNow (s : State) (cause : Nat) : State :=
  let l := s.loom
  let runs : Bool := match l.run with
    | some h => (s.draft? h).any fun d => d.st == .running
    | none => false
  if l.kind = .recovery ∨ l.overrun.isSome then s.modLoom fun l => { l with extra := satInc l.extra }
  else if l.kind = .issue ∧ runs = true then s.modLoom fun l => { l with overrun := some cause, overruns := satInc l.overruns }
  else s

/-! ### Stream accesses (R223 to R227, R248 to R255) -/

/-- The codeword of a stream element: extent, its block, its unit; none where the element lies in no near page. -/
def State.elemUnit (s : State) (t : Stream) (k : Nat) : Option (Extent × Nat × Loc) :=
  match s.ext? t.ext with
  | none => none
  | some x =>
    let a := (t.elem k x.span).toNat
    let b := (a - x.base) / 256
    let pg := x.page (b / 256)
    if a < x.base ∨ x.blockCount ≤ b ∨ !pg.near then none
    else some (x, b, nearLoc x.cls x.budget pg.slot (b % 256))

/-- Accesses of a stream-in command (R223, R250): landings in element order. -/
def State.sinAccs (s : State) (d : Draft) (b taken order : Nat) (c : StreamCmd) : List LoomAcc :=
  let t := d.stream b c.stream
  (List.range c.count).filterMap fun i =>
    (s.elemUnit t (taken + i)).map fun (x, blk, l) =>
      { loc := l, write := false, ext := t.ext, block := blk, bay := b, addr := 32 * c.addr + i * x.landBytes
        ready := s.time.pick + (if l.home.2 = b then 2 else 3), order := s.time.pick * 2 ^ 20 + order + i : LoomAcc }

/-- Accesses of a stream-out command (R225): the bobbin bytes that the pick reads; `poison` for a replay. -/
def State.soutAccs (s : State) (d : Draft) (b taken : Nat) (bobbin : Mem) (poison : Bool) (c : StreamCmd) : List LoomAcc :=
  let t := d.stream b c.stream
  (List.range c.count).filterMap fun i =>
    (s.elemUnit t (taken + i)).map fun (x, blk, l) =>
      { loc := l, write := true, poison := poison, ext := t.ext, block := blk, bay := b
        data := if poison then [] else bobbin.readN (32 * c.addr + i * x.outBytes) x.outBytes : LoomAcc }

/-- Give accesses the declared positions of their section, channel by channel, in order (R253). -/
def allotPositions (d : Draft) (pattern : Nat) (accs : List LoomAcc) : List LoomAcc :=
  (accs.foldl (fun (acc : List LoomAcc × Table Nat) a =>
    let key := a.loc.home.2 * 512 + a.loc.lane
    let n := Table.getD acc.2 key 0
    (acc.1 ++ [{ a with pos := (d.nearDecl pattern a.loc.home.2).getD n 32 }], Table.set acc.2 key (n + 1))) ([], [])).1

/-- The write that stands for one block of a stream-out, for what a committed write changes. -/
def LoomAcc.asReq (a : LoomAcc) (pick slot blk : Nat) (data : List Byte) : Req :=
  { origin := .list 8 0, op := .wr256, code := ownLoom, ext := a.ext, block := blk, quarter := 0, data := data
    mask := fullMask, ro := true, arrival := pick, near := true, slot := slot, gen := false, merged := some data }

/-- Blocks of an access's codeword. -/
def LoomAcc.blocks (a : LoomAcc) (x : Extent) : List Nat := (List.range (blocksPerWord x.cls x.budget)).map fun i => a.block + i

/-- A host's or an engine's partial write that has read a codeword, or needs no read of it, and has still to write it applies to
what a stream-out write has left there (spec/04_compression.md R119, spec/16_ras.md R447). -/
def State.rebase (s : State) (l : Loc) : State :=
  let mine := fun (r : Req) => r.op.isWrite && r.planned && !r.visible && !r.whole && r.near && r.flyingW.isEmpty &&
    ((s.ext? r.ext).any fun x => r.nearLoc x == l)
  let item : RItem := match s.readUnit l with
    | some d => { loc := l, bytes := d.data, marks := markBits l d.mark, ue := false }
    | none => { loc := l, bytes := (s.stored l).take l.dataSize, marks := markBits l 0, ue := true }
  let fresh := fun (is : List RItem) => item :: is.filter fun i => i.loc != l
  (s.reqs.filter fun kv => mine kv.2).foldl (fun s kv =>
    if kv.2.merged.isSome then
      (s.modReq kv.1 fun r => { r with
        merged := none, entry := none, got := fresh r.got, phases := r.phases.takeWhile fun ph => !ph.isWrite }).advance kv.1
    else s.modReq kv.1 fun r => { r with
      got := if (gotUnit r.got l).isSome then fresh r.got else r.got
      snap := r.snap.map fun x => if x.1 == l then (l, s.stored l) else x }) s

/-- Rebuilds, write-backs and marked writes queued for a codeword that a stream-out has written anew are dropped (R447). -/
def State.dropUnit (s : State) (l : Loc) : State :=
  s.modRas fun r => { r with work := r.work.filter fun w => w.unit != some l }

/-- A stream-out write, or a poison write of the replay, commits at its position (R225, R49): a whole codeword with a fresh
encode; the page becomes DIRTY and its generation advances once in a pick (R92, R147). -/
def State.loomWrite (s : State) (a : LoomAcc) : State :=
  match s.ext? a.ext with
  | none => s
  | some x =>
    let at_ := (s.time.pick, min a.pos 31)
    let bs := a.blocks x
    let parts := (List.range bs.length).map fun i => (bs.getD i 0, slice a.data (256 * i) 256)
    let form := fun (p : Nat × List Byte) =>
      padTo (256 / bs.length) (s.seal x p.1 false (encodeBlock x.cls x.src x.budget none p.2))
    let item : WItem := if a.poison then s.markedItem a.loc
      else { loc := a.loc, off := 0, bytes := parts.flatMap form, mark := List.replicate 4 false }
    let page := a.block / 256
    let again := s.loom.bumped.contains (a.ext, page)
    let s := ((s.commitItem item at_).dropUnit a.loc).touch a.ext page
    let gens := x.gens
    let s := if a.poison then
        (s.modPage a.ext page fun pg => { pg with dirty := true }).modTier fun t => { t with fills := t.fills.map fun kv =>
          if kv.2.ext == a.ext && kv.2.page == page then
            (kv.1, { kv.2 with bits := bs.foldl (fun m b => m ||| BitVec.ofNat 256 (2 ^ (b % 256))) kv.2.bits })
          else kv }
      else parts.foldl (fun s p => s.becomeVisible s.nextReq (a.asReq s.time.pick (x.page page).slot p.1 p.2) at_) s
    let s := (s.modExt a.ext fun x =>
      let x := { x with gens := gens }
      if again then x else x.bumpGen page).endFill a.ext page
    let s := s.rebase a.loc
    s.modLoom fun l => { l with bumped := if again then l.bumped else (a.ext, page) :: l.bumped }

/-- What a zero block gives a bay: its form as it would land (R134, R224). -/
def zeroLanding (x : Extent) : List Byte :=
  match x.cls with
  | .twill2 | .twill4 => encodeBlock x.cls x.src x.budget none (zeros 256)
  | _ => zeros 256

/-- What a block of a delivered codeword lands: Plain as stored, Twill decrypted and still compressed, Satin decoded (R224);
none where it is damaged, marked or malformed. -/
def State.landBlock (s : State) (e : Nat) (x : Extent) (i : RItem) (b : Nat) : Option (List Byte) :=
  let n := storedSize x.cls x.budget
  let off := nearOff x.cls x.budget (b % 256)
  let marked := (List.range (n / 64)).any fun j => i.marks.getD (off / 64 + j) false
  if i.ue || marked || (s.damagedIn e b false).isSome || x.unlisted.contains b then none
  else
    let form := s.unseal x b false (slice i.bytes off n)
    match x.cls with
    | .satin => satinDecode form
    | .plain => some form
    | _ => if (decodeBlock x.cls x.src form).isSome then some form else none

/-- A stream-in read, as its unit stood at its position: the landing, or an overrun where a block is damaged (R46). -/
def State.loomRead (s : State) (a : LoomAcc) : State :=
  match s.ext? a.ext with
  | none => s
  | some x =>
    let bs := a.blocks x
    let zero := fun (b : Nat) => s.zeroBlock a.ext b
    let s := s.touch a.ext (a.block / 256)
    let (s, item) : State × RItem :=
      if bs.all zero then (s, { loc := a.loc, bytes := [], marks := [], ue := false })
      else s.deliver a.loc (a.snap.getD (s.stored a.loc))
    let lands := bs.map fun b => if zero b then some (zeroLanding x) else s.landBlock a.ext x item b
    let lost := (bs.zip lands).filter fun p => p.2.isNone
    -- a malformed Satin form counts as an uncorrectable unit of its block (R107, R109, R431)
    let s := if item.ue then s else lost.foldl (fun s p =>
      let n := storedSize x.cls x.budget
      let off := nearOff x.cls x.budget (p.1 % 256)
      let marked := (List.range (n / 64)).any fun j => item.marks.getD (off / 64 + j) false
      if marked then s else s.malformedAt a.ext p.1 x true) s
    let s := if lost.isEmpty then s else s.overrunNow 1
    let bytes := lands.flatMap fun l => l.getD (zeros x.landBytes)
    let land : Landing := { pick := a.ready, order := a.order, addr := a.addr, bytes := bytes }
    let old : Bay := Table.getD s.loom.bays a.bay {}
    s.modLoom fun l => { l with bays := Table.set l.bays a.bay { old with landings := old.landings ++ [land] } }

/-- Writes of the Loom that a position carries. -/
def State.loomPosition (s : State) (sec pos : Nat) : State :=
  let mine := fun (a : LoomAcc) => a.write && a.loc.home.2 == sec && a.pos == pos
  let due := s.loom.accs.filter mine
  let s := s.modLoom fun l => { l with accs := l.accs.filter fun a => !mine a }
  due.foldl State.loomWrite s

/-- The pick closes: every write that has still to come takes its position, in position order; then every read gives what
its unit held at its own. -/
def State.loomFlush (s : State) : State :=
  let s := (List.range 33).foldl (fun s k => (List.range 16).foldl (fun s sec => s.loomPosition sec k) s) s
  let reads := s.loom.accs
  (reads.foldl State.loomRead s).modLoom fun l => { l with accs := [] }

/-! ### Pushes (R235 to R237, R256, spec/12_shuttles.md R319, R320) -/

/-- Host address of block `i` of a push. -/
def pushAddr (q : PushDesc) (progress i : Nat) : Nat := q.addr + 256 * ((progress + i) % q.len)

/-- The blocks that a pick's pushes send in the next pick, in bay and block order over the declared slots of each port. -/
def allotSlots (d : Draft) (pattern : Nat) (ps : List (Nat × List (Nat × List Byte))) : List LoomPush :=
  (ps.foldl (fun (acc : List LoomPush × Table Nat) p =>
    let n := Table.getD acc.2 p.1 0
    let slots := d.slotDecl pattern p.1
    let blocks := (List.range p.2.length).map fun i =>
      (slots.getD (n + i) 0, (p.2.getD i (0, [])).1, (p.2.getD i (0, [])).2)
    (acc.1 ++ [{ port := p.1, blocks := blocks }], Table.set acc.2 p.1 (n + p.2.length))) ([], [])).1

/-- On a confidential port the blocks of a push field form one segment, whose last block is the seal. -/
def State.sealPush (s : State) (x : LoomPush) : State × LoomPush :=
  let q := s.port x.port
  if !q.conf then (s, x)
  else
    let ctr := q.pushCtr + 1
    let n := x.blocks.length - 1
    let body := sealBody ctr 0 x.port n ((x.blocks.headD (0, 0, [])).2.1)
    let (ct, tag) := gcmSeal (q.xferKey.getD []) (sealIv ctr 0 x.port) body ((x.blocks.take n).flatMap fun y => y.2.2)
    let data := (List.range n).map fun i => slice ct (256 * i) 256
    let blocks := (List.range x.blocks.length).map fun i =>
      let y := x.blocks.getD i (0, 0, [])
      (y.1, y.2.1, if i < n then data.getD i [] else tag ++ body)
    (s.modPort x.port fun q => { q with pushCtr := ctr }, { x with blocks := blocks })

/-- The pushes of this pick leave, each sealed where its port is confidential; one that finds its port down overruns. -/
def State.pushesDepart (s : State) : State :=
  let go := s.loom.pushes
  let s := s.modLoom fun l => { l with pushes := [] }
  go.foldl (fun s x =>
    -- a push whose port is down, or has no such slots since it trained to ×8 (spec/10 R267), overruns the beat
    if s.linkUp x.port && x.blocks.all fun y => (s.port x.port).slotExists y.1 then
      let (s, x) := s.sealPush x
      s.modLoom fun l => { l with pushes := l.pushes ++ [x] }
    else s.overrunNow 7) s

/-! ### Words (R217 to R222, R248) -/

/-- What the present bays gather while they issue the words of one index. -/
structure IssueAcc where
  s      : State
  reads  : List LoomAcc := []
  writes : List LoomAcc := []
  pushes : List (Nat × List (Nat × List Byte)) := []
  taken  : Table Nat
  progress : Table Nat
  bad    : Bool := false
  order  : Nat := 0
deriving DecidableEq, Repr

/-- Elements that a stream has taken. -/
def IssueAcc.takenOf (i : IssueAcc) (b stream : Nat) : Nat := Table.getD i.taken (4096 * b + stream) 0

/-- A stream-in command: its reads where it is not gated; its generator advances in any case (R222). -/
def IssueAcc.sin (d : Draft) (b : Nat) (gated : Bool) (i : IssueAcc) (c : StreamCmd) : IssueAcc :=
  let n := i.takenOf b c.stream
  { i with
    reads := if gated then i.reads else i.reads ++ i.s.sinAccs d b n i.order c
    order := i.order + c.count, taken := Table.set i.taken (4096 * b + c.stream) (n + c.count) }

/-- A stream-out command. -/
def IssueAcc.sout (d : Draft) (b : Nat) (bobbin : Mem) (gated poison : Bool) (i : IssueAcc) (c : StreamCmd) : IssueAcc :=
  let n := i.takenOf b c.stream
  { i with
    writes := if gated then i.writes else i.writes ++ i.s.soutAccs d b n bobbin poison c
    taken := Table.set i.taken (4096 * b + c.stream) (n + c.count) }

/-- A push. -/
def IssueAcc.push (d : Draft) (bobbin : Mem) (gated : Bool) (i : IssueAcc) (c : PushCmd) : IssueAcc :=
  let q := pushDescOf (d.pushes.getD c.desc 0)
  let n := Table.getD i.progress c.desc 0
  let blocks := (List.range c.blocks).map fun k => (pushAddr q n k, bobbin.readN (32 * c.src + 256 * k) 256)
  { i with pushes := if gated then i.pushes else i.pushes ++ [(c.port, blocks)]
           progress := Table.set i.progress c.desc (n + c.blocks) }

/-- The vector sequence of a word. -/
def Draft.sequence (d : Draft) (b : Nat) (v : VecCmd) : List VInstr :=
  (List.range v.len).map fun i => vinstrOf ((d.bay b).vseq.getD (v.start + i) 0)

/-- One bay issues its word. Its SECDED codes correct and count errors, or find one that is uncorrectable (R184): free values
(log entry 38). -/
def IssueAcc.bay (d : Draft) (h : Nat) (seed n : W64) (i : IssueAcc) (b : Nat) : IssueAcc :=
  let s := i.s
  let w := d.word b d.pos.pc
  let c := ctrlOf w
  let bay := (Table.getD s.loom.bays b {}).open_ s.time.pick
  let bobbin := bay.readable
  let arr := !c.gated n 1
  let ops := if arr then [0, 1].filterMap fun a => (arrOp w a).map fun o => (a, o) else []
  let loads := if arr then [0, 1].filterMap fun a => (bufLoad w a).map fun o => (a, o) else []
  let vec := if c.gated n 2 then none else vecOf w
  let ctx : VCtx :=
    { consts := (d.bay b).consts, addrOff := (vec.map (·.addr)).getD 0, accOff := (vec.map (·.acc)).getD 0, seed := seed
      beat := n, bayNo := b, pickIdx := s.time.idx }
  let out := bay.run ops loads ((vec.map (d.sequence b)).getD []) ctx
  let k := s.freeCount
  let s := ((s.setFreeCount (k + 1)).modRas fun r => { r with sramCe := r.sramCe + BitVec.ofNat 64 (Config.loomCorrected k) }).modLoom
    fun l => { l with bays := Table.set l.bays b out.bay }
  let s := s.modDraft h fun d => { d with flags := d.flags.set b (d.flags.getD b 0 ||| out.flags) }
  let i := { i with s := s, bad := i.bad || out.bad || Config.loomUncorrectable k }
  let i := (sinsOf w).foldl (IssueAcc.sin d b (c.gated n 0)) i
  let i := (soutsOf w).foldl (IssueAcc.sout d b bobbin (c.gated n 3) false) i
  match pushOf w with
  | some p => i.push d bobbin (c.gated n 4) p
  | none => i

/-- One bay's word in the replay: its stream-outs, with poison (R49). -/
def IssueAcc.replay (d : Draft) (n : W64) (i : IssueAcc) (b : Nat) : IssueAcc :=
  let w := d.word b d.pos.pc
  let c := ctrlOf w
  let i := (sinsOf w).foldl (IssueAcc.sin d b true) i
  (soutsOf w).foldl (IssueAcc.sout d b [] (c.gated n 3) true) i

/-- The position after a word. -/
def Draft.advance (d : Draft) (taken progress : Table Nat) : DraftPos :=
  let q := { d.pos with taken := taken, progress := progress }
  match q.next (d.ctrl q.pc) with
  | some q => q
  | none => { q with done := true }

/-- Every present bay issues the word of the draft's index (R218). -/
def State.issueWord (s : State) (h : Nat) (d : Draft) : State :=
  let seed := match s.ctx? d.ctx with | some c => c.seed | none => 0
  let i := d.bayList.foldl (IssueAcc.bay d h seed s.time.beat) { s := s, taken := d.pos.taken, progress := d.pos.progress }
  let s := if i.bad then i.s.overrunNow 2 else i.s
  let next := (s.time.idx + 1) % s.patterns
  let s := s.modDraft h fun x => { x with pos := d.advance i.taken i.progress, issued := x.issued + 1 }
  s.modLoom fun l => { l with
    accs := i.reads ++ l.accs, nextAccs := i.writes, nextPushes := allotSlots d next i.pushes, issue := d.bayMask }

/-- One pick of the replay of an overrun (R49). -/
def State.replayWord (s : State) (h : Nat) (d : Draft) : State :=
  let i := d.bayList.foldl (IssueAcc.replay d d.ovrBeat) { s := s, taken := d.pos.taken, progress := d.pos.progress }
  (s.modDraft h fun x => { x with pos := d.advance i.taken i.progress }).modLoom fun l => { l with nextAccs := i.writes }

/-! ### ENGINE reset (spec/17_reset_power.md R453) -/

/-- The ENGINE reset takes effect at a pick boundary. A RUNNING draft that neither issues in this beat nor is being replayed
becomes HALTED at once (log entry 28). -/
def State.engineResetNow (s : State) : State :=
  let s := s.modLoom fun l => { l with resetDue := false }
  let l := s.loom
  let busy := (l.kind == .issue || l.kind == .recovery) && match l.run with
    | some h => (s.draft? h).any fun d => d.st == .running
    | none => false
  let s := l.drafts.foldl (fun s kv =>
    match kv.2.st with
    | .pending => s.cancelStart kv.1
    | .running =>
      if busy && l.run == some kv.1 then
        s.modDraft kv.1 fun d => { d with stopDue := if d.stopDue = some .destroyed then d.stopDue else some .reset }
      else s.haltDraft kv.1 (if kv.2.stopDue = some .destroyed then .destroyed else .reset)
    | _ => s) s
  if busy then s.overrunNow 6 else s.modLoom fun l => { l with bays := [] }

/-- The brace reaches the Loom in the pick after it began (R46): the draft of the beat overruns; any other RUNNING draft is
HALTED with cause OVERRUN and no replay (spec/17_reset_power.md R468; log entry 28). -/
def State.braceLoom (s : State) : State :=
  let l := s.loom
  let s := l.drafts.foldl (fun s kv =>
    if kv.2.st = .running ∧ !((l.kind == .issue || l.kind == .recovery) && l.run == some kv.1) then
      (s.modDraft kv.1 fun d => { d with ovrBeat := s.beatNow, ovrCause := 3 }).haltDraft kv.1 .overrun
    else s) s
  let s := s.overrunNow 3
  -- the stream-out path and the clear port stay clocked for the recovery beat alone (spec/01_architecture.md R23)
  if s.loom.kind == .recovery || s.loom.overrun.isSome then s else s.modLoom fun l => { l with clocked := false }

/-! ### The pick of the Loom -/

/-- The Loom at the first cycle of a pick: writes and pushes that the pick before named, causes that fall in this pick, the
next word of the draft that issues, or of the replay. -/
def State.loomStart (s : State) : State :=
  let l := s.loom
  let ovr := l.overrun.isSome
  let s := s.modLoom fun l => { l with
    accs := l.nextAccs, nextAccs := [], pushes := if ovr then [] else l.nextPushes, nextPushes := [], bumped := [], issue := 0 }
  let s := s.pushesDepart
  let s := if s.power.braced && s.time.pick == s.power.bracePick + 1 then s.braceLoom else s
  let s := if s.loom.resetDue then s.engineResetNow else s
  match l.run with
  | none => s
  | some h =>
    match s.draft? h with
    | none => s
    | some d =>
      let s := if l.live && !ovr && d.st = .running then
          (if l.kind = .issue then s.issueWord h d else if l.kind = .recovery then s.replayWord h d else s)
        else s
      s.modLoom fun l => { l with accs := allotPositions d s.pattern l.accs }

/-- The pick of the Loom ends: its accesses, then END (R245). -/
def State.loomEnd (s : State) : State :=
  let s := s.loomFlush
  match s.loom.run with
  | none => s
  | some h =>
    match s.draft? h with
    | none => s
    | some d =>
      if !d.pos.done || !s.loom.live then s
      else if s.loom.kind = .issue && s.loom.overrun.isNone && d.st = .running then
        ((s.modDraft h fun d => { d with st := .done, stopDue := none }).modLoom fun l => { l with
          live := false, endDue := true }).readyStop h
      else s.modLoom fun l => { l with live := false }

/-! ### The beat of the Loom (R57, R208 to R211, R244, R245, R48, R49) -/

/-- The recovery beat of a draft has ended: HALTED, with the event to the ports of its context (R48 step 5, R51). -/
def State.endRecovery (s : State) (h : Nat) : State :=
  match s.draft? h with
  | none => s
  | some d =>
    if d.st != .running then s
    else
      let cause := match d.stopDue with
        | some .reset => .reset
        | some .destroyed => .destroyed
        | _ => HaltCause.overrun
      let s := s.haltDraft h cause
      match s.ctx? d.ctx with
      | some c => s.sendEvts c.ports { code := 0x010, p0 := BitVec.ofNat 32 d.ctx, p1 := d.ovrBeat }
      | none => s

/-- What the beat that ends leaves: HALTED drafts of a recovery beat and of end beats. -/
def State.loomBeatEnds (s : State) : State :=
  let s := match s.loom.kind, s.loom.run with
    | .recovery, some h => (s.endRecovery h).modLoom fun l => { l with clocked := l.clocked && !s.power.braced }
    | _, _ => s
  s.loom.drafts.foldl (fun s kv =>
    if kv.2.ending ∧ kv.2.st = .running then s.haltDraft kv.1 (kv.2.stopDue.getD .stop) else s) s

/-- The draft of a context that may issue in beat `n`: RUNNING with no stop due, or PENDING and due. -/
def State.draftFor (s : State) (c : Nat) (n : W64) : Option Nat :=
  (s.loom.drafts.find? fun kv => kv.2.ctx == c &&
    ((kv.2.st == .running && kv.2.stopDue.isNone) ||
      (kv.2.st == .pending && (n - kv.2.startMin).toNat < 2 ^ 63))).map (·.1)

/-- A PENDING draft becomes RUNNING at the boundary of its first issue beat: DRAFT_START completes (R244). -/
def State.startDraft (s : State) (h : Nat) (n : W64) : State :=
  match s.draft? h with
  | none => s
  | some d =>
    if d.st = .pending then
      let s := s.modDraft h fun d => { d with
        st := .running, pos := {}, startBeat := n, issued := 0, starter := none, ending := false, stopDue := none }
      match d.starter with
      | some m => s.markReady m 0 (toLe 8 n.toNat)
      | none => s
    else s

/-- The Loom at a beat boundary, the counter at the number of the beat that begins. `clear` zeroes every bay (R211); a stop
of a draft whose context has this beat, or had the last one, makes it an end beat (R245; log entry 28). -/
def State.loomBeat (s : State) : State :=
  let l := s.loom
  let prevBeat := s.time.beat - 1
  let s := s.loomBeatEnds
  let ovr := l.overrun.isSome && !l.halted
  let owner := s.rotaOwner s.time.beat
  let ownerLive := (s.ctx? owner).isSome
  -- SAFE keeps the bays' data, unclocked (spec/17_reset_power.md R468)
  let bays := if s.power.safe then l.bays else []
  let s := s.modLoom fun l => { l with
    missPrev := l.overrun.isSome || l.halted, halted := false, overrun := none, owner := owner, run := none, live := false
    endDue := false, issue := 0 }
  match ovr, l.run with
  | true, some h =>
    let s := s.modDraft h fun d => { d with pos := d.beatPos, ovrBeat := prevBeat, ovrCause := l.overrun.getD 0 }
    s.modLoom fun l => { l with kind := .recovery, run := some h, live := true, bays := [] }
  | _, _ =>
    let stopping := s.loom.drafts.filter fun kv => kv.2.st == .running && kv.2.stopDue.isSome && !kv.2.ending
    let s := stopping.foldl (fun s kv => s.modDraft kv.1 fun d => { d with ending := true }) s
    let endNow := l.endDue || stopping.any fun kv => kv.2.ctx == l.owner || kv.2.ctx == owner
    if endNow then s.modLoom fun l => { l with kind := .end_, bays := bays }
    else if l.owner ≠ 0xFF ∧ owner ≠ l.owner then s.modLoom fun l => { l with kind := .switch, bays := bays }
    else
      -- a brace reaches the Loom in the pick after it began (R46)
      let braced := s.power.braced && s.time.pick != s.power.bracePick + 1
      let ready := ownerLive && s.loom.clocked && !braced && !s.power.safe && !s.power.standbyReq && !s.power.standby
      match if ready then s.draftFor owner s.time.beat else none with
      | some h =>
        let s := (s.startDraft h s.time.beat).modDraft h fun d => { d with beatPos := d.pos }
        s.modLoom fun l => { l with kind := .issue, run := some h, live := true }
      | none => s.modLoom fun l => { l with kind := .idle, bays := bays }

end Sys2Proof.Machine
end

