-- ==== Sys2Proof/Machine/Sync.lean ====
section
/-! DEFINITION. Beat synchronisation, BEAT_CONFIG and TIEUP_SET (spec/02_beats_and_tieup.md R29 to R61,
spec/15_mailboxes.md R416 and R417). -/

namespace Sys2Proof.Machine

/-! ### Symbols (R33, R34) -/

inductive Sym where | zero | one | start
deriving DecidableEq, Repr

/-- Symbol and miss flag of a high time; none: invalid. Glitches are judged before. -/
def symbolOf (h : Nat) : Option (Sym × Bool) :=
  if 43 ≤ h ∧ h ≤ 127 then some (.zero, false)
  else if 128 ≤ h ∧ h ≤ 212 then some (.one, false)
  else if 213 ≤ h ∧ h ≤ 297 then some (.start, false)
  else if 383 ≤ h ∧ h ≤ 467 then some (.zero, true)
  else if 468 ≤ h ∧ h ≤ 552 then some (.one, true)
  else if 553 ≤ h ∧ h ≤ 637 then some (.start, true)
  else none

/-- Driven high time. -/
def Sym.driven (y : Sym) (miss : Bool) : Nat :=
  (match y with | .zero => 85 | .one => 170 | .start => 255) + (if miss then 340 else 0)

/-- CRC-8 of one byte with polynomial 0x07, most significant bit first. -/
def crc8Byte (c : Nat) (b : Byte) : Nat :=
  (List.range 8).foldl (fun c _ => if c ≥ 128 then xorN (c * 2 % 256) 7 else c * 2 % 256) (xorN c b.toNat)

/-- C: the CRC-8 of a frame-start number. -/
def frameCrc (f : Nat) : Nat := (toLe 8 f).foldl crc8Byte 0

/-- S(n) (R34). -/
def symbolAt (n : W64) : Sym :=
  let m := n.toNat % 128
  let f := n.toNat - m
  let b := fun (x : Bool) => if x then Sym.one else Sym.zero
  if m = 0 then .start
  else if m ≤ 64 then b (bit f (m - 1))
  else if m ≤ 72 then b (bit (frameCrc f) (m - 65))
  else .zero

/-! ### Markers (R35, R38 to R42) -/

/-- CLK_E cycles of a beat. -/
def State.beatCycles (s : State) : Nat := s.time.cfg.picks * pickCycles

/-- Expected cycle of the marker that is judged next (R35): the boundary of its beat plus IN_DELAY. -/
def State.markerDue (s : State) : Int :=
  let ahead : Int := (s.time.markBeat - s.time.beat).toInt
  (s.time.beatCycle : Int) + ahead * s.beatCycles + s.time.cfg.inDelay

/-- A cycle lies within 4 of another. -/
def near4 (a b : Int) : Bool := decide (a - b ≤ 4) && decide (b - a ≤ 4)

/-- A received MISS symbol is counted with the beat number it carries (R38). DESIGN CHOICE: while the counter is invalid that
number is 0, as R38 does not say (log entry 41). -/
def State.countMiss (s : State) (sy : Option (Sym × Bool)) : State :=
  match sy with
  | some (_, true) => s.modTime fun t => { t with
      missCount := satInc t.missCount, missBeat := if s.beatValid then t.markBeat else 0 }
  | _ => s

/-- FREE: BEAT_OUT is held low (R37). -/
def State.enterFree (s : State) : State :=
  s.modTime fun t => { t with
    sync := .free, acqCount := 0, acqBits := [], acqLoad := none, holdCount := 0, beatOut := [0, 0] }

/-- A valid START marker in FREE (R40). -/
def State.startAcquiring (s : State) (cycle : Nat) : State :=
  s.modTime fun t => { t with sync := .acquiring, acqCount := 0, acqBits := [], acqEdge := cycle, acqLoad := none }

/-- Number spelled by bits, the first the least significant. -/
def ofBits (l : List Bool) : Nat := l.foldr (fun b a => b2n b + 2 * a) 0

/-- A marker during acquisition (R40, R41). -/
def State.acquire (s : State) (cycle : Nat) (sy : Option (Sym × Bool)) : State :=
  let onTime := near4 cycle (s.time.acqEdge + s.beatCycles)
  let k := s.time.acqCount + 1
  match sy with
  | some (.start, _) => s.startAcquiring cycle
  | some (y, _) =>
    if !onTime || (k ≤ 7 && y == .one) then s.enterFree
    else
      let bits := s.time.acqBits ++ [y == .one]
      if k < 72 then s.modTime fun t => { t with acqCount := k, acqBits := bits, acqEdge := cycle }
      else
        let f := ofBits (bits.take 64)
        if frameCrc f ≠ ofBits (bits.drop 64) then s.enterFree
        else s.modTime fun t => { t with
          acqCount := k, acqBits := bits, acqEdge := cycle
          acqLoad := some (cycle + s.beatCycles - t.cfg.inDelay, BitVec.ofNat 64 (f + 73)) }
  | none => s.enterFree

/-- The marker that is judged has failed, or did not arrive (R42). -/
def State.markerFail (s : State) : State :=
  s.modTime fun t => { t with
    sync := .holdover, holdCount := if t.sync = .locked then 1 else t.holdCount + 1, markBeat := t.markBeat + 1 }

/-- The marker that is judged has passed (R42). -/
def State.markerPass (s : State) : State :=
  s.modTime fun t => { t with sync := .locked, holdCount := 0, markBeat := t.markBeat + 1 }

/-- What a change of the synchronisation state or of the count of received MISS symbols sets in DEV_EVENT
(spec/18_registers.md R475). -/
def State.syncNotice (s old : State) : State :=
  let s := if s.time.sync == old.time.sync then s else s.setEvent 3
  if s.time.missCount == old.time.missCount then s else s.setEvent 4

/-- BEAT_IN_MARKER: a pulse with its rising edge in CLK_E cycle `cycle` and high time `high` (R33, R35, R38, R40 to R43). -/
def execBeatInMarker (cycle high : Nat) (s : State) : Out :=
  .next <| (State.syncNotice · s) <|
    if high ≤ 42 || s.time.cfg.master then s
    else
      let sy := symbolOf high
      let s := s.countMiss sy
      match s.time.sync with
      | .free => match sy with
        | some (.start, _) => s.startAcquiring cycle
        | _ => s
      | .acquiring => if s.time.acqLoad.isSome then s else s.acquire cycle sy
      | .locked | .holdover =>
        if near4 cycle s.markerDue then
          match sy with
          | some (y, _) => if y = symbolAt s.time.markBeat then s.markerPass else s.markerFail
          | none => s.markerFail
        else s
      | .master => s

/-- MARKER_WINDOW_CLOSE: CLK_E cycle `cycle` ends with no marker in the window that closes there (R40, R42). -/
def execMarkerWindowClose (cycle : Nat) (s : State) : Out :=
  .next <| (State.syncNotice · s) <|
    if s.time.cfg.master then s
    else match s.time.sync with
      | .acquiring =>
        if s.time.acqLoad.isNone && s.time.acqEdge + s.beatCycles + 4 ≤ cycle then s.enterFree else s
      | .locked | .holdover => if s.markerDue + 4 ≤ cycle then s.markerFail else s
      | _ => s

/-- HOLDOVER_EXCEEDED: the holdover count has passed HOLDOVER: SAFE with cause BEAT_LOSS, which is logged as a later cause in a
SAFE that has another (R42, spec/17_reset_power.md R462). -/
def execHoldoverExceeded (s : State) : Out :=
  .next <|
    if s.time.sync = .holdover && s.time.cfg.holdover < s.time.holdCount && !(s.power.safe && s.power.safeCause == 0x06) then
      s.enterSafe 0x06
    else s

/-- AGE_HALVING (spec/05_tiering.md R137). -/
def execAgeHalving (s : State) : Out := .next s.halve

/-! ### Activation (R45, R59) -/

/-- A beat number lies at least four beats ahead, in the counter's own order. -/
def fourAhead (act beat : W64) : Bool := 4 ≤ (act - beat).toNat && (act - beat).toNat < 2 ^ 63

/-- A change with this activation beat takes effect at this boundary: the counter has reached it, was loaded at or past it,
or is invalid. -/
def State.activates (s : State) (act : W64) (loaded : Bool) : Bool :=
  !s.beatValid || s.time.beat == act || (loaded && act.toNat ≤ s.time.beat.toNat)

/-- The first frame start at least four beats on. -/
def nextFrameStart (beat : W64) : W64 := BitVec.ofNat 64 ((beat.toNat + 4 + 127) / 128 * 128)

/-! ### BEAT_CONFIG (R44, R45, R416) -/

/-- Some draft runs. -/
def State.draftRuns (s : State) : Bool := s.loom.drafts.any fun kv => kv.2.st == .running

/-- Some draft is PENDING or RUNNING. -/
def State.draftBusy (s : State) : Bool := s.loom.drafts.any fun kv => kv.2.st == .running || kv.2.st == .pending

/-- Settings as BEAT_CONFIG lays them out. -/
def BeatCfg.body (c : BeatCfg) (act : W64) : List Byte :=
  toLe 1 (b2n c.master) ++ toLe 1 c.outEn.toNat ++ toLe 2 c.picks ++ toLe 2 c.holdover ++ toLe 2 c.inDelay ++
    toLe 8 c.startNumber.toNat ++ toLe 8 act.toNat

/-- The settings of a request; none where a value lies outside its range. -/
def State.beatCfgOf (s : State) (m : Mbx) : Option BeatCfg :=
  let c : BeatCfg :=
    { master := s.rq m 0 1 == 1, picks := s.rq m 2 2, holdover := s.rq m 4 2, inDelay := s.rq m 6 2
      outEn := BitVec.ofNat 2 (s.rq m 1 1), startNumber := BitVec.ofNat 64 (s.rq m 8 8) }
  if s.rq m 0 1 ≤ 1 ∧ 4 ≤ c.picks ∧ c.picks ≤ 4096 ∧ 1 ≤ c.holdover ∧ c.holdover ≤ 1024 ∧ c.inDelay ≤ 1023 then some c
  else none

/-- BEAT_CONFIG. -/
def execBeatConfig (m : Mbx) (s : State) : Out :=
  .next <| s.runCommand m 0x0071 (!s.flag m 0) fun s =>
    let act := BitVec.ofNat 64 (s.rq m 0x10 8)
    match s.beatCfgOf m with
    | none => s.fail m mBadArg
    | some c =>
      let actOk := act == 0 || (s.beatValid && act.toNat % 128 == 0 && fourAhead act s.time.beat)
      if !actOk then s.fail m mBadArg
      else if s.draftRuns && (c.master != s.time.cfg.master || c.picks != s.time.cfg.picks) then s.fail m mState
      else if s.time.pendingCfg.isSome then s.fail m mBusy
      else
        let act := if s.beatValid && act == 0 then nextFrameStart s.time.beat else act
        (s.modTime fun t => { t with pendingCfg := some { cfg := c, activation := act, early := false, mbx := m } }).await m .beatCfg

/-- BEAT_CONFIG with READ: the settings in force. -/
def execBeatConfigRead (m : Mbx) (s : State) : Out :=
  .next <| s.runCommand m 0x0071 (s.flag m 0) fun s => s.complete m mOk (s.time.cfg.body s.time.cfgBeat)

/-- MODE takes effect: MASTER loads START_NUMBER at its first boundary, a change to FOLLOWER enters FREE (R39, R43). -/
def State.setMode (s : State) (master : Bool) : State :=
  let was := s.time.cfg.master
  let s := s.modTime fun t => { t with cfg := { t.cfg with master := master } }
  if master && !was then s.modTime fun t => { t with
    sync := .master, beat := t.cfg.startNumber, acqLoad := none, acqCount := 0, acqBits := [], holdCount := 0 }
  else if !master && was then s.enterFree
  else s

/-- A pending BEAT_CONFIG at a beat boundary; `loaded`: the counter was loaded at it (R45). -/
def State.beatCfgBoundary (s : State) (loaded : Bool) : State :=
  match s.time.pendingCfg with
  | none => s
  | some p =>
    if s.standbyHolds then
      -- STANDBY: a change whose beat has come moves to the next frame start (spec/17_reset_power.md R457)
      if s.activates p.activation loaded then
        s.modTime fun t => { t with pendingCfg := some { p with activation := BitVec.ofNat 64 ((t.beat.toNat / 128 + 1) * 128) } }
      else s
    else
    let c := p.cfg
    let s := s.modTime fun t => { t with
      cfg := { t.cfg with holdover := c.holdover, inDelay := c.inDelay, outEn := c.outEn, startNumber := c.startNumber }
      pendingCfg := some { p with early := true } }
    if !s.activates p.activation loaded then s
    else
      let onFrame := !s.beatValid || s.time.beat.toNat % 128 == 0
      let s := (s.setMode c.master).syncNotice s
      if onFrame || c.picks == s.time.cfg.picks then
        let s := s.modTime fun t => { t with
          cfg := { t.cfg with picks := c.picks }, pendingCfg := none, cfgBeat := s.beatNow }
        (s.modNor fun n => { n with beatCfg := c }).markReady p.mbx mOk (c.body s.beatNow)
      else
        s.modTime fun t => { t with pendingCfg := some { p with
          early := true, activation := BitVec.ofNat 64 ((t.beat.toNat / 128 + 1) * 128) } }

/-! ### TIEUP_SET (R55 to R61, R24, R416, R417) -/

/-- A plan image. -/
def Plan.image (p : Plan) : List Byte :=
  let code := fun (n : Nat) => toLe 1 n
  let vec := fun (v : List (List Nat)) (units per : Nat) =>
    (List.range units).flatMap fun u => (List.range per).flatMap fun k => code ((v.getD u []).getD k 0)
  toLe 1 p.patterns ++ toLe 1 p.rota.length ++ zeros 6 ++ (List.range 64).flatMap (fun i => toLe 1 (p.rota.getD i 0)) ++
    (List.range 64).flatMap (fun i => toLe 2 (p.allowances.getD i 0)) ++
    (List.range p.patterns).flatMap fun j =>
      vec (p.near.getD j []) 16 32 ++ vec (p.far.getD j []) 4 96 ++
        (List.range 6).flatMap fun q =>
          (List.range 448).flatMap (fun i => code (((p.egress.getD j []).getD q []).getD i 0)) ++
          (List.range 448).flatMap fun i => code (((p.ingress.getD j []).getD q []).getD i 0)

/-- The plan of an image. Bits [7:6] of a code are reserved and ignored (spec/00_scope.md R9). -/
def planOfImage (b : List Byte) : Plan :=
  let at_ := fun (i : Nat) => (b.getD i 0).toNat
  let code := fun (i : Nat) => at_ i % 64
  let n := at_ 0
  let vec := fun (off units per : Nat) =>
    (List.range units).map fun u => (List.range per).map fun k => code (off + per * u + k)
  let base := fun (j : Nat) => 200 + 6272 * j
  let port := fun (off : Nat) => (List.range 6).map fun q => (List.range 448).map fun i => code (off + 896 * q + i)
  { patterns := n
    near := (List.range n).map fun j => vec (base j) 16 32
    far := (List.range n).map fun j => vec (base j + 512) 4 96
    egress := (List.range n).map fun j => port (base j + 896)
    ingress := (List.range n).map fun j => port (base j + 896 + 448)
    rota := (List.range (at_ 1)).map fun i => at_ (8 + i)
    allowances := (List.range 64).map fun i => le (slice b (72 + 2 * i) 2) }

/-- A near or far code is valid on the variant (R54, R56 items 2 and 3). -/
def State.tierCodeOk (s : State) (far : Bool) (c : Nat) : Bool :=
  c == 0 || (1 ≤ c && c ≤ 6 && s.hasPort (c - 1)) || (8 ≤ c && c ≤ 0x12) || (!far && c == ownLoom && s.hasLoom)

/-- A code of a port slot is valid (R54). -/
def State.slotCodeOk (s : State) (p : Nat) (egress : Bool) (c : Nat) : Bool :=
  c == 0 || (s.hasPort p && (c == ownPort p || (8 ≤ c && c < 0x10) || (egress && c == ownPush && s.hasLoom)))

/-- R56 items 1 to 7, in any order: all complete BAD_ARG. -/
def State.planOk (s : State) (p : Plan) : Bool :=
  let js := List.range p.patterns
  let nearAt := vecAt p.near
  let farAt := vecAt p.far
  (1 ≤ p.patterns && p.patterns ≤ 64) &&
  (js.all fun j => (List.range 16).all fun u => (List.range 32).all fun k =>
    let c := nearAt j u k
    s.tierCodeOk false c && ((c == ownFirmware) == (k == 31 && j == 0))) &&
  (js.all fun j => (List.range 4).all fun g => (List.range 96).all fun k =>
    let c := farAt j g k
    if s.hasGroup g then s.tierCodeOk true c && ((c == ownFirmware) == (k == 95)) else c == 0) &&
  (js.all fun j => (List.range 6).all fun q => (List.range 448).all fun i =>
    s.slotCodeOk q true (vecAt p.egress j q i) && s.slotCodeOk q false (vecAt p.ingress j q i)) &&
  (js.all fun j => s.portList.all fun q =>
    ((List.range 16).all fun u => (List.range 32).any fun k => nearAt j u k == ownPort q) &&
    ((List.range 4).all fun g => !s.hasGroup g || 4 ≤ ((List.range 96).filter fun k => farAt j g k == ownPort q).length)) &&
  (1 ≤ p.rota.length && p.rota.length ≤ 64 && p.rota.all fun c => c < 64 || c == 0xFF)

/-- The Loom positions of a plan: what a plan may not change while a draft is PENDING or RUNNING (R59). -/
def Plan.loomPart (p : Plan) : Nat × List Nat × List (List (List Bool)) × List (List (List Bool)) :=
  let mark := fun (v : List (List (List Nat))) (code : Nat) => v.map fun a => a.map fun b => b.map fun c => c == code
  (p.patterns, p.rota, mark p.near ownLoom, mark p.egress ownPush)

/-- The plan in force as a plan. -/
def State.planNow (s : State) : Plan := s.tie.plan.getD s.factoryPlan

/-- A draft's energy fits an allowance (spec/08_drafts.md R239). -/
def energyFits (pj watts picks : Nat) : Bool := pj * 850 ≤ watts * picks * 256000000

/-- R59: a PENDING or RUNNING draft does not bear the plan. -/
def State.planHitsDraft (s : State) (p : Plan) : Bool :=
  s.draftBusy && (p.loomPart != s.planNow.loomPart ||
    s.loom.drafts.any fun kv => (kv.2.st == .running || kv.2.st == .pending) &&
      !energyFits kv.2.energy (p.allowances.getD kv.2.ctx 0) s.time.cfg.picks)

/-- TIEUP_SET. DESIGN CHOICE: a plan accepted in pick 0 of the beat before its boundary counts as armed in time (R60; log entry
24). -/
def execTieupSet (m : Mbx) (s : State) : Out :=
  .next <| s.runCommand m 0x0070 (!s.flag m 0) fun s =>
    let len := s.rq m 0 4
    let act := BitVec.ofNat 64 (s.rq m 8 8)
    if 524288 < len then s.fail m mBadArg
    else
      let img := (s.mbox m).bulk.readN 0 len
      if sha256 img ≠ s.rqBytes m 0x10 32 then s.fail m mSigFail
      else if len < 200 ∨ len ≠ 200 + 6272 * (img.getD 0 0).toNat then s.fail m mBadArg
      else
        let p := planOfImage img
        let actOk := act == 0 || (s.beatValid && fourAhead act s.time.beat)
        if !s.planOk p || !actOk then s.fail m mBadArg
        else if s.loomPool < p.allowances.foldl (· + ·) 0 then s.fail m mNoResource
        else if s.planHitsDraft p then s.fail m mState
        else if s.tie.shadow.isSome then s.fail m mBusy
        else
          let act := if s.beatValid && act == 0 then s.time.beat + 4 else act
          (s.modTie fun t => { t with
            shadow := some p, armed := s.time.idx == 0, activation := act, mbx := some m }).await m .tieup

/-- TIEUP_SET with READ: the plan in force into the bulk window, its digest after it (log entry 24). -/
def execTieupSetRead (m : Mbx) (s : State) : Out :=
  .next <| s.runCommand m 0x0070 (s.flag m 0) fun s =>
    let img := s.planNow.image
    let s := s.modMbox m fun b => { b with bulk := b.bulk.writeN 0 (img ++ sha256 img) }
    s.complete m mOk (toLe 8 s.tie.activeBeat.toNat)

/-- The plan switch at a beat boundary (R60): an armed shadow whose beat has come becomes the plan. Where it is not armed in
time, or the boundary starts a recovery beat (R51), or STANDBY holds it back (spec/17_reset_power.md R457), the switch moves to
the next boundary. -/
def State.planBoundary (s : State) (loaded recovery : Bool) : State :=
  match s.tie.shadow with
  | none => s
  | some p =>
    if !s.activates s.tie.activation loaded then s.modTie fun t => { t with armed := true }
    else if !s.tie.armed || recovery || s.standbyHolds then
      s.modTie fun t => { t with armed := true, activation := if s.beatValid then s.time.beat + 1 else 0 }
    else
      let s' := (s.modTie fun t => { t with
        plan := some p, shadow := none, armed := false, activeBeat := s.beatNow, mbx := none }).modNor fun n => { n with plan := some p }
      match s.tie.mbx with
      | some m => s'.markReady m mOk (toLe 8 s.beatNow.toNat)
      | none => s'

/-! ### BEAT_OUT (R37) -/

/-- The pulse of the beat that begins: its width on each output; low where it is not driven. -/
def State.beatOutPulse (s : State) : State :=
  let drive := s.beatValid && !(s.power.safe && s.power.safeCause == 0x06)
  let w := (symbolAt s.time.beat).driven s.loom.missPrev
  s.modTime fun t => { t with beatOut := (List.range 2).map fun i => if drive && t.cfg.outEn.toNat.testBit i then w else 0 }

/-- What the counter does at a beat boundary: it is loaded (R41, R43) or counts (R30); true where it was loaded. -/
def State.countBeat (s : State) : State × Bool :=
  if s.time.masterDue then
    (s.modTime fun t => { t with
      sync := .master, beat := t.cfg.startNumber, masterDue := false, acqLoad := none, acqCount := 0, acqBits := [] }, true)
  else match s.time.acqLoad with
  | some (c, n) =>
    if c ≤ s.time.cycle then
      (s.modTime fun t => { t with sync := .locked, beat := n, markBeat := n, acqLoad := none, holdCount := 0 }, true)
    else (s, false)
  | none =>
    if s.beatValid then (s.modTime fun t => { t with beat := t.beat + 1 }, false)
    else (s, false)

end Sys2Proof.Machine
end

