-- ==== Sys2Proof/Machine/LoomLoad.lean ====
section
/-! DEFINITION. The draft container and the loader's checks (spec/08_drafts.md R213 to R216 and R237 to R243,
spec/09_timing_contract.md R254, R257, R258). -/

namespace Sys2Proof.Machine

/-! ### The container (R214 to R216, R238) -/

/-- A directory entry (R215). -/
structure SecEntry where
  type : Nat
  bay  : Nat
  off  : Nat
  size : Nat
deriving DecidableEq, Repr

/-- The directory of a container. -/
def directory (img : List Byte) : List SecEntry :=
  (List.range (le (slice img 6 2))).map fun i =>
    let e := slice img (0x40 + 16 * i) 16
    { type := le (slice e 0 2), bay := le (slice e 2 1), off := le (slice e 4 4), size := le (slice e 8 4) }

/-- Bytes of one egress mask of DECL (R238). -/
def declMask (portSlots : Nat) : Nat := 8 * ceilDiv portSlots 64

/-- Size of a DECL section. -/
def declSize (patterns portSlots : Nat) : Nat := 8 + patterns * (64 + 6 * declMask portSlots)

/-- Check 3: the header (R214). -/
def headerOk (img : List Byte) (len : Nat) : Bool :=
  let f := fun (off n : Nat) => le (slice img off n)
  64 ≤ len && f 0 4 == 0x444B4D50 && f 4 2 == 1 && 2 ≤ f 6 2 && f 6 2 ≤ 96 && f 8 4 == len &&
    1 ≤ f 0xC 4 && f 0xC 4 ≤ 65536 && f 0x10 2 != 0 && 4 ≤ f 0x12 2 && f 0x12 2 ≤ 4096 && 1 ≤ f 0x14 1 && f 0x14 1 ≤ 64

/-- A section has a whole and permitted number of entries. -/
def entriesOk (img : List Byte) (e : SecEntry) : Bool :=
  let n := fun (size most : Nat) => e.size % size == 0 && 1 ≤ e.size / size && e.size / size ≤ most
  match e.type with
  | 1 => e.size == 128 * le (slice img 0xC 4)
  | 2 => n 32 4096
  | 3 => n 8 16384
  | 4 => n 4 128
  | 5 => n 16 256
  | 6 => e.size == declSize (le (slice img 0x14 1)) (le (slice img e.off 4))
  | _ => false

/-- Two byte ranges are apart. -/
def apart (a b : Nat × Nat) : Bool := a.1 + a.2 ≤ b.1 || b.1 + b.2 ≤ a.1

/-- Every two of a list of ranges are apart. -/
def allApart : List (Nat × Nat) → Bool
  | [] => true
  | a :: t => t.all (apart a) && allApart t

/-- Check 4: the directory and the sections (R215, R216). -/
def sectionsOk (img : List Byte) (len : Nat) : Bool :=
  let es := directory img
  let mask := le (slice img 0x10 2)
  let top := 0x40 + 16 * es.length
  let count := fun (t b : Nat) => (es.filter fun e => e.type == t && e.bay == b).length
  let present := (List.range 16).filter fun b => bit mask b
  top ≤ len &&
    (es.all fun e => 1 ≤ e.type && e.type ≤ 6 && e.off % 8 == 0 && e.off + e.size ≤ len &&
      (if e.type ≤ 4 then e.bay < 16 && bit mask e.bay else e.bay == 0xFF) && entriesOk img e) &&
    (present.all fun b => count 1 b == 1 && count 2 b ≤ 1 && count 3 b ≤ 1 && count 4 b ≤ 1) &&
    count 6 0xFF == 1 && count 5 0xFF ≤ 1 &&
    allApart ((0, top) :: es.map fun e => (e.off, e.size))

/-- Entries of `n` bytes of a section. -/
def secEntries (img : List Byte) (es : List SecEntry) (type bay n : Nat) : List Nat :=
  match es.find? fun e => e.type == type && e.bay == bay with
  | some e => (List.range (e.size / n)).map fun i => le (slice img (e.off + n * i) n)
  | none => []

/-- The draft of a container that has passed checks 3 and 4. -/
def draftOf (img : List Byte) (ctx : Nat) : Draft :=
  let es := directory img
  let mask := le (slice img 0x10 2)
  let f := fun (off n : Nat) => le (slice img off n)
  let bays := ((List.range 16).filter fun b => bit mask b).map fun b =>
    let sec : BaySec :=
      { words := (secEntries img es 1 b 128).map (BitVec.ofNat 1024), streams := (secEntries img es 2 b 32).map (BitVec.ofNat 256)
        vseq := (secEntries img es 3 b 8).map (BitVec.ofNat 64), consts := (secEntries img es 4 b 4).map (BitVec.ofNat 32) }
    (b, sec)
  let decl := match es.find? fun e => e.type == 6 with
    | some e => slice img e.off e.size
    | none => []
  let portSlots := le (slice decl 0 4)
  let rec_ := 64 + 6 * declMask portSlots
  let pats := List.range (f 0x14 1)
  { ctx := ctx, bayMask := BitVec.ofNat 16 mask, wordCount := f 0xC 4, picks := f 0x12 2, patterns := f 0x14 1
    energy := f 0x18 8, execPicks := f 0x20 8, cid := BitVec.ofNat 64 (f 0x28 8), bays := bays
    pushes := (secEntries img es 5 0xFF 16).map (BitVec.ofNat 128)
    declNear := pats.map fun p => (List.range 16).map fun s => le (slice decl (8 + p * rec_ + 4 * s) 4)
    declPort := pats.map fun p => (List.range 6).map fun q =>
      le (slice decl (8 + p * rec_ + 64 + declMask portSlots * q) (declMask portSlots))
    portSlots := portSlots, stores := [] }

/-! ### Failures (R243) -/

/-- A failed check: status, check number, bay, word index, issued-word number. -/
structure LoadFail where
  status : Nat
  check  : Nat
  bay    : Nat := 0xFF
  word   : Nat := 0
  issued : Nat := 2 ^ 64 - 1
deriving DecidableEq, Repr

/-- The response body of DRAFT_LOAD (spec/15_mailboxes.md R415). -/
def loadBody (h : Nat) (f : LoadFail) : List Byte :=
  toLe 1 h ++ toLe 1 f.check ++ toLe 1 f.bay ++ zeros 1 ++ toLe 4 f.word ++ toLe 8 f.issued

/-- The first word, and in it the first bay, that breaks a rule: a failure of a check. -/
def Draft.firstWord (d : Draft) (check status : Nat) (ok : Nat → BitVec 1024 → Bool) : Option LoadFail :=
  (List.range d.wordCount).findSome? fun t => d.bayList.findSome? fun b =>
    if ok b (d.word b t) then none else some { status := status, check := check, bay := b, word := t }

/-- A failure that concerns no word. DESIGN CHOICE: its bay is 0xFF (R243), its word index 0 and its issued-word number all
ones, for which R243 names no value (log entry 29). -/
def plainFail (check status : Nat) (ok : Bool) : Option LoadFail :=
  if ok then none else some { status := status, check := check }

/-! ### Check 5: encodings -/

/-- A vector instruction uses no reserved encoding. -/
def VInstr.encoded (i : VInstr) : Bool :=
  i.opc ≤ 0x15 && i.rm != 3 && i.sources.all selectorOk &&
    (if i.opc = 0x13 then (match loomFmt i.fmt i.tag with | some f => !f.isFp32 | none => false)
     else if i.opc = vLd ∨ i.opc = vSt then (loomFmt i.fmt i.tag).isSome
     else true)

def ArrOp.encoded (o : ArrOp) : Bool :=
  (loomFmt o.fmtS o.tagS).isSome && (loomFmt o.fmtB o.tagB).isSome && !(o.matvec && o.kcLog == 7)

def BufLoad.encoded (l : BufLoad) : Bool := (loomFmt l.fmt l.tag).isSome && !(l.held && l.kcLog == 7)

/-- Array operations and buffer loads of a word. -/
def opsOf (w : BitVec 1024) : List ArrOp := [0, 1].filterMap (arrOp w)
def loadsOf (w : BitVec 1024) : List BufLoad := [0, 1].filterMap (bufLoad w)

/-- Vector instructions of a word that exist. -/
def Draft.vecList (d : Draft) (b : Nat) (w : BitVec 1024) : List VInstr :=
  match vecOf w with
  | some v => (((d.bay b).vseq.drop v.start).take v.len).map vinstrOf
  | none => []

def Draft.check5 (d : Draft) : Option LoadFail :=
  d.firstWord 5 mBadArg fun b w =>
    (opsOf w).all ArrOp.encoded && (loadsOf w).all BufLoad.encoded && (d.vecList b w).all VInstr.encoded

/-! ### Checks 6 and 7: control -/

/-- Check 6. DESIGN CHOICE: COND_R < k is asked only where COND_EN is 1, since the field is without effect elsewhere (log entry
29). -/
def Draft.check6 (d : Draft) : Option LoadFail :=
  (List.range d.wordCount).findSome? fun t => d.bayList.findSome? fun b =>
    let c := ctrlOf (d.word b t)
    if c = d.ctrl t ∧ !(c.stop && c.loop) ∧ (c.condEn = false ∨ c.r < c.k) then none
    else some { status := mBadArg, check := 6, bay := b, word := t }

/-- The closing words: index, target, level (R221). -/
def Draft.loops (d : Draft) : List (Nat × Nat × Nat) :=
  (List.range d.wordCount).filterMap fun t =>
    let c := d.ctrl t
    if c.loop then some (t, c.target, c.level) else none

/-- Two closing words, the first at the lower index: apart, or the first strictly inside with the higher level. -/
def loopsNest (a b : Nat × Nat × Nat) : Bool := a.1 < b.2.1 || (b.2.1 ≤ a.2.1 && b.2.2 < a.2.2)

/-- Issued words up to END; none where a word outside the draft would issue, or the fuel ends. -/
def Draft.countWords (d : Draft) : Nat → DraftPos → Nat → Option Nat
  | 0, _, _ => none
  | n + 1, q, k =>
    if d.wordCount ≤ q.pc then none
    else match q.next (d.ctrl q.pc) with
      | none => some (k + 1)
      | some q' => d.countWords n q' (k + 1)

def Draft.check7 (d : Draft) : Option LoadFail :=
  let ls := d.loops
  match ls.find? fun l => l.1 < l.2.1 || (ls.any fun k => k.1 < l.1 && !loopsNest k l) with
  | some l => some { status := mBadArg, check := 7, word := l.1 }
  | none => plainFail 7 mBadArg
      (d.execPicks ≤ 2 ^ 32 && d.countWords d.execPicks {} 0 == some d.execPicks)

/-! ### Checks 8 to 12: one word -/

def Draft.check8 (d : Draft) : Option LoadFail :=
  d.firstWord 8 mBadArg fun b w =>
    let sec := d.bay b
    let stream := fun (out : Bool) (c : StreamCmd) => c.stream < sec.streams.length && (d.stream b c.stream).out == out
    (sinsOf w).all (stream false) && (soutsOf w).all (stream true) &&
      (match pushOf w with | some p => decide (p.desc < d.pushes.length) | none => true) &&
      (match vecOf w with | some v => decide (v.start + v.len ≤ sec.vseq.length) | none => true) &&
      (d.vecList b w).all fun i => i.sources.all fun x => x < 0x80 || x - 0x80 < sec.consts.length

/-- An array operation obeys R188 to R190 and R231. -/
def ArrOp.legal (o : ArrOp) : Bool :=
  match loomFmt o.fmtS o.tagS, loomFmt o.fmtB o.tagB with
  | some fs, some fb =>
    match rateOf fs fb with
    | none => false
    | some rate =>
      let k := rate.k
      let kc := 2 ^ o.kcLog
      !fs.isFp32 && !fb.isFp32 &&
        (if o.matvec then
          kc * k ≤ 8192 && kc * fb.rowBytes k ≤ 16384 && kc * fb.scaleBytes k ≤ 256 && o.n ≤ 256 / tileCycles rate fs
        else rate != .quarter || o.n ≤ 64) &&
        rowsAligned fs k o.rows o.src o.stride o.scale o.scaleStride
  | _, _ => false

/-- A buffer load obeys R231. -/
def BufLoad.legal (l : BufLoad) : Bool :=
  match loomFmt l.fmt l.tag with
  | some f => !f.isFp32 && l.fits f l.k
  | none => false

def Draft.check9 (d : Draft) : Option LoadFail :=
  d.firstWord 9 mBadArg fun _ w => (opsOf w).all ArrOp.legal && (loadsOf w).all BufLoad.legal

/-- A vector instruction obeys R232 to R234. -/
def VInstr.legal (i : VInstr) : Bool :=
  (if i.opc = 0x0C then !selectsMask i.a && !selectsMask i.b && selectsMask i.c else !i.sources.any selectsMask) &&
    !(i.opc == vSt && i.toAcc && i.fmt != 0xB)

def Draft.check10 (d : Draft) : Option LoadFail :=
  d.firstWord 10 mBadArg fun b w =>
    let is := d.vecList b w
    (is.foldl (fun a i => a + i.issue) 0) ≤ 256 && is.all VInstr.legal

/-- A stream command's bobbin range; a stream whose extent does not exist is judged by check 15. -/
def State.streamInside (s : State) (t : Stream) (c : StreamCmd) : Bool :=
  match s.ext? t.ext with
  | some x => 32 * c.addr + c.count * (if t.out then x.outBytes else x.landBytes) ≤ bobbinBytes
  | none => true

def State.check11 (s : State) (d : Draft) : Option LoadFail :=
  d.firstWord 11 mBadArg fun b w =>
    (sinsOf w ++ soutsOf w).all (fun c => s.streamInside (d.stream b c.stream) c) &&
      (opsOf w).all (fun o => match loomFmt o.fmtS o.tagS, loomFmt o.fmtB o.tagB with
        | some fs, some fb => match rateOf fs fb with
          | some rate => rowsInside fs rate.k o.rows o.src o.stride o.scale o.scaleStride
          | none => false
        | _, _ => false) &&
      (loadsOf w).all (fun l => match loomFmt l.fmt l.tag with
        | some f => rowsInside f l.k l.rows l.src l.stride l.scale l.scaleStride
        | none => false) &&
      (match vecOf w with
        | some v => (d.vecList b w).all fun i =>
          if i.opc = vLd ∨ (i.opc = vSt ∧ i.toAcc = false) then
            match loomFmt i.fmt i.tag with
            | some f => decide (32 * (i.addr + v.addr) + f.vecBytes + f.vecScales ≤ bobbinBytes)
            | none => false
          else true
        | none => true) &&
      (match pushOf w with
        | some p => decide (32 * p.src + 256 * p.blocks ≤ bobbinBytes)
        | none => true)

def State.check12 (s : State) (d : Draft) : Option LoadFail :=
  d.firstWord 12 mBadArg fun _ w => match pushOf w with
    | some p =>
      let q := pushDescOf (d.pushes.getD p.desc 0)
      s.hasPort p.port && q.addr % 256 == 0 && 1 ≤ q.len
    | none => true

/-! ### The issued sequence (R238) -/

/-- What the words of a position name: reads, writes, pushes, with the generators as they stand. -/
def State.wordDemand (s : State) (d : Draft) (q : DraftPos) : IssueAcc :=
  d.bayList.foldl (fun i b =>
    let w := d.word b q.pc
    let i := (sinsOf w).foldl (IssueAcc.sin d b false) i
    let i := (soutsOf w).foldl (IssueAcc.sout d b [] false true) i
    match pushOf w with
    | some p => i.push d [] false p
    | none => i) { s := s, taken := q.taken, progress := q.progress }

/-- Walk over the issued words with fuel; `f` sees the word's number, its position, its demand and what came before. -/
def State.walk {α : Type} (s : State) (d : Draft) (f : α → Nat → DraftPos → IssueAcc → α) :
    Nat → Nat → DraftPos → α → α
  | 0, _, _, a => a
  | n + 1, k, q, a =>
    let i := s.wordDemand d q
    let a := f a k q i
    let q' := { q with taken := i.taken, progress := i.progress }
    match q'.next (d.ctrl q.pc) with
    | none => a
    | some q'' => s.walk d f n (k + 1) q'' a

/-- Sum of a list. -/
def total (l : List Nat) : Nat := l.foldl (· + ·) 0

/-- Check 13 of one word: the bay that breaks a limit, 0xFF for a section; none where all hold. -/
def State.streamLimits (s : State) (d : Draft) (q : DraftPos) (i : IssueAcc) : Option Nat :=
  let land := fun (a : LoomAcc) => match s.ext? a.ext with | some x => x.landBytes | none => 0
  let out := fun (a : LoomAcc) => match s.ext? a.ext with | some x => x.outBytes | none => 0
  let home := fun (a : LoomAcc) => a.loc.home.2 == a.bay
  let bad := fun (b : Nat) =>
    let rs := i.reads.filter fun a => a.bay == b
    let ws := i.writes.filter fun a => a.bay == b
    let push := match pushOf (d.word b q.pc) with | some p => 256 * p.blocks | none => 0
    let far := rs.filter fun a => !home a
    4194304 < total ((rs.filter home).map land) || 524288 < total (far.map land) || 2048 < far.length ||
      4718592 < total (ws.map out) + push || 2048 < (ws.filter fun a => !home a).length
  match d.bayList.find? bad with
  | some b => some b
  | none =>
    let n := fun (as : List LoomAcc) (sec : Nat) => (as.filter fun a => !home a && a.loc.home.2 == sec).length
    if (List.range 16).any fun sec => 2048 < n i.reads sec || 2048 < n i.writes sec then some 0xFF else none

/-- Checks 13 and 14 of a word, and the demand of check 22, collected over the issued words. -/
structure Walked where
  fail13 : Option LoadFail := none
  fail14 : Option LoadFail := none
  fail22 : Option LoadFail := none
  /-- writes and pushes of the word before -/
  writes : List LoomAcc := []
  pushes : List (Nat × List (Nat × List Byte)) := []
  last   : Nat × DraftPos := (0, {})
deriving DecidableEq, Repr

/-- Demand of a pick exceeds the declared positions or slots of its pattern (R254). -/
def Draft.exceeds (d : Draft) (k : Nat) (reads writes : List LoomAcc) (pushes : List (Nat × List (Nat × List Byte))) : Bool :=
  let pattern := k % d.picks % d.patterns
  (allotPositions d pattern (reads ++ writes)).any (fun a => a.pos == 32) ||
    (List.range 6).any fun p =>
      (d.slotDecl pattern p).length < total ((pushes.filter fun x => x.1 == p).map fun x => x.2.length)

/-- One issued word. -/
def State.walkWord (s : State) (d : Draft) (a : Walked) (k : Nat) (q : DraftPos) (i : IssueAcc) : Walked :=
  let fail := fun (status check bay : Nat) =>
    some ({ status := status, check := check, bay := bay, word := q.pc, issued := k } : LoadFail)
  let lastPick := k % d.picks == d.picks - 1
  let late := d.bayList.find? fun b =>
    let w := d.word b q.pc
    lastPick && (!(soutsOf w).isEmpty || (pushOf w).isSome)
  { fail13 := a.fail13.or (match s.streamLimits d q i with | some b => fail mBadArg 13 b | none => none)
    fail14 := a.fail14.or (match late with | some b => fail mBadArg 14 b | none => none)
    fail22 := a.fail22.or (if d.exceeds k i.reads a.writes a.pushes then fail mNoResource 22 0xFF else none)
    writes := i.writes, pushes := i.pushes, last := (k, q) }

/-- Checks 13, 14 and 22 over the issued words, and the pick after the last one. -/
def State.walkDraft (s : State) (d : Draft) : Walked :=
  let a := s.walk d (s.walkWord d) d.execPicks 0 {} {}
  let k := a.last.1 + 1
  { a with fail22 := a.fail22.or (if d.exceeds k [] a.writes a.pushes then
      some { status := mNoResource, check := 22, word := a.last.2.pc, issued := a.last.1 } else none) }

/-! ### Checks 15 to 19: extents -/

/-- Streams of the present bays: bay, index, descriptor. -/
def Draft.streamList (d : Draft) : List (Nat × Nat × Stream) :=
  d.bayList.flatMap fun b => (List.range (d.bay b).streams.length).map fun i => (b, i, d.stream b i)

/-- The first stream that breaks a rule. -/
def Draft.firstStream (d : Draft) (check status : Nat) (ok : Stream → Bool) : Option LoadFail :=
  match d.streamList.find? fun x => !ok x.2.2 with
  | some x => some { status := status, check := check, bay := x.1 }
  | none => none

/-- A draft of a context may stream an extent: granted to it, or a bolt whose policy names it; a BOUND extent is read under
its policy alone (spec/13_isolation_crypto.md R351). -/
def Extent.drafts (x : Extent) (c : Nat) : Bool :=
  x.st == .granted && !x.ending &&
    (if x.bound then (match x.bolt with | some m => bit m.toNat c | none => false) else x.owner == c)

/-- Pages between a stream's lowest and highest element, as first and last page of its extent. -/
def Stream.pages (t : Stream) (x : Extent) : Nat × Nat :=
  let (lo, hi) := t.range x.span
  ((lo.toNat - x.base) / 65536, (hi.toNat + x.span - 1 - x.base) / 65536)

def State.check15 (s : State) (d : Draft) : Option LoadFail :=
  d.firstStream 15 mDenied fun t => match s.ext? t.ext with | some x => x.drafts d.ctx | none => false

def State.check16 (s : State) (d : Draft) : Option LoadFail :=
  d.firstStream 16 mBadArg fun t => match s.ext? t.ext with
    | some x =>
      let (lo, hi) := t.range x.span
      (!t.out || (x.prot == .none && x.cls != .satin)) && t.base % x.span == 0 && decide ((x.base : Int) ≤ lo) &&
        decide (hi + x.span ≤ x.base + x.granules * 2 ^ 21)
    | none => false

def State.check17 (s : State) (d : Draft) : Option LoadFail :=
  d.firstStream 17 mDenied fun t => match s.ext? t.ext with
    | some x => !t.out || !(x.bound || x.sealed || x.sealing)
    | none => true

def State.check18 (s : State) (d : Draft) : Option LoadFail :=
  d.firstStream 18 mState fun t => match s.ext? t.ext with
    | some x => t.out || x.cls != .satin || x.sealed
    | none => true

/-- A page is pinned, near-resident and filled (spec/05_tiering.md R143). -/
def Page.inPlace (p : Page) : Bool := p.pin && p.near && p.st == .settled && !p.zor

def State.check19 (s : State) (d : Draft) : Option LoadFail :=
  d.firstStream 19 mState fun t => match s.ext? t.ext with
    | some x =>
      let (lo, hi) := t.pages x
      (List.range (hi + 1 - lo)).all fun i => (x.page (lo + i)).inPlace
    | none => true

/-! ### Checks 20 to 25: the plan, energy, ports -/

def State.check20 (s : State) (d : Draft) : Option LoadFail :=
  plainFail 20 mState (d.picks == s.time.cfg.picks && d.patterns == s.patterns && d.portSlots == 448)

def State.check21 (s : State) (d : Draft) : Option LoadFail :=
  plainFail 21 mNoResource ((List.range d.patterns).all fun n =>
    (List.range 16).all (fun sec => (d.nearDecl n sec).all fun k => s.nearOwner n sec k == ownLoom) &&
      (List.range 6).all fun p => (d.slotDecl n p).all fun i => (s.port p).slotExists i && s.egressOwner n p i == ownPush)

/-- Energy of a vector instruction (R257). -/
def VInstr.energy (i : VInstr) : Nat :=
  (if i.opc = 0 then 0 else if i.opc = 0x04 then 3600 else if i.opc = 0x12 then 2800 else if i.isLong then 12000 else 2400) +
    (if i.rm = 2 then 600 else 0)

/-- Energy of a row or a tile. -/
def Rate.energy : Rate → Nat
  | .full => 9830
  | .double => 10486
  | .quarter => 19661

/-- Energy of one bay's word (R257, R258), in picojoules. -/
def State.wordEnergy (s : State) (d : Draft) (b : Nat) (w : BitVec 1024) : Nat :=
  let stream := fun (c : StreamCmd) =>
    let t := d.stream b c.stream
    match s.ext? t.ext with
    | some x => c.count * (if t.out then x.outBytes else x.landBytes) / 32 * 8
    | none => 0
  let op := fun (o : ArrOp) => match loomFmt o.fmtS o.tagS, loomFmt o.fmtB o.tagB with
    | some fs, some fb => match rateOf fs fb with
      | some rate => o.n * rate.energy
      | none => 0
    | _, _ => 0
  let load := fun (l : BufLoad) => match loomFmt l.fmt l.tag with
    | some f => ceilDiv (l.rows * (f.rowBytes l.k + f.scaleBytes l.k)) 32 * 8
    | none => 0
  1500 + total ((sinsOf w ++ soutsOf w).map stream) + total ((opsOf w).map op) + total ((loadsOf w).map load) +
    total ((d.vecList b w).map VInstr.energy) + (match pushOf w with | some p => 64 * p.blocks | none => 0)

/-- Energy of the words of an index in all present bays. -/
def State.pickEnergy (s : State) (d : Draft) (pc : Nat) : Nat := total (d.bayList.map fun b => s.wordEnergy d b (d.word b pc))

/-- The largest beat sum E over the issued words (R239): fuel, word number, position, running sum, largest so far. -/
def State.beatEnergy (s : State) (d : Draft) : Nat → Nat → DraftPos → Nat → Nat → Nat
  | 0, _, _, sum, best => max sum best
  | n + 1, k, q, sum, best =>
    let e := s.pickEnergy d q.pc
    let sum' := if k % d.picks = 0 then e else sum + e
    let best' := max best sum'
    match q.next (d.ctrl q.pc) with
    | none => best'
    | some q' => s.beatEnergy d n (k + 1) q' sum' best'

def State.check23 (s : State) (d : Draft) : Option LoadFail :=
  plainFail 23 mBadArg (s.beatEnergy d d.execPicks 0 {} 0 0 == d.energy)

def State.check24 (s : State) (d : Draft) : Option LoadFail :=
  plainFail 24 mNoResource (energyFits d.energy (s.allowance d.ctx) d.picks)

/-- Pushes of a draft: port and descriptor of every enabled push field. -/
def Draft.pushList (d : Draft) : List (Nat × Nat) :=
  ((List.range d.wordCount).flatMap fun t => d.bayList.filterMap fun b =>
    (pushOf (d.word b t)).map fun p => (p.port, p.desc)).eraseDups

/-- A push's port is attached to the context and, where it is confidential, the whole buffer lies in a bounce window (R237). -/
def State.pushOk (s : State) (c : Nat) (d : Draft) (p : Nat × Nat) : Bool :=
  let q := pushDescOf (d.pushes.getD p.2 0)
  (s.port p.1).ctx == some c && (!(s.port p.1).conf || (s.port p.1).inBounce q.addr (256 * q.len))

def State.check25 (s : State) (d : Draft) : Option LoadFail :=
  d.firstWord 25 mDenied fun _ w => match pushOf w with
    | some p => s.pushOk d.ctx d (p.port, p.desc)
    | none => true

/-! ### Check 26: stores (R240) -/

/-- Capacity of the five stores. -/
def storeCap : List Nat := [65536, 4096, 16384, 1024, 1024]

/-- What a draft takes of each store: the largest section of each type. -/
def Draft.storeLens (d : Draft) : List Nat :=
  let most := fun (f : BaySec → Nat) => (d.bays.map fun kv => f kv.2).foldl max 0
  [most fun b => b.words.length, most fun b => b.streams.length, most fun b => b.vseq.length, most fun b => b.consts.length,
   d.pushes.length]

/-- Lowest-numbered free range of a store: it starts at 0 or right after a range in use. -/
def freeRange (cap len : Nat) (used : List (Nat × Nat)) : Option Nat :=
  let cands := (0 :: used.map fun u => u.1 + u.2).filter fun a => a + len ≤ cap && used.all fun u => u.2 == 0 || apart (a, len) u
  if len = 0 then some 0 else cands.foldl (fun best a => match best with | none => some a | some b => some (min a b)) none

/-- The ranges that a draft would take; none where a store has no room. -/
def State.storeRanges (s : State) (d : Draft) : Option (List (Nat × Nat)) :=
  let lens := d.storeLens
  (List.range 5).foldl (fun acc i =>
    match acc, freeRange (storeCap.getD i 0) (lens.getD i 0) (s.loom.drafts.map fun kv => kv.2.stores.getD i (0, 0)) with
    | some l, some a => some (l ++ [(a, lens.getD i 0)])
    | _, _ => none) (some [])

/-- Loaded drafts of a context. -/
def State.draftsOf (s : State) (c : Nat) : Nat := (s.loom.drafts.filter fun kv => kv.2.ctx == c).length

/-! ### The checks in order (R242, R244) -/

/-- The first failure of a list. -/
def firstFail (l : List (Option LoadFail)) : Option LoadFail := l.findSome? id

/-- Checks 5 to 26 of a draft. Where checks 5 to 12 fail, the issued words are not walked. -/
def State.loadChecks (s : State) (d : Draft) : Option LoadFail :=
  match firstFail [d.check5, d.check6, d.check7, d.check8, d.check9, d.check10, s.check11 d, s.check12 d] with
  | some f => some f
  | none =>
    let w := s.walkDraft d
    firstFail [w.fail13, w.fail14, s.check15 d, s.check16 d, s.check17 d, s.check18 d, s.check19 d, s.check20 d, s.check21 d,
      w.fail22, s.check23 d, s.check24 d, s.check25 d,
      plainFail 26 mNoResource (s.draftsOf d.ctx < 4 && (s.storeRanges d).isSome && (Table.free s.loom.drafts 256).isSome)]

/-- Checks 15 to 22, 24 and 25, as DRAFT_START applies them again (R244). -/
def State.startChecks (s : State) (d : Draft) : Option LoadFail :=
  firstFail [s.check15 d, s.check16 d, s.check17 d, s.check18 d, s.check19 d, s.check20 d, s.check21 d,
    (s.walkDraft d).fail22, s.check24 d, s.check25 d]

/-- What streams name, kept for the commands that a running draft refuses (R73, R83, R145). -/
def State.streamedOf (s : State) (d : Draft) : List (Bool × Nat × Nat × Nat) :=
  d.streamList.filterMap fun x => (s.ext? x.2.2.ext).map fun e =>
    let (lo, hi) := x.2.2.pages e
    (x.2.2.out, x.2.2.ext, lo, hi)

end Sys2Proof.Machine
end

