-- ==== Sys2Proof/Machine/Drafts.lean ====
section
/-! DEFINITION. The draft commands (spec/08_drafts.md R213, R240 to R246, spec/15_mailboxes.md R415). -/

namespace Sys2Proof.Machine

/-- The own checks of a draft command begin with NOT_PRESENT, then the context (R404, R403). -/
def State.draftCtx (s : State) (m : Mbx) : Nat ⊕ Nat :=
  if s.hasLoom then s.commandCtx m (s.rq m 0 1) else .inr mNotPresent

/-- A handle that names no draft of the context: DENIED through a port, BAD_ARG elsewhere (R403). -/
def noDraft (m : Mbx) : Nat := match m with | .port _ => mDenied | _ => mBadArg

/-- The draft of a context under a handle. -/
def State.draftOf? (s : State) (c h : Nat) : Option Draft := (s.draft? h).filter fun d => d.ctx == c

/-- Complete a DRAFT_LOAD that fails. -/
def State.loadFail (s : State) (m : Mbx) (f : LoadFail) : State := s.complete m f.status (loadBody 0 f)

/-- Whether a block of the container's range cannot be read (R213): it reads POISON, TORN or DIVERGENT. -/
def State.containerBytes (s : State) (e off len : Nat) : State × Option (List Byte) :=
  let torn := (List.range ((off + len + 255) / 256 - off / 256)).any fun i => s.tornBlock e (off / 256 + i)
  let (s, bs) := s.bytesNow e off len
  (s, if torn || bs.any Option.isNone then none else some (bs.map fun b => b.getD 0))

/-- Load a draft that has passed every check (R240): its handle and its ranges. -/
def State.loadDraft (s : State) (d : Draft) : State × Nat :=
  let h := (Table.free s.loom.drafts 256).getD 0
  let d := { d with stores := (s.storeRanges d).getD [], streamed := s.streamedOf d
                    pushPorts := (d.pushList.map (·.1)).eraseDups }
  (s.modLoom fun l => { l with drafts := Table.set l.drafts h d }, h)

/-- DRAFT_LOAD. DESIGN CHOICE: a container in a BOUND extent of the context completes DENIED, for which R213 has no row (log
entry 29). -/
def execDraftLoad (m : Mbx) (s : State) : Out :=
  .next <| s.runCommand m 0x0060 (!s.flag m 0) fun s =>
    match s.draftCtx m with
    | .inr st => s.loadFail m { status := st, check := if st = mNotPresent then 1 else 0 }
    | .inl c =>
      let addr := s.rq m 8 8
      let len := s.rq m 0x10 8
      match s.extentAt addr with
      | none => s.loadFail m { status := mBadArg, check := 2 }
      | some (e, x, off) =>
        if len = 0 ∨ x.granules * 2 ^ 21 < off + len then s.loadFail m { status := mBadArg, check := 2 }
        else if x.st != .granted || x.ending || x.owner != c || x.bound then s.loadFail m { status := mDenied, check := 2 }
        else if x.cls != .plain then s.loadFail m { status := mBadArg, check := 2 }
        else
          match s.containerBytes e off len with
          | (s, none) => s.loadFail m { status := mBadArg, check := 2 }
          | (s, some img) =>
            if !headerOk img len then s.loadFail m { status := mBadArg, check := 3 }
            else if !sectionsOk img len then s.loadFail m { status := mBadArg, check := 4 }
            else
              let d := draftOf img c
              match s.loadChecks d with
              | some f => s.loadFail m f
              | none =>
                let (s, h) := s.loadDraft d
                s.complete m mOk (loadBody h { status := mOk, check := 0 })

/-- DRAFT_LOAD with UNLOAD. -/
def execDraftUnload (m : Mbx) (s : State) : Out :=
  .next <| s.runCommand m 0x0060 (s.flag m 0) fun s =>
    match s.draftCtx m with
    | .inr st => s.loadFail m { status := st, check := if st = mNotPresent then 1 else 0 }
    | .inl c =>
      let h := s.rq m 1 1
      match s.draftOf? c h with
      | none => s.loadFail m { status := noDraft m, check := 0 }
      | some d =>
        if d.st = .pending ∨ d.st = .running then s.loadFail m { status := mState, check := 0 }
        else
          (s.modLoom fun l => { l with drafts := Table.erase l.drafts h }).complete m mOk
            (loadBody h { status := mOk, check := 0 })

/-- A BEAT_CONFIG or a TIEUP_SET that DRAFT_START refuses is pending (R244). -/
def State.planPending (s : State) : Bool := s.time.pendingCfg.isSome || s.tie.shadow.isSome

/-- The status of R244 that refuses a start. -/
def State.startRefusalOf (s : State) (c : Nat) (d : Draft) (start : W64) : Option Nat :=
  if s.loom.drafts.any fun kv => kv.2.ctx == c && (kv.2.st == .pending || kv.2.st == .running) then some mState
  else if !s.beatValid || s.planPending then some mState
  else if !s.rota.contains c then some mState
  else if start != 0 && !fourAhead start s.time.beat then some mBadArg
  else (s.startChecks d).map (·.status)

/-- DRAFT_START up to PENDING; it completes at the boundary of the first issue beat. -/
def execDraftStart (m : Mbx) (s : State) : Out :=
  .next <| s.runCommand m 0x0061 true fun s =>
    match s.draftCtx m with
    | .inr st => s.fail m st
    | .inl c =>
      let h := s.rq m 1 1
      let start := BitVec.ofNat 64 (s.rq m 8 8)
      match s.draftOf? c h with
      | none => s.fail m mBadArg
      | some d =>
        match s.startRefusalOf c d start with
        | some st => s.fail m st
        | none =>
          (s.modDraft h fun d => { d with
            st := .pending, cause := .none, starter := some m, startMin := if start = 0 then s.time.beat + 4 else start
            pos := {}, issued := 0, ovrBeat := 0, ovrCause := 0, flags := List.replicate 16 0
            streamed := s.streamedOf d }).await m (.draftStart h)

/-- DRAFT_STOP (R245, R246). -/
def execDraftStop (m : Mbx) (s : State) : Out :=
  .next <| s.runCommand m 0x0062 true fun s =>
    match s.draftCtx m with
    | .inr st => s.fail m st
    | .inl c =>
      let h := s.rq m 1 1
      match s.draftOf? c h with
      | none => s.fail m (noDraft m)
      | some d =>
        match d.st with
        | .pending => (s.cancelStart h).complete m mOk (toLe 1 (DraftSt.code .loaded) ++ zeros 7)
        | .running =>
          (s.modDraft h fun d => { d with stopDue := some (d.stopDue.getD .stop) }).await m (.draftStop h)
        | st => s.complete m mOk (toLe 1 st.code ++ zeros 7)

/-- Body of DRAFT_QUERY. -/
def Draft.queryBody (d : Draft) : List Byte :=
  toLe 1 d.st.code ++ toLe 1 d.cause.code ++ toLe 2 d.bayMask.toNat ++ zeros 4 ++ toLe 8 d.cid.toNat ++
    toLe 8 d.startBeat.toNat ++ toLe 8 d.issued ++ toLe 8 d.ovrBeat.toNat ++ toLe 1 d.ovrCause ++ zeros 7 ++
    (List.range 16).flatMap (fun b => toLe 1 (d.flags.getD b 0).toNat) ++ toLe 8 d.energy

/-- DRAFT_QUERY. -/
def execDraftQuery (m : Mbx) (s : State) : Out :=
  .next <| s.runCommand m 0x0063 true fun s =>
    match s.draftCtx m with
    | .inr st => s.fail m st
    | .inl c =>
      match s.draftOf? c (s.rq m 1 1) with
      | none => s.fail m (noDraft m)
      | some d => s.complete m mOk d.queryBody

end Sys2Proof.Machine
end

