-- ==== Sys2Proof/Machine/Spdm.lean ====
section
/-! DEFINITION. Attestation: the SPDM responder over mailboxes and over MCTP (spec/14_identity_roles.md R385 to R387,
spec/15_mailboxes.md R419). Message layouts, codes and signing contexts are those of DMTF DSP0274 1.2 (log entry 30). -/

namespace Sys2Proof.Machine

/-! ### Banks and the running manifest (R380) -/

/-- The NOR image of a bank: true is bank B. -/
def Nor.bank (n : Nor) (b : Bool) : Mem := if b then n.bankB else n.bankA

/-- Copy A of the boot control record governs: it is valid, and newer than a valid copy B (R381). -/
def Nor.bootNewerA (n : Nor) : Bool := n.bootA.valid && (!n.bootB.valid || decide (n.bootB.seq < n.bootA.seq))

/-- The boot control record in force. -/
def Nor.bootRec (n : Nor) : BootRec := if n.bootNewerA then n.bootA else n.bootB

/-- ACTIVE of the record in force: true is bank B. -/
def Nor.activeB (n : Nor) : Bool := n.bootRec.activeB

/-- TRIAL of the record in force. -/
def Nor.trialB (n : Nor) : Bool := n.bootRec.trialB

/-- T_STATE of the record in force. -/
def Nor.tState (n : Nor) : TState := n.bootRec.tState

/-- Write the boot control record: the copy that does not govern takes the new contents and the next sequence number. -/
def Nor.writeBoot (n : Nor) (active trial : Bool) (t : TState) : Nor :=
  let r : BootRec := { seq := n.bootRec.seq + 1, activeB := active, trialB := trial, tState := t }
  if n.bootNewerA then { n with bootB := r } else { n with bootA := r }

/-- The bank that runs. -/
def State.runningB (s : State) : Bool := s.umpire.boot.toNat.testBit 0

/-- The 256-byte manifest of a bank. -/
def State.manifest (s : State) (b : Bool) : List Byte := (s.nor.bank b).readN 0 256

/-! ### Measurements (R386) -/

/-- A die record as the die holds it. -/
def DieRec.bytes (d : DieRec) : List Byte :=
  toLe 4 d.lot.toNat ++ toLe 1 d.wafer.toNat ++ [d.x, d.y] ++ toLe 4 d.crc.toNat

/-- Fuse bytes as readouts show them: IDENTITY_SEED reads 0 (R356). -/
def Fuses.readout (f : Fuses) (off n : Nat) : List Byte :=
  (List.range n).map fun i => if 0x40 ≤ off + i ∧ off + i < 0x70 then 0 else f.shadow.read (off + i)

/-- DSP0274 value type and value of a measurement block. -/
def State.measured (s : State) (i : Nat) : Nat × List Byte :=
  let u := s.umpire
  match i with
  | 1 => (0x00, (List.range 32).map Config.romDigest)
  | 2 => (0x01, sha256 (s.manifest s.runningB))
  | 3 => (0x87, toLe 1 u.svn ++ toLe 1 s.fuses.svnF)
  | 4 => (0x02, sha256 (s.fuses.readout 0 273))
  | 5 => (0x85, toLe 4 (b2n s.fuses.debugDisabled + 2 * b2n u.debugUnlocked + 4 * b2n s.commissioned +
      8 * b2n u.updateStaged + 16 * b2n u.trialRunning))
  | 6 => (0x02, sha256 (s.fuses.dieShadow.flatMap DieRec.bytes))
  | 7 => (0x03, sha256 (s.planNow.image ++ (s.time.cfg.body 0).take 16))
  | _ => (0x04, if u.updateStaged then sha256 (s.manifest (!s.runningB)) else zeros 32)

/-- Measurement block `i` in DMTF format. -/
def State.measurement (s : State) (i : Nat) : List Byte :=
  let v := s.measured i
  toLe 1 i ++ toLe 1 1 ++ toLe 2 (v.2.length + 3) ++ toLe 1 v.1 ++ toLe 2 v.2.length ++ v.2

/-- All eight blocks. -/
def State.measurements (s : State) : List Byte := ((List.range 8).map (· + 1)).flatMap s.measurement

/-! ### Messages (DSP0274) -/

/-- An ERROR response. -/
def spdmError (ver code data : Nat) : List Byte := toLe 1 ver ++ toLe 1 0x7F ++ toLe 1 code ++ toLe 1 data

/-- Length of a message that covers the bytes that a code's request must have. -/
def spdmMin (code : Nat) : Nat :=
  match code with
  | 0x82 => 8
  | 0x83 => 36
  | 0xE1 => 20
  | 0xE3 => 32
  | _ => 4

/-- The prefix of a 1.2 signature: 64 bytes of the version text, zeros, and the context, 100 bytes in all. -/
def signPrefix (context : String) : List Byte :=
  let v := ascii "dmtf-spdm-v1.2.*"
  v ++ v ++ v ++ v ++ zeros (36 - context.length) ++ ascii context

/-- A signature of the device identity key over a transcript. -/
def State.spdmSign (s : State) (context : String) (transcript nonce : List Byte) : List Byte :=
  ecdsaSign s.umpire.idKey (ecScalar nonce) (sha256 (signPrefix context ++ sha256 transcript))

/-- What a request leaves: the random bytes drawn, the connection, the response. -/
structure SpdmReply where
  drawn : Nat := 0
  conn  : SpdmConn
  resp  : List Byte
deriving DecidableEq, Repr

/-- VERSION: version 1.2 alone; a new connection begins. -/
def spdmVersion (msg : List Byte) : SpdmReply :=
  let r := [0x10#8, 0x04#8, 0#8, 0#8, 0#8, 1#8, 0x00#8, 0x12#8]
  { conn := { stage := 1, vca := msg ++ r }, resp := r }

/-- CAPABILITIES: CERT_CAP, CHAL_CAP and MEAS_CAP with signature; both transfer sizes 1,024. CTExponent is left open. -/
def State.spdmCapabilities (s : State) (c : SpdmConn) (msg : List Byte) : SpdmReply :=
  let r := [0x12#8, 0x61#8, 0#8, 0#8, 0#8, Config.spdmByte s.freeCount, 0#8, 0#8] ++ toLe 4 0x16 ++ toLe 4 1024 ++ toLe 4 1024
  { conn := { c with stage := 2, vca := c.vca ++ msg ++ r }, resp := r }

/-- ALGORITHMS: ECDSA P-256, SHA-256, the DMTF measurement specification; none of them offered: InvalidRequest. -/
def spdmAlgorithms (c : SpdmConn) (msg : List Byte) : SpdmReply :=
  let offered := fun (off n i : Nat) => bit (le (slice msg off n)) i
  if !(offered 6 1 0 && offered 8 4 4 && offered 12 4 0) then { conn := c, resp := spdmError 0x12 0x01 0 }
  else
    let r := [0x12#8, 0x63#8, 0#8, 0#8] ++ toLe 2 36 ++ toLe 1 1 ++ toLe 1 0 ++ toLe 4 2 ++ toLe 4 0x10 ++ toLe 4 1 ++ zeros 16
    { conn := { c with stage := 3, vca := c.vca ++ msg ++ r }, resp := r }

/-- DIGESTS of slot 0. -/
def State.spdmDigests (s : State) (c : SpdmConn) (msg : List Byte) : SpdmReply :=
  let r := [0x12#8, 0x01#8, 0#8, 1#8] ++ sha256 s.nor.certChain
  { conn := { c with certs := c.certs ++ msg ++ r, meas := [] }, resp := r }

/-- CERTIFICATE: a portion of the chain of slot 0. -/
def State.spdmCertificate (s : State) (c : SpdmConn) (msg : List Byte) : SpdmReply :=
  let c : SpdmConn := { c with meas := [] }
  let chain := s.nor.certChain
  let off := le (slice msg 4 2)
  let n := min (min (le (slice msg 6 2)) 1016) (chain.length - off)
  if s.umpire.idBad then { conn := c, resp := spdmError 0x12 0x05 0 }
  else if (msg.getD 2 0) % 16 != 0 || (off != 0 && chain.length ≤ off) then { conn := c, resp := spdmError 0x12 0x01 0 }
  else
    let r := [0x12#8, 0x02#8, 0#8, 0#8] ++ toLe 2 n ++ toLe 2 (chain.length - off - n) ++ slice chain off n
    { conn := { c with certs := c.certs ++ msg ++ r }, resp := r }

/-- The measurement summary hash that a CHALLENGE asks for: none, the TCB's blocks (left open), or all blocks. -/
def State.summary (s : State) (kind : Nat) : Option (List Byte) :=
  match kind with
  | 0 => some []
  | 1 => some ((List.range 32).map fun i => Config.spdmByte (s.freeCount + 1 + i))
  | 0xFF => some (sha256 s.measurements)
  | _ => none

/-- CHALLENGE_AUTH. -/
def State.spdmChallenge (s : State) (c : SpdmConn) (msg : List Byte) : SpdmReply :=
  let c : SpdmConn := { c with meas := [] }
  if s.umpire.idBad then { conn := c, resp := spdmError 0x12 0x05 0 }
  else
    match (if msg.getD 2 0 = 0 then s.summary (msg.getD 3 0).toNat else none) with
    | none => { conn := c, resp := spdmError 0x12 0x01 0 }
    | some h =>
      let r := [0x12#8, 0x03#8, 0#8, 1#8] ++ sha256 s.nor.certChain ++ s.random 32 ++ h ++ toLe 2 0
      let sig := s.spdmSign "responder-challenge_auth signing" (c.vca ++ c.certs ++ msg ++ r) (slice (s.random 64) 32 32)
      { drawn := 64, conn := { c with certs := [] }, resp := r ++ sig }

/-- Blocks that an operation names: their number, and their record. -/
def State.measureOp (s : State) (op : Nat) : Option (Nat × List Byte) :=
  if op = 0 then some (0, [])
  else if op = 0xFF then some (8, s.measurements)
  else if op ≤ 8 then some (1, s.measurement op)
  else none

/-- MEASUREMENTS: with a signature where the request asks for one. -/
def State.spdmMeasurements (s : State) (c : SpdmConn) (msg : List Byte) : SpdmReply :=
  let c : SpdmConn := { c with certs := [] }
  let op := (msg.getD 3 0).toNat
  let signed := bit (msg.getD 2 0).toNat 0
  let bad := signed && (msg.length < 37 || (msg.getD 36 0) % 16 != 0)
  match (if bad then none else s.measureOp op) with
  | none => { conn := { c with meas := [] }, resp := spdmError 0x12 0x01 0 }
  | some (n, rec_) =>
    let r := [0x12#8, 0x60#8] ++ toLe 1 (if op = 0 then 8 else 0) ++ toLe 1 0 ++ toLe 1 n ++ toLe 3 rec_.length ++ rec_ ++
      s.random 32 ++ toLe 2 0
    if signed then
      let sig := s.spdmSign "responder-measurements signing" (c.vca ++ c.meas ++ msg ++ r) (slice (s.random 64) 32 32)
      { drawn := 64, conn := { c with meas := [] }, resp := r ++ sig }
    else { drawn := 32, conn := { c with meas := c.meas ++ msg ++ r }, resp := r }

/-- The stage in which a code is expected; none for a request that the responder does not support (R385). -/
def spdmStage (code : Nat) : Option Nat :=
  match code with
  | 0xE1 => some 1
  | 0xE3 => some 2
  | 0x81 | 0x82 | 0x83 | 0xE0 => some 3
  | _ => none

/-- The responder: version, code, order, length, then the request's own reply. -/
def State.spdmReply (s : State) (c : SpdmConn) (msg : List Byte) : SpdmReply :=
  let ver := (msg.getD 0 0).toNat
  let code := (msg.getD 1 0).toNat
  let mine := if c.stage = 0 then 0x10 else 0x12
  if code = 0x84 then (if ver = 0x10 then spdmVersion msg else { conn := c, resp := spdmError mine 0x41 0 })
  else if ver ≠ 0x12 then { conn := c, resp := spdmError mine 0x41 0 }
  else match spdmStage code with
    | none => { conn := c, resp := spdmError mine 0x07 code }
    | some k =>
      if c.stage ≠ k then { conn := c, resp := spdmError mine 0x04 0 }
      else if msg.length < spdmMin code then { conn := c, resp := spdmError mine 0x01 0 }
      else match code with
        | 0xE1 => s.spdmCapabilities c msg
        | 0xE3 => spdmAlgorithms c msg
        | 0x81 => s.spdmDigests c msg
        | 0x82 => s.spdmCertificate c msg
        | 0x83 => s.spdmChallenge c msg
        | _ => s.spdmMeasurements c msg

/-- The state after a reply: random bytes and free values used. -/
def State.afterReply (s : State) (r : SpdmReply) : State :=
  ((s.drewRandom r.drawn).setFreeCount (s.freeCount + 33))

/-- Response body of SPDM_MSG (R419). -/
def spdmBody (resp : List Byte) : List Byte := toLe 4 resp.length ++ zeros 4 ++ padTo (ceilDiv resp.length 8 * 8) resp

/-- SPDM_MSG. -/
def execSpdmMsg (m : Mbx) (s : State) : Out :=
  .next <| s.runCommand m 0x00A0 true fun s =>
    let n := s.rq m 0 4
    if n < 4 ∨ 1024 < n then s.fail m mBadArg
    else
      let r := s.spdmReply (s.mbox m).spdm (s.rqBytes m 8 n)
      ((s.afterReply r).modMbox m fun b => { b with spdm := r.conn }).complete m mOk (spdmBody r.resp)

/-- MCTP_SPDM_MESSAGE: an SPDM message at the I3C target; Busy while no firmware is ready (R384, R387). -/
def execMctpSpdmMessage (msg : List Byte) (s : State) : Out :=
  .next <|
    if s.power.stage < 7 || msg.length < 4 || 1024 < msg.length then s
    else if !s.umpire.ready then s.modUmpire fun u => { u with mctpOut := spdmError 0x12 0x03 0 }
    else
      let r := s.spdmReply s.umpire.mctp msg
      (s.afterReply r).modUmpire fun u => { u with mctp := r.conn, mctpOut := r.resp }

end Sys2Proof.Machine
end

