-- ==== Sys2Proof/Machine/Firmware.lean ====
section
/-! DEFINITION. Firmware staging and activation, FUSE_PROGRAM, AUDIT_READ and MAKER_UNLOCK (spec/14_identity_roles.md R371
and R376 to R384, spec/15_mailboxes.md R421 and R422). -/

namespace Sys2Proof.Machine

/-! ### Images (R380) -/

/-- Why an image is not valid. -/
inductive BadImage where
  | format | signature | rollback | stepping
deriving DecidableEq, Repr

/-- Bytes of a bank that have been staged. -/
def Nor.bankSize (n : Nor) (b : Bool) : Nat := if b then n.sizeB else n.sizeA

/-- The first condition of R380 that the image of a bank fails. -/
def State.badImage (s : State) (b : Bool) : Option BadImage :=
  let h := s.manifest b
  let img := (s.nor.bank b).readN 256 (le (slice h 8 4))
  let pub := slice h 0x30 64
  if le (slice h 0 4) != 0x574D4B50 || le (slice h 4 2) != 1 || 16777216 < le (slice h 8 4) then some .format
  else if sha256 pub != s.fuses.shadow.readN 0x10 32 || !ecdsaVerify pub (sha256 (slice h 0 0xC0)) (slice h 0xC0 64) ||
      s.nor.bankSize b != 256 + le (slice h 8 4) || slice h 0x10 32 != sha256 img then some .signature
  else if le (slice h 6 1) < s.fuses.svnF then some .rollback
  else if le (slice h 7 1) != s.fuses.field 7 1 then some .stepping
  else none

/-- The image of a bank is valid. -/
def State.bankValid (s : State) (b : Bool) : Bool := (s.badImage b).isNone

/-- Status of a stage whose last chunk shows a bad image (R382). -/
def BadImage.status : BadImage → Nat
  | .format => mBadArg
  | .signature => mSigFail
  | .rollback => mDenied
  | .stepping => mBadArg

/-! ### FW_STAGE, FW_ACTIVATE -/

/-- A stage of another mailbox is in progress. -/
def State.stageBusy (s : State) (m : Mbx) : Bool :=
  match s.umpire.stage with
  | some (o, _) => o != m
  | none => false

/-- Change the image of a bank. -/
def Nor.setBank (n : Nor) (b : Bool) (m : Mem) (size : Nat) : Nor :=
  if b then { n with bankB := m, sizeB := size } else { n with bankA := m, sizeA := size }

/-- A chunk lands in the bank that does not run; offset 0 begins a new stage. -/
def State.stageChunk (s : State) (m : Mbx) (off : Nat) (chunk : List Byte) : State :=
  let b := !s.runningB
  let old : Mem := if off = 0 then [] else s.nor.bank b
  (s.modNor fun n => n.setBank b (Mem.writeN old off chunk) (off + chunk.length)).modUmpire fun u =>
    { u with stage := some (m, off + chunk.length), updateStaged := if off = 0 then false else u.updateStaged }

/-- FW_STAGE of a chunk. -/
def execFwStage (m : Mbx) (s : State) : Out :=
  .next <| s.runCommand m 0x00C0 (!s.flag m 1) fun s =>
    let off := s.rq m 0 4
    let len := s.rq m 4 4
    let last := s.flag m 0
    let chunk := (s.mbox m).bulk.readN 0 len
    let next := match s.umpire.stage with
      | some (_, n) => n
      | none => 0
    if s.stageBusy m then s.fail m mBusy
    else if len < 256 || 524288 < len || (len % 256 != 0 && !last) then s.fail m mBadArg
    else if sha256 chunk != s.rqBytes m 8 32 then s.fail m mSigFail
    else if (off != 0 && off != next) || 256 + 16777216 < off + len then s.fail m mBadArg
    else
      let s := s.stageChunk m off chunk
      if !last then s.complete m mOk (toLe 4 (off + len) ++ zeros 4)
      else
        let s := s.modUmpire fun u => { u with stage := none }
        match s.badImage (!s.runningB) with
        | some e => s.fail m e.status
        | none => (s.modUmpire fun u => { u with updateStaged := true }).complete m mOk (toLe 4 (off + len) ++ zeros 4)

/-- FW_STAGE with DISCARD. -/
def execFwStageDiscard (m : Mbx) (s : State) : Out :=
  .next <| s.runCommand m 0x00C0 (s.flag m 1) fun s =>
    if s.stageBusy m then s.fail m mBusy
    else if s.rq m 4 4 != 0 then s.fail m mBadArg
    else (s.modUmpire fun u => { u with stage := none, updateStaged := false }).complete m mOk (zeros 8)

/-- FW_ACTIVATE: the trial is armed; outside SAFE a restart follows. -/
def execFwActivate (m : Mbx) (s : State) : Out :=
  .next <| s.runCommand m 0x00C1 true fun s =>
    if !s.umpire.updateStaged || (!s.ctxs.isEmpty && !s.flag m 0) then s.fail m mState
    else
      let b := !s.runningB
      let s := s.modNor fun n => n.writeBoot n.activeB b .armed
      let s := s.complete m mOk (toLe 1 (b2n b) ++ zeros 7)
      s.modUmpire fun u => { u with restartDue := !s.power.safe }

/-! ### FUSE_PROGRAM (R371) -/

/-- The supply or the thermal state forbids programming: a brace, SAFE, input outside 44.0 V to 58.0 V. -/
def State.fuseBlocked (s : State) : Bool := s.power.braced || s.power.safe || s.power.inputAlert

/-- End a FUSE_PROGRAM that blows nothing. -/
def State.fuseEnd (s : State) (m : Mbx) (status : Nat) : State := s.complete m status (s.fuseBody 0)

/-- Fuses of a byte range whose image bits are 1 and that are not blown, in ascending order. -/
def Fuses.missing (f : Fuses) (first : Nat) (image : List Byte) : List Nat :=
  (List.range (8 * image.length)).filterMap fun i =>
    if bit (image.getD (i / 8) 0).toNat (i % 8) && !f.blown (8 * first + i) then some (8 * first + i) else none

/-- Programming begins: the command waits until it ends. -/
def State.fuseStart (s : State) (m : Mbx) (todo : List Nat) : State :=
  (s.modUmpire fun u => { u with fuseJob := some { mbx := m, todo := todo, blown := 0 } }).await m .fuse

/-- A fuse of the INSTALLER region is blown that the image does not ask for. -/
def Fuses.contradicts (f : Fuses) (image : List Byte) : Bool :=
  (List.range 1024).any fun i => f.blown (0x400 + i) && !bit (image.getD (i / 8) 0).toNat (i % 8)

/-- The region image with its reserved bytes 0x0C1 to 0x0F7 and 0x0FD on and bits [7:4] of LOCK, which are ignored, as 0 (R9,
R358). -/
def installerImage (image : List Byte) : List Byte :=
  image.take 0x41 ++ zeros 0x37 ++ slice image 0x78 4 ++ [image.getD 0x7C 0 &&& 0x0F#8] ++ zeros 3

/-- FUSE_PROGRAM INSTALLER: the key record, then the fields, INSTALLER_CRC and LOCK in ascending bit order. -/
def execFuseProgramInstaller (m : Mbx) (s : State) : Out :=
  .next <| s.runCommand m 0x00D0 (s.rq m 0 1 == 0) fun s =>
    let image := installerImage (s.rqBytes m 0x08 128)
    let key := s.rqBytes m 0x88 64
    if s.fuseBlocked || s.fuses.locked || s.fuses.contradicts image then s.fuseEnd m mState
    else if le (slice image 0x78 4) != crc32 (image.take 120) || image.take 32 != sha256 key || image.getD 0x7C 0 != 0x0F then
      s.fuseEnd m mBadArg
    else (s.modNor fun n => { n with installerKey := key }).fuseStart m (s.fuses.missing 0x80 (image.take 125))

/-- FUSE_PROGRAM RESTORE_KEY: the key record again, no fuse. -/
def execRestoreKey (m : Mbx) (s : State) : Out :=
  .next <| s.runCommand m 0x00D0 (s.rq m 0 1 == 1) fun s =>
    let key := s.rqBytes m 0x08 64
    if s.fuseBlocked || !s.commissioned then s.fuseEnd m mState
    else if sha256 key != s.fuses.shadow.readN 0x80 32 then s.fuseEnd m mBadArg
    else ((s.modNor fun n => { n with installerKey := key }).modUmpire fun u => { u with keyBad := false }).fuseEnd m mOk

/-- FUSE_PROGRAM ROLLBACK: the pairs from SVN_F up to the target. -/
def execFuseProgramRollback (m : Mbx) (s : State) : Out :=
  .next <| s.runCommand m 0x00D0 (s.rq m 0 1 == 2) fun s =>
    let v := s.rq m 1 1
    let f := s.fuses.svnF
    if s.fuseBlocked then s.fuseEnd m mState
    else if v ≤ f || s.umpire.svn < v then s.fuseEnd m mBadArg
    else if s.umpire.trialRunning then s.fuseEnd m mState
    else s.fuseStart m (((List.range (2 * (v - f))).map (0x800 + 2 * f + ·)).filter fun i => !s.fuses.blown i)

/-- FUSE_PROGRAM DEBUG_DISABLE; a FUNCTION of no form completes BAD_ARG. -/
def execFuseProgramDebugDisable (m : Mbx) (s : State) : Out :=
  .next <| s.runCommand m 0x00D0 (decide (3 ≤ s.rq m 0 1)) fun s =>
    if 3 < s.rq m 0 1 then s.fuseEnd m mBadArg
    else if s.fuseBlocked then s.fuseEnd m mState
    else if s.fuses.debugDisabled then s.fuseEnd m mOk
    else s.fuseStart m (((List.range 4).map (0x880 + ·)).filter fun i => !s.fuses.blown i)

/-! ### AUDIT_READ (R377, R421) -/

/-- SEQ of a record. -/
def auditSeqOf (r : AuditRec) : Nat := le (slice r 0 8)

/-- OLDEST and NEWEST; an empty log leaves both open. -/
def State.auditRange (s : State) : List Byte :=
  match s.nor.audit.head?, s.nor.audit.getLast? with
  | some a, some b => toLe 8 (auditSeqOf a) ++ toLe 8 (auditSeqOf b)
  | _, _ => (List.range 16).map fun i => Config.openByte (s.freeCount + i)

/-- AUDIT_READ. -/
def execAuditRead (m : Mbx) (s : State) : Out :=
  .next <| s.runCommand m 0x00D1 true fun s =>
    let n := s.rq m 8 1
    if n < 1 ∨ 7 < n then s.fail m mBadArg
    else
      let rs := (s.nor.audit.filter fun r => s.rq m 0 8 ≤ auditSeqOf r).take n
      let body := toLe 1 rs.length ++ zeros 7 ++ s.auditRange ++ rs.flatMap id
      (s.setFreeCount (s.freeCount + 16)).complete m mOk body

/-! ### MAKER_UNLOCK (R379) -/

/-- The key store is zeroed. -/
def State.zeroKeys (s : State) : State :=
  let s := s.modUmpire fun u => { u with idKey := 0, kaKey := 0 }
  ((s.setPorts (s.ports.map fun (q : Port) => { q with keyE := none, keyI := none, keyINext := none, xferKey := none })).setExts (Table.mapV s.exts fun _ (x : Extent) => { x with boundKey := none }))

/-- MAKER_UNLOCK. -/
def execMakerUnlock (m : Mbx) (s : State) : Out :=
  .next <| s.runCommand m 0x0100 true fun s =>
    if s.fuses.debugDisabled then s.fail m mDenied
    else if !s.ctxs.isEmpty || s.exts.any fun kv => kv.2.st != .ungranted then s.fail m mState
    else (s.zeroKeys.modUmpire fun u => { u with debugUnlocked := true }).complete m mOk []

end Sys2Proof.Machine
end

