-- ==== Sys2Proof/Machine/Link.lean ====
section
/-! DEFINITION. The Sejor link: ingress frames and the records they carry, egress frames, credit, confidential mode
(spec/10_host_link.md R262 to R289). -/

namespace Sys2Proof.Machine

/-! ### Records (R269) -/

/-- The record at a place of a frame's bytes. -/
def recordAt (bytes : List Byte) (off : Nat) : W64 := BitVec.ofNat 64 (le (slice bytes off 8))

/-- A completion record. -/
def cplRecord (c : Cpl) (opc st : Nat) : W64 := BitVec.ofNat 64 (st * 2 ^ 16 + c.tag * 2 ^ 4 + opc)

/-- A request record of the expander: a write names its source in TAG (R277). -/
def reqRecord (opc tag addr : Nat) : W64 := BitVec.ofNat 64 (addr / 64 * 2 ^ 18 + tag * 2 ^ 4 + opc)

/-- The two records of an event. -/
def evtRecords (e : Evt) : W64 × W64 :=
  (BitVec.ofNat 64 (e.p0.toNat * 2 ^ 32 + e.code * 2 ^ 4 + opcEvt), e.p1)

/-! ### Layout (R266) -/

/-- Groups of a frame. -/
def groupCount (width : Nat) : Nat := slotCount width / 32

/-- Flit time of a group's record flit, and of a slot's data. -/
def groupFlit (g : Nat) : Nat := 1 + 33 * g
def slotFlit (i : Nat) : Nat := 2 + 33 * (i / 32) + i % 32

/-- First tail record flit. -/
def tailFlit (width : Nat) : Nat := 1 + 33 * groupCount width

/-! ### Keys (R286, R287) -/

/-- The IV of a frame: direction, port, two zero bytes, FRAME. -/
def frameIv (dir p frame : Nat) : List Byte := toLe 1 dir ++ toLe 1 p ++ zeros 2 ++ toLe 8 frame

/-- The key of the next generation `g`. -/
def nextKey (k : List Byte) (dir p g : Nat) : List Byte :=
  hmac k (ascii "SEJOR-REKEY" ++ toLe 1 dir ++ toLe 1 p ++ toLe 8 g)

/-- The transmitter moves to the next generation in a frame whose FRAME is a multiple of 2^23. -/
def Port.rekey (q : Port) (p : Nat) : Port :=
  if q.conf ∧ q.txFrame % 2 ^ 23 = 0 ∧ q.rekeyAt ≠ some q.txFrame then
    { q with keyE := q.keyE.map fun k => nextKey k 0 p (q.genE + 1), genE := q.genE + 1
             keyPhase := (q.genE + 1) % 2 == 1, rekeyAt := some q.txFrame }
  else q

/-- REKEY: the transmit key moves on for the frame to come (R287). -/
def execRekey (p : Nat) (s : State) : Out := .next (s.modPort p fun q => q.rekey p)

/-- CONF_START: the frame to come is the first encrypted one, at least 8 frames after KEY_AGREE (R285). -/
def execConfStart (p : Nat) (s : State) : Out :=
  .next (s.modPort p fun q =>
    match q.confFrom with
    | some k => if !q.conf && k ≤ q.txFrame then { q with conf := true, confFrom := some q.txFrame } else q
    | none => q)

/-! ### Ingress -/

/-- The egress HEADs whose grants an ingress frame may still use: the last 16 (log entry 20). -/
def grantWindow : Nat := 16

/-- HEADs that count against the request queue: the last 8 (log entry 20). -/
def creditWindow : Nat := 8

/-- What the records of a frame have taken so far: RD_CREDIT left, arrivals in port order, faults counted. -/
structure Parse where
  credit : Nat
  out    : List Arrival := []
  errs   : Nat := 0
  /-- the record is the second of an EVT -/
  skip   : Bool := false

/-- One record of an ingress frame: slot number and its data for a slot record (R271, R275, R278). -/
def parseRecord (g : Grant) (pick : Nat) (w : W64) (slot : Option Nat) (data : List Byte) (damaged : Bool) (a : Parse) : Parse :=
  if a.skip then { a with skip := false }
  else
    let o := recOpc w
    let arr : Arrival := { rec_ := w, data := data, slot := slot, damaged := damaged, credit := true, pick := pick }
    if o = opcNull then if data.any (· != 0) then { a with errs := a.errs + 1 } else a
    else if o = opcEvt then { a with errs := a.errs + 1, skip := true }
    else if o > opcEvt then { a with errs := a.errs + 1 }
    else if o = opcCpl then { a with out := a.out ++ [{ arr with damaged := false }] }
    else if o = opcCplD then
      { a with out := a.out ++ [{ arr with credit := match slot with | some i => g.cpl.contains i | none => false }] }
    else if o = opcWr64 ∨ o = opcWr256 ∨ o = opcWrp ∨ (o = opcMbx ∧ recDir w) then
      { a with out := a.out ++ [{ arr with credit := match slot with | some i => g.host.contains i | none => false }] }
    else
      { a with out := a.out ++ [{ arr with credit := decide (0 < a.credit), damaged := false }], credit := a.credit - 1 }

/-- The record flits of a frame in order: flit time, and the first slot number of a group. -/
def recordFlits (width : Nat) : List (Nat × Option Nat) :=
  ((List.range (groupCount width)).map fun g => (groupFlit g, some (32 * g))) ++
    (List.range (tailCount width / 32)).map fun t => (tailFlit width + t, none)

/-- Records of one record flit. -/
def parseFlit (g : Grant) (pick : Nat) (f : RxFrame) (bytes : List Byte) (conf : Bool) (width : Nat) (a : Parse)
    (fl : Nat × Option Nat) : Parse :=
  if f.badFlits.contains fl.1 then a
  else
    let n := if conf ∧ fl.2.isNone ∧ fl.1 + 1 = tailFlit width + tailCount width / 32 then 30 else 32
    let a := (List.range n).foldl (fun a r =>
      let w := recordAt bytes (256 * fl.1 + 8 * r)
      match fl.2 with
      | some i =>
        let df := slotFlit (i + r)
        parseRecord g pick w (some (i + r)) (slice bytes (256 * df) 256) (f.badFlits.contains df) a
      | none => parseRecord g pick w none [] false a) a
    { a with skip := false }

/-- Every record of a frame. -/
def parseFrame (g : Grant) (pick : Nat) (f : RxFrame) (bytes : List Byte) (conf : Bool) (width : Nat) : Parse :=
  (recordFlits width).foldl (parseFlit g pick f bytes conf width) { credit := g.rdCredit }

/-- FRAME of an ingress HEAD. -/
def frameNo (bytes : List Byte) : Nat := le (slice bytes 8 8)

/-- The plaintext of an encrypted frame, with the port as it then stands; none where its tag fails (R286 to R288). -/
def Port.openFrame (q : Port) (p : Nat) (bytes : List Byte) : Option (List Byte × Port) :=
  let phase := bit (bytes.getD 0 0).toNat 4
  let isNext := phase != (q.genI % 2 == 1)
  let total := 256 * (tailFlit q.width + tailCount q.width / 32)
  let aad := slice bytes 0 256
  let ct := slice bytes 256 (total - 256 - 16)
  match (if isNext then q.keyINext else q.keyI) with
  | none => none
  | some k => match gcmOpen k (frameIv 1 p (frameNo bytes)) aad ct (slice bytes (total - 16) 16) with
    | none => none
    | some pt =>
      let q' := if isNext then
          { q with keyI := some k, genI := q.genI + 1, keyINext := some (nextKey k 1 p (q.genI + 2)) }
        else q
      some (aad ++ pt ++ zeros 16, q')

/-- Ingress HEADs with FRAME `k` break R268: no HEAD of this link carried it, it is old, or not above the last taken. -/
def Port.breaksOrder (q : Port) (k : Nat) : Bool :=
  (Table.get? q.grants k).isNone || match q.rxFrame with | some l => k ≤ l | none => false

/-- Take a frame whose HEAD is whole. -/
def State.takeFrame (s : State) (p : Nat) (f : RxFrame) : State :=
  let q := s.port p
  let k := frameNo f.bytes
  let conf := bit (f.bytes.getD 0 0).toNat 3
  let mustConf := q.conf && match q.confFrom with | some k0 => k0 ≤ k | none => false
  if q.breaksOrder k then s.protoErr p
  else if mustConf && !conf || conf && q.keyI.isNone then s.protoErr p
  else
    match (if conf then q.openFrame p f.bytes else some (f.bytes, q)) with
    | none =>
      let s := s.modPort p fun q => { q with tagFail := satInc q.tagFail, tagRun := q.tagRun + 1 }
      if (s.port p).tagRun ≥ 4 then s.linkFailure p else s
    | some (bytes, q') =>
      let g := Table.getD q.grants k { host := [], cpl := [], rdCredit := 0 }
      let r := parseFrame g s.time.pick f bytes conf q.width
      s.modPort p fun _ => { q' with
        tagRun := 0, rxFrame := some k, grants := q'.grants.filter fun kv => k < kv.1
        arrivals := q'.arrivals ++ r.out, protoErr := satInc q'.protoErr r.errs }

/-- INGRESS_FRAME (R265, R268, R278, R285 to R288): codewords are counted, a lost HEAD loses the frame, then FRAME, CONF and
tag are checked and the records arrive. After a PORT reset a frame is dropped and counted (spec/13 R342). -/
def execIngressFrame (p : Nat) (f : RxFrame) (s : State) : Out :=
  .next <|
    if (s.slot p).st = .training then s.protoErr p
    else if !s.linkUp p then s
    else
      let bad := f.uncorr != 0 || !f.badFlits.isEmpty
      let s := s.modPort p fun q => { q with
        fecCorr := q.fecCorr + BitVec.ofNat 64 f.corrected, fecUncorr := q.fecUncorr + BitVec.ofNat 64 f.uncorr
        badRun := if bad then q.badRun + 1 else 0 }
      if (s.port p).badRun ≥ 8 then s.linkFailure p
      else if f.badFlits.contains 0 then s
      else s.takeFrame p f

/-! ### Records of a port, in port order (R279) -/

/-- RD64 (spec/03_pool_extents.md R80, R280). -/
def execRd64 (p : Nat) (s : State) : Out := .next (s.takeFront p fun w => recOpc w == opcRd64)

/-- RD256 (spec/03_pool_extents.md R80, R280). -/
def execRd256 (p : Nat) (s : State) : Out := .next (s.takeFront p fun w => recOpc w == opcRd256)

/-- WR64 (spec/03_pool_extents.md R80, R280). -/
def execWr64 (p : Nat) (s : State) : Out := .next (s.takeFront p fun w => recOpc w == opcWr64)

/-- WR256 (spec/03_pool_extents.md R80, R280). -/
def execWr256 (p : Nat) (s : State) : Out := .next (s.takeFront p fun w => recOpc w == opcWr256)

/-- WRP (spec/03_pool_extents.md R80, R278, R280). -/
def execWrp (p : Nat) (s : State) : Out := .next (s.takeFront p fun w => recOpc w == opcWrp)

/-- FENCE (spec/03_pool_extents.md R91). -/
def execFence (p : Nat) (s : State) : Out := .next (s.takeFront p fun w => recOpc w == opcFence)

/-- MBX read (R283). -/
def execMbxRead (p : Nat) (s : State) : Out := .next (s.takeFront p fun w => recOpc w == opcMbx && !recDir w)

/-- MBX write (R279 rule 5, R283). -/
def execMbxWrite (p : Nat) (s : State) : Out := .next (s.takeFront p fun w => recOpc w == opcMbx && recDir w)

/-- Host completion with data (spec/12_shuttles.md R316). -/
def execHostCplD (p : Nat) (s : State) : Out := .next (s.takeFront p fun w => recOpc w == opcCplD)

/-- Dataless host completion (spec/12_shuttles.md R316). -/
def execHostCpl (p : Nat) (s : State) : Out := .next (s.takeFront p fun w => recOpc w == opcCpl)

/-! ### Egress (R266, R271, R273, R275, R284) -/

/-- A frame that is being filled: records taken in slots and in the tail. -/
structure Build where
  s     : State
  slots : List (Nat × W64 × List Byte) := []
  tail  : List (Nat × W64) := []

/-- A slot of the frame is free. -/
def Build.slotFree (b : Build) (i : Nat) : Bool := !(b.slots.any fun x => x.1 == i)

/-- The lowest free slot of the port's own that carries nothing. -/
def Build.ownSlot (b : Build) (p : Nat) : Option Nat :=
  (List.range (slotCount (b.s.port p).width)).find? fun i => b.s.egressOwner b.s.pattern p i == ownPort p && b.slotFree i

/-- Tail records that a frame has, those of the tag left out (R275, R286). -/
def Port.tailRecords (q : Port) : Nat := tailCount q.width - (if q.conf then 2 else 0)

/-- The lowest free tail record from `lo` on. -/
def Build.tailFrom (b : Build) (p lo hi : Nat) : Option Nat :=
  (List.range (min hi (b.s.port p).tailRecords)).find? fun t => lo ≤ t && !(b.tail.any fun x => x.1 == t)

/-- The statuses of a request that row 9 of spec/03_pool_extents.md R80 serves. -/
def servedStatus (st : Nat) : Bool := [stOk, stPoison, stDivergent, stLate, stOverflow].contains st

/-- Telemetry of a completion that leaves (spec/15_mailboxes.md R422): a request that was served, its bytes and latency, for
the port and for the context that held it when the request arrived (spec/13_isolation_crypto.md R352).
The CLK_E cycle within a pick is not modelled: the latency bin in cycles is a free value within the picks (log entry 21). -/
def State.countLeft (s : State) (p : Nat) (c : Cpl) : State :=
  if servedStatus c.status ∧ c.ext.any (· < 1024) then
    let k := s.time.pick - c.arrival
    let bin := min 51 ((256 * k + Config.phase s.freeCount % 256) / 64)
    let bump := fun (t : Table Nat) (i : Nat) => Table.set t i ((Table.getD t i 0 + 1) % 2 ^ 32)
    let s := (s.setFreeCount (s.freeCount + 1))
    let s := s.modPort p fun q => { q with
      telReqs := q.telReqs + 1, telRead := q.telRead + c.rdBytes, telWrite := q.telWrite + c.wrBytes
      telPicks := bump q.telPicks (min k 12), telCycles := bump q.telCycles bin }
    match c.ctx with
    | some x => s.modCtx x fun q => { q with
        telReqs := q.telReqs + 1, telRead := q.telRead + c.rdBytes, telWrite := q.telWrite + c.wrBytes
        telPicks := bump q.telPicks (min k 12) }
    | none => s
  else s

/-- Put a completion into the frame; none where it finds no record. A read past its ceiling goes LATE without data. -/
def Build.putCpl (b : Build) (p : Nat) (c : Cpl) : Option Build :=
  let q := b.s.port p
  let dataless := fun (st : Nat) =>
    match b.tailFrom p 0 q.tailRecords with
    | some t => some { b with tail := b.tail ++ [(t, cplRecord c opcCpl st)], s := b.s.countLeft p { c with status := st, rdBytes := 0 } }
    | none => (b.ownSlot p).map fun i =>
      { b with slots := b.slots ++ [(i, cplRecord c opcCpl st, [])], s := b.s.countLeft p { c with status := st, rdBytes := 0 } }
  match c.data with
  | none => dataless c.status
  | some d =>
    match b.ownSlot p with
    | some i => some { b with slots := b.slots ++ [(i, cplRecord c opcCplD c.status, d)], s := b.s.countLeft p c }
    | none => if c.arrival + 12 ≤ b.s.time.pick then dataless stLate else none

/-- Completions leave oldest arrival first (R275). -/
def cplOrder (l : List Cpl) : List Cpl := sortBy (fun (a b : Cpl) => a.arrival < b.arrival) l

/-- Fill the frame with the completions that may leave. -/
def Build.cpls (b : Build) (p : Nat) : Build :=
  let now := b.s.time.pick
  let due := (b.s.port p).cpls.filter fun c => c.from_ ≤ now
  let later := (b.s.port p).cpls.filter fun c => now < c.from_
  let (b, kept) := (cplOrder due).foldl (fun acc c =>
    match acc.1.putCpl p c with
    | some b' => (b', acc.2)
    | none => (acc.1, acc.2 ++ [c])) (b, [])
  { b with s := b.s.modPort p fun q => { q with cpls := kept ++ later } }

/-- Events of this frame: at most 16, in order, each in two tail records after the completions' share (R275, R284). -/
def Build.evts (b : Build) (p : Nat) : Build :=
  let q := b.s.port p
  let lo := tailCredit q.width
  let n := min 16 (min q.evts.length ((q.tailRecords - lo) / 2))
  let recs := (List.range n).flatMap fun i =>
    match q.evts[i]? with
    | some e => [(lo + 2 * i, (evtRecords e).1), (lo + 2 * i + 1, (evtRecords e).2)]
    | none => []
  { b with tail := b.tail ++ recs, s := b.s.modPort p fun q => { q with evts := q.evts.drop n } }

/-- The lowest expander read tag that is free (R277, R317). -/
def State.freeTag (s : State) (p : Nat) : Option Nat :=
  (List.range 4096).find? fun t => (Table.get? (s.port p).rdTags t).isNone &&
    match Table.get? (s.port p).deadTags t with
    | some until_ => until_ ≤ s.time.pick
    | none => true

/-- What an engine sends in one of its slots (R315, R316, R319): the next block of a push or a segment's seal, or a read. -/
def Build.engineSlot (b : Build) (p i e : Nat) : Build :=
  match b.s.engine e with
  | none => b
  | some job =>
    match job.cur with
    | none => b
    | some c =>
      if c.d.kind < 2 ∨ c.d.port ≠ p then b
      else
        let q := b.s.port p
        let send := fun (w : W64) (d : List Byte) (s : State) => { b with slots := b.slots ++ [(i, w, d)], s := s.settle e }
        if c.d.kind = 3 then
          match c.toRead, b.s.freeTag p with
          | n :: rest, some t =>
            if (q.readsOf e).length ≥ 512 ∨ q.closed ∨ b.s.power.braced then b
            else send (reqRecord opcRd256 t (c.d.src + 256 * readHostBlock c n)) []
              ((b.s.modPort p fun q => { q with rdTags := Table.set q.rdTags t { engine := e, block := n, left := b.s.time.pick } }).modCur
                e fun c => { c with toRead := rest })
          | _, _ => b
        else if c.sealDue then
          let g := (c.done - 1) / 255
          let body := sealBody c.segCtr 0 p (segBlocks c.d.len g) (c.d.dst + 256 * (256 * g))
          let tag := gcmTag (q.xferKey.getD []) (sealIv c.segCtr 0 p) body c.segCt
          send (reqRecord opcWr256 (e * 256) (c.d.dst + 256 * sealBlock c.d.len g)) (tag ++ body)
            (b.s.modCur e fun c => { c with segCt := [] })
        else match Table.get? c.out c.done with
          | none => b
          | some d =>
            let j := c.done
            let ctr := if c.conf ∧ j % 255 = 0 then q.pushCtr + 1 else c.segCtr
            let d' := if c.conf then ctrRun (aesKeys (q.xferKey.getD [])) (sealIv ctr 0 p) (2 + 16 * (j % 255)) (chunks 16 d)
              else d
            let s := b.s.modPort p fun q => if c.conf ∧ j % 255 = 0 then { q with pushCtr := q.pushCtr + 1 } else q
            send (reqRecord opcWr256 (e * 256) (c.d.dst + 256 * hostBlock c.conf j)) d'
              (s.modCur e fun c => { c.commit j with
                out := Table.erase c.out j, segCtr := ctr, segCt := if c.conf then c.segCt ++ d' else [] })

/-- The engines' slots and the Loom's pushes (R256, R271). -/
def Build.others (b : Build) (p : Nat) : Build :=
  let b := (List.range (slotCount (b.s.port p).width)).foldl (fun (b : Build) i =>
    let o := b.s.egressOwner b.s.pattern p i
    if 8 ≤ o ∧ o < 16 then b.engineSlot p i (o - 8) else b) b
  let mine := b.s.loom.pushes.filter fun x => x.port == p
  { b with slots := b.slots ++ mine.flatMap fun x => x.blocks.map fun y => (y.1, reqRecord opcWr256 0x800 y.2.1, y.2.2) }

/-- INGRESS_MAP and RD_CREDIT of the HEAD (R275): RD_CREDIT at D, 0b01 slots up to ER in all, lowest first, as far as the
request queue of 4,096 can accept (log entry 20). -/
def State.grant (s : State) (p : Nat) : Grant :=
  let q := s.port p
  let n := slotCount q.width
  let inn := fun i => s.ingressOwner s.pattern p i
  let cpl := (List.range n).filter fun i => 8 ≤ inn i && inn i < 16 && !(q.readsOf (inn i - 8)).isEmpty
  if q.closed then { host := [], cpl := cpl, rdCredit := 0 }
  else
    let queued := (s.reqs.filter fun kv => kv.2.port == some p && !kv.2.orphan).length + q.cpls.length + q.arrivals.length
    let open_ := (q.grants.filter fun kv => q.txFrame < kv.1 + creditWindow).foldl
      (fun a kv => a + kv.2.host.length + kv.2.rdCredit) 0
    let room := 4096 - queued - open_
    let d := s.egressMin p
    let rd := min d room
    let host := ((List.range n).filter fun i => inn i == ownPort p).take (min (tailCredit q.width + d - rd) (room - rd))
    { host := host, cpl := cpl, rdCredit := rd }

/-- The bytes of a frame's HEAD (R273). -/
def Frame.head (f : Frame) : List Byte :=
  let map := (List.range 112).map fun k =>
    BitVec.ofNat 8 ((List.range 4).foldl (fun a t =>
      let i := 4 * k + t
      a + (if f.openHost.contains i then 1 else if f.openCpl.contains i then 2 else 0) * 4 ^ t) 0)
  [f.flags] ++ toLe 1 f.width ++ toLe 2 f.idx ++ toLe 2 f.picks ++ toLe 2 f.rdCredit ++ toLe 8 f.beat.toNat ++
    toLe 8 f.frame.toNat ++ zeros 8 ++ map ++ zeros 112

/-- The frame's bytes after its HEAD. -/
def Frame.body (f : Frame) : List Byte :=
  let rec_ := fun (l : List (Nat × W64)) (i : Nat) => match l.find? fun x => x.1 == i with
    | some x => toLe 8 x.2.toNat
    | none => zeros 8
  let slots := f.slots.map fun x => (x.1, x.2.1)
  ((List.range (groupCount f.width)).flatMap fun g =>
    ((List.range 32).flatMap fun r => rec_ slots (32 * g + r)) ++
      (List.range 32).flatMap fun r => match f.slots.find? fun x => x.1 == 32 * g + r with
        | some x => padTo 256 x.2.2
        | none => zeros 256) ++
    (List.range (tailCount f.width)).flatMap fun t => rec_ f.tail t

/-- Encrypt a frame of confidential mode (R286). -/
def Frame.protect (f : Frame) (key : List Byte) (p : Nat) : Frame :=
  let pt := f.body.take (f.body.length - 16)
  let (ct, tag) := gcmSeal key (frameIv 0 p f.frame.toNat) f.head pt
  { f with cipher := ct, tag := tag }

/-- The egress frame of the pick that begins, on a port whose frames run (R266, R273, R276). -/
def State.sendFrame (s : State) (p : Nat) : State :=
  if !s.linkUp p then s
  else
    let s := s.modPort p fun q => q.rekey p
    let q := s.port p
    let g := s.grant p
    let b := (((({ s := s } : Build).evts p).cpls p).others p)
    let fl := fun (i : Nat) (x : Bool) => b2n x * 2 ^ i
    let f : Frame :=
      { flags := BitVec.ofNat 8 (fl 0 (s.time.idx == 0) + fl 1 s.beatValid + fl 2 (s.time.idx == 0 && s.loom.missPrev) +
          fl 3 q.conf + fl 4 q.keyPhase + fl 5 s.power.safe)
        width := q.width, idx := s.time.idx, picks := s.time.cfg.picks, rdCredit := g.rdCredit, beat := s.beatNow
        frame := BitVec.ofNat 64 q.txFrame, openHost := g.host, openCpl := g.cpl, slots := b.slots, tail := b.tail }
    let f := match q.conf, q.keyE with
      | true, some k => f.protect k p
      | _, _ => f
    b.s.modPort p fun q => { q with
      lastFrame := some f, txFrame := q.txFrame + 1
      grants := (Table.set q.grants q.txFrame g).filter fun kv => q.txFrame < kv.1 + grantWindow
      hold := q.hold.map (· - 1) }

end Sys2Proof.Machine
end

