-- ==== Sys2Proof/Machine/Keys.lean ====
section
/-! DEFINITION. Link sessions: key agreement and bounce windows (spec/13_isolation_crypto.md R332 to R338,
spec/12_shuttles.md R318, spec/15_mailboxes.md R419). -/

namespace Sys2Proof.Machine

/-- What refuses every KEYX: NOT_PRESENT without the cipher unit (R404), STATE while debug is unlocked (R379) or the identity
is bad (R373), then R329: it runs only from the mailbox of an attached port. -/
def State.keyxRefusal (s : State) (m : Mbx) : Option Nat :=
  if !s.hasCipher then some mNotPresent
  else if s.umpire.debugUnlocked || s.umpire.idBad then some mState
  else s.portRefusal m

/-- The port of a port mailbox; KEYX is eligible from no other mailbox (R364). -/
def mbxPort : Mbx → Nat
  | .port p => p
  | _ => 6

/-- The port has session keys (R336). -/
def Port.hasKeys (q : Port) : Bool := q.keyE.isSome

/-- What a key agreement gives: the device's public key and nonce, the three keys, and the signature's message (R337). -/
structure Agreement where
  qd     : List Byte
  nd     : List Byte
  egress : List Byte
  ingress : List Byte
  xfer   : List Byte
  digest : List Byte
deriving DecidableEq, Repr

/-- Steps 1 to 5 of R337, from the two random strings; none where Q_H is not on the curve. -/
def agree (p c : Nat) (qh nh rd nd : List Byte) : Option Agreement :=
  match pointOf qh with
  | none => none
  | some q =>
    let d := ecScalar rd
    let z := ecdhX d q
    let qd := ecPublic d
    let key := fun (info : List Byte) => hkdf z (nh ++ nd) info
    some
      { qd := qd, nd := nd
        egress := key (ascii "SEJOR-LINK-E" ++ toLe 1 p), ingress := key (ascii "SEJOR-LINK-I" ++ toLe 1 p)
        xfer := key (ascii "SEJOR-XFER" ++ toLe 1 p ++ toLe 1 c)
        digest := sha256 (ascii "SEJOR-KEYX" ++ toLe 1 p ++ toLe 1 c ++ qh ++ nh ++ qd ++ nd) }

/-- The session keys come into force, generation 0 in each direction, message counters 0; CONF may be set 8 frames on
(R285, R287, R338). -/
def Port.keyed (q : Port) (p : Nat) (a : Agreement) : Port :=
  { q with keyE := some a.egress, keyI := some a.ingress, keyINext := some (nextKey a.ingress 1 p 1), genE := 0, genI := 0
           xferKey := some a.xfer, pushCtr := 0, pullCtr := 0, confFrom := some (q.txFrame + 8) }

/-- KEYX KEY_AGREE. -/
def execKeyAgree (m : Mbx) (s : State) : Out :=
  .next <| s.runCommand m 0x00A1 (s.rq m 0 1 == 0) fun s =>
    let p := mbxPort m
    match s.keyxRefusal m with
    | some st => s.fail m st
    | none =>
      if s.umpire.entropyFail || (s.port p).hasKeys || (s.slot p).st != .up then s.fail m mState
      else
        let r := s.random 96
        let qh := s.rqBytes m 0x08 64
        let s := s.drewRandom 96
        match agree p ((s.attachedTo p).getD 0) qh (s.rqBytes m 0x48 32) (r.take 32) (slice r 32 32) with
        | none => s.fail m mBadArg
        | some a =>
          let sig := ecdsaSign s.umpire.idKey (ecScalar (slice r 64 32)) a.digest
          (s.modPort p fun q => q.keyed p a).complete m mOk (a.qd ++ a.nd ++ sig)

/-! ### Bounce windows (R318, R336) -/

/-- Two windows overlap. -/
def windowsMeet (a b : Nat × Nat) : Bool := a.1 < b.1 + b.2 && b.1 < a.1 + a.2

/-- A window is 64 KiB aligned and a whole number of 64 KiB long. -/
def windowAligned (w : Nat × Nat) : Bool := w.1 % 65536 == 0 && w.2 % 65536 == 0 && w.2 != 0

/-- A host range lies in a window. -/
def inWindow (w : Nat × Nat) (addr bytes : Nat) : Bool := w.1 ≤ addr && addr + bytes ≤ w.1 + w.2

/-- A running descriptor or a running draft push uses a window of a port. -/
def State.windowUsed (s : State) (p : Nat) (w : Nat × Nat) : Bool :=
  (s.engines.any fun j => match j.bind (·.cur) with
    | some c => c.conf && c.d.port == p && inWindow w c.d.host (256 * c.d.hostBlocks true)
    | none => false) ||
  s.loom.drafts.any fun kv => kv.2.st == .running && kv.2.pushList.any fun x =>
    x.1 == p && (let q := pushDescOf (kv.2.pushes.getD x.2 0); inWindow w q.addr (256 * q.len))

/-- KEYX BOUNCE_ADD. -/
def execBounceAdd (m : Mbx) (s : State) : Out :=
  .next <| s.runCommand m 0x00A1 (s.rq m 0 1 == 1) fun s =>
    let p := mbxPort m
    let w := (s.rq m 0x08 8, s.rq m 0x10 8)
    match s.keyxRefusal m with
    | some st => s.fail m st
    | none =>
      if !windowAligned w || (s.port p).bounce.any (windowsMeet w) then s.fail m mBadArg
      else if 8 ≤ (s.port p).bounce.length then s.fail m mNoResource
      else if !(s.port p).hasKeys then s.fail m mState
      else (s.modPort p fun q => { q with bounce := q.bounce ++ [w] }).complete m mOk []

/-- KEYX BOUNCE_REMOVE. -/
def execBounceRemove (m : Mbx) (s : State) : Out :=
  .next <| s.runCommand m 0x00A1 (s.rq m 0 1 == 2) fun s =>
    let p := mbxPort m
    match s.keyxRefusal m with
    | some st => s.fail m st
    | none =>
      match (s.port p).bounce.find? fun w => w.1 == s.rq m 0x08 8 with
      | none => s.fail m mBadArg
      | some w =>
        if s.windowUsed p w then s.fail m mState
        else (s.modPort p fun q => { q with bounce := q.bounce.filter fun v => v.1 != w.1 }).complete m mOk []

/-- KEYX BOUNCE_LIST; a FUNCTION of no form completes BAD_ARG. -/
def execBounceList (m : Mbx) (s : State) : Out :=
  .next <| s.runCommand m 0x00A1 (decide (3 ≤ s.rq m 0 1)) fun s =>
    match s.keyxRefusal m with
    | some st => s.fail m st
    | none =>
      if 3 < s.rq m 0 1 then s.fail m mBadArg
      else
        let ws := (s.port (mbxPort m)).bounce
        s.complete m mOk (toLe 1 ws.length ++ zeros 7 ++ ws.flatMap fun w => toLe 8 w.1 ++ toLe 8 w.2)

end Sys2Proof.Machine
end

