-- ==== Sys2Proof/Machine/Resets.lean ====
section
/-! DEFINITION. Resets and boot: POWER-ON, DEVICE, UMPIRE RESTART and ENGINE resets, the choice of a firmware bank, the
moment it becomes ready, the watchdog (spec/17_reset_power.md R448 to R454, R465 and R468, spec/14_identity_roles.md R372,
R381, R384 and R389). -/

namespace Sys2Proof.Machine

/-! ### Boot (R372, R381) -/

/-- What the boot record makes of a start: the bank, whether a trial has failed, the record written back (R381). -/
def Nor.startBank (n : Nor) : Bool × Bool × Nor :=
  match n.tState with
  | .armed => (n.trialB, false, n.writeBoot n.activeB n.trialB .running)
  | .running => (n.activeB, true, n.writeBoot n.activeB n.trialB .none)
  | .none => (n.activeB, false, n.writeBoot n.activeB n.trialB .none)

/-- The checks of the Umpire at boot: the installer key record of a commissioned expander against INSTALLER_KEY_HASH (R368),
the leaf's keys against the derived ones (R373); a key store that MAKER_UNLOCK has zeroed derives none (R379). -/
def State.checkRecords (s : State) : State :=
  s.modUmpire fun u => { u with
    keyBad := s.commissioned && sha256 s.nor.installerKey != s.fuses.shadow.readN 0x80 32
    idBad := if u.debugUnlocked then u.idBad else s.nor.leafId != ecPublic u.idKey || s.nor.leafKa != ecPublic u.kaKey }

/-- A boot begins: it is counted, and the boot ROM hands both device keys to the key store, which stays zeroed while
DEBUG_UNLOCKED stands (R372, R375, R379). -/
def State.beginBoot (s : State) : State :=
  (s.modNor fun n => { n with bootCount := n.bootCount + 1 }).modUmpire fun u =>
    if u.debugUnlocked then u
    else { u with idKey := deviceKey s.fuses.seed "IDENTITY", kaKey := deviceKey s.fuses.seed "KEY-AGREEMENT" }

/-- The maker key that a bank's manifest carries, where it hashes to MAKER_KEY_HASH (R368, R381). -/
def State.manifestKey (s : State) (b : Bool) : Option (List Byte) :=
  let k := slice (s.manifest b) 0x30 64
  if sha256 k = s.fuses.shadow.readN 0x10 32 then some k else none

/-- The boot ROM serves the SERVICE mailbox where no bank is valid (R384): cage power goes off and no link trains (R464). -/
def State.romService (s : State) : State :=
  let key := match s.manifestKey false, s.manifestKey true with
    | some k, _ => k
    | none, some k => k
    | none, none => []
  let s := (s.modUmpire fun u => { u with romService := true, starting := false, makerKey := key }).checkRecords
  let s := (s.modMbox .service fun _ => { owner := false, challenge := s.random 32 }).drewRandom 32
  let s := (s.setSlots (s.slots.map fun (t : Slot) =>
    { t with pwrOn := false, pwrGood := false, drain := none, drainPick := none, st := if t.prsnt then .off else .empty }))
  s.enterSafe 0x09

/-- The boot ROM chooses a bank and starts it (R381). -/
def State.startFirmware (s : State) : State :=
  let s := s.modUmpire fun u => { u with starting := true, ready := false, romService := false }
  let (bank, failed, nor) := s.nor.startBank
  let s := s.setNor nor
  let fallback := !s.bankValid bank
  let run := if fallback then !bank else bank
  let ok := !fallback || s.bankValid run
  let s := s.modUmpire fun u => { u with
    boot := BitVec.ofNat 3 (b2n (if ok then run else bank) + 2 * b2n failed + 4 * b2n fallback)
    trialRunning := ok && nor.tState == .running && run == nor.trialB }
  if ok then s else s.romService

/-! ### What a reset leaves of the pool (R343, R446, R468, spec/05_tiering.md R147) -/

/-- An overwrite that a reset begins anew, over every codeword of its frames (R339). -/
def Clear.afresh (c : Clear) : Clear := { c with frames := c.frames.map fun f => (f.1, 0), owed := [] }

/-- Every context is gone: each extent that was GRANTED or CLEARING enters CLEARING anew, or each one where the far tier has
lost its contents; what its overwrite had done counts no more (R73, R339, R446). -/
def State.clearExtents (s : State) (all : Bool) : State :=
  s.exts.foldl (fun s kv =>
    if all || kv.2.st != .ungranted then
      (s.enterClearing kv.1).modExt kv.1 fun x => { x with clear := x.clear.map Clear.afresh }
    else s) s

/-- Contexts, leases, pins, jobs, requests, copies, fills and drafts end. -/
def State.dropContexts (s : State) : State :=
  ((((((s.setCtxs ([])).setLeases ([])).setPins ([])).setEngines (List.replicate 8 none)).setReqs ([])).setTier ({ policy := s.tier.policy }))

/-- The RAS state that an UMPIRE RESTART in pick `pick` drops: queued work, scrub progress, the damaged table, marks in the
making; scrubbers that run begin new passes. -/
def Ras.dropped (r : Ras) (pick : Nat) : Ras :=
  { r with damaged := [], work := [], nearPatrol := [], farPatrol := [], devCount := [], nearStart := pick, farStart := pick
           nearPass := r.nearHours, farPass := r.farHours, passBeat := 0, passDone := 0 }

/-! ### UMPIRE RESTART (R451) -/

/-- The Umpire as its restart leaves it: commands are lost and images reset (spec/15_mailboxes.md R399). -/
def Umpire.restarted (u : Umpire) (pick : Nat) : Umpire :=
  { u with
    mboxes := allMbx.map fun m => (m, {}), queue := [], ready := false, starting := true, romService := false, auditFail := false
    updateStaged := false, trialRunning := false, svn := 0, fwVersion := 0, makerKey := [], fuseJob := none, mctp := {}
    mctpOut := [], stage := none, restartDue := false, deferred := [], bootPick := pick }

/-- A port with a link takes a PORT reset and waits in TRAINING; attachments end, aperture registers take their reset value
until the store is loaded again at ready (R77, R468). -/
def State.restartPort (s : State) (p : Nat) : State :=
  let up := s.linkUp p
  let s := s.portReset p
  let s := if up then s.setSlot p .training else s
  s.modPort p fun q => { q with
    ctx := none, active := [], staged := [], reserve := none, switchDue := false, switchQ := none, lossDue := false, telReqs := 0, telRead := 0, telWrite := 0
    telPicks := [], telCycles := [] }

/-- The registers that the firmware loads from the store hold their reset values until ready: FTR_PD_CTL, and the policies of
the slots (spec/18_registers.md R472, spec/06_memory_channels.md R175, spec/11_port_slots.md R302). -/
def State.unloadStore (s : State) : State :=
  let s := s.setFar { s.far with pdEn := false, idlePicks := 0, down := s.far.down.filter fun r => s.chFailed (r / 4) }
  (List.range 6).foldl (fun s p => s.modSlot p fun t => { t with autoPower := false, buttonEn := false, aptClear := false }) s

/-- UMPIRE RESTART. -/
def State.umpireRestart (s : State) : State :=
  let old := s
  -- the reset of the Loom: a draft that runs overruns, and is HALTED and unloaded with no replay (R46, R448, R468)
  let s := (s.fuseStop mAborted).overrunNow 6
  let s := s.clearExtents false
  let s := (s.setLeases ([]))
  let s := (List.range 6).foldl State.restartPort s
  let s := s.dropContexts
  let s := s.modLoom fun l => { clocked := !s.power.safe, overruns := l.overruns, extra := l.extra }
  let s := (s.modRas fun r => r.dropped s.time.pick).modTie fun _ => {}
  let s := (s.enterFree).modTime fun t => { t with pendingCfg := none, cfgBeat := 0, masterDue := false, markBeat := 0 }
  let s := s.modPower fun w => { w with
    dormant := 0, standbyBit := false, standby := false, standbyReq := false, selfRefresh := w.safe && !w.safeDue }
  let s := s.unloadStore.modUmpire fun u => u.restarted s.time.pick
  s.beginBoot.startFirmware.syncNotice old

/-- UMPIRE_RESTART. -/
def execUmpireRestart (s : State) : Out := .next <| if s.power.stage < 7 then s else s.umpireRestart

/-- WATCHDOG_EXPIRY (R389): a restart; the third expiry with no ready firmware since the first enters SAFE instead. -/
def execWatchdogExpiry (s : State) : Out :=
  .next <|
    if s.power.stage < 7 || !(s.umpire.ready || s.umpire.starting) then s
    else
      let n := s.umpire.expiries + 1
      if 3 ≤ n then (s.modUmpire fun u => { u with expiries := n }).enterSafe 0x05
      else s.umpireRestart.modUmpire fun u => { u with expiries := n }

/-! ### POWER-ON and DEVICE reset (R449, R450) -/

/-- The logic die at its reset values: fuses, NOR, extents, both tiers and the pins that others drive are kept; the counters
of free values go on. -/
def State.dieReset (s : State) : State :=
  { exts := s.exts, nearMem := s.nearMem, farMem := s.farMem, nor := s.nor, fuses := { s.fuses with valid := false }
    umpire := { State.reset.umpire with drbg := s.umpire.drbg, starting := false }
    ras := { initCursor := s.ras.initCursor, initOrder := s.ras.initOrder, clearOrder := s.ras.clearOrder
             patrols := s.ras.patrols, failing := s.ras.failing }
    power := { stage := 0, refclk := s.power.refclk, pllHeld := s.power.pllHeld, resetLow := s.power.resetLow
               perstLow := s.power.perstLow, railsGood := s.power.railsGood, pwrGood := s.power.pwrGood, selfRefresh := true
               thermHold := s.power.thermTrip || s.power.thermHold }
    freeCount := s.freeCount, pending := s.pending }

/-- Step 3 of R449: the fuse array and the die records are sensed into their shadows, and R361 is applied. -/
def State.senseFuses (s : State) : State :=
  let f : Fuses := { s.fuses with shadow := s.fuses.array, dieShadow := s.fuses.dies, valid := true }
  (s.setFuses ({ f with integrityFail := f.integrityBad }))

/-- Steps 4 and 5: the channels are trained, both tiers leave self-refresh, internal reset is released, a bank starts. -/
def State.bootRelease (s : State) : State :=
  let s := (s.modPower fun w => { w with stage := 7, selfRefresh := false, thermHold := false }).beginBoot
  let s := if s.fuses.integrityFail then s.enterSafe 0x07 else s
  s.startFirmware

/-- Steps 2 and on, as far as REFCLK, RESET_N and the junction temperature let them run (R461, R498, R507). -/
def State.powerSteps (s : State) : State :=
  if !s.power.refclk then s.modPower fun w => { w with stage := 2 }
  else
    let s := (s.modPower fun w => { w with pllHeld := false, railsGood := true, pwrGood := true }).senseFuses
    if s.power.resetLow then s.modPower fun w => { w with stage := 3 }
    else if s.power.thermHold then s.modPower fun w => { w with stage := 4 }
    else s.bootRelease

/-- The groups of which every far unit is uninitialised after a loss of far contents (R446). -/
def State.farLost (s : State) : Table Nat := ((List.range 4).filter s.hasGroup).map fun g => (g, 0)

/-- An extent after both tiers have lost their contents: no near frame holds anything to overwrite. -/
def Extent.contentsLost (x : Extent) : Extent :=
  { x with looseFrames := [], clear := x.clear.map fun c => { c with frames := [] } }

/-- The input has failed: the logic die and both tiers lose what they hold (R446, R458); a record of the audit log that was
being written is lost (R376). -/
def State.powerLost (s : State) : State :=
  let writing := s.umpire.mboxes.any fun x => match x.2.wait with
    | some w => w.ready && logged x.1 w.status
    | none => false
  let lost := (writing && Config.powerHitsAudit s.nor.auditSeq && s.nor.gap.isNone) == true
  let s := if lost then s.modNor fun n => { n with gap := some n.auditSeq, auditSeq := n.auditSeq + 1 } else s
  let s := ((s.fuseStop mAborted).clearExtents true).dieReset
  let s := (((s.setExts (Table.mapV s.exts fun _ x => x.contentsLost)).setNearMem ([])).setFarMem ([]))
  let s := s.modRas fun r => { r with initCursor := s.farLost, initOrder := r.clearOrder, patrols := false }
  s.modPower fun w => { w with pllHeld := false, railsGood := false, pwrGood := false }

/-- POWER_ON_RESET. -/
def execPowerOnReset (s : State) : Out := .next s.powerLost.powerSteps

/-- BROWN_OUT (R458): the module is off until POWER_ON_RESET. -/
def execBrownOut (s : State) : Out := .next s.powerLost

/-- DEVICE_RESET (R450 steps 1 to 3): what positions have written stands (`State.issueUnits`), both tiers go into self-refresh, everything else takes its
reset value while RESET_N stays low. A POWER-ON in progress ends its steps 1 to 3 first (R507). -/
def execDeviceReset (s : State) : Out :=
  .next <|
    if s.power.stage < 3 then s.modPower fun w => { w with resetLow := true }
    else
      let s := ((s.fuseStop mAborted).clearExtents false).dieReset
      s.modPower fun w => { w with resetLow := true, stage := 3 }

/-- RESET_N_RELEASE (R450 step 4). -/
def execResetNRelease (s : State) : Out :=
  .next <|
    if !s.power.resetLow then s
    else
      let s := s.modPower fun w => { w with resetLow := false }
      if s.power.stage = 3 then s.powerSteps else s

/-- REFCLK_LOSS (R501): the PLLs hold their last frequency. -/
def execRefclkLoss (s : State) : Out :=
  .next (s.modPower fun w => { w with refclk := false, pllHeld := w.pllHeld || 3 ≤ w.stage })

/-- REFCLK_RETURN (R498, R501): a POWER-ON that waits at step 2 goes on; PLLs that held lock again at a reset. -/
def execRefclkReturn (s : State) : Out :=
  .next <|
    let s := s.modPower fun w => { w with refclk := true }
    if s.power.stage = 2 then s.powerSteps else s

/-- THERMAL_RESET_HOLD_END (R461). -/
def execThermalResetHoldEnd (s : State) : Out :=
  .next <|
    let s := s.modPower fun w => { w with thermHold := false }
    if s.power.stage = 4 then s.bootRelease else s

/-- RAIL_LEAVES_REGULATION (R466, R503). -/
def execRailLeavesRegulation (s : State) : Out :=
  .next (s.modPower fun w => { w with railsGood := false, pwrGood := false })

/-! ### Ready (R381, R449 step 6, R465) -/

/-- The firmware loads the persistent configuration store (R468, R302). -/
def State.loadStore (s : State) : State :=
  let n := s.nor
  let s := s.modTie fun _ => { plan := some (n.plan.getD s.factoryPlan) }
  -- MODE MASTER ignores BEAT_IN, so an acquisition begun before ready ends (spec/02_beats_and_tieup.md R43)
  let s := (if n.beatCfg.master then s.enterFree else s).modTime fun t => { t with
    cfg := n.beatCfg, masterDue := n.beatCfg.master }
  let s := (List.range 6).foldl (fun s p => s.modPort p fun q => { q with
    active := (Table.getD n.apts p ([], [])).1, staged := (Table.getD n.apts p ([], [])).2 }) s
  let s := (List.range 6).foldl (fun s p => s.modSlot p fun t =>
    let y := n.slotPolicy.getD p (true, true, false)
    { t with autoPower := y.1, buttonEn := y.2.1, aptClear := y.2.2 }) s
  let s := (s.setFar ({ s.far with pdEn := n.pdEn, idlePicks := n.idlePicks }))
  let s := s.modTier fun t => { t with policy := n.policy }
  s.modRas fun r => { r with farHours := n.farHours, nearHours := n.nearHours, farPass := n.farHours, nearPass := n.nearHours }

/-- The record of a lost SEQ, then the boot record (R374, R376): its OPCODE field is the BOOT byte of GET_STATUS. -/
def State.bootRecords (s : State) : State :=
  let s := match s.nor.gap with
    | some n =>
      let next := s.nor.auditSeq
      let s := (s.modNor fun m => { m with auditSeq := n }).auditAppend { kind := 4 }
      s.modNor fun m => { m with auditSeq := next, gap := none }
    | none => s
  s.auditAppend { kind := 2, opcode := s.umpire.boot.toNat }

/-- The mailboxes open: every field at reset, CHALLENGE new. -/
def State.openMailboxes (s : State) : State :=
  allMbx.foldl (fun s m =>
    if isManaged m then (s.modMbox m fun _ => { owner := false, challenge := s.random 32 }).drewRandom 32
    else s.modMbox m fun _ => { owner := false }) s

/-- The SAFE causes that hold when the firmware becomes ready (R465). -/
def readyCause (forceSafeLow : Bool) (inputMv : Nat) : Option Nat :=
  if forceSafeLow then some 0x08
  else if inputMv < 44000 then some 0x01
  else if 58000 < inputMv then some 0x02
  else none

/-- Slots that wait in OFF for the store power on (R302). -/
def State.powerWaiting (s : State) : State :=
  (List.range 6).foldl (fun s p =>
    let t := s.slot p
    let s := s.modSlot p fun t => { t with awaits := false }
    if t.awaits && t.st == .off && t.autoPower then s.cageOn p else s) s

/-- FW_READY. -/
def execFwReady (forceSafeLow : Bool) (inputMv : Nat) (s : State) : Out :=
  .next <|
    if s.power.stage < 7 || !s.umpire.starting then s
    else
      let b := s.runningB
      let h := s.manifest b
      let s := if s.umpire.trialRunning then s.modNor fun n => n.writeBoot n.trialB n.trialB .none else s
      let s := s.modUmpire fun u => { u with
        ready := true, starting := false, expiries := 0, trialRunning := false, svn := le (slice h 6 1)
        fwVersion := BitVec.ofNat 32 (le (slice h 12 4)), makerKey := slice h 0x30 64, auditFail := false }
      let s := s.checkRecords.loadStore.bootRecords.openMailboxes.setEvent 5
      let s := match readyCause forceSafeLow inputMv with
        | some c => s.enterSafe c
        | none => s
      if s.power.safe then s else s.powerWaiting

/-! ### ENGINE reset (R453) -/

/-- An ENGINE reset is requested: the Loom takes it at the next pick boundary; STANDBY and SAFE ignore it (R469). -/
def State.requestEngineReset (s : State) : State :=
  if !s.hasLoom || s.power.safe || s.power.standbyReq then s else s.modLoom fun l => { l with resetDue := true }

/-- ENGINE_RESET. -/
def execEngineReset (s : State) : Out := .next s.requestEngineReset

/-! ### The endpoint (spec/19_package_pins.md R496) -/

/-- PERST_N: the MSI-X table and the pending bits are reset. -/
def execPerstN (s : State) : Out :=
  .next ((s.modPower fun w => { w with perstLow := true }).modRegs fun r => { r with
    msixTable := [], msixPend := 0, msixOut := [], latch := none, readData := none })

/-- PERST_N_RELEASE. -/
def execPerstNRelease (s : State) : Out := .next (s.modPower fun w => { w with perstLow := false })

end Sys2Proof.Machine
end

