-- ==== Sys2Proof/Machine/Power.lean ====
section
/-! DEFINITION. Supply, temperature, forced SAFE, STANDBY and DEV_PWR_CTL (spec/17_reset_power.md R454 to R469,
spec/13_isolation_crypto.md R331). -/

namespace Sys2Proof.Machine

/-- Internal reset is released: the events of this file act. -/
def State.running (s : State) : Bool := s.power.stage == 7

/-- An event of the running expander. -/
def State.whenOn (s : State) (f : State → State) : State := if s.running then f s else s

/-- Interrupted copies start again from their first block (spec/05_tiering.md R153). -/
def State.restartCopies (s : State) : State :=
  s.modTier fun t => { t with copies := Table.mapV t.copies fun _ (c : Copy) => if c.done then c else c.restart }

/-! ### Brace (R458 to R460) -/

/-- BRACE: in pick `b` BRACED, ALERT_N and the event; the Loom overruns in the pick after it. -/
def execBrace (s : State) : Out :=
  .next <| s.whenOn fun s =>
    if s.power.braced || s.power.safe then s
    else
      let s := s.modPower fun w => { w with braced := true, bracePick := s.time.pick, recoverDue := false }
      ((s.setAlert.setEvent 2).sendEvtAll { code := 0x051, p0 := 1, p1 := s.beatNow }).restartCopies.fuseStop mAborted

/-- BRACE_RECOVERY: the hold is complete; the next beat boundary ends the brace. -/
def execBraceRecovery (s : State) : Out :=
  .next <| s.whenOn fun s => if s.power.braced then s.modPower fun w => { w with recoverDue := true } else s

/-- BRACE_TIMEOUT: SAFE with cause SUPPLY_LOW, unless the hold is complete. -/
def execBraceTimeout (s : State) : Out :=
  .next <| s.whenOn fun s => if s.power.braced && !s.power.recoverDue then s.enterSafe 0x01 else s

/-- SUPPLY_HIGH. -/
def execSupplyHigh (s : State) : Out := .next <| s.whenOn fun s => s.enterSafe 0x02

/-- INPUT_RANGE_ALERT: not while braced or in SAFE. -/
def execInputRangeAlert (s : State) : Out :=
  .next <| s.whenOn fun s =>
    if s.power.braced || s.power.safe || s.power.inputAlert then s
    else ((s.modPower fun w => { w with inputAlert := true }).setAlert).setEvent 7

/-- INPUT_RANGE_ALERT_END (R466). -/
def execInputRangeAlertEnd (s : State) : Out :=
  .next <| s.whenOn fun s => (s.modPower fun w => { w with inputAlert := false }).setAlert

/-! ### Temperature (R461) -/

/-- THERMAL_ALERT. -/
def execThermalAlert (s : State) : Out :=
  .next <| s.whenOn fun s =>
    if s.power.hot then s else ((s.modPower fun w => { w with hot := true }).setAlert).setEvent 6

/-- THERMAL_ALERT_END. -/
def execThermalAlertEnd (s : State) : Out :=
  .next <| s.whenOn fun s => (s.modPower fun w => { w with hot := false }).setAlert

/-- THERMTRIP. -/
def execThermtrip (s : State) : Out :=
  .next <| s.whenOn fun s => (s.modPower fun w => { w with thermTrip := true, thermtripN := false }).enterSafe 0x03

/-- FORCE_SAFE (R462). -/
def execForceSafe (s : State) : Out := .next <| s.whenOn fun s => s.enterSafe 0x08

/-- ENTROPY_FAIL (spec/13_isolation_crypto.md R331). -/
def execEntropyFail (s : State) : Out := .next <| s.whenOn fun s => s.modUmpire fun u => { u with entropyFail := true }

/-! ### STANDBY (R456, R457, R469) -/

/-- The entry begins: PENDING drafts return to LOADED, RUNNING ones stop with cause STOP; engines and background work pause. -/
def State.standbyBegin (s : State) : State :=
  if s.power.safe || s.power.braced || s.power.standbyReq then s
  else
    let s := s.modPower fun w => { w with standbyReq := true }
    let s := s.loom.drafts.foldl (fun s kv =>
      match kv.2.st with
      | .pending => s.cancelStart kv.1
      | .running => s.modDraft kv.1 fun d => { d with stopDue := some (d.stopDue.getD .stop) }
      | _ => s) s
    s.restartCopies

/-- STANDBY becomes 1; in SAFE the bit is only kept, and a brace holds the entry back. -/
def State.setStandby (s : State) : State :=
  if s.power.standbyBit then s else (s.modPower fun w => { w with standbyBit := true }).standbyBegin

/-- STANDBY becomes 0: service resumes at a beat boundary at least 64 picks on. -/
def State.clearStandby (s : State) : State :=
  if s.power.standbyBit then s.modPower fun w => { w with standbyBit := false, resumePick := s.time.pick + 64 } else s

/-- STANDBY_ENTRY. -/
def execStandbyEntry (s : State) : Out := .next <| s.whenOn State.setStandby

/-- STANDBY_EXIT. -/
def execStandbyExit (s : State) : Out := .next <| s.whenOn State.clearStandby

/-- Steps 1 to 3 of the entry are complete: no draft runs or ends, every link is down, nothing is in flight. -/
def State.quiet (s : State) : Bool :=
  s.reqs.isEmpty && (List.range 6).all (fun p => !s.linkUp p) && s.loom.drafts.all (fun kv => kv.2.st != .running) &&
    (s.loom.kind == .idle || s.loom.kind == .switch)

/-- STANDBY at a beat boundary: step 4 of the entry, or the return to service. -/
def State.standbyBeat (s : State) : State :=
  let w := s.power
  if !w.standbyReq || w.safe then s
  else if w.standbyBit then
    if w.standby || w.braced || !s.quiet then s
    else (s.modPower fun w => { w with standby := true, selfRefresh := true }).modLoom fun l => { l with clocked := false, bays := [] }
  else if w.resumePick ≤ s.time.pick then
    (s.modPower fun w => { w with standby := false, standbyReq := false, selfRefresh := false }).modLoom fun l => { l with clocked := true }
  else s

/-- The end of a brace at a beat boundary (R460). -/
def State.braceBeat (s : State) : State :=
  if !s.power.braced || !s.power.recoverDue || s.power.safe then s
  else
    let s := s.modPower fun w => { w with braced := false, recoverDue := false }
    let s := (s.setAlert.setEvent 2).sendEvtAll { code := 0x051, p0 := 0, p1 := s.beatNow }
    let s := s.modLoom fun l => { l with clocked := !s.power.standby }
    if s.power.standbyBit then s.standbyBegin else s

/-! ### DEV_PWR_CTL (R454, R455) -/

/-- DEV_PWR_CTL as read. -/
def State.pwrCtl (s : State) : Nat := b2n s.power.standbyBit * 2 ^ 8 + s.power.dormant.toNat

/-- The DORMANT bits: those of absent ports stay 0; a bit cleared during the drain lets the port train once it ends. -/
def State.setDormant (s : State) (v : BitVec 6) : State :=
  let present := BitVec.ofNat 6 (s.portList.foldl (fun a p => a + 2 ^ p) 0)
  let s := (List.range 6).foldl (fun s p =>
    if maskHas s.power.dormant p && !maskHas v p && (s.slot p).drain == some .dormant then
      s.modSlot p fun t => { t with wake := true }
    else s) s
  s.modPower fun w => { w with dormant := v &&& present }

/-- A write of DEV_PWR_CTL; in SAFE the Umpire does not act on it (R464). -/
def State.writePwrCtl (s : State) (v : Nat) : State :=
  let s := s.setDormant (BitVec.ofNat 6 v)
  let s := if bit v 8 then s.setStandby else s.clearStandby
  if bit v 15 then s.requestEngineReset else s

end Sys2Proof.Machine
end

