-- ==== Sys2Proof/Machine/Telemetry.lean ====
section
/-! DEFINITION. Telemetry windows and TELEMETRY_READ (spec/13_isolation_crypto.md R352, spec/18_registers.md R480,
spec/15_mailboxes.md R422). -/

namespace Sys2Proof.Machine

/-- The hottest of the sensors, and the lowest index that shows it. -/
def hottest (temps : List Int) : Int × Nat :=
  (List.range temps.length).foldl (fun a k => if a.1 < temps.getD k 0 then (temps.getD k 0, k) else a) (temps.getD 0 0, 0)

/-- Round down to a multiple. -/
def floorTo (n : Int) (v : Int) : Int := v / n * n

/-- The values of one more 1 ms window: the TEL registers, and at the end of 100 ms and 1 s the operator's values. -/
def Tel.window (t : Tel) (x : TelSample) (pick : Nat) : Tel :=
  let hot := hottest (x.temps.take 16)
  let count := t.count + 1
  let sum := t.sum + x.powerMw
  let op := count % 100 == 0
  { t with
    power := x.powerMw / 1000, windowEnd := pick, inputMv := x.inputMv, hotSensor := hot.2
    temps := (List.range 16).map fun k => x.temps.getD k 0
    count := count, sum := if op then 0 else sum
    opPower := if op then sum / 100 / 10000 * 10 else t.opPower, opEnd := if op then pick else t.opEnd
    opTemp := if count % 1000 = 0 then floorTo 5 hot.1 else t.opTemp }

/-- TELEMETRY_WINDOW_END. -/
def execTelemetryWindowEnd (sample : TelSample) (s : State) : Out :=
  .next (s.setTel (s.tel.window sample s.picks))

/-- A signed value in two's complement. -/
def toLeInt (n : Nat) (v : Int) : List Byte := toLe n (v % (2 ^ (8 * n) : Nat)).toNat

/-- Counters of a scope: requests, bytes read and written, promotions, evictions, latency counts. -/
structure TelScope where
  reqs : Nat
  read : Nat
  write : Nat
  prom : Nat
  evict : Nat
  latency : List Nat
deriving DecidableEq, Repr

/-- The scope of a context: latency in whole picks. -/
def Ctx.telScope (c : Ctx) : TelScope :=
  { reqs := c.telReqs, read := c.telRead, write := c.telWrite, prom := c.telProm, evict := c.telEvict
    latency := (List.range 52).map fun k => if k ≤ 12 then Table.getD c.telPicks k 0 else 0 }

/-- The scope of a set of ports: latency in bins of 64 cycles. -/
def State.portScope (s : State) (ps : List Nat) (prom evict : Nat) : TelScope :=
  let total := fun (f : Port → Nat) => ps.foldl (fun a p => a + f (s.port p)) 0
  { reqs := total (·.telReqs), read := total (·.telRead), write := total (·.telWrite), prom := prom, evict := evict
    latency := (List.range 52).map fun k => total fun q => Table.getD q.telCycles k 0 }

/-- The response body; operator resolution for the operator role. -/
def State.telBody (s : State) (operator : Bool) (x : TelScope) : List Byte :=
  let t := s.tel
  let power := if operator then t.opPower else t.power
  let temp := if operator then t.opTemp else (hottest t.temps).1
  toLe 4 power ++ toLe 4 (if operator then 100 else 1) ++ toLeInt 2 temp ++ zeros 6 ++
    toLe 8 (if operator then t.opEnd else t.windowEnd) ++ toLe 8 x.reqs ++ toLe 8 x.read ++ toLe 8 x.write ++
    toLe 8 x.prom ++ toLe 8 x.evict ++ x.latency.flatMap (toLe 4)

/-- The scope of a TELEMETRY_READ, or the status that refuses it (R403, R422). -/
def State.telScope (s : State) (m : Mbx) : TelScope ⊕ Nat :=
  let named := s.rq m 0 1
  let port := s.rq m 1 1
  match m with
  | .operator | .port _ =>
    match s.commandCtx m named with
    | .inr st => .inr st
    | .inl c => match s.ctx? c with
      | some x => .inl x.telScope
      | none => .inr mBadArg
  | _ =>
    if named != 0xFF then
      match s.ctx? named with
      | some x => if x.dying.isNone then .inl x.telScope else .inr mState
      | none => .inr mBadArg
    else if port = 0xFF then .inl (s.portScope (List.range 6) s.tier.promotions s.tier.evictions)
    else if s.hasPort port then .inl (s.portScope [port] 0 0)
    else .inr mBadArg

/-- TELEMETRY_READ. -/
def execTelemetryRead (m : Mbx) (s : State) : Out :=
  .next <| s.runCommand m 0x00F0 true fun s =>
    match s.telScope m with
    | .inr st => s.fail m st
    | .inl x => s.complete m mOk (s.telBody (roleOf m (s.keyId m) == some .operator) x)

end Sys2Proof.Machine
end

