-- ==== Sys2Proof/Machine/Registers.lean ====
section
/-! DEFINITION. BAR0: what every register reads as, writes, refused accesses, halves of 64-bit registers
(spec/18_registers.md R470 to R489, spec/11_port_slots.md R301 to R303). -/

namespace Sys2Proof.Machine

/-! ### Areas and accesses (R470, R471) -/

/-- The management mailbox with number `i`. -/
def mgmtMbx (i : Nat) : Mbx :=
  match i with
  | 0 => .operator
  | 1 => .installer
  | 2 => .maker
  | _ => .service

/-- What lies at an offset: a mailbox image, a bulk window, or registers. -/
inductive Area where
  | image (i off : Nat) | bulk (i off : Nat) | regs
deriving DecidableEq, Repr

def areaOf (off : Nat) : Area :=
  if 0x10000 ≤ off ∧ off < 0x14000 then .image ((off - 0x10000) / 0x1000) (off % 0x1000)
  else if 0x200000 ≤ off ∧ off < 0x400000 then .bulk ((off - 0x200000) / 0x80000) (off % 0x80000)
  else .regs

/-- BAR0 accepts an access: 4 or 8 bytes, naturally aligned, or 1 to 256 bytes of an image or a bulk window inside 4 KiB. -/
def accessOk (off len : Nat) : Bool :=
  match areaOf off with
  | .regs => (len == 4 || len == 8) && off % len == 0
  | _ => 1 ≤ len && len ≤ 256 && off / 4096 == (off + len - 1) / 4096

/-- An access reaches BAR0: it lies in the 4 MiB, the fuse shadows are valid and the endpoint is out of reset (R472). -/
def State.bar0Open (s : State) (off : Nat) : Bool := off < 0x400000 && s.fuses.valid && !s.power.perstLow

/-! ### Reads -/

/-- CAP_UNITS. -/
def State.capUnits (s : State) : Nat := s.units

/-- CAP_PORT: two bits of width for each port. -/
def State.capPort (s : State) : Nat :=
  448 * 2 ^ 16 + (List.range 6).foldl (fun a p => a + widthCode (s.widthNow p) * 2 ^ (2 * p)) 0

/-- Registers of the CAP group (R474). -/
def State.readCap (s : State) (off : Nat) : Nat :=
  match off with
  | 0x00 => 0x0C12 * 2 ^ 16 + s.fuses.field 7 1 * 2 ^ 8 + 1
  | 0x04 => s.capUnits
  | 0x08 => s.capPort
  | 0x0C => (s.farData / 2 ^ 30) * 2 ^ 16 + s.loomPool
  | 0x10 => s.umpire.fwVersion.toNat
  | 0x14 => s.umpire.svn * 2 ^ 8 + s.fuses.svnF
  | _ => 0

/-- Registers of the DEV group (R475). -/
def State.readDev (s : State) (off : Nat) : Nat :=
  match off with
  | 0x1000 => s.safeCauseNow * 2 ^ 24 + s.statusFlags
  | 0x1004 => s.devEvent
  | 0x1008 => s.regs.eventIe.toNat
  | 0x100C => s.regs.badAccess
  | 0x1010 => s.pwrCtl
  | 0x1018 => s.beatNow.toNat % 2 ^ 32
  | 0x101C => s.beatNow.toNat / 2 ^ 32
  | 0x1020 => s.time.cfg.picks * 2 ^ 16 + s.time.idx
  | 0x1024 => s.time.holdCount * 2 ^ 16 + s.time.sync.code
  | 0x1028 => s.time.missCount
  | 0x1030 => s.time.missBeat.toNat % 2 ^ 32
  | 0x1034 => s.time.missBeat.toNat / 2 ^ 32
  | 0x1038 => s.loom.overruns
  | 0x103C => s.loom.extra
  | _ => 0

/-- PWR_IND (spec/11_port_slots.md R290). -/
def SlotSt.powerLight : SlotSt → Nat
  | .empty | .off | .fault => 0
  | .up | .dormant => 1
  | _ => 2

/-- SLOT_CAP, SLOT_CTL and SLOT_STS (R301 to R303); an absent slot reads 0 (R479). -/
def State.readSlot (s : State) (off : Nat) : Nat :=
  let p := (off - 0x3000) / 16
  let t := s.slot p
  if !s.hasPort p then 0
  else match off % 16 with
    | 0 => 0x8F18 + p * 2 ^ 12
    | 4 => b2n t.aptClear * 2 ^ 15 + b2n t.buttonEn * 2 ^ 14 + b2n t.autoPower * 2 ^ 13 + t.st.powerLight * 2 ^ 10 +
        t.attn.toNat * 2 ^ 8 + b2n t.pwrOn * 2 ^ 7 + t.ie.toNat
    | 8 => t.st.code * 2 ^ 28 + widthCode (s.widthNow p) * 2 ^ 8 + b2n t.prsnt * 2 ^ 7 + b2n t.pwrGood * 2 ^ 6 +
        b2n (s.linkUp p) * 2 ^ 5 + t.sts.toNat
    | _ => 0

/-- A temperature as a 16-bit field. -/
def tempField (v : Int) : Nat := (v % 65536).toNat

/-- Registers of the TEL group (R480). -/
def State.readTel (s : State) (off : Nat) : Nat :=
  let t := s.tel
  if 0x4040 ≤ off ∧ off < 0x4080 then tempField (t.temps.getD ((off - 0x4040) / 4) 0)
  else match off with
    | 0x4000 => t.power % 65536
    | 0x4008 => t.windowEnd % 2 ^ 32
    | 0x400C => t.windowEnd / 2 ^ 32 % 2 ^ 32
    | 0x4010 => t.inputMv % 65536
    | 0x4014 => t.hotSensor % 16 * 2 ^ 16 + tempField (t.temps.getD t.hotSensor 0)
    | _ => 0

/-- The CRC of a die record fails (spec/14_identity_roles.md R362). -/
def DieRec.bad (d : DieRec) : Bool := crc32 (d.bytes.take 7) != d.crc.toNat

/-- FUSE_SHADOW, the die records and FUSE_STATUS (R481, R482). -/
def State.readFuse (s : State) (off : Nat) : Nat :=
  let f := s.fuses
  if off < 0x5400 then le (f.readout (off - 0x5000) 4)
  else if off < 0x5480 then
    let k := (off - 0x5400) / 16
    let d := f.dieShadow.getD k {}
    match off % 16 with
    | 0 => d.lot.toNat
    | 4 => b2n d.bad * 2 ^ 31 + k / 4 * 2 ^ 27 + k % 4 * 2 ^ 24 + d.wafer.toNat * 2 ^ 16 + d.y.toNat * 2 ^ 8 + d.x.toNat
    | _ => 0
  else if off = 0x5480 then
    f.svnF * 2 ^ 8 + b2n f.debugDisabled * 16 + b2n f.locked * 8 + b2n f.partialRegion * 4 + b2n f.integrityFail * 2 + b2n f.valid
  else 0

/-- An entry of a correctable-error table: LOCATION, HITS, reserved. -/
def ceWord (tab : List CeEntry) (off : Nat) : Nat :=
  match tab[off / 16]? with
  | none => 0
  | some e => match off % 16 with
    | 0 => e.loc.toNat % 2 ^ 32
    | 4 => e.loc.toNat / 2 ^ 32
    | 8 => e.hits
    | _ => 0

/-- Registers of the RAS group (R483). -/
def State.readRas (s : State) (off : Nat) : Nat :=
  let r := s.ras
  let half := fun (v : W64) (hi : Bool) => if hi then v.toNat / 2 ^ 32 else v.toNat % 2 ^ 32
  if 0x6100 ≤ off ∧ off < 0x6300 then ceWord r.tabNear (off - 0x6100)
  else if 0x6300 ≤ off ∧ off < 0x6500 then ceWord r.tabFar (off - 0x6300)
  else match off with
    | 0x6000 => r.event.toNat
    | 0x6004 => match r.lastTorn with
      | some n => 2 ^ 31 + n % 4096
      | none => 0
    | 0x6008 => s.nor.failedCh.toNat
    | 0x600C => s.rebuilding_
    | 0x6010 => half r.nearUe false
    | 0x6014 => half r.nearUe true
    | 0x6018 => half r.farUe false
    | 0x601C => half r.farUe true
    | 0x6020 => (r.damaged.filter fun d => !d.diverge).length + s.exts.foldl (fun a kv => a + kv.2.unlisted.length) 0
    | 0x6024 => (r.damaged.filter fun d => d.diverge).length
    | 0x6028 => half r.sramCe false
    | 0x602C => half r.sramCe true
    | 0x6030 => half r.parityFixed false
    | 0x6034 => half r.parityFixed true
    | 0x6040 => r.tabNear.length
    | 0x6044 => r.ovfNear
    | 0x6048 => r.tabFar.length
    | 0x604C => r.ovfFar
    | _ => 0

/-- BEAT_KIND (R488). -/
def BeatKind.code : BeatKind → Nat
  | .idle => 0
  | .issue => 1
  | .switch => 2
  | .recovery => 3
  | .end_ => 4

/-- TIE_STATUS, TIE_ACTIVE_BEAT and LOOM_STATUS (R488). -/
def State.readTie (s : State) (off : Nat) : Nat :=
  let owner := if s.hasLoom && s.beatValid then s.loom.owner else 0xFF
  let kind := if s.hasLoom then s.loom.kind.code else 0
  match off with
  | 0x7000 => owner * 2 ^ 24 + kind * 2 ^ 16 + b2n s.tie.shadow.isSome * 2 ^ 15 +
      (match s.tie.plan with | some p => p.patterns | none => 0)
  | 0x7008 => s.tie.activeBeat.toNat % 2 ^ 32
  | 0x700C => s.tie.activeBeat.toNat / 2 ^ 32
  | 0x7010 => if s.hasLoom then s.loom.issue.toNat else 0
  | _ => 0

/-- FRAME, flags of the last egress HEAD: the frame last sent. -/
def Port.lastHead (q : Port) : Nat × Bool :=
  match q.lastFrame with
  | some f => (f.frame.toNat, q.keyPhase)
  | none => (q.txFrame - 1, q.keyPhase)

/-- Registers of a port (R485); those of an absent port read 0. -/
def State.readPort (s : State) (off : Nat) : Nat :=
  let p := (off - 0x20000) / 0x1000
  let q := s.port p
  let half := fun (v : W64) => if off % 8 = 4 then v.toNat / 2 ^ 32 else v.toNat % 2 ^ 32
  let apt := fun (t : Table Apt) (i : Nat) =>
    let a := Table.getD t (i / 16) {}
    half (if i % 16 < 8 then a.link else a.map)
  let o := off % 0x1000
  if !s.hasPort p then 0
  else if o < 0x400 then apt q.active o
  else if o < 0x800 then apt q.staged (o - 0x400)
  else match o with
    | 0x800 => widthCode (s.widthNow p) + b2n q.conf * 4 + b2n q.lastHead.2 * 8 + b2n ((s.slot p).st == .dormant) * 16
    | 0x808 | 0x80C => half (BitVec.ofNat 64 q.lastHead.1)
    | 0x810 | 0x814 => half q.fecCorr
    | 0x818 | 0x81C => half q.fecUncorr
    | 0x820 => q.protoErr
    | 0x824 => q.tagFail
    | 0x828 => q.evtDrop
    | _ => 0

/-- FTR_MARK of a channel: a byte for each subchannel and rank (R486). -/
def State.ftrMark (s : State) (c : Nat) : Nat :=
  (List.range 4).foldl (fun a k => a + (match Table.get? s.nor.devMarks (4 * c + k) with
    | some d => (128 + d) * 2 ^ (8 * k)
    | none => 0)) 0

/-- Registers of the far and the near tier (R486, R487). -/
def State.readTier (s : State) (off : Nat) : Nat :=
  if 0x40000 ≤ off then Table.getD s.ras.ceNear ((off - 0x40000) / 4) 0
  else if off = 0x30000 then b2n s.far.pdEn * 2 ^ 16 + s.far.idlePicks
  else if 0x30100 ≤ off ∧ off < 0x301C0 then Table.getD s.ras.ceFar ((off - 0x30100) / 4) 0
  else if 0x30200 ≤ off ∧ off < 0x30260 then
    (if s.hasGroup ((off - 0x30200) / 24) then s.ftrMark ((off - 0x30200) / 4) else 0)
  else 0

/-- The MSI-X table and the pending-bit array (R477). -/
def State.readMsix (s : State) (off : Nat) : Nat :=
  if off < 0x20A0 then le (Mem.readN s.regs.msixTable (off - 0x2000) 4)
  else if off = 0x2800 then s.regs.msixPend.toNat
  else 0

/-- The value of the 32-bit half at an offset, in installer resolution (R470, R473). -/
def State.readReg (s : State) (off : Nat) : Nat :=
  if off < 0x1000 then s.readCap off
  else if off < 0x2000 then s.readDev off
  else if off < 0x3000 then s.readMsix off
  else if off < 0x4000 then (if off < 0x3060 then s.readSlot off else 0)
  else if off < 0x5000 then s.readTel off
  else if off < 0x6000 then s.readFuse off
  else if off < 0x7000 then s.readRas off
  else if off < 0x8000 then s.readTie off
  else if 0x20000 ≤ off ∧ off < 0x26000 then s.readPort off
  else if 0x30000 ≤ off ∧ off < 0x31000 then s.readTier off
  else if 0x40000 ≤ off ∧ off < 0x48000 then s.readTier off
  else 0

/-- The lower halves of the 64-bit registers (R471). -/
def isLowerHalf (off : Nat) : Bool :=
  [0x1018, 0x1030, 0x4008, 0x6010, 0x6018, 0x6028, 0x6030, 0x7008].contains off ||
    (0x6100 ≤ off && off < 0x6500 && off % 16 == 0) ||
    (0x20000 ≤ off && off < 0x26000 && off % 8 == 0 &&
      (off % 0x1000 < 0x800 || [0x808, 0x810, 0x818].contains (off % 0x1000)))

/-- LOWER_HALF_READ: the read returns the lower half and latches the upper one. -/
def execLowerHalfRead (off : Nat) (s : State) : Out :=
  .next <|
    if s.bar0Open off && isLowerHalf off then
      s.modRegs fun r => { r with
        latch := some (off + 4, BitVec.ofNat 32 (s.readReg (off + 4))), readData := some (BitVec.ofNat 32 (s.readReg off)) }
    else s

/-- What an accepted 4-byte read of BAR0 returns: an upper half returns what its lower half has latched. -/
def State.read4 (s : State) (off : Nat) : Nat :=
  match areaOf off with
  | .image i o => le (s.imageBytes (mgmtMbx i) o 4)
  | .bulk i o => le (Mem.readN (s.mbox (mgmtMbx i)).bulk o 4)
  | .regs => match s.regs.latch with
    | some (o, v) => if o = off then v.toNat else s.readReg off
    | none => s.readReg off

/-! ### Writes (R471, R475 to R479, R483, R489) -/

/-- A write into the MSI-X table; a vector that it unmasks delivers what is pending (R477). DESIGN CHOICE: every bit of an entry
is stored and read back, Vector Control [31:1] too: the spec leaves the layout of an entry to PCIe 5.0 (log entry 12). -/
def State.writeMsix (s : State) (off v : Nat) : State :=
  if 0x20A0 ≤ off then s
  else
    let s := s.modRegs fun r => { r with msixTable := Mem.writeN r.msixTable (off - 0x2000) (toLe 4 v) }
    let n := (off - 0x2000) / 16
    if s.regs.msixPend.toNat.testBit n && !s.regs.masked n then
      (s.modRegs fun r => { r with msixPend := r.msixPend &&& ~~~(BitVec.ofNat 10 (2 ^ n)) }).raise n
    else s

/-- Write 32 bits of a register: fields of access RW are stored, W1C bits cleared, everything else ignored. -/
def State.writeReg (s : State) (off v : Nat) : State :=
  if 0x2000 ≤ off ∧ off < 0x3000 then s.writeMsix off v
  else if 0x3000 ≤ off ∧ off < 0x3060 then
    let p := (off - 0x3000) / 16
    if !s.hasPort p then s
    else match off % 16 with
      | 4 => s.modSlot p fun t => { t with ie := BitVec.ofNat 5 v }
      | 8 => s.modSlot p fun t => { t with sts := t.sts &&& ~~~(BitVec.ofNat 5 v) }
      | _ => s
  else match off with
    | 0x1004 => s.modRegs fun r => { r with event := r.event &&& ~~~(BitVec.ofNat 8 v) }
    | 0x1008 => s.modRegs fun r => { r with eventIe := BitVec.ofNat 32 v }
    | 0x1010 => s.writePwrCtl v
    | 0x6000 => s.modRas fun r => { r with event := r.event &&& ~~~(BitVec.ofNat 6 v) }
    | _ => s

/-- A write of a bulk window is taken while OWNER is 0 (spec/15_mailboxes.md R394). -/
def State.writeBulk (s : State) (m : Mbx) (off : Nat) (data : List Byte) : State :=
  if !s.served m || (s.mbox m).owner then s else s.modMbox m fun b => { b with bulk := Mem.writeN b.bulk off data }

/-- An access of a size or alignment that BAR0 does not accept is counted (R471). -/
def State.refuseAccess (s : State) : State := s.modRegs fun r => { r with badAccess := satInc r.badAccess }

/-- REGISTER_WRITE. -/
def execRegisterWrite (off : Nat) (data : List Byte) (s : State) : Out :=
  .next <|
    if !s.bar0Open off then s
    else if !accessOk off data.length then s.refuseAccess
    else match areaOf off with
      | .image i o => s.writeImage (mgmtMbx i) o data
      | .bulk i o => s.writeBulk (mgmtMbx i) o data
      | .regs =>
        let s := s.writeReg off (le (data.take 4))
        if data.length = 8 then s.writeReg (off + 4) (le (data.drop 4)) else s

/-- BAD_ACCESS. -/
def execBadAccess (off len : Nat) (s : State) : Out :=
  .next <| if s.bar0Open off && !accessOk off len then s.refuseAccess else s

end Sys2Proof.Machine
end

