-- ==== Sys2Proof/Machine/Time.lean ====
section
/-! DEFINITION. The passing of time: positions that hosts, engines and the Loom own, completion of waiting commands, pick
boundaries and beat boundaries (spec/02_beats_and_tieup.md R29, R30, R41, spec/06_memory_channels.md R162 and R176,
spec/15_mailboxes.md R397).

A pick boundary that starts a beat is two commands, PICK_BOUNDARY and then BEAT_BOUNDARY: the first ends the pick and leaves
the beat due, the second does what the beat brings and begins pick 0 (log entry 3). -/

namespace Sys2Proof.Machine

/-! ### TIER_ACCESS_ISSUE -/

/-- An owner code of a port or of a Shuttle engine (spec/02_beats_and_tieup.md R54). -/
def requesterCode (c : Nat) : Bool := (1 ≤ c && c ≤ 6) || (8 ≤ c && c < 16)

/-- TIER_ACCESS_ISSUE: the position carries its owner's oldest ready access on each channel or subchannel; a Loom position
carries the Loom's writes. -/
def execTierAccessIssue (q : Position) (s : State) : Out :=
  .next <|
    let c := s.ownerAt q
    if requesterCode c then
      match s.positionOf q c with
      | some used =>
        let r := s.issueAt q c used
        r.1.useLanes q r.2
      | none => s
    else if c = ownLoom && s.tiersOpen && q.tier == .near then s.loomPosition q.unit q.pos
    else s

/-! ### What goes on by itself -/

/-- Effects that took place at one boundary and go on until their drains end: attachment changes, destroys, share changes,
seals, aperture commits, pins, engines, bolt loads. -/
def State.carryOn (s : State) : State :=
  let s := s.settleAll.boltsGo.pinsDone
  let s := (s.exts.map (·.1)).foldl (fun s e => (s.shareGo e).sealGo e) s
  let s := (List.range 6).foldl State.switchGo s
  (s.ctxs.map (·.1)).foldl (fun s c => (s.attachGo c).destroyGo c) s

/-! ### MBX_COMPLETE (spec/15_mailboxes.md R396 to R398, R401) -/

/-- The command that the Umpire accepts next has an opcode of no command: it completes by the checks of R370. -/
def State.undefinedNext (s : State) (m : Mbx) : Bool := s.isNext m && (cmdInfo (s.opcode m)).isNone

/-- A fuse programming command that waits runs to its end (spec/14_identity_roles.md R371). -/
def State.fuseGo (s : State) (m : Mbx) : State :=
  match (s.mbox m).wait with
  | some w => if w.what = .fuse ∧ w.ready = false then s.fuseRun else s
  | none => s

/-- SHUTTLE_RUN or BOLT_LOAD of an engine has completed: the SHUTTLE_ABORT that ended its job may complete
(spec/12_shuttles.md R323). -/
def State.afterJob (s : State) (w : WaitFor) : State :=
  match w with
  | .shuttle e | .bolt e => (s.waiting (· == .aborted e)).foldl (fun s m => s.markReady m mOk []) s
  | _ => s

/-- A waiting command whose events have occurred completes. -/
def State.completeReady (s : State) (m : Mbx) : State :=
  match (s.mbox m).wait with
  | some w => if w.ready then (s.complete m w.status w.body).afterJob w.what else s
  | none => s

/-- MBX_COMPLETE; a command that was accepted before STANDBY keeps waiting (spec/17_reset_power.md R457). -/
def execMbxComplete (m : Mbx) (s : State) : Out :=
  .next <|
    if s.undefinedNext m then
      let s := s.acceptMbx m
      s.fail m ((s.precheck m).getD mBadArg)
    else if s.standbyHolds then s
    else ((s.carryOn).fuseGo m).completeReady m

/-! ### Effects that were put off to a boundary -/

/-- SAFE drops what a command that has completed SAFE left for a later boundary, a destroy too (spec/15_mailboxes.md R399,
spec/13_isolation_crypto.md R343); repairs already made stay. -/
def Deferred.inSafe : Deferred → Bool
  | .undamage .. | .unseal _ => true
  | _ => false

/-- The boundary after the drain of a destroy (spec/13_isolation_crypto.md R341 steps 9 and 10): the extents enter CLEARING,
the ports become unattached, the drafts are unloaded, the number is free. -/
def State.removeCtx (s : State) (c : Nat) : State :=
  match s.ctx? c with
  | none => s
  | some x =>
    let s := (s.extsOf c).foldl State.enterClearing s
    let s := (maskPorts x.ports).foldl (fun s p => s.modPort p fun r => { r with ctx := none, bounce := [] }) s
    let s := s.modLoom fun l => { l with drafts := l.drafts.filter fun kv => kv.2.ctx != c }
    let q := x.q.getD s.stamp
    (s.setCtxs (Table.erase s.ctxs c)).readyWaiter (.destroy c) mOk
      (stampBytes q 2 ++ toLe 4 x.drained ++ toLe 4 x.aborted ++ zeros 4)

/-- One effect takes place; a repair that is not yet due stays. -/
def State.runDeferred (s : State) (d : Deferred) : State :=
  if s.power.safe && !d.inSafe then s
  else match d with
    | .grantOn e c share key m => s.grantAt e c share key m
    | .shareOn e share => s.shareAt e share
    | .clearExt e m => s.clearAt e m
    | .destroyed c => s.removeCtx c
    | .leaseOn n m => s.leaseAtBoundary n m
    | .leaseResolve n zero m => s.resolveLease n zero m
    | .unpin n m => s.unpinAt n m
    | .promoteEn e en m => s.promoteAt e en m
    | .attachOn c _ => s.attachAt c
    | .scrubOn m => s.scrubSet m
    | .policyOn p auto btn clr m => s.policySet p auto btn clr m
    | .resolveOn e b action due m =>
      if due ≤ s.time.pick then s.resolveAt e b action m
      else s.modUmpire fun u => { u with deferred := u.deferred ++ [d] }
    | .sealOn e => s.modExt e fun x => { x with sealing := true, q := some s.stamp }
    | .unseal e => s.modExt e fun x => { x with sealing := false, q := none }
    | .undamage e b due =>
      if due ≤ s.time.pick then s.repaired e b
      else s.modUmpire fun u => { u with deferred := u.deferred ++ [d] }

/-- Every effect that was put off, in order; STANDBY holds them back until service resumes (spec/17_reset_power.md R457). -/
def State.runAllDeferred (s : State) : State :=
  if s.standbyHolds then s
  else
    let ds := s.umpire.deferred
    ds.foldl State.runDeferred (s.modUmpire fun u => { u with deferred := [] })

/-! ### PICK_BOUNDARY (spec/02_beats_and_tieup.md R29, R41) -/

/-- The pick that ends: records that arrived and are still untaken, a halving still to come, the Loom's accesses, and what
began before it and is past its ceiling. -/
def State.endPick (s : State) : State :=
  let s := s.halve
  let s := (List.range 6).foldl State.takeOld s
  s.loomEnd

/-- Cycle and pick index of the pick that begins: the next one of the beat, the first of a beat, or, where acquisition has
placed a beat boundary within this pick, pick 0 there (R41). -/
def TimeBase.nextStart (t : TimeBase) : Nat × Nat :=
  let c := t.cycle + pickCycles
  match t.acqLoad with
  | some (l, _) => if l ≤ c then (max l t.cycle, 0) else (c, if t.cfg.picks ≤ t.idx + 1 then 0 else t.idx + 1)
  | none => (c, if t.cfg.picks ≤ t.idx + 1 then 0 else t.idx + 1)

/-- The tick: pick count, index, cycle; at pick 0 the beat is due. -/
def State.tick (s : State) : State :=
  s.modTime fun t =>
    let n := t.nextStart
    { t with pick := t.pick + 1, idx := n.2, cycle := n.1, beatCycle := if n.2 = 0 then n.1 else t.beatCycle
             beatDue := n.2 == 0 }

/-- What every pick starts afresh: positions of the tiers, idle counts of far ranks (spec/06_memory_channels.md R175), the
refresh of the near rows (R164), interrupts sent in the pick before; channels that failed in that one are taken out
(spec/16_ras.md R436). -/
def State.freshPick (s : State) : State :=
  let old := s.time.pick - 1
  let s := s.modTie fun t => { t with nearNext := [], farNext := [] }
  let s := s.modRegs fun r => { r with msixOut := [] }
  let n := s.far.nearCount + 1
  (s.setFar ({ s.far with
      idle := s.far.used.foldl (fun t r => Table.set t r old) s.far.idle, used := [], nearCount := n
      refRow := if s.power.selfRefresh then none else refreshRow n })).channelsFail

/-- Requests of a host that are at their ceiling end LATE (spec/10_host_link.md R280). -/
def State.lates (s : State) : State :=
  (s.reqs.filter fun kv => kv.2.port.isSome && kv.2.arrival + 12 ≤ s.time.pick).foldl (fun s kv => s.lateOne kv.1) s

/-- The pick begins: SAFE, effects put off to this boundary, drains, ceilings, scrub passes, the Loom's words, an egress
frame from every port. -/
def State.startPick (s : State) : State :=
  let s := if s.power.safeDue then s.safeBoundary else s
  let s := s.runAllDeferred
  let s := s.dropsGo.lates.passes
  let s := (List.range 6).foldl State.drainAt s
  let s := s.loomStart
  let s := (List.range 6).foldl State.sendFrame s
  s.refill.pinsGo.carryOn.pump

/-- The picks run: internal reset has been released, and no beat boundary is due. -/
def State.picksRun (s : State) : Bool := s.power.stage == 7 && !s.time.beatDue

/-- PICK_BOUNDARY. A restart that FW_ACTIVATE has ordered comes first (spec/14_identity_roles.md R383). -/
def execPickBoundary (s : State) : Out :=
  .next <|
    if !s.picksRun then s
    else
      let s := if s.umpire.restartDue then s.umpireRestart else s
      let s := s.endPick.tick.freshPick
      if s.time.beatDue then s else s.startPick

/-! ### BEAT_BOUNDARY (R30, R37, R43 to R45, R57 to R60, spec/05_tiering.md R131 and R137) -/

/-- The tiering beat count, and whether the counters are halved at this boundary. -/
def Tiering.beat (t : Tiering) : Tiering :=
  { t with beats := t.beats + 1, ageDue := t.ageDue || (t.beats + 1) % t.policy.ageBeats == 0 }

/-- The beat counter and what follows it: BEAT_CONFIG, then the plan, which a recovery beat holds back (R51). -/
def State.beatCount (s : State) : State :=
  let old := s
  let c := s.countBeat
  let s := c.1.syncNotice old
  let was := s.time.sync
  let s := s.beatCfgBoundary c.2
  let loaded := c.2 || (s.time.sync == .master && was != .master)
  s.planBoundary loaded (s.loom.overrun.isSome && !s.loom.halted)

/-- BEAT_BOUNDARY. -/
def execBeatBoundary (s : State) : Out :=
  .next <|
    if !(s.power.stage == 7 && s.time.beatDue) then s
    else
      let s := (s.beatCount.policyBoundary).modTier Tiering.beat
      let s := s.braceBeat.standbyBeat.loomBeat.beatOutPulse
      (s.modTime fun t => { t with beatDue := false }).startPick

end Sys2Proof.Machine
end

