-- ==== Sys2Proof/Machine/Dispatch.lean ====
section
/-! DEFINITION. One arm per command of spec/opcode_table.json, each a direct call of that command's meaning. -/

namespace Sys2Proof.Machine

def exec (i : Instr) (s : State) : Host.Outcome State Fault Refusal :=
  match i with
  | .pickBoundary => Sys2Proof.Machine.execPickBoundary s
  | .beatBoundary => Sys2Proof.Machine.execBeatBoundary s
  | .ageHalving => Sys2Proof.Machine.execAgeHalving s
  | .rekey p => Sys2Proof.Machine.execRekey p s
  | .confStart p => Sys2Proof.Machine.execConfStart p s
  | .ingressFrame p f => Sys2Proof.Machine.execIngressFrame p f s
  | .rd64 p => Sys2Proof.Machine.execRd64 p s
  | .rd256 p => Sys2Proof.Machine.execRd256 p s
  | .wr64 p => Sys2Proof.Machine.execWr64 p s
  | .wr256 p => Sys2Proof.Machine.execWr256 p s
  | .wrp p => Sys2Proof.Machine.execWrp p s
  | .fence p => Sys2Proof.Machine.execFence p s
  | .mbxRead p => Sys2Proof.Machine.execMbxRead p s
  | .mbxWrite p => Sys2Proof.Machine.execMbxWrite p s
  | .hostCplD p => Sys2Proof.Machine.execHostCplD p s
  | .hostCpl p => Sys2Proof.Machine.execHostCpl p s
  | .tierAccessIssue at_ => Sys2Proof.Machine.execTierAccessIssue at_ s
  | .writeCommit req => Sys2Proof.Machine.execWriteCommit req s
  | .readDataDelivered req errs => Sys2Proof.Machine.execReadDataDelivered req errs s
  | .lateCeiling req => Sys2Proof.Machine.execLateCeiling req s
  | .zfillStep at_ => Sys2Proof.Machine.execZfillStep at_ s
  | .promotionPlace group pos => Sys2Proof.Machine.execPromotionPlace group pos s
  | .evictionStart ext page at_ => Sys2Proof.Machine.execEvictionStart ext page at_ s
  | .pageCopyStep at_ errs => Sys2Proof.Machine.execPageCopyStep at_ errs s
  | .residenceSwitch copy => Sys2Proof.Machine.execResidenceSwitch copy s
  | .rankPowerDown ch sub rank => Sys2Proof.Machine.execRankPowerDown ch sub rank s
  | .mr4Read hot => Sys2Proof.Machine.execMr4Read hot s
  | .clearOverwriteStep at_ => Sys2Proof.Machine.execClearOverwriteStep at_ s
  | .scrubStepDue tier unit => Sys2Proof.Machine.execScrubStepDue tier unit s
  | .scrubStep at_ errs => Sys2Proof.Machine.execScrubStep at_ errs s
  | .rebuildRead at_ errs => Sys2Proof.Machine.execRebuildRead at_ errs s
  | .rebuildWrite at_ => Sys2Proof.Machine.execRebuildWrite at_ s
  | .deviceMark ch sub rank dev => Sys2Proof.Machine.execDeviceMark ch sub rank dev s
  | .channelFail ch alert => Sys2Proof.Machine.execChannelFail ch alert s
  | .beatInMarker cycle high => Sys2Proof.Machine.execBeatInMarker cycle high s
  | .markerWindowClose cycle => Sys2Proof.Machine.execMarkerWindowClose cycle s
  | .holdoverExceeded => Sys2Proof.Machine.execHoldoverExceeded s
  | .mbxSubmit m ctl => Sys2Proof.Machine.execMbxSubmit m ctl s
  | .mbxComplete m => Sys2Proof.Machine.execMbxComplete m s
  | .getCaps m => Sys2Proof.Machine.execGetCaps m s
  | .getStatus m => Sys2Proof.Machine.execGetStatus m s
  | .ctxCreate m => Sys2Proof.Machine.execCtxCreate m s
  | .ctxAttach m => Sys2Proof.Machine.execCtxAttach m s
  | .ctxDestroy m => Sys2Proof.Machine.execCtxDestroy m s
  | .destroyBoundary ctx => Sys2Proof.Machine.execDestroyBoundary ctx s
  | .keyHoldEnd p => Sys2Proof.Machine.execKeyHoldEnd p s
  | .extCreate m => Sys2Proof.Machine.execExtCreate m s
  | .extRemove m => Sys2Proof.Machine.execExtRemove m s
  | .extGrant m => Sys2Proof.Machine.execExtGrant m s
  | .extRevoke m => Sys2Proof.Machine.execExtRevoke m s
  | .revocationBoundary ext => Sys2Proof.Machine.execRevocationBoundary ext s
  | .revokeDrainEnd ext => Sys2Proof.Machine.execRevokeDrainEnd ext s
  | .extClear m => Sys2Proof.Machine.execExtClear m s
  | .extSeal m => Sys2Proof.Machine.execExtSeal m s
  | .extQuery m => Sys2Proof.Machine.execExtQuery m s
  | .aptStage m => Sys2Proof.Machine.execAptStage m s
  | .aptStageDiscard m => Sys2Proof.Machine.execAptStageDiscard m s
  | .aptCommit m => Sys2Proof.Machine.execAptCommit m s
  | .aptSwitch p => Sys2Proof.Machine.execAptSwitch p s
  | .leaseTake m => Sys2Proof.Machine.execLeaseTake m s
  | .leaseDrop m => Sys2Proof.Machine.execLeaseDrop m s
  | .leaseResolve m => Sys2Proof.Machine.execLeaseResolve m s
  | .leaseTorn p => Sys2Proof.Machine.execLeaseTorn p s
  | .pin m => Sys2Proof.Machine.execPin m s
  | .unpin m => Sys2Proof.Machine.execUnpin m s
  | .migPolicyGlobal m => Sys2Proof.Machine.execMigPolicyGlobal m s
  | .migPolicyExtent m => Sys2Proof.Machine.execMigPolicyExtent m s
  | .migPolicyRead m => Sys2Proof.Machine.execMigPolicyRead m s
  | .draftLoad m => Sys2Proof.Machine.execDraftLoad m s
  | .draftUnload m => Sys2Proof.Machine.execDraftUnload m s
  | .draftStart m => Sys2Proof.Machine.execDraftStart m s
  | .draftStop m => Sys2Proof.Machine.execDraftStop m s
  | .draftQuery m => Sys2Proof.Machine.execDraftQuery m s
  | .tieupSet m => Sys2Proof.Machine.execTieupSet m s
  | .tieupSetRead m => Sys2Proof.Machine.execTieupSetRead m s
  | .beatConfig m => Sys2Proof.Machine.execBeatConfig m s
  | .beatConfigRead m => Sys2Proof.Machine.execBeatConfigRead m s
  | .shuttleRun m => Sys2Proof.Machine.execShuttleRun m s
  | .shuttleListRead e => Sys2Proof.Machine.execShuttleListRead e s
  | .descriptorStart e => Sys2Proof.Machine.execDescriptorStart e s
  | .shuttleBlockIssue e => Sys2Proof.Machine.execShuttleBlockIssue e s
  | .pullTimeout e tag => Sys2Proof.Machine.execPullTimeout e tag s
  | .descriptorWriteBack e => Sys2Proof.Machine.execDescriptorWriteBack e s
  | .shuttleAbort m => Sys2Proof.Machine.execShuttleAbort m s
  | .boltLoad m => Sys2Proof.Machine.execBoltLoad m s
  | .boltChunk e => Sys2Proof.Machine.execBoltChunk e s
  | .boltIssuersAdd m => Sys2Proof.Machine.execBoltIssuersAdd m s
  | .boltIssuersRemove m => Sys2Proof.Machine.execBoltIssuersRemove m s
  | .boltIssuersList m => Sys2Proof.Machine.execBoltIssuersList m s
  | .spdmMsg m => Sys2Proof.Machine.execSpdmMsg m s
  | .mctpSpdmMessage msg => Sys2Proof.Machine.execMctpSpdmMessage msg s
  | .keyAgree m => Sys2Proof.Machine.execKeyAgree m s
  | .bounceAdd m => Sys2Proof.Machine.execBounceAdd m s
  | .bounceRemove m => Sys2Proof.Machine.execBounceRemove m s
  | .bounceList m => Sys2Proof.Machine.execBounceList m s
  | .rasQuerySummary m => Sys2Proof.Machine.execRasQuerySummary m s
  | .rasQueryList m => Sys2Proof.Machine.execRasQueryList m s
  | .ceTableRead m => Sys2Proof.Machine.execCeTableRead m s
  | .copyLow m => Sys2Proof.Machine.execCopyLow m s
  | .copyHigh m => Sys2Proof.Machine.execCopyHigh m s
  | .rewrite m => Sys2Proof.Machine.execRewrite m s
  | .scrubConfig m => Sys2Proof.Machine.execScrubConfig m s
  | .fwStage m => Sys2Proof.Machine.execFwStage m s
  | .fwStageDiscard m => Sys2Proof.Machine.execFwStageDiscard m s
  | .fwActivate m => Sys2Proof.Machine.execFwActivate m s
  | .fuseProgramInstaller m => Sys2Proof.Machine.execFuseProgramInstaller m s
  | .restoreKey m => Sys2Proof.Machine.execRestoreKey m s
  | .fuseProgramRollback m => Sys2Proof.Machine.execFuseProgramRollback m s
  | .fuseProgramDebugDisable m => Sys2Proof.Machine.execFuseProgramDebugDisable m s
  | .auditRead m => Sys2Proof.Machine.execAuditRead m s
  | .slotPowerOn m => Sys2Proof.Machine.execSlotPowerOn m s
  | .slotPowerOff m => Sys2Proof.Machine.execSlotPowerOff m s
  | .slotCancel m => Sys2Proof.Machine.execSlotCancel m s
  | .slotPortReset m => Sys2Proof.Machine.execSlotPortReset m s
  | .setAttn m => Sys2Proof.Machine.execSetAttn m s
  | .setPolicy m => Sys2Proof.Machine.execSetPolicy m s
  | .telemetryRead m => Sys2Proof.Machine.execTelemetryRead m s
  | .makerUnlock m => Sys2Proof.Machine.execMakerUnlock m s
  | .presenceGained p => Sys2Proof.Machine.execPresenceGained p s
  | .presenceLost p => Sys2Proof.Machine.execPresenceLost p s
  | .buttonPress p => Sys2Proof.Machine.execButtonPress p s
  | .powerFault p => Sys2Proof.Machine.execPowerFault p s
  | .trainingStart p => Sys2Proof.Machine.execTrainingStart p s
  | .linkTrained p width => Sys2Proof.Machine.execLinkTrained p width s
  | .trainingRetry p => Sys2Proof.Machine.execTrainingRetry p s
  | .holdTimeout p => Sys2Proof.Machine.execHoldTimeout p s
  | .drainStart p => Sys2Proof.Machine.execDrainStart p s
  | .drainEnd p => Sys2Proof.Machine.execDrainEnd p s
  | .linkFailure p => Sys2Proof.Machine.execLinkFailure p s
  | .powerOnReset => Sys2Proof.Machine.execPowerOnReset s
  | .deviceReset => Sys2Proof.Machine.execDeviceReset s
  | .resetNRelease => Sys2Proof.Machine.execResetNRelease s
  | .umpireRestart => Sys2Proof.Machine.execUmpireRestart s
  | .engineReset => Sys2Proof.Machine.execEngineReset s
  | .fwReady forceSafeLow inputMv => Sys2Proof.Machine.execFwReady forceSafeLow inputMv s
  | .watchdogExpiry => Sys2Proof.Machine.execWatchdogExpiry s
  | .perstN => Sys2Proof.Machine.execPerstN s
  | .registerWrite off data => Sys2Proof.Machine.execRegisterWrite off data s
  | .badAccess off len => Sys2Proof.Machine.execBadAccess off len s
  | .portDormantEnter p => Sys2Proof.Machine.execPortDormantEnter p s
  | .portDormantWake p width => Sys2Proof.Machine.execPortDormantWake p width s
  | .standbyEntry => Sys2Proof.Machine.execStandbyEntry s
  | .standbyExit => Sys2Proof.Machine.execStandbyExit s
  | .brace => Sys2Proof.Machine.execBrace s
  | .braceRecovery => Sys2Proof.Machine.execBraceRecovery s
  | .braceTimeout => Sys2Proof.Machine.execBraceTimeout s
  | .brownOut => Sys2Proof.Machine.execBrownOut s
  | .supplyHigh => Sys2Proof.Machine.execSupplyHigh s
  | .inputRangeAlert => Sys2Proof.Machine.execInputRangeAlert s
  | .thermalAlert => Sys2Proof.Machine.execThermalAlert s
  | .thermalAlertEnd => Sys2Proof.Machine.execThermalAlertEnd s
  | .thermtrip => Sys2Proof.Machine.execThermtrip s
  | .forceSafe => Sys2Proof.Machine.execForceSafe s
  | .entropyFail => Sys2Proof.Machine.execEntropyFail s
  | .refclkLoss => Sys2Proof.Machine.execRefclkLoss s
  | .inputRangeAlertEnd => Sys2Proof.Machine.execInputRangeAlertEnd s
  | .refclkReturn => Sys2Proof.Machine.execRefclkReturn s
  | .perstNRelease => Sys2Proof.Machine.execPerstNRelease s
  | .lowerHalfRead off => Sys2Proof.Machine.execLowerHalfRead off s
  | .telemetryWindowEnd sample => Sys2Proof.Machine.execTelemetryWindowEnd sample s
  | .thermalResetHoldEnd => Sys2Proof.Machine.execThermalResetHoldEnd s
  | .railLeavesRegulation => Sys2Proof.Machine.execRailLeavesRegulation s

end Sys2Proof.Machine
end

