-- ==== Sys2Proof/Safety.lean ====
section
/-! DEFINITION. The terms in which statements are made: what a sound state of the expander is (its units, the canonical form
of the stored bytes of both tiers, the open-drain pins that follow their causes), when a mailbox command runs, how it is
answered, and what an event leaves alone. -/

namespace Sys2Proof.Machine

/-- The state has the hardware's units: six ports, six slots, eight Shuttle engines, and the ten mailboxes
(spec/00_scope.md R2, spec/11_port_slots.md, spec/12_shuttles.md R305, spec/15_mailboxes.md R390). -/
abbrev State.Shape (s : State) : Prop :=
  s.ports.length = 6 ∧ s.slots.length = 6 ∧ s.engines.length = 8 ∧ s.umpire.mboxes.map (·.1) = allMbx

/-- SAFE_N, ALERT_N, THERMTRIP_N and PWR_GOOD follow their causes (spec/17_reset_power.md R461, R463 and R466). -/
abbrev Power.PinsOk (w : Power) : Prop :=
  w.safeN = !w.safe ∧ w.alertN = !(w.braced || w.hot || w.inputAlert || w.safe) ∧ w.thermtripN = !w.thermTrip ∧
    w.pwrGood = w.railsGood

/-- The stored bytes of both tiers are in their one canonical form. -/
abbrev State.TiersOk (s : State) : Prop := Mem.wf s.nearMem = true ∧ Mem.wf s.farMem = true

/-- A sound state. -/
abbrev State.Sound (s : State) : Prop := s.Shape ∧ s.TiersOk ∧ s.power.PinsOk

/-- A blown fuse stays blown (spec/14_identity_roles.md R354), in an array that stays in canonical form. -/
abbrev Fuses.StillBlown (f g : Fuses) : Prop :=
  Mem.wf f.array = true → Mem.wf g.array = true ∧ ∀ a, f.array.read a &&& g.array.read a = f.array.read a

/-- The same pick is in force (spec/02_beats_and_tieup.md R29). -/
abbrev TimeBase.SamePick (t u : TimeBase) : Prop := t.pick = u.pick ∧ t.idx = u.idx ∧ t.cycle = u.cycle

/-- SAFE lasts, with its first cause (spec/17_reset_power.md R462). -/
abbrev Power.SafeLasts (w v : Power) : Prop := w.safe = true → v.safe = true ∧ v.safeCause = w.safeCause

/-! ### Mailbox commands (spec/15_mailboxes.md R396 to R402, spec/14_identity_roles.md R370) -/

/-- The mailbox exists, and its port has not lost its host while its command ran (spec/11_port_slots.md R297). -/
abbrev State.HasMbx (s : State) (m : Mbx) : Prop :=
  s.umpire.mboxes.map (·.1) = allMbx ∧ m ∈ allMbx ∧ (s.mbox m).discard = false

/-- The command of a mailbox is the next that the Umpire accepts, has this opcode and form, and passes the checks of R370. -/
abbrev State.Runs (s : State) (m : Mbx) (op : Nat) (form : Bool) : Prop :=
  s.HasMbx m ∧ s.accepts m op form = true ∧ (s.acceptMbx m).precheck m = none

/-- The row of a mailbox command: its mailbox, its opcode, and whether the request in the mailbox is of the row's form
(spec/15_mailboxes.md R406 to R422). -/
def State.mailboxRow (s : State) : Instr → Option (Mbx × Nat × Bool)
  | .getCaps m => some (m, 0x0001, true)
  | .getStatus m => some (m, 0x0002, true)
  | .ctxAttach m => some (m, 0x0010, s.flag m 0)
  | .ctxCreate m => some (m, 0x0010, !s.flag m 0)
  | .ctxDestroy m => some (m, 0x0011, true)
  | .extCreate m => some (m, 0x0020, !s.flag m 0)
  | .extRemove m => some (m, 0x0020, s.flag m 0)
  | .extGrant m => some (m, 0x0021, true)
  | .extRevoke m => some (m, 0x0022, true)
  | .extClear m => some (m, 0x0023, true)
  | .extSeal m => some (m, 0x0024, true)
  | .extQuery m => some (m, 0x0025, true)
  | .aptStage m => some (m, 0x0030, !s.flag m 0)
  | .aptStageDiscard m => some (m, 0x0030, s.flag m 0)
  | .aptCommit m => some (m, 0x0031, true)
  | .leaseTake m => some (m, 0x0040, true)
  | .leaseDrop m => some (m, 0x0041, true)
  | .leaseResolve m => some (m, 0x0042, true)
  | .pin m => some (m, 0x0050, true)
  | .unpin m => some (m, 0x0051, true)
  | .migPolicyExtent m => some (m, 0x0052, s.flag m 0 && !s.flag m 1)
  | .migPolicyGlobal m => some (m, 0x0052, !s.flag m 0 && !s.flag m 1)
  | .migPolicyRead m => some (m, 0x0052, s.flag m 1)
  | .draftLoad m => some (m, 0x0060, !s.flag m 0)
  | .draftUnload m => some (m, 0x0060, s.flag m 0)
  | .draftStart m => some (m, 0x0061, true)
  | .draftStop m => some (m, 0x0062, true)
  | .draftQuery m => some (m, 0x0063, true)
  | .tieupSet m => some (m, 0x0070, !s.flag m 0)
  | .tieupSetRead m => some (m, 0x0070, s.flag m 0)
  | .beatConfig m => some (m, 0x0071, !s.flag m 0)
  | .beatConfigRead m => some (m, 0x0071, s.flag m 0)
  | .shuttleRun m => some (m, 0x0080, true)
  | .shuttleAbort m => some (m, 0x0081, true)
  | .boltLoad m => some (m, 0x0090, true)
  | .boltIssuersAdd m => some (m, 0x0091, s.rq m 0 1 == 0)
  | .boltIssuersList m => some (m, 0x0091, decide (2 ≤ s.rq m 0 1))
  | .boltIssuersRemove m => some (m, 0x0091, s.rq m 0 1 == 1)
  | .spdmMsg m => some (m, 0x00A0, true)
  | .bounceAdd m => some (m, 0x00A1, s.rq m 0 1 == 1)
  | .bounceList m => some (m, 0x00A1, decide (3 ≤ s.rq m 0 1))
  | .bounceRemove m => some (m, 0x00A1, s.rq m 0 1 == 2)
  | .keyAgree m => some (m, 0x00A1, s.rq m 0 1 == 0)
  | .rasQueryList m => some (m, 0x00B0, s.rq m 0 1 != 0)
  | .rasQuerySummary m => some (m, 0x00B0, s.rq m 0 1 == 0)
  | .ceTableRead m => some (m, 0x00B1, true)
  | .copyHigh m => some (m, 0x00B2, s.rq m 0x0A 1 == 1)
  | .copyLow m => some (m, 0x00B2, s.rq m 0x0A 1 == 0)
  | .rewrite m => some (m, 0x00B2, decide (2 ≤ s.rq m 0x0A 1))
  | .scrubConfig m => some (m, 0x00B3, true)
  | .fwStage m => some (m, 0x00C0, !s.flag m 1)
  | .fwStageDiscard m => some (m, 0x00C0, s.flag m 1)
  | .fwActivate m => some (m, 0x00C1, true)
  | .fuseProgramDebugDisable m => some (m, 0x00D0, decide (3 ≤ s.rq m 0 1))
  | .fuseProgramInstaller m => some (m, 0x00D0, s.rq m 0 1 == 0)
  | .fuseProgramRollback m => some (m, 0x00D0, s.rq m 0 1 == 2)
  | .restoreKey m => some (m, 0x00D0, s.rq m 0 1 == 1)
  | .auditRead m => some (m, 0x00D1, true)
  | .setAttn m => some (m, 0x00E0, s.rq m 1 1 == 4)
  | .setPolicy m => some (m, 0x00E0, decide (5 ≤ s.rq m 1 1))
  | .slotCancel m => some (m, 0x00E0, s.rq m 1 1 == 2)
  | .slotPortReset m => some (m, 0x00E0, s.rq m 1 1 == 3)
  | .slotPowerOff m => some (m, 0x00E0, s.rq m 1 1 == 1)
  | .slotPowerOn m => some (m, 0x00E0, s.rq m 1 1 == 0)
  | .telemetryRead m => some (m, 0x00F0, true)
  | .makerUnlock m => some (m, 0x0100, true)
  | _ => none

/-- Between `s` and `t` the command of a mailbox has completed with a status and a response body: LAST_STATUS, DONE, OWNER,
and the response area of its image, zero beyond the response (R397, R402). -/
abbrev State.Answered (s t : State) (m : Mbx) (st : Nat) (body : List Byte) : Prop :=
  (t.mbox m).last = st ∧ (t.mbox m).done = true ∧ (t.mbox m).owner = false ∧ (t.mbox m).accepted = false ∧
    (t.mbox m).wait = none ∧
    (t.mbox m).image = ((s.mbox m).image.writeN 0x800 (zeros 2048)).writeN 0x800 (s.respHeader m st body.length ++ body)

/-- Between `s` and `t` the command of a mailbox has been accepted, for the context that it concerns, and waits for an event
(R398). -/
abbrev State.Waits (s t : State) (m : Mbx) (w : WaitFor) : Prop :=
  t.mbox m = { s.mbox m with accepted := true, ctx := s.auditCtx m, wait := some { what := w } }

/-- Nothing that events carry on is in progress: no engine has a job, no pin still places its pages, no share change and no
seal drains, no aperture commit and no attachment change or destroy is under way; STANDBY holds nothing back, and no
SHUTTLE_ABORT waits for its job to complete. -/
abbrev State.Still (s : State) : Prop :=
  s.standbyHolds = false ∧ (∀ e, s.isWaiting (· == .aborted e) = false) ∧
  (∀ e, e < 8 → s.engine e = none) ∧ (∀ kv ∈ s.pins, kv.2.done = true) ∧
    (∀ kv ∈ s.exts, kv.2.sharing = false ∧ kv.2.sealing = false) ∧ (∀ p, p < 6 → (s.port p).switchQ = none) ∧
    ∀ kv ∈ s.ctxs, kv.2.attach = none ∧ kv.2.dying = none

/-! ### What an event leaves alone -/

/-- Every stored byte of both tiers reads as before. -/
abbrev State.SameStored (s t : State) : Prop :=
  ∀ a, t.nearMem.read a = s.nearMem.read a ∧ t.farMem.read a = s.farMem.read a

/-- The stored bytes of both tiers are the same data. -/
abbrev State.SameTiers (s t : State) : Prop := t.nearMem = s.nearMem ∧ t.farMem = s.farMem

/-- Extents, contexts, leases, pins, the residency of pages, requests, drafts and jobs are as before. -/
abbrev State.SameObjects (s t : State) : Prop :=
  t.exts = s.exts ∧ t.ctxs = s.ctxs ∧ t.leases = s.leases ∧ t.pins = s.pins ∧ t.tier = s.tier ∧ t.reqs = s.reqs ∧
    t.loom = s.loom ∧ t.engines = s.engines

/-- The time base, the plan, slots, fuses, the RAS unit, the far controllers, supply and pins, and telemetry are as
before. -/
abbrev State.SameUnits (s t : State) : Prop :=
  t.time = s.time ∧ t.tie = s.tie ∧ t.slots = s.slots ∧ t.fuses = s.fuses ∧ t.ras = s.ras ∧ t.far = s.far ∧
    t.power = s.power ∧ t.tel = s.tel

/-- What the answer of a mailbox leaves alone: the other mailboxes; the ports but for the queue of events to the host; the NOR
but for the audit log; the registers but for interrupts. -/
abbrev State.SameOthers (s t : State) (m : Mbx) : Prop :=
  (∀ k, k ≠ m → t.mbox k = s.mbox k) ∧ (∀ p, { t.port p with evts := [] } = { s.port p with evts := [] }) ∧
    { t.nor with audit := [], auditSeq := 0 } = { s.nor with audit := [], auditSeq := 0 } ∧
    { t.regs with msixPend := 0, msixOut := [] } = { s.regs with msixPend := 0, msixOut := [] }

/-- What a mailbox command that only answers leaves alone: everything but the mailbox itself, the audit log, the queue of
events to its host and interrupts; nothing more is put off to a boundary. -/
abbrev State.SameBut (s t : State) (m : Mbx) : Prop :=
  s.SameStored t ∧ s.SameObjects t ∧ s.SameUnits t ∧ s.SameOthers t m ∧ t.umpire.deferred = s.umpire.deferred

/-- The state with other effects put off to a boundary: to say that nothing but these differs. -/
abbrev State.putDeferred (s : State) (d : List Deferred) : State := { s with umpire := { s.umpire with deferred := d } }

end Sys2Proof.Machine
end

