-- ==== Sys2Proof/Certificates/Slice0/Obligations.lean ====
section
/-! DEFINITION. The statements for the provers. Each docstring says in words what the statement says; OBLIGATIONS.json cites
the rules of spec/. -/

open Sys2Proof Sys2Proof.Machine

/-- For every command and state: a step of the state with the command at the front of its queue is `exec` of that command on
the state with the queue's rest.  The queue is the model's own (log entry 1).
A step on an empty queue answers the state it found.  This is the model's choice (log entry 1). -/
def Obligations.StepRunsFrontCommand : Prop :=
  (∀ (c : Instr) (rest : List Instr) (s : State), step { s with pending := c :: rest } = exec c { s with pending := rest }) ∧
  (∀ s : State, s.pending = [] → step s = .next s)

/-- `State.reset` has six ports, six slots, eight engines and the ten mailboxes, both tiers in canonical form, pins that agree
with their causes, and an empty queue. -/
def Obligations.ResetIsSound : Prop := State.reset.Sound ∧ State.reset.pending = []

/-- From every sound state, and not only those that a run reaches, a step of any command answers a sound state: the units stay
six, six, eight and ten, the stored bytes of both tiers keep their canonical form, and SAFE_N, ALERT_N and THERMTRIP_N keep
following their causes. -/
def Obligations.StepKeepsSound : Prop := ∀ s t : State, s.Sound → step s = .next t → t.Sound

/-- No command of the table stops the expander: `exec` answers a next state for every command in every state, and that state
has the same commands waiting. -/
def Obligations.EveryCommandAnswers : Prop :=  ∀ (c : Instr) (s : State), ∃ t, exec c s = .next t ∧ t.pending = s.pending

/-- Of any memory in canonical form and any run of bytes written to it: an address inside the run reads the byte written there,
an address outside reads as before, and the memory is again in canonical form. -/
def Obligations.MemoryReadsWhatWasWritten : Prop :=  ∀ (m : Mem) (a : Nat) (l : List Byte), m.wf = true →
    (∀ i, i < l.length → (m.writeN a l).read (a + i) = l.getD i 0) ∧
      (∀ i, (i < a ∨ a + l.length ≤ i) → (m.writeN a l).read i = m.read i) ∧ (m.writeN a l).wf = true

/-- No command, reset, brown-out or supply event returns a blown fuse to 0: of every state whose fuse array is in canonical form
and every command, each bit of the array that reads 1 before reads 1 after, and the array is again in canonical form. -/
def Obligations.BlownFusesStayBlown : Prop :=  ∀ (c : Instr) (s t : State), Mem.wf s.fuses.array = true → exec c s = .next t →
    Mem.wf t.fuses.array = true ∧ ∀ a, s.fuses.array.read a &&& t.fuses.array.read a = s.fuses.array.read a

/-- In SAFE every command but POWER_ON_RESET, DEVICE_RESET and BROWN_OUT answers a state that is again in SAFE with the same
SAFE_CAUSE: a later cause changes neither. -/
def Obligations.SafeLastsUntilReset : Prop :=  ∀ (c : Instr) (s t : State), s.power.safe = true → exec c s = .next t →
    c ≠ .powerOnReset → c ≠ .deviceReset → c ≠ .brownOut → t.power.safe = true ∧ t.power.safeCause = s.power.safeCause

/-- Every command but the listed ones leaves every stored byte of both tiers as it is: no mailbox command, no record that
arrives, no slot event, register write, pin event or SAFE entry writes a tier, nor does a reset that keeps power.  The listed
ones are the boundaries (the Loom's accesses and the commits of SAFE), the accesses at positions and their data and commits, the
steps of fills, copies, clears, scrubbing and rebuild, the switch of a page's residence (after which a write that has taken
its position is made there too), and the loss of power. -/
def Obligations.OnlyDataMovesWriteTiers : Prop :=  ∀ (c : Instr) (s t : State), exec c s = .next t → s.SameTiers t ∨ c = .pickBoundary ∨ c = .beatBoundary ∨
    (∃ q, c = .tierAccessIssue q) ∨ (∃ r, c = .writeCommit r) ∨ (∃ r e, c = .readDataDelivered r e) ∨
    (∃ q, c = .zfillStep q) ∨ (∃ q e, c = .pageCopyStep q e) ∨ (∃ q, c = .clearOverwriteStep q) ∨
    (∃ q e, c = .scrubStep q e) ∨ (∃ q e, c = .rebuildRead q e) ∨ (∃ q, c = .rebuildWrite q) ∨ (∃ i, c = .residenceSwitch i) ∨
    c = .powerOnReset ∨ c = .brownOut

/-- Every command but PICK_BOUNDARY and the resets of the logic die leaves the pick count, the pick index and the CLK_E cycle of
the pick in force as they are.  PICK_BOUNDARY, once internal reset is released and no beat boundary is due, counts one pick
and takes the pick index to the next of the beat or to 0; at any other time it changes nothing. -/
def Obligations.PicksPassAtBoundaries : Prop :=  (∀ (c : Instr) (s t : State), c ≠ .pickBoundary → c ≠ .powerOnReset → c ≠ .brownOut → c ≠ .deviceReset →
    exec c s = .next t → t.time.SamePick s.time) ∧
  (∀ s : State, (s.power.stage = 7 ∧ s.time.beatDue = false → ∃ t, exec .pickBoundary s = .next t ∧
      t.time.pick = s.time.pick + 1 ∧ (t.time.idx = s.time.idx + 1 ∨ t.time.idx = 0)) ∧
    (s.power.stage ≠ 7 ∨ s.time.beatDue = true → exec .pickBoundary s = .next s))

/-- MBX_SUBMIT of a mailbox that is served and, for a port, outside SAFE: with bit 0 set and OWNER 0 the mailbox takes OWNER 1,
DONE 0 and IE as written, and joins the end of the queue of submitted commands; with OWNER already 1, or bit 0 clear, IE alone
changes.  Before the firmware is ready, and on a port in SAFE, nothing changes.  In each case everything else stays.
MBX_COMPLETE.  Of a mailbox whose next command has an opcode of no command, outside SAFE and STANDBY: it is accepted and
completes BAD_ARG with no body.  Of a mailbox whose command waits and is ready, in a state in which nothing else goes on (no
contexts, extents, pins or jobs, no port with a staged aperture switch, no SHUTTLE_ABORT that waits for its job's command, no
STANDBY): the command completes with the status and the
body that wait there.  Of a mailbox whose command waits for events that have not occurred, in such a state: nothing
changes. -/
def Obligations.MailboxSubmitAndComplete : Prop :=
  (∀ (s : State) (m : Mbx) (ctl : W32), s.HasMbx m →
    (s.served m = true → (s.power.safe = false ∨ isManaged m = true) →
      (ctl.getLsbD 0 = true → (s.mbox m).owner = false → ∃ t, exec (.mbxSubmit m ctl) s = .next t ∧
        t.mbox m = { s.mbox m with owner := true, done := false, ie := ctl.getLsbD 7 } ∧
        t.umpire.queue = s.umpire.queue ++ [m] ∧ s.SameBut t m) ∧
      ((ctl.getLsbD 0 = false ∨ (s.mbox m).owner = true) → ∃ t, exec (.mbxSubmit m ctl) s = .next t ∧
        t.mbox m = { s.mbox m with ie := ctl.getLsbD 7 } ∧ t.umpire.queue = s.umpire.queue ∧
        s.SameBut t m)) ∧
    ((s.served m = false ∨ (s.power.safe = true ∧ isManaged m = false)) → exec (.mbxSubmit m ctl) s = .next s)) ∧
  (∀ (s : State) (m : Mbx), s.HasMbx m →
    (s.isNext m = true → cmdInfo (s.opcode m) = none → s.power.safe = false → s.power.standbyBit = false →
      ∃ t, exec (.mbxComplete m) s = .next t ∧ s.Answered t m mBadArg [] ∧ s.SameBut t m) ∧
    (s.Still → (s.mbox m).accepted = true → ∀ w : Wait, (s.mbox m).wait = some w →
      (w.ready = true → ∃ t, exec (.mbxComplete m) s = .next t ∧ s.Answered t m w.status w.body ∧ s.SameBut t m) ∧
      (w.ready = false → w.what ≠ .fuse → exec (.mbxComplete m) s = .next s)))

/-- For each of the 66 rows of mailbox commands: where the mailbox's command is not the next that the Umpire accepts, or is not
of the row's opcode and form, the state stays as it is (log entry 1); where one of the checks that run at acceptance gives a
status, the command completes with that status and a body of length 0, and nothing but its mailbox, its audit record, its
completion signal and CHALLENGE changes.
For every row of a mailbox command that the Umpire accepts next: SAFE on a mailbox other than SERVICE gives SAFE, but for
FUSE_PROGRAM, which goes on to its own STATE (R371); outside SAFE, in
STANDBY, a command that is no query gives STATE; else an ill-formed header gives BAD_ARG; else a KEY_ID that does not fit the
mailbox gives DENIED; else a KEY_ID 0x02 command, or a KEY_ID 0x01 command of a commissioned expander, whose signature does
not verify gives SIG_FAIL; else a command that the commissioning state does not permit gives STATE; else one that eligibility
or RIGHTS do not permit gives DENIED.  In each case the command completes with that status, with no body. -/
def Obligations.AcceptanceChecks : Prop :=
  (∀ (c : Instr) (s : State) (m : Mbx) (op : Nat) (form : Bool), s.mailboxRow c = some (m, op, form) →
    (s.accepts m op form = false → exec c s = .next s) ∧
      (∀ st, s.HasMbx m → s.accepts m op form = true → (s.acceptMbx m).precheck m = some st →
        ∃ t, exec c s = .next t ∧ s.Answered t m st [] ∧ s.SameBut t m)) ∧
  (∀ (c : Instr) (s : State) (m : Mbx) (op : Nat) (form : Bool), s.mailboxRow c = some (m, op, form) → s.HasMbx m →
    s.accepts m op form = true →
    let ends := fun (st : Nat) => ∃ t, exec c s = .next t ∧ s.Answered t m st [] ∧ s.SameBut t m
    let signed := s.keyId m = 2 ∨ (s.keyId m = 1 ∧ s.commissioned = true)
    let verifies := ∃ k, s.verifyKey m = some k ∧ ecdsaVerify k (s.signedDigest m) (s.signature m) = true
    (s.power.safe = true → m ≠ .service → s.opcode m ≠ 0x00D0 → ends mSafe) ∧
      (s.power.safe = false →
        (s.standbyBlocks m = true → ends mState) ∧
        (s.standbyBlocks m = false →
          (s.wellFormed m = false → ends mBadArg) ∧
          (s.wellFormed m = true →
            (s.keyIdOk m = false → ends mDenied) ∧
            (s.keyIdOk m = true →
              (signed → ¬ verifies → ends mSigFail) ∧
              (s.sigOk m = true →
                (s.commissionOk m = false → ends mState) ∧
                (s.commissionOk m = true → s.rightsOk m = false → ends mDenied)))))))

/-- When it runs, GET_CAPS completes OK with 64 bytes: the bitwise NOT of VARIANT_DIS in 12 bits, stepping 0xB0, SVN and version
of the running firmware, a width for each port (0 for a link that is down), 448 port slots, PICKS_PER_BEAT, PATTERNS,
SYNC_STATE, the Loom's share, near and far data bytes, the effective quotas, the role of the mailbox, 1,696 and the bulk window
(524,288 bytes, none for a port).  GET_STATUS completes OK with 64 bytes: the thirteen flags, SAFE_CAUSE (0 outside SAFE),
SYNC_STATE, BOOT, SVN_F, the beat number (0 while it is invalid), picks since boot, BOOT_COUNT, and a map of the contexts (through
a port the attached one alone).  Neither changes anything else. -/
def Obligations.DiscoveryAnswers : Prop :=  (∀ (s : State) (m : Mbx), s.Runs m 0x0001 true → ∃ t body, exec (.getCaps m) s = .next t ∧ s.Answered t m mOk body ∧
    s.SameBut t m ∧ body.length = 64 ∧ slice body 0x00 2 = toLe 2 (~~~BitVec.ofNat 12 s.variantDis).toNat ∧
    slice body 0x02 1 = [0xB0] ∧ slice body 0x03 1 = toLe 1 s.umpire.svn ∧ slice body 0x04 4 = toLe 4 s.umpire.fwVersion.toNat ∧
    (∀ p, p < 6 → slice body (0x08 + p) 1 = toLe 1 (if s.linkUp p then (s.port p).width else 0)) ∧
    slice body 0x0E 2 = toLe 2 448 ∧ slice body 0x10 2 = toLe 2 s.time.cfg.picks ∧ slice body 0x12 1 = toLe 1 s.patterns ∧
    slice body 0x13 1 = toLe 1 s.time.sync.code ∧ slice body 0x14 4 = toLe 4 (if s.hasLoom then 480 else 0) ∧
    slice body 0x18 8 = toLe 8 66571993088 ∧ slice body 0x20 8 = toLe 8 s.farData ∧ slice body 0x28 2 = toLe 2 s.qContexts ∧
    slice body 0x2A 2 = toLe 2 s.qExtents ∧ slice body 0x2C 2 = toLe 2 s.qLeases ∧ slice body 0x2E 2 = toLe 2 s.qPins ∧
    slice body 0x30 1 = toLe 1 s.qBound ∧ slice body 0x31 1 = toLe 1 (roleCode (roleOf m (s.keyId m))) ∧
    slice body 0x32 2 = toLe 2 1696 ∧ slice body 0x34 4 = toLe 4 (if isManaged m then 524288 else 0) ∧
    slice body 0x38 8 = zeros 8) ∧
  (∀ (s : State) (m : Mbx), s.Runs m 0x0002 true → ∃ t body, exec (.getStatus m) s = .next t ∧ s.Answered t m mOk body ∧
    s.SameBut t m ∧ body.length = 64 ∧ slice body 0x00 4 = toLe 4 s.statusFlags ∧
    slice body 0x04 1 = toLe 1 (if s.power.safe then s.power.safeCause else 0) ∧ slice body 0x05 1 = toLe 1 s.time.sync.code ∧
    slice body 0x06 1 = toLe 1 s.umpire.boot.toNat ∧ slice body 0x07 1 = toLe 1 s.fuses.svnF ∧
    slice body 0x08 8 = toLe 8 (if s.beatValid then s.time.beat.toNat else 0) ∧ slice body 0x10 8 = toLe 8 s.picks ∧
    slice body 0x18 4 = toLe 4 s.nor.bootCount ∧ slice body 0x1C 4 = zeros 4 ∧ slice body 0x20 8 = toLe 8 (s.contextMap m) ∧
    slice body 0x28 24 = zeros 24)

/-- CTX_CREATE with ATTACH 0, when it runs with a free number below 64 (or 0xFF, which takes the lowest free one), ports that
exist and are attached to no context, a healthy entropy source, no debug unlock and quota left: context n has the ports, the
seed and a fresh 64-byte key (none without the cipher unit), those ports are attached to it, the command completes OK with n, and
everything else stays.
A number of 64 to 254 completes BAD_ARG; a failed entropy source completes STATE with no effect.  With ATTACH 1, of a live
context with no change in progress, ports that exist, added ones free and removed ones not pushed to: the change is put off to
the next boundary and the command waits.  CTX_DESTROY of a live context marks it DESTROYING and waits; of one that does not
exist, or that is DESTROYING, it completes BAD_ARG or STATE with no effect.
DESTROY_BOUNDARY of a DESTROYING context that has not passed its boundary, outside SAFE, with none of its extents being
revoked, at a boundary that no request has passed, and with no pins, jobs or drafts: the boundary is the instant in force, every
extent granted to the context answers later requests as if not granted, leases on those extents end without becoming TORN and
the other leases stay.  KEY_HOLD_END of a port whose hold has no frame left: the port's link and transfer keys, bounce windows
and confidential mode are gone, its slot is in TRAINING, and every other port is as it was. -/
def Obligations.Contexts : Prop :=
  ((∀ (s : State) (m : Mbx) (n : Nat), s.Shape → s.Runs m 0x0010 (!s.flag m 0) → n < 64 → s.ctx? n = none →
    (s.rq m 0 1 = n ∨ (s.rq m 0 1 = 0xFF ∧ ∀ k, k < n → (s.ctx? k).isSome = true)) →
    (∀ p ∈ maskPorts (s.rqPorts m 1), s.hasPort p = true ∧ (s.port p).ctx = none) → s.umpire.entropyFail = false →
    s.umpire.debugUnlocked = false → s.ctxs.length < s.qContexts →
    ∃ t, exec (.ctxCreate m) s = .next t ∧ s.Answered t m mOk (toLe 1 n ++ zeros 7) ∧
      t.ctx? n = some { ports := s.rqPorts m 1, seed := BitVec.ofNat 64 (s.rq m 8 8), memKey := s.random (if s.hasCipher then 64 else 0), born := s.time.pick } ∧
      (∀ k, k ≠ n → t.ctx? k = s.ctx? k) ∧
      (∀ p, { t.port p with ctx := none, evts := [] } = { s.port p with ctx := none, evts := [] } ∧
        (t.port p).ctx = if p < 6 ∧ maskHas (s.rqPorts m 1) p then some n else (s.port p).ctx) ∧
      t.exts = s.exts ∧ t.leases = s.leases ∧ t.pins = s.pins ∧ t.tier = s.tier ∧ t.reqs = s.reqs ∧ t.loom = s.loom ∧
      t.engines = s.engines ∧ s.SameTiers t ∧ s.SameUnits t) ∧
  (∀ (s : State) (m : Mbx), s.Runs m 0x0010 (!s.flag m 0) → 64 ≤ s.rq m 0 1 → s.rq m 0 1 ≤ 254 →
    ∃ t, exec (.ctxCreate m) s = .next t ∧ s.Answered t m mBadArg [] ∧ s.SameBut t m) ∧
  (∀ (s : State) (m : Mbx), s.Runs m 0x0010 (!s.flag m 0) → s.rq m 0 1 < 64 → s.ctx? (s.rq m 0 1) = none →
    (∀ p ∈ maskPorts (s.rqPorts m 1), s.hasPort p = true ∧ (s.port p).ctx = none) → s.umpire.entropyFail = true →
    ∃ t, exec (.ctxCreate m) s = .next t ∧ s.Answered t m mState [] ∧ s.SameBut t m) ∧
  (∀ (s : State) (m : Mbx) (c : Ctx), s.Runs m 0x0010 (s.flag m 0) → s.ctx? (s.rq m 0 1) = some c → c.dying = none →
    c.attach = none → (∀ p ∈ maskPorts (s.rqPorts m 1), s.hasPort p = true) →
    (∀ p ∈ maskPorts (c.ports &&& ~~~s.rqPorts m 1), s.pushesTo p = false) →
    (∀ p ∈ maskPorts (s.rqPorts m 1 &&& ~~~c.ports), (s.port p).ctx = none) →
    ∃ t, exec (.ctxAttach m) s = .next t ∧ s.Waits t m (.attach (s.rq m 0 1)) ∧
      t.ctx? (s.rq m 0 1) = some { c with
        attach := some (s.rqPorts m 1 &&& ~~~c.ports, c.ports &&& ~~~s.rqPorts m 1), q := none } ∧
      (∀ k, k ≠ s.rq m 0 1 → t.ctx? k = s.ctx? k) ∧
      t.umpire.deferred = s.umpire.deferred ++ [.attachOn (s.rq m 0 1) (s.rqPorts m 1 &&& ~~~c.ports)] ∧
      t.exts = s.exts ∧ t.leases = s.leases ∧ t.ports = s.ports ∧ s.SameTiers t ∧ s.SameUnits t ∧ s.SameOthers t m) ∧
  (∀ (s : State) (m : Mbx) (c : Ctx), s.Runs m 0x0011 true → s.ctx? (s.rq m 0 1) = some c →
    (c.dying = none → ∃ t, exec (.ctxDestroy m) s = .next t ∧ s.Waits t m (.destroy (s.rq m 0 1)) ∧
      t.ctx? (s.rq m 0 1) = some { c with dying := some m, q := none } ∧ (∀ k, k ≠ s.rq m 0 1 → t.ctx? k = s.ctx? k) ∧
      t.exts = s.exts ∧ t.leases = s.leases ∧ t.ports = s.ports ∧ t.umpire.deferred = s.umpire.deferred ∧ s.SameTiers t ∧
      s.SameUnits t ∧ s.SameOthers t m) ∧
    (c.dying.isSome = true → ∃ t, exec (.ctxDestroy m) s = .next t ∧ s.Answered t m mState [] ∧ s.SameBut t m)) ∧
  (∀ (s : State) (m : Mbx), s.Runs m 0x0011 true → s.ctx? (s.rq m 0 1) = none →
    ∃ t, exec (.ctxDestroy m) s = .next t ∧ s.Answered t m mBadArg [] ∧ s.SameBut t m)) ∧
  ((∀ (s : State) (c : Nat) (x : Ctx), s.ctx? c = some x → x.dying.isSome = true → x.q = none → s.power.safe = false →
    s.atBoundary = true → (∀ e y, s.ext? e = some y → y.revoking = false) → s.pins = [] → (∀ e, e < 8 → s.engine e = none) →
    s.loom.drafts = [] →
    ∃ t, exec (.destroyBoundary c) s = .next t ∧ (t.ctx? c).map (·.q) = some (some s.stamp) ∧
      (∀ k, k ≠ c → t.ctx? k = s.ctx? k) ∧
      t.leases = s.leases.filter (fun l => !(s.extsOf c).contains l.2.ext) ∧
      (∀ e, t.ext? e = if e ∈ s.extsOf c then (s.ext? e).map fun y => { y with ending := true } else s.ext? e) ∧
      t.ports = s.ports ∧ t.reqs = s.reqs ∧ s.SameTiers t ∧ s.SameUnits t ∧ t.umpire.deferred = s.umpire.deferred) ∧
  (∀ (s : State) (p : Nat), s.Shape → p < 6 → (s.port p).hold = some 0 → (s.port p).arrivals = [] →
    (∀ e, e < 8 → s.engine e = none) →
    ∃ t, exec (.keyHoldEnd p) s = .next t ∧ (t.port p).keyE = none ∧ (t.port p).keyI = none ∧ (t.port p).keyINext = none ∧
      (t.port p).xferKey = none ∧ (t.port p).conf = false ∧ (t.port p).hold = none ∧ (t.port p).bounce = [] ∧
      (t.slot p).st = .training ∧ (∀ k, k ≠ p → t.port k = s.port k ∧ t.slot k = s.slot k) ∧
      t.exts = s.exts ∧ t.ctxs = s.ctxs ∧ t.leases = s.leases ∧ s.SameTiers t))

/-- EXT_CREATE, when it runs.  Where a field holds a reserved value or one of the nine items of R68 holds, it completes BAD_ARG and
nothing is created.  Else, with a free EXT_ID, a free range, and room in the groups and in the metadata region, the lowest free
EXT_ID becomes an UNGRANTED extent with the attributes of the request, the base named or the lowest free one, and every page
zero-on-read; the command completes OK with the number and the base, and everything else stays.  With REMOVE: a number that
names no extent completes BAD_ARG; an extent that is GRANTED or CLEARING, or mapped by an enabled aperture, completes STATE and
stays; an UNGRANTED one that no waiting EXT_GRANT names is gone, and every other extent stays. -/
def Obligations.ExtentCreate : Prop :=  (∀ (s : State) (m : Mbx), s.Runs m 0x0020 (!s.flag m 0) →
    let base := s.rq m 0 8
    let size := s.rq m 8 4
    let cls := s.rq m 0x0C 1
    let src := s.rq m 0x0D 1
    let budget := s.rq m 0x0E 1
    let ovf := s.rq m 0x0F 1
    let prot := s.rq m 0x10 1
    let groups := groupsOf (BitVec.ofNat 4 (s.rq m 0x11 1))
    let ports := maskPorts (s.rqPorts m 0x12)
    let bad := 3 < cls ∨ 5 < src ∨ 2 < prot ∨ size = 0 ∨ 8388608 < size ∨
      (base ≠ 2 ^ 64 - 1 ∧ (base % 2 ^ 21 ≠ 0 ∨ 2 ^ 48 < base + size * 2 ^ 21 ∨
        ∃ kv ∈ s.exts, base < kv.2.base + kv.2.granules * 2 ^ 21 ∧ kv.2.base < base + size * 2 ^ 21)) ∨
      ((cls = 1 ∨ cls = 2) ∧ src = 0) ∨ (cls = 2 ∧ (src = 4 ∨ src = 5)) ∨
      (cls = 3 ∧ (budget < 1 ∨ 4 < budget ∨ ovf < 1 ∨ 25 < ovf)) ∨ (cls ≠ 3 ∧ (budget ≠ 0 ∨ ovf ≠ 0)) ∨
      groups = [] ∨ (∃ g ∈ groups, s.hasGroup g = false) ∨ (prot = 1 ∧ groups.length ≠ 2) ∨ (prot = 2 ∧ groups.length ≠ 1) ∨
      ports = [] ∨ (∃ p ∈ ports, s.hasPort p = false)
    (bad → ∃ t, exec (.extCreate m) s = .next t ∧ s.Answered t m mBadArg [] ∧ s.SameBut t m) ∧
    (¬ bad → ∀ e b, Table.free s.exts 1024 = some e →
      (if base = 2 ^ 64 - 1 then s.chooseBase (size * 2 ^ 21) else some base) = some b →
      (∀ x, s.extOf m = some x → (s.allocate x).isSome = true ∧ x.metaBytes ≤ s.metaFree) →
      ∃ t y, exec (.extCreate m) s = .next t ∧ s.Answered t m mOk (toLe 2 e ++ zeros 6 ++ toLe 8 b) ∧ t.ext? e = some y ∧
        y.st = .ungranted ∧ y.base = b ∧ y.granules = size ∧ y.cls.code = cls ∧ y.src.code = src ∧ y.budget = budget ∧
        y.ovfPct = ovf ∧ y.prot.code = prot ∧ groupsOf y.groups = groups ∧ maskPorts y.ports = ports ∧ y.pages = [] ∧
        y.share = 0 ∧ y.bound = false ∧ y.sealed = false ∧ (∀ k, k ≠ e → t.ext? k = s.ext? k) ∧
        s.SameBut (t.setExts s.exts) m)) ∧
  (∀ (s : State) (m : Mbx), s.Runs m 0x0020 (s.flag m 0) →
    let e := s.rq m 0x14 2
    (s.ext? e = none → ∃ t, exec (.extRemove m) s = .next t ∧ s.Answered t m mBadArg [] ∧ s.SameBut t m) ∧
    (∀ x, s.ext? e = some x →
      (x.st ≠ .ungranted ∨ s.mapped e = true → ∃ t, exec (.extRemove m) s = .next t ∧ s.Answered t m mState [] ∧ s.SameBut t m) ∧
      (x.st = .ungranted → s.mapped e = false → s.isWaiting (fun w => w == .grant e) = false →
        ∃ t, exec (.extRemove m) s = .next t ∧ s.Answered t m mOk (toLe 2 e ++ zeros 6 ++ toLe 8 x.base) ∧
          t.ext? e = none ∧ (∀ k, k ≠ e → t.ext? k = s.ext? k) ∧ t.ctxs = s.ctxs ∧ t.leases = s.leases ∧ t.tier = s.tier ∧ t.reqs = s.reqs ∧
          s.SameTiers t ∧ t.umpire.deferred = s.umpire.deferred ∧ s.SameOthers t m)))

/-- EXT_GRANT, when it runs, for a context `c` that its mailbox may name and an extent `e`.  A share within PORT_MASK of ports
attached to `c`, of an extent with no change in progress: an UNGRANTED extent within the quotas stays as it is until its boundary,
for which the grant, with a fresh key where it is BOUND, is put off; the owner's extent with the same BOUND keeps its attributes and
marks the share change.  Another BOUND, another owner, or CLEARING completes STATE; a share outside PORT_MASK or of a port not
attached completes BAD_ARG; BOUND without the cipher completes NOT_PRESENT; a revocation or share change in progress completes
BUSY; each without effect.  At the boundary a new grant makes the extent GRANTED from that pick, with that owner, share and key,
unsealed, with fresh counters; a share change lets the leases of removed ports on the extent begin to end as LEASE_DROP ends them,
and added ports share from that pick. -/
def Obligations.ExtentGrant : Prop :=  (∀ (s : State) (m : Mbx) (c : Nat) (x : Extent), s.Runs m 0x0021 true → s.ext? (s.rq m 0 2) = some x →
    s.commandCtx m (s.rq m 2 1) = .inl c →
    let e := s.rq m 0 2
    let share := s.rqPorts m 3
    let fits := share &&& ~~~x.ports = 0 ∧ ∀ p ∈ maskPorts share, s.attachedTo p = some c
    let busy := x.revoking = true ∨ x.sharing = true ∨ s.isWaiting (fun w => w == .grant e) = true
    let ends := fun (st : Nat) => ∃ t, exec (.extGrant m) s = .next t ∧ s.Answered t m st [] ∧ s.SameBut t m
    (x.st = .ungranted → fits → ¬ busy → s.grantsOf c false < s.qExtents →
      (s.flag m 0 = false ∨ (s.hasCipher = true ∧ s.grantsOf c true < s.qBound ∧ s.boundKeys < 64 ∧ s.umpire.entropyFail = false)) →
      ∃ t, exec (.extGrant m) s = .next t ∧ s.Waits t m (.grant e) ∧
        t.umpire.deferred = s.umpire.deferred ++
          [.grantOn e c share (if s.flag m 0 then some (s.random 64) else none) m] ∧
        s.SameBut (t.putDeferred s.umpire.deferred) m) ∧
    (x.st = .granted → x.owner = c → x.bound = s.flag m 0 → (s.flag m 0 = true → s.hasCipher = true) → fits → ¬ busy →
      ∃ t, exec (.extGrant m) s = .next t ∧ s.Waits t m (.grant e) ∧ t.ext? e = some { x with sharing := true, q := none } ∧
        (∀ k, k ≠ e → t.ext? k = s.ext? k) ∧ t.umpire.deferred = s.umpire.deferred ++ [.shareOn e share] ∧
        s.SameBut ((t.setExts s.exts).putDeferred s.umpire.deferred) m) ∧
    (x.st = .granted → x.owner = c → x.bound ≠ s.flag m 0 → ends mState) ∧
    (x.st = .granted → x.owner ≠ c → ends mState) ∧ (x.st = .clearing → ends mState) ∧
    (x.st ≠ .clearing → (x.st = .granted → x.owner = c ∧ x.bound = s.flag m 0) →
      (¬ fits → ends mBadArg) ∧
      (fits → s.flag m 0 = true → s.hasCipher = false → ends mNotPresent) ∧
      (fits → (s.flag m 0 = true → s.hasCipher = true) → busy → ends mBusy))) ∧
  (∀ (s : State) (e : Nat) (x : Extent), s.ext? e = some x → s.power.safe = false →
    (∀ (c : Nat) (share : BitVec 6) (key : Option (List Byte)) (m : Mbx), x.st = .ungranted → s.ctxLive c = true →
      ∃ y, (s.runDeferred (.grantOn e c share key m)).ext? e = some y ∧ y.st = .granted ∧
      y.owner = c ∧ y.share = share ∧ y.bound = key.isSome ∧ y.boundKey = key ∧ y.grantPick = s.time.pick ∧ y.sealed = false ∧
      y.pages = x.pages ∧ y.counters = [] ∧
      (∀ k, k ≠ e → (s.runDeferred (.grantOn e c share key m)).ext? k = s.ext? k)) ∧
    ∀ share : BitVec 6, x.st = .granted → x.ending = false →
      ∃ y, (s.runDeferred (.shareOn e share)).ext? e = some y ∧ y.share = share ∧ y.q = some s.stamp ∧ y.owner = x.owner ∧
        (∀ p, p < 6 → maskHas share p = true → maskHas x.share p = false → Table.getD y.sharePick p 0 = s.time.pick) ∧
        (s.runDeferred (.shareOn e share)).leases = Table.mapV s.leases (fun _ l =>
          if (l.ext == e && maskHas (x.share &&& ~~~share) l.holder && !l.torn && !l.dropping) = true then
            { l with dropping := true, dropPick := s.time.pick - 1 }
          else l))

/-- For an extent that the mailbox may name.  EXT_REVOKE of a GRANTED extent that no running draft streams (its owner's, or for a
BOUND extent any), with no change in progress, marks it REVOKING and waits; an extent not GRANTED, or streamed, completes STATE; one
with a change in progress completes BUSY.  EXT_CLEAR of a GRANTED extent that is not BOUND and not streamed waits for its boundary;
one not GRANTED, or streamed, completes STATE; a BOUND one completes DENIED.  EXT_SEAL of a GRANTED Satin extent that is not sealed
waits for its boundary; of a sealed one completes OK with 0; of one not GRANTED completes STATE with the overflowed blocks; of
another class it completes BAD_ARG.  At its boundary EXT_CLEAR sets CLEAR_PENDING, adds 1 to every page's generation, starts the
overwrite over every far unit of the extent, and lets the command complete OK with the boundary's beat and pick. -/
def Obligations.ExtentRevokeClearSeal : Prop :=  (∀ (s : State) (m : Mbx) (x : Extent),
    let e := s.rq m 0 2
    s.ext? e = some x → s.extRefusal m x = none →
    let ends := fun (c : Instr) (st : Nat) (body : List Byte) =>
      ∃ t, exec c s = .next t ∧ s.Answered t m st body ∧ s.SameBut t m
    let streamed := s.streams (if x.bound then none else some x.owner) e
    (s.Runs m 0x0022 true →
      (x.st ≠ .granted → ends (.extRevoke m) mState []) ∧
      (x.st = .granted → streamed = true → ends (.extRevoke m) mState []) ∧
      (x.st = .granted → streamed = false →
        ((x.revoking = true ∨ x.sharing = true ∨ s.isWaiting (fun w => w == .grant e) = true) → ends (.extRevoke m) mBusy []) ∧
        (x.revoking = false → x.sharing = false → s.isWaiting (fun w => w == .grant e) = false →
          ∃ t, exec (.extRevoke m) s = .next t ∧ s.Waits t m (.revoke e) ∧
            t.ext? e = some { x with revoking := true, q := none } ∧ (∀ k, k ≠ e → t.ext? k = s.ext? k) ∧
            s.SameBut (t.setExts s.exts) m))) ∧
    (s.Runs m 0x0023 true →
      (x.st ≠ .granted → ends (.extClear m) mState []) ∧ (x.st = .granted → x.bound = true → ends (.extClear m) mDenied []) ∧
      (x.st = .granted → x.bound = false →
        (s.streams (some x.owner) e = true → ends (.extClear m) mState []) ∧
        (s.streams (some x.owner) e = false → ∃ t, exec (.extClear m) s = .next t ∧ s.Waits t m (.clear e) ∧
          t.umpire.deferred = s.umpire.deferred ++ [.clearExt e m] ∧ s.SameBut (t.putDeferred s.umpire.deferred) m))) ∧
    (s.Runs m 0x0024 true →
      (x.cls ≠ .satin → ends (.extSeal m) mBadArg []) ∧
      (x.cls = .satin → x.st ≠ .granted → ends (.extSeal m) mState (toLe 8 x.ovf.length)) ∧
      (x.cls = .satin → x.st = .granted → x.sealed = true → ends (.extSeal m) mOk (toLe 8 0)) ∧
      (x.cls = .satin → x.st = .granted → x.sealed = false → s.isWaiting (fun w => w == .seal e) = false →
        ∃ t, exec (.extSeal m) s = .next t ∧ s.Waits t m (.seal e) ∧ t.umpire.deferred = s.umpire.deferred ++ [.sealOn e] ∧
          s.SameBut (t.putDeferred s.umpire.deferred) m))) ∧
  (∀ (s : State) (e : Nat) (m : Mbx) (x : Extent), s.ext? e = some x → x.st = .granted → s.power.safe = false → s.HasMbx m →
    (s.mbox m).wait = some { what := .clear e } →
    ∃ y c, (s.runDeferred (.clearExt e m)).ext? e = some y ∧ y.st = .granted ∧ y.clearPend = true ∧ y.genAll = x.genAll + 1 ∧
      y.clear = some c ∧ c.far = (groupsOf x.groups).map (fun g => (g, x.unitBase g * 3072)) ∧
      ((s.runDeferred (.clearExt e m)).mbox m).wait =
        some { what := .clear e, ready := true, status := mOk, body := stampBytes s.stamp 6 })

/-- REVOCATION_BOUNDARY of a REVOKING extent at a boundary that no request has passed, outside SAFE, with no pins and no jobs: later
requests find no grant, the boundary and the count of the host requests it drains are recorded, leases on the extent end without
becoming TORN, every UP port of its share is sent EXT_REVOKED with the extent and the beat, and every other extent stays.
REVOKE_DRAIN_END once those requests have completed, with no write or engine access to the extent left, no jobs and no pins:
the extent is CLEARING, with no owner, share, BOUND, seal, key, pages or lease, and its overwrite covers every far unit; the waiting
EXT_REVOKE may complete OK with the boundary and the count. -/
def Obligations.RevocationDrains : Prop :=  (∀ (s : State) (e : Nat) (x : Extent), s.ext? e = some x → x.revoking = true → x.q = none → s.atBoundary = true →
    s.power.safe = false → s.pins = [] → (∀ g, g < 8 → s.engine g = none) → s.ports.length = 6 →
    ∃ t, exec (.revocationBoundary e) s = .next t ∧
      t.ext? e = some { x with
        ending := true, q := some s.stamp, drained := s.pendingHost s.time.pick (List.range 6) (some e) } ∧
      (∀ k, k ≠ e → t.ext? k = s.ext? k) ∧ t.leases = s.leases.filter (fun l => l.2.ext != e) ∧
      (∀ p, p < 6 → t.port p = { s.port p with
        evts := (s.port p).evts ++ if maskHas x.share p && s.isUp p then
          [{ code := 0x040, p0 := BitVec.ofNat 32 e, p1 := s.beatNow }] else [] }) ∧
      t.ctxs = s.ctxs ∧ t.reqs = s.reqs ∧ s.SameTiers t ∧ s.SameUnits t) ∧
  (∀ (s : State) (e : Nat) (x : Extent) (q : Stamp) (m : Mbx), s.ext? e = some x → x.revoking = true → x.q = some q →
    s.pendingHost q.pick (List.range 6) (some e) = 0 → s.writesOf e = false → s.engineOn e = false →
    (∀ g, g < 8 → s.engine g = none) → s.pins = [] → s.power.safe = false → s.HasMbx m →
    s.waiter (.revoke e) = some m →
    ∃ t y c, exec (.revokeDrainEnd e) s = .next t ∧ t.ext? e = some y ∧ y.st = .clearing ∧ y.share = 0 ∧ y.bound = false ∧
      y.sealed = false ∧ y.boundKey = none ∧ y.pages = [] ∧ y.revoking = false ∧ y.ending = false ∧ y.base = x.base ∧
      y.runs = x.runs ∧ y.clear = some c ∧ c.far = (groupsOf x.groups).map (fun g => (g, x.unitBase g * 3072)) ∧
      (∀ l ∈ t.leases, l.2.ext ≠ e) ∧ (t.mbox m).wait = some { what := .revoke e, ready := true, status := mOk
                                                               body := stampBytes q 2 ++ toLe 4 x.drained } ∧
      s.SameTiers t ∧ t.ctxs = s.ctxs)

/-- EXT_QUERY, when it runs.  For an extent that a management mailbox names, or that the port's context owns: OK with number,
state, the five bits, owner (0xFF unless GRANTED), share, the attributes, base and size, units still to clear, free overflow entries,
the lost-nonfinite count, near-resident and pinned pages; with PLACEMENT and a range of 1 to 256 pages inside the extent, also four
bytes for the residency entry of each.  EXT_ID 0xFFFF through a management mailbox or a port attached to a context: OK with the
free bytes of the metadata region and the number of extents.  A range outside the extent, or a number that names no extent through
a management mailbox, completes BAD_ARG; a port is refused DENIED for one, and STATE while its context is being destroyed.  Nothing
else changes. -/
def Obligations.ExtentQuery : Prop :=  ∀ (s : State) (m : Mbx), s.Runs m 0x0025 true →
    let e := s.rq m 0 2
    let ends := fun (st : Nat) => ∃ t, exec (.extQuery m) s = .next t ∧ s.Answered t m st [] ∧ s.SameBut t m
    (e = 0xFFFF → s.portRefusal m = none → ∃ t, exec (.extQuery m) s = .next t ∧
      s.Answered t m mOk (toLe 8 s.metaFree ++ toLe 2 s.exts.length ++ zeros 6) ∧ s.SameBut t m) ∧
    (e ≠ 0xFFFF → s.ext? e = none → ends (if isManaged m then mBadArg else (s.portRefusal m).getD mDenied)) ∧
    (e = 0xFFFF → ∀ st, s.portRefusal m = some st → ends st) ∧
    ∀ x, e ≠ 0xFFFF → s.ext? e = some x → (isManaged m = true ∨ s.extRefusal m x = none) →
      let n := s.rq m 0x10 2
      let first := s.rq m 8 8
      (s.flag m 0 = true → (n < 1 ∨ 256 < n ∨ x.pageCount < first + n) → ends mBadArg) ∧
      (s.flag m 0 = false ∨ (1 ≤ n ∧ n ≤ 256 ∧ first + n ≤ x.pageCount) →
        ∃ t body, exec (.extQuery m) s = .next t ∧ s.Answered t m mOk body ∧ s.SameBut t m ∧
          body.length = 64 + (if s.flag m 0 then 4 * n else 0) ∧ slice body 0x00 2 = toLe 2 e ∧
          slice body 0x02 1 = toLe 1 x.st.code ∧
          slice body 0x03 1 = toLe 1 (b2n x.bound + 2 * b2n x.sealed + 4 * b2n x.clearPend + 8 * b2n x.bolt.isSome +
            16 * b2n x.promoteEn) ∧
          slice body 0x04 1 = toLe 1 (if x.st = .granted then x.owner else 0xFF) ∧ slice body 0x05 1 = toLe 1 x.share.toNat ∧
          slice body 0x06 1 = toLe 1 x.cls.code ∧ slice body 0x07 1 = toLe 1 x.src.code ∧ slice body 0x08 1 = toLe 1 x.budget ∧
          slice body 0x09 1 = toLe 1 x.ovfPct ∧ slice body 0x0A 1 = toLe 1 x.prot.code ∧
          slice body 0x0B 1 = toLe 1 x.groups.toNat ∧ slice body 0x0C 1 = toLe 1 x.ports.toNat ∧
          slice body 0x0D 8 = toLe 8 x.base ∧ slice body 0x15 4 = toLe 4 x.granules ∧ slice body 0x20 8 = toLe 8 x.toClear ∧
          slice body 0x28 4 = toLe 4 (x.ovfCount - x.ovf.length) ∧ slice body 0x2C 4 = toLe 4 x.nonfinite ∧
          slice body 0x30 8 = toLe 8 (x.pages.filter fun p => p.2.near).length ∧
          slice body 0x38 8 = toLe 8 (x.pages.filter fun p => p.2.pin).length ∧
          (s.flag m 0 = true → ∀ i, i < n → slice body (0x40 + 4 * i) 4 = toLe 4 (x.page (first + i)).entry))

/-- The aperture commands of a port that exists and whose staged set no other mailbox holds.  APT_STAGE of 1 to 64 entries of
different indices below 64 that break no rule: the staged set takes the entries, without their reserved bits, and the mailbox
holds the set.  APT_STAGE with DISCARD: the active set stands in the staged one and the hold ends.  APT_COMMIT of a set that
breaks no rule: the hold is the mailbox's, the switch is due, and the command waits.  A set held by another mailbox completes BUSY;
a request that breaks a rule BAD_ARG; a port above 5 BAD_ARG; an absent one NOT_PRESENT, all without effect.  APT_SWITCH, due, at a
boundary that no request has passed, outside SAFE: the staged set becomes the active one and that boundary is recorded; other
ports decode as before. -/
def Obligations.Apertures : Prop :=  (∀ (s : State) (m : Mbx) (form : Bool), s.Shape →
    let p := s.rq m 0 1
    let c : Instr := if form then .aptStage m else .aptStageDiscard m
    let ends := fun (c : Instr) (st : Nat) => ∃ t, exec c s = .next t ∧ s.Answered t m st [] ∧ s.SameBut t m
    let becomes := fun (t : State) (q : Port) =>
      { t.port p with evts := [] } = { q with evts := [] } ∧
        (∀ k, k ≠ p → { t.port k with evts := [] } = { s.port k with evts := [] })
    let items := s.aptItems m
    let idx := items.map (·.1)
    let set := items.foldl (fun t it => Table.set t it.1 it.2) (s.port p).staged
    let fine := items ≠ [] ∧ items.length ≤ 64 ∧ (∀ i ∈ idx, i ≤ 63) ∧ idx.Nodup ∧ (∀ it ∈ items, s.aptOk it.2 = true) ∧
      aptsApart set idx = true
    (s.Runs m 0x0030 (s.flag m 0 == !form) →
      (5 < p → ends c mBadArg) ∧ (p ≤ 5 → s.hasPort p = false → ends c mNotPresent) ∧
      (s.hasPort p = true →
        (form = true → ¬ fine → ends c mBadArg) ∧ (form = false → s.rq m 1 1 ≠ 0 → ends c mBadArg) ∧
        ((form = true → fine) → (form = false → s.rq m 1 1 = 0) →
          (∀ r, (s.port p).reserve = some r → r ≠ m → ends c mBusy) ∧
          ((s.port p).reserve = none ∨ (s.port p).reserve = some m →
            ∃ t, exec c s = .next t ∧ s.Answered t m mOk [] ∧
              becomes t (if form then { s.port p with staged := set, reserve := some m }
                else { s.port p with staged := (s.port p).active, reserve := none }) ∧
              s.SameBut { t with ports := s.ports, nor := { t.nor with apts := s.nor.apts } } m)))) ∧
    (s.Runs m 0x0031 true → s.hasPort p = true →
      let sound := (∀ it ∈ (s.port p).staged, s.aptOk it.2 = true) ∧
        aptsApart (s.port p).staged ((s.port p).staged.map (·.1)) = true
      (¬ sound → ends (.aptCommit m) mBadArg) ∧
      (sound → (∀ r, (s.port p).reserve = some r → r ≠ m → ends (.aptCommit m) mBusy) ∧
        ((s.port p).reserve = none ∨ (s.port p).reserve = some m → ∃ t, exec (.aptCommit m) s = .next t ∧
          s.Waits t m (.aptCommit p) ∧ becomes t { s.port p with reserve := some m, switchDue := true, switchQ := none } ∧
          s.SameBut (t.setPorts s.ports) m)))) ∧
  (∀ (s : State) (p : Nat), s.Shape → p < 6 → (s.port p).switchDue = true → s.atBoundary = true → s.power.safe = false →
    ∃ t, exec (.aptSwitch p) s = .next t ∧
      t.port p = { s.port p with active := (s.port p).staged, switchDue := false, switchQ := some s.stamp } ∧
      (∀ k, k ≠ p → t.port k = s.port k) ∧ t.setPorts s.ports = s)

/-- LEASE_TAKE, for an extent that its mailbox may name: not GRANTED, or with a holder outside its share, DENIED; a range that is
not page-aligned, is empty or leaves the extent, BAD_ARG; one that overlaps a lease, STATE; else, with a free number and quota
left, the lease stands from the next pick with the range and the holder, and the command waits for that boundary.  LEASE_DROP
of a lease by its holder's port or OPERATOR, with no other command for it waiting: TORN, STATE; else the lease is marked as dropped
at this pick and the command waits.  LEASE_RESOLVE, by a mailbox of the owner: not TORN, STATE; TORN, the command waits for its
boundary, where ACCEPT ends the lease and leaves every byte as it is. -/
def Obligations.Leases : Prop :=  (∀ (s : State) (m : Mbx) (x : Extent), s.Runs m 0x0040 true → s.ext? (s.rq m 0 2) = some x → s.extRefusal m x = none →
    ∀ holder, ((isManaged m = true ∧ holder = s.rq m 2 1) ∨ m = .port holder) →
    let e := s.rq m 0 2
    let off := s.rq m 8 8
    let len := s.rq m 0x10 8
    let ends := fun (st : Nat) => ∃ t, exec (.leaseTake m) s = .next t ∧ s.Answered t m st [] ∧ s.SameBut t m
    let good := off % 65536 = 0 ∧ len % 65536 = 0 ∧ 0 < len ∧ off + len ≤ 65536 * x.pageCount
    let meets := ∃ kv ∈ s.leases, kv.2.ext = e ∧ kv.2.first * 65536 < off + len ∧ off < (kv.2.first + kv.2.pages) * 65536
    (x.st ≠ .granted ∨ ¬ (holder < 6 ∧ maskHas x.share holder = true) → ends mDenied) ∧
    (x.st = .granted → holder < 6 → maskHas x.share holder = true →
      (¬ good → ends mBadArg) ∧ (good → meets → ends mState) ∧
      (good → ¬ meets → ∀ k, Table.free s.leases 4096 = some k → s.leasesOf x.owner < s.qLeases →
        ∃ t, exec (.leaseTake m) s = .next t ∧ s.Waits t m (.leaseTake k) ∧
          Table.get? t.leases k = some { ext := e, first := off / 65536, pages := len / 65536, holder := holder
                                         from_ := s.time.pick + 1 } ∧
          (∀ j, j ≠ k → Table.get? t.leases j = Table.get? s.leases j) ∧
          t.umpire.deferred = s.umpire.deferred ++ [.leaseOn k m] ∧
          s.SameBut ((t.setLeases s.leases).putDeferred s.umpire.deferred) m))) ∧
  (∀ (s : State) (m : Mbx) (l : Lease) (x : Extent),
    let n := s.rq m 0 2
    Table.get? s.leases n = some l → s.ext? l.ext = some x → s.extRefusal m x = none → s.leaseBusy n = false →
    (s.Runs m 0x0041 true → (isManaged m = true ∨ m = .port l.holder) →
      (l.torn = true → ∃ t, exec (.leaseDrop m) s = .next t ∧ s.Answered t m mState [] ∧ s.SameBut t m) ∧
      (l.torn = false → ∃ t, exec (.leaseDrop m) s = .next t ∧ s.Waits t m (.leaseDrop n) ∧
        Table.get? t.leases n = some { l with dropping := true, dropPick := s.time.pick } ∧
        (∀ j, j ≠ n → Table.get? t.leases j = Table.get? s.leases j) ∧ s.SameBut (t.setLeases s.leases) m)) ∧
    (s.Runs m 0x0042 true → s.rq m 2 1 ≤ 1 →
      (l.torn = false → ∃ t, exec (.leaseResolve m) s = .next t ∧ s.Answered t m mState [] ∧ s.SameBut t m) ∧
      (l.torn = true → ∃ t, exec (.leaseResolve m) s = .next t ∧ s.Waits t m (.leaseResolve n) ∧
        t.umpire.deferred = s.umpire.deferred ++ [.leaseResolve n (s.rq m 2 1 == 1) m] ∧
        s.SameBut (t.putDeferred s.umpire.deferred) m))) ∧
  (∀ (s : State) (n : Nat) (m : Mbx) (l : Lease), Table.get? s.leases n = some l → s.power.safe = false →
    (s.runDeferred (.leaseResolve n false m)).leases = Table.erase s.leases n ∧
      s.SameTiers (s.runDeferred (.leaseResolve n false m)) ∧ (s.runDeferred (.leaseResolve n false m)).exts = s.exts)

/-- PIN, for an extent that its mailbox may name.  Not GRANTED: DENIED.  A range that is not page-aligned, is empty or leaves the
extent, or mask 0: BAD_ARG.  A range that overlaps a pin: STATE.  A pin number free, room in the masked sections and quota left,
with every other pin in place: the pin stands with its range, mask and context and all its pages to place, its pages are marked
pinned, an eviction of one is cancelled, the last-access beat of those that a copy, fill or move will bring near is that of the
acceptance, every other page stays, but for marks of evictions that nothing waits for, poison written before is not counted, and
the command waits.  A pin with its pages all near in masked sections, settled and filled, and none to place, is done: its command may
complete OK with its number and counts.  UNPIN of a pin that no running draft streams waits for the boundary; of one that is
streamed completes STATE.  At the boundary the pin is gone, its pages have PIN 0, those that are near the last-access beat of
that boundary, and every other page stays, but for such marks.
MIG_POLICY, when it runs.  GLOBAL through INSTALLER with every value in its range and a PIN_LIMIT no smaller than the pinned
frames of any section: the settings are put off to the next beat boundary and the command waits; a value outside its range
completes BAD_ARG, a smaller PIN_LIMIT STATE.  EXTENT of a GRANTED extent that the mailbox may name, with PROMOTE_EN 0 or 1:
the command waits for the next pick boundary, where the extent takes PROMOTE_EN; an extent not GRANTED completes STATE.  READ answers
with the settings in force and changes nothing. -/
def Obligations.PinsAndPolicy : Prop :=
  ((∀ (s : State) (m : Mbx) (x : Extent), s.Runs m 0x0050 true → s.ext? (s.rq m 0 2) = some x → s.extRefusal m x = none →
    let e := s.rq m 0 2
    let mask := BitVec.ofNat 16 (s.rq m 2 2)
    let off := s.rq m 8 8
    let len := s.rq m 0x10 8
    let ends := fun (st : Nat) => ∃ t, exec (.pin m) s = .next t ∧ s.Answered t m st [] ∧ s.SameBut t m
    let good := off % 65536 = 0 ∧ len % 65536 = 0 ∧ 0 < len ∧ off + len ≤ 65536 * x.pageCount
    let meets := ∃ kv ∈ s.pins, kv.2.ext = e ∧ kv.2.first * 65536 < off + len ∧ off < (kv.2.first + kv.2.pages) * 65536
    let first := off / 65536
    let n := len / 65536
    let mine := fun (p : Nat) => first ≤ p ∧ p < first + n
    let keeps := fun (pg : Page) => (pg.near = true ∨ pg.st = .promoting) ∧ mask.toNat.testBit (frameSection pg.slot) = true ∧
      pg.st ≠ .evicting ∧ pg.st ≠ .moving
    (x.st ≠ .granted → ends mDenied) ∧
    (x.st = .granted →
      (¬ good ∨ mask = 0 → ends mBadArg) ∧ (good → mask ≠ 0 → meets → ends mState) ∧
      (good → mask ≠ 0 → ¬ meets → ∀ k, Table.free s.pins 4096 = some k → x.pinNeeds first n mask ≤ s.pinRoom mask →
        s.pinsOf x.owner < s.qPins → (∀ kv ∈ s.pins, kv.2.done = true) →
        ∃ t y, exec (.pin m) s = .next t ∧ s.Waits t m (.pin k) ∧
          Table.get? t.pins k = some { ext := e, first := first, pages := n, mask := mask, ctx := x.owner
                                       todo := (List.range n).map (first + ·) } ∧
          (∀ j, j ≠ k → Table.get? t.pins j = Table.get? s.pins j) ∧ t.ext? e = some y ∧ y = { x with pages := y.pages } ∧
          (∀ p, mine p → y.page p = { x.page p with
            pin := true, evict := false, last := if keeps (x.page p) then (x.page p).last else s.tier.beats }) ∧
          (∀ p, ¬ mine p → { y.page p with evict := false } = { x.page p with evict := false }) ∧
          (∀ j, j ≠ e → ∀ z, s.ext? j = some z → ∃ w, t.ext? j = some w ∧ w = { z with pages := w.pages } ∧
            ∀ p, { w.page p with evict := false } = { z.page p with evict := false }) ∧
          t.tier = { s.tier with copies := Table.mapV s.tier.copies (fun _ c =>
            if c.ext = e ∧ mine c.page then { c with poison := 0 } else c) } ∧
          s.SameBut (((t.setExts s.exts).setPins s.pins).setTier s.tier) m))) ∧
  (∀ (s : State) (m : Mbx) (n : Nat) (pn : Pin), Table.get? s.pins n = some pn → pn.done = false → pn.todo = [] → s.HasMbx m →
    s.waiter (.pin n) = some m → (∀ i, i < pn.pages → (s.page pn.ext (pn.first + i)).placed pn.mask = true) →
    ((s.pinDone n).mbox m).wait = some
        { what := .pin n, ready := true, status := mOk, body := toLe 2 n ++ zeros 2 ++ toLe 4 pn.poisoned ++ toLe 8 pn.moved } ∧
      Table.get? (s.pinDone n).pins n = some { pn with done := true }) ∧
  (∀ (s : State) (m : Mbx) (pn : Pin) (x : Extent), s.Runs m 0x0051 true → Table.get? s.pins (s.rq m 0 2) = some pn →
    s.ext? pn.ext = some x → s.extRefusal m x = none →
    (s.streamsRange pn.ctx pn.ext pn.first pn.pages = true →
      ∃ t, exec (.unpin m) s = .next t ∧ s.Answered t m mState [] ∧ s.SameBut t m) ∧
    (s.streamsRange pn.ctx pn.ext pn.first pn.pages = false →
      ∃ t, exec (.unpin m) s = .next t ∧ s.Waits t m (.unpin (s.rq m 0 2)) ∧
        t.umpire.deferred = s.umpire.deferred ++ [.unpin (s.rq m 0 2) m] ∧ s.SameBut (t.putDeferred s.umpire.deferred) m)) ∧
  (∀ (s : State) (m : Mbx) (n : Nat) (pn : Pin) (x : Extent), s.power.safe = false → Table.get? s.pins n = some pn →
    pn.done = true → s.ext? pn.ext = some x →
    let mine := fun (p : Nat) => pn.first ≤ p ∧ p < pn.first + pn.pages
    (s.runDeferred (.unpin n m)).pins = Table.erase s.pins n ∧
      ∃ y, (s.runDeferred (.unpin n m)).ext? pn.ext = some y ∧
        (∀ p, mine p → { y.page p with evict := false } =
          { x.page p with
            pin := false, last := if (x.page p).near then s.tier.beats else (x.page p).last, evict := false }) ∧
        ∀ p, ¬ mine p → { y.page p with evict := false } = { x.page p with evict := false })) ∧
  ((∀ (s : State), s.Runs .installer 0x0052 (!s.flag .installer 0 && !s.flag .installer 1) →
    let th := s.rq .installer 0 1
    let ab := s.rq .installer 4 4
    let ah := s.rq .installer 8 4
    let lim := s.rq .installer 12 4
    let ends := fun (st : Nat) => ∃ t, exec (.migPolicyGlobal .installer) s = .next t ∧ s.Answered t .installer st [] ∧
      s.SameBut t .installer
    let good := 1 ≤ th ∧ 1 ≤ ab ∧ ab ≤ 1048576 ∧ 1 ≤ ah ∧ ah ≤ 1048576 ∧ lim ≤ 253952
    (¬ good → ends mBadArg) ∧
    (good → (∃ sec, sec < 16 ∧ lim < s.pinnedFrames sec) → ends mState) ∧
    (good → (∀ sec, sec < 16 → s.pinnedFrames sec ≤ lim) →
      ∃ t, exec (.migPolicyGlobal .installer) s = .next t ∧ s.Waits t .installer .policy ∧
        t.tier = { s.tier with pendPolicy := some { threshold := th, ageBeats := ab, horizon := ah, pinLimit := lim } } ∧
        s.SameBut (t.setTier s.tier) .installer)) ∧
  (∀ (s : State) (m : Mbx) (x : Extent),
    let e := s.rq m 0 2
    s.ext? e = some x → s.extRefusal m x = none →
    (s.Runs m 0x0052 (s.flag m 0 && !s.flag m 1) →
      (x.st ≠ .granted → ∃ t, exec (.migPolicyExtent m) s = .next t ∧ s.Answered t m mState [] ∧ s.SameBut t m) ∧
      (x.st = .granted → s.rq m 2 1 ≤ 1 → ∃ t, exec (.migPolicyExtent m) s = .next t ∧ s.Waits t m (.policyExt e) ∧
        t.umpire.deferred = s.umpire.deferred ++ [.promoteEn e (s.rq m 2 1 == 1) m] ∧
        s.SameBut (t.putDeferred s.umpire.deferred) m)) ∧
    (s.Runs m 0x0052 (s.flag m 1) → s.flag m 0 = true → x.st = .granted →
      ∃ t, exec (.migPolicyRead m) s = .next t ∧ s.Answered t m mOk (toLe 2 e ++ toLe 1 (b2n x.promoteEn) ++ zeros 5) ∧
        s.SameBut t m)) ∧
  (∀ (s : State), s.Runs .installer 0x0052 (s.flag .installer 1) → s.flag .installer 0 = false →
    let p := s.tier.policy
    ∃ t, exec (.migPolicyRead .installer) s = .next t ∧
      s.Answered t .installer mOk (toLe 1 p.threshold ++ zeros 3 ++ toLe 4 p.ageBeats ++ toLe 4 p.horizon ++ toLe 4 p.pinLimit) ∧
      s.SameBut t .installer) ∧
  (∀ (s : State) (e : Nat) (en : Bool) (m : Mbx) (x : Extent), s.ext? e = some x → x.st = .granted → s.power.safe = false →
    (s.runDeferred (.promoteEn e en m)).ext? e = some { x with promoteEn := en } ∧
      ∀ k, k ≠ e → (s.runDeferred (.promoteEn e en m)).ext? k = s.ext? k))

/-- DRAFT_LOAD, when it runs.  On an expander without the Loom it completes NOT_PRESENT.  For a context that the mailbox may name, and
a range inside a Plain extent granted to it and not BOUND, whose blocks all read: with a valid header and sections and every
check passed, the lowest free handle holds a LOADED draft of the context with the header's words, bays, picks, patterns,
energy, execution picks and identifier, the other drafts stay, and the command completes OK with the handle; where a check
fails, the drafts stay and the command completes with the status, number, bay, word and issued word of the first.  A range
inside no extent completes BAD_ARG, one in an extent of another owner DENIED, one in an extent of another class BAD_ARG. -/
def Obligations.DraftLoad : Prop :=  ∀ (s : State) (m : Mbx), s.Runs m 0x0060 (!s.flag m 0) →
    let body := fun (check bay word issued : Nat) => zeros 1 ++ toLe 1 check ++ toLe 1 bay ++ zeros 1 ++ toLe 4 word ++ toLe 8 issued
    let none64 := 2 ^ 64 - 1
    let ends := fun (st check : Nat) => ∃ t, exec (.draftLoad m) s = .next t ∧ s.Answered t m st (body check 0xFF 0 none64) ∧
      s.SameBut t m
    let addr := s.rq m 8 8
    let len := s.rq m 0x10 8
    (s.hasLoom = false → ends mNotPresent 1) ∧
    ∀ c, s.hasLoom = true → s.commandCtx m (s.rq m 0 1) = .inl c →
      (s.extentAt addr = none → ends mBadArg 2) ∧
      ∀ e x off, s.extentAt addr = some (e, x, off) → 0 < len → off + len ≤ x.granules * 2 ^ 21 →
        (x.st ≠ .granted ∨ x.owner ≠ c → ends mDenied 2) ∧
        (x.st = .granted → x.ending = false → x.owner = c → x.bound = false → x.cls ≠ .plain → ends mBadArg 2) ∧
        (x.st = .granted → x.ending = false → x.owner = c → x.bound = false → x.cls = .plain →
          ∀ img, (s.containerBytes e off len).2 = some img → headerOk img len = true → sectionsOk img len = true →
            (∀ f, (s.containerBytes e off len).1.loadChecks (draftOf img c) = some f →
              ∃ t, exec (.draftLoad m) s = .next t ∧ s.Answered t m f.status (body f.check f.bay f.word f.issued) ∧
                t.loom.drafts = s.loom.drafts) ∧
            ((s.containerBytes e off len).1.loadChecks (draftOf img c) = none → ∀ h, Table.free s.loom.drafts 256 = some h →
              ∃ t d, exec (.draftLoad m) s = .next t ∧
                s.Answered t m mOk (toLe 1 h ++ zeros 1 ++ toLe 1 0xFF ++ zeros 1 ++ zeros 4 ++ toLe 8 none64) ∧
                Table.get? t.loom.drafts h = some d ∧ (∀ k, k ≠ h → Table.get? t.loom.drafts k = Table.get? s.loom.drafts k) ∧
                d.st = .loaded ∧ d.ctx = c ∧ d.wordCount = le (slice img 0x0C 4) ∧
                d.bayMask = BitVec.ofNat 16 (le (slice img 0x10 2)) ∧ d.picks = le (slice img 0x12 2) ∧
                d.patterns = le (slice img 0x14 1) ∧ d.energy = le (slice img 0x18 8) ∧ d.execPicks = le (slice img 0x20 8) ∧
                d.cid = BitVec.ofNat 64 (le (slice img 0x28 8))))

/-- For a draft `h` of a context that the mailbox may name, on an expander with the Loom.  UNLOAD frees a draft that is neither
PENDING nor RUNNING and completes OK; else it completes STATE.  DRAFT_START of one that no rule refuses makes it PENDING from
the beat named, or four beats on, with a fresh position and no overrun, and waits; one that a rule refuses completes with that
status.  DRAFT_STOP of a RUNNING draft marks the stop, unless one is due already, and waits, a second one too; of a PENDING one it
completes OK with the draft LOADED; of a LOADED, DONE or HALTED one it completes OK with its state.
DRAFT_QUERY completes OK with state, cause, bay mask, identifier, start beat, words issued, overrun beat and cause, the flags of
the sixteen bays and the energy. -/
def Obligations.DraftCommands : Prop :=  ∀ (s : State) (m : Mbx) (c : Nat) (d : Draft), s.hasLoom = true → s.commandCtx m (s.rq m 0 1) = .inl c →
    let h := s.rq m 1 1
    Table.get? s.loom.drafts h = some d → d.ctx = c →
    let ends := fun (i : Instr) (st : Nat) (b : List Byte) => ∃ t, exec i s = .next t ∧ s.Answered t m st b ∧ s.SameBut t m
    (s.Runs m 0x0060 (s.flag m 0) →
      (d.st = .pending ∨ d.st = .running →
        ends (.draftUnload m) mState (zeros 2 ++ toLe 1 0xFF ++ zeros 5 ++ toLe 8 (2 ^ 64 - 1))) ∧
      (d.st ≠ .pending → d.st ≠ .running → ∃ t, exec (.draftUnload m) s = .next t ∧
        s.Answered t m mOk (toLe 1 h ++ zeros 1 ++ toLe 1 0xFF ++ zeros 5 ++ toLe 8 (2 ^ 64 - 1)) ∧
        t.loom = { s.loom with drafts := Table.erase s.loom.drafts h } ∧ s.SameBut (t.setLoom s.loom) m)) ∧
    (s.Runs m 0x0061 true →
      let start := BitVec.ofNat 64 (s.rq m 8 8)
      (∀ st, s.startRefusalOf c d start = some st → ends (.draftStart m) st []) ∧
      (s.startRefusalOf c d start = none → ∃ t x, exec (.draftStart m) s = .next t ∧ s.Waits t m (.draftStart h) ∧
        Table.get? t.loom.drafts h = some x ∧ x.st = .pending ∧ x.starter = some m ∧ x.cause = .none ∧
        x.startMin = (if start = 0 then s.time.beat + 4 else start) ∧ x.issued = 0 ∧ x.pos = {} ∧ x.ovrCause = 0 ∧
        (∀ k, k ≠ h → Table.get? t.loom.drafts k = Table.get? s.loom.drafts k) ∧ s.SameBut (t.setLoom s.loom) m)) ∧
    (s.Runs m 0x0062 true →
      (d.st ≠ .pending → d.st ≠ .running → ends (.draftStop m) mOk (toLe 1 d.st.code ++ zeros 7)) ∧
      (d.st = .pending → d.starter ≠ some m → ∃ t, exec (.draftStop m) s = .next t ∧
        s.Answered t m mOk (toLe 1 DraftSt.loaded.code ++ zeros 7) ∧
        Table.get? t.loom.drafts h = some { d with st := .loaded, starter := none } ∧
        (∀ k, k ≠ h → Table.get? t.loom.drafts k = Table.get? s.loom.drafts k)) ∧
      (d.st = .running → ∃ t, exec (.draftStop m) s = .next t ∧
        s.Waits t m (.draftStop h) ∧
        Table.get? t.loom.drafts h = some { d with stopDue := some (d.stopDue.getD .stop) } ∧
        (∀ k, k ≠ h → Table.get? t.loom.drafts k = Table.get? s.loom.drafts k) ∧ s.SameBut (t.setLoom s.loom) m)) ∧
    (s.Runs m 0x0063 true → ∃ t body, exec (.draftQuery m) s = .next t ∧ s.Answered t m mOk body ∧ s.SameBut t m ∧
      body.length = 72 ∧ slice body 0x00 1 = toLe 1 d.st.code ∧ slice body 0x01 1 = toLe 1 d.cause.code ∧
      slice body 0x02 2 = toLe 2 d.bayMask.toNat ∧ slice body 0x08 8 = toLe 8 d.cid.toNat ∧
      slice body 0x10 8 = toLe 8 d.startBeat.toNat ∧ slice body 0x18 8 = toLe 8 d.issued ∧
      slice body 0x20 8 = toLe 8 d.ovrBeat.toNat ∧ slice body 0x28 1 = toLe 1 d.ovrCause ∧
      (∀ b, b < 16 → slice body (0x30 + b) 1 = toLe 1 (d.flags.getD b 0).toNat) ∧ slice body 0x40 8 = toLe 8 d.energy)

/-- BEAT_CONFIG, when it runs.  A value outside its range, or a nonzero ACTIVATION that is no frame start or lies less than four
beats ahead, completes BAD_ARG.  A change of MODE or PICKS_PER_BEAT while a draft runs completes STATE; a second one while one is
pending completes BUSY.  Else the settings are pending for the ACTIVATION named, for the first frame start at least four beats
ahead, or, with an invalid counter, for the next boundary, and the command waits.  With READ it completes OK with the settings in
force and the beat of the last change.  With an invalid counter and MODE FOLLOWER kept, and no STANDBY that holds changes back, the settings stand
from the next beat boundary, and the command may complete OK with them. -/
def Obligations.BeatConfig : Prop :=  (∀ (s : State) (m : Mbx), s.Runs m 0x0071 (!s.flag m 0) →
    let mode := s.rq m 0 1
    let picks := s.rq m 2 2
    let hold := s.rq m 4 2
    let delay := s.rq m 6 2
    let act := s.rq m 0x10 8
    let dist := (BitVec.ofNat 64 act - s.time.beat).toNat
    let good := mode ≤ 1 ∧ 4 ≤ picks ∧ picks ≤ 4096 ∧ 1 ≤ hold ∧ hold ≤ 1024 ∧ delay ≤ 1023 ∧
      (act = 0 ∨ (s.beatValid = true ∧ act % 128 = 0 ∧ 4 ≤ dist ∧ dist < 2 ^ 63))
    let ends := fun (st : Nat) => ∃ t, exec (.beatConfig m) s = .next t ∧ s.Answered t m st [] ∧ s.SameBut t m
    let hits := s.draftRuns = true ∧ ((mode = 1) ≠ (s.time.cfg.master = true) ∨ picks ≠ s.time.cfg.picks)
    (¬ good → ends mBadArg) ∧ (good → hits → ends mState) ∧
    (good → ¬ hits → s.time.pendingCfg.isSome = true → ends mBusy) ∧
    (good → ¬ hits → s.time.pendingCfg = none →
      ∃ t, exec (.beatConfig m) s = .next t ∧ s.Waits t m .beatCfg ∧
        t.time = { s.time with pendingCfg := some {
          cfg := { master := mode == 1, picks := picks, holdover := hold, inDelay := delay
                   outEn := BitVec.ofNat 2 (s.rq m 1 1), startNumber := BitVec.ofNat 64 (s.rq m 8 8) }
          activation := if s.beatValid = true ∧ act = 0 then BitVec.ofNat 64 ((s.time.beat.toNat + 131) / 128 * 128)
            else BitVec.ofNat 64 act
          early := false, mbx := m } } ∧
        s.SameBut { t with time := s.time } m)) ∧
  (∀ (s : State) (m : Mbx), s.Runs m 0x0071 (s.flag m 0) →
    let c := s.time.cfg
    ∃ t, exec (.beatConfigRead m) s = .next t ∧
      s.Answered t m mOk (toLe 1 (b2n c.master) ++ toLe 1 c.outEn.toNat ++ toLe 2 c.picks ++ toLe 2 c.holdover ++
        toLe 2 c.inDelay ++ toLe 8 c.startNumber.toNat ++ toLe 8 s.time.cfgBeat.toNat) ∧ s.SameBut t m) ∧
  (∀ (s : State) (p : BeatPending), s.time.pendingCfg = some p → s.beatValid = false → p.cfg.master = false →
    s.time.cfg.master = false → s.standbyHolds = false → s.HasMbx p.mbx → (s.mbox p.mbx).wait = some { what := .beatCfg } →
    let t := s.beatCfgBoundary false
    t.time.cfg = p.cfg ∧ t.time.pendingCfg = none ∧ t.nor.beatCfg = p.cfg ∧ t.time.sync = s.time.sync ∧
      ((t.mbox p.mbx).wait.map fun w => (w.ready, w.status)) = some (true, mOk))

/-- TIEUP_SET, when it runs, with the image that its length takes from the bulk window.  A digest that differs completes SIG_FAIL; a
length that is not 200 + 6,272 for each pattern, a plan that breaks a rule, or an ACTIVATION less than four beats ahead, BAD_ARG;
allowances above the Loom's pool, NO_RESOURCE; a plan that a PENDING or RUNNING draft does not bear, STATE; one while another is
pending, BUSY.  Else the plan waits in the shadow for the beat named, or four beats on, and the command waits.  With READ, the
bulk window takes the image of the plan in force and its digest, and the command completes OK with the beat at which it
took effect. -/
def Obligations.TieUpSet : Prop :=  (∀ (s : State) (m : Mbx), s.Runs m 0x0070 (!s.flag m 0) →
    let len := s.rq m 0 4
    let act := BitVec.ofNat 64 (s.rq m 8 8)
    let img := (s.mbox m).bulk.readN 0 len
    let p := planOfImage img
    let ends := fun (st : Nat) => ∃ t, exec (.tieupSet m) s = .next t ∧ s.Answered t m st [] ∧ s.SameBut t m
    (len ≤ 524288 → sha256 img ≠ s.rqBytes m 0x10 32 → ends mSigFail) ∧
    (len ≤ 524288 → sha256 img = s.rqBytes m 0x10 32 →
      (len < 200 ∨ len ≠ 200 + 6272 * (img.getD 0 0).toNat → ends mBadArg) ∧
      (200 ≤ len → len = 200 + 6272 * (img.getD 0 0).toNat →
        (s.planOk p = false → ends mBadArg) ∧
        (act ≠ 0 → (s.beatValid = false ∨ (act - s.time.beat).toNat < 4) → ends mBadArg) ∧
        (s.planOk p = true →
          (act = 0 ∨ (s.beatValid = true ∧ 4 ≤ (act - s.time.beat).toNat ∧ (act - s.time.beat).toNat < 2 ^ 63)) →
          (s.loomPool < p.allowances.sum → ends mNoResource) ∧
          (p.allowances.sum ≤ s.loomPool →
            (s.planHitsDraft p = true → ends mState) ∧
            (s.planHitsDraft p = false → s.tie.shadow.isSome = true → ends mBusy) ∧
            (s.planHitsDraft p = false → s.tie.shadow = none →
              ∃ t, exec (.tieupSet m) s = .next t ∧ s.Waits t m .tieup ∧
                t.tie = { s.tie with
                  shadow := some p, armed := s.time.idx == 0
                  activation := if s.beatValid = true ∧ act = 0 then s.time.beat + 4 else act, mbx := some m } ∧
                s.SameBut { t with tie := s.tie } m)))))) ∧
  (∀ (s : State) (m : Mbx), s.Runs m 0x0070 (s.flag m 0) →
    let img := (s.tie.plan.getD s.factoryPlan).image
    ∃ t, exec (.tieupSetRead m) s = .next t ∧ s.Answered t m mOk (toLe 8 s.tie.activeBeat.toNat) ∧ s.SameBut t m ∧
      (t.mbox m).bulk = (s.mbox m).bulk.writeN 0 (img ++ sha256 img))

/-- BEAT_BOUNDARY, once internal reset is released and a beat boundary is due, with no BEAT_CONFIG pending: the boundary is no longer
due; a valid counter counts one beat, modulo 2^64; a first MASTER boundary loads START_NUMBER and enters MASTER; else an
acquisition that has placed this boundary loads its number and enters LOCKED; an invalid counter without these stays, and both outputs
are held low.  With a valid counter each enabled output is driven with a width of the symbol of the beat, plain or MISS.  The
tiering beat count counts one.  AGE_HALVING: where a halving is due, every counter of every extent is halved and the halving is
no longer due; nothing else changes.  Where none is due nothing changes.  That the boundary is a row of its own after
PICK_BOUNDARY is the model's (log entry 3). -/
def Obligations.BeatBoundary : Prop :=  (∀ (s : State), s.power.stage = 7 → s.time.beatDue = true → s.time.pendingCfg = none →
    ∃ t, exec .beatBoundary s = .next t ∧ t.time.beatDue = false ∧ t.tier.beats = s.tier.beats + 1 ∧
      t.time.beatOut.length = 2 ∧
      (s.time.acqLoad = none → s.time.masterDue = false →
        t.time.beat = (if s.beatValid = true then s.time.beat + 1 else s.time.beat) ∧ t.time.sync = s.time.sync) ∧
      (∀ c n, s.time.masterDue = false → s.time.acqLoad = some (c, n) → c ≤ s.time.cycle → t.time.beat = n ∧ t.time.sync = .locked) ∧
      (s.time.masterDue = true → t.time.beat = s.time.cfg.startNumber ∧ t.time.sync = .master) ∧
      (t.beatValid = false → t.time.beatOut = [0, 0]) ∧
      (t.beatValid = true → (s.power.safe = true → s.power.safeCause ≠ 0x06) →
        ∃ miss, ∀ i, i < 2 → t.time.beatOut.getD i 0 =
          if s.time.cfg.outEn.toNat.testBit i then (symbolAt t.time.beat).driven miss else 0)) ∧
  (∀ (s : State), (s.tier.ageDue = false → exec .ageHalving s = .next s) ∧
    (s.tier.ageDue = true → ∃ t, exec .ageHalving s = .next t ∧ t.tier = { s.tier with ageDue := false } ∧
      (∀ e x, s.ext? e = some x → ∃ y, t.ext? e = some y ∧ { y with counters := [] } = { x with counters := [] } ∧
        ((x.counters.map (·.1)).Nodup → ∀ p, Table.getD y.counters p 0 = Table.getD x.counters p 0 / 2)) ∧
      (t.setExts s.exts).setTier s.tier = s))

/-- A pulse of the driven width of a symbol, plain or MISS, off by at most 42 cycles, is that symbol.  BEAT_IN_MARKER: a pulse of at
most 42 cycles changes nothing, nor does any marker in MASTER mode; START in FREE begins an acquisition; in LOCKED or HOLDOVER,
within 4 cycles of its due time, the expected symbol of the beat judged enters or keeps LOCKED with count 0, and any other
pulse enters or keeps HOLDOVER with one failure more.  MARKER_WINDOW_CLOSE with no marker in the window: an acquisition fails to
FREE, and in LOCKED or HOLDOVER a failure more is counted.  In each of these the counter of beats stays.  HOLDOVER_EXCEEDED: with
more failures than HOLDOVER allows, SAFE begins with cause BEAT_LOSS and both outputs low; in a SAFE of another cause the audit
log alone takes the later cause; with no more, nothing changes. -/
def Obligations.BeatMarkers : Prop :=  (∀ (y : Sym) (miss : Bool) (h : Nat), y.driven miss ≤ h + 42 → h ≤ y.driven miss + 42 → symbolOf h = some (y, miss)) ∧
  (∀ (s : State) (cycle high : Nat),
    let marker := exec (.beatInMarker cycle high) s
    (high ≤ 42 ∨ s.time.cfg.master = true → marker = .next s) ∧
    (42 < high → s.time.cfg.master = false →
      (∀ miss, s.time.sync = .free → symbolOf high = some (.start, miss) →
        ∃ t, marker = .next t ∧ t.time.sync = .acquiring ∧ t.time.acqCount = 0 ∧ t.time.acqEdge = cycle ∧
          t.time.beat = s.time.beat ∧ s.SameObjects t ∧ s.SameTiers t) ∧
      ((s.time.sync = .locked ∨ s.time.sync = .holdover) → (cycle : Int) - s.markerDue ≤ 4 → s.markerDue - cycle ≤ 4 →
        ((∃ miss, symbolOf high = some (symbolAt s.time.markBeat, miss)) →
          ∃ t, marker = .next t ∧ t.time.sync = .locked ∧ t.time.holdCount = 0 ∧ t.time.markBeat = s.time.markBeat + 1 ∧
            t.time.beat = s.time.beat ∧ s.SameObjects t ∧ s.SameTiers t) ∧
        ((∀ miss, symbolOf high ≠ some (symbolAt s.time.markBeat, miss)) →
          ∃ t, marker = .next t ∧ t.time.sync = .holdover ∧ t.time.markBeat = s.time.markBeat + 1 ∧
            t.time.holdCount = (if s.time.sync = .locked then 1 else s.time.holdCount + 1) ∧
            t.time.beat = s.time.beat ∧ s.SameObjects t ∧ s.SameTiers t)))) ∧
  (∀ (s : State) (cycle : Nat), s.time.cfg.master = false →
    (s.time.sync = .acquiring → s.time.acqLoad = none → s.time.acqEdge + s.beatCycles + 4 ≤ cycle →
      ∃ t, exec (.markerWindowClose cycle) s = .next t ∧ t.time.sync = .free ∧ t.time.beat = s.time.beat ∧ s.SameObjects t) ∧
    ((s.time.sync = .locked ∨ s.time.sync = .holdover) → s.markerDue + 4 ≤ cycle →
      ∃ t, exec (.markerWindowClose cycle) s = .next t ∧ t.time.sync = .holdover ∧ t.time.markBeat = s.time.markBeat + 1 ∧
        t.time.holdCount = (if s.time.sync = .locked then 1 else s.time.holdCount + 1) ∧ t.time.beat = s.time.beat ∧
        s.SameObjects t)) ∧
  (∀ (s : State), s.time.sync = .holdover →
    (s.time.cfg.holdover < s.time.holdCount → s.power.safe = false →
      ∃ t, exec .holdoverExceeded s = .next t ∧ t.power.safe = true ∧ t.power.safeCause = 0x06 ∧
        t.time = { s.time with beatOut := [0, 0] }) ∧
    (s.time.cfg.holdover < s.time.holdCount → s.power.safe = true → s.power.safeCause ≠ 0x06 →
      exec .holdoverExceeded s = .next (s.auditAppend { kind := 3, opcode := 0x06 })) ∧
    (s.time.holdCount ≤ s.time.cfg.holdover → exec .holdoverExceeded s = .next s))

/-- SHUTTLE_RUN, when it runs, for a context that the mailbox may name.  A named engine that is busy, or 0xFF with none idle:
BUSY.  ENGINE or PULL_TIMEOUT out of range, LIST_COUNT 0 or above 4,096, LIST_ADDR not a multiple of 32 or in no extent, a list that
leaves its extent or lies in one that is not Plain: BAD_ARG.  A list extent not granted to the context, BOUND or SEALED: DENIED.  An
engine with no near or no far position: NO_RESOURCE.  Else the engine named, or the lowest idle one, holds the job, with PULL_TIMEOUT
64 for 0, the other engines stay, and the command waits.  SHUTTLE_LIST_READ of such a job in a pick in which the engine owns a
position: the job holds the descriptors that the list holds, and the other engines stay.  SHUTTLE_ABORT of an engine without a job
completes STATE; of one whose job has read no list, the job is marked and every entry is to be written back as NOT_RUN. -/
def Obligations.ShuttleJobs : Prop :=  (∀ (s : State) (m : Mbx) (c : Nat), s.Runs m 0x0080 true → s.commandCtx m (s.rq m 0 1) = .inl c → s.engines.length = 8 →
    let n := s.rq m 1 1
    let tmo := s.rq m 2 2
    let cnt := s.rq m 4 2
    let addr := s.rq m 8 8
    let ends := fun (st : Nat) => ∃ t, exec (.shuttleRun m) s = .next t ∧ s.Answered t m st [] ∧ s.SameBut t m
    let free := fun (e : Nat) => (n = e ∨ (n = 0xFF ∧ ∀ k, k < e → s.engine k ≠ none)) ∧ s.engine e = none
    let inRange := (n ≤ 7 ∨ n = 0xFF) ∧ (tmo = 0 ∨ (48 ≤ tmo ∧ tmo ≤ 4096)) ∧ 1 ≤ cnt ∧ cnt ≤ 4096
    ((n < 8 ∧ s.engine n ≠ none) ∨ (n = 0xFF ∧ ∀ k, k < 8 → s.engine k ≠ none) → ends mBusy) ∧
    (∀ e, e < 8 → free e → ¬ inRange → ends mBadArg) ∧
    (7 < n → n ≠ 0xFF → ends mBadArg) ∧
    (∀ e, e < 8 → free e → inRange →
      (s.extentAt addr = none → ends mBadArg) ∧
      (∀ le_ x off, s.extentAt addr = some (le_, x, off) →
        let whole := off + 32 * cnt ≤ x.granules * 2 ^ 21 ∧ x.cls = .plain ∧ addr % 32 = 0
        let may := x.st = .granted ∧ x.owner = c ∧ x.ending = false ∧ x.bound = false ∧ x.sealed = false
        let owns := s.ownsNear (8 + e) = true ∧ s.ownsFar (8 + e) = true
        (¬ whole → ends mBadArg) ∧ (whole → ¬ may → ends mDenied) ∧ (whole → may → ¬ owns → ends mNoResource) ∧
        (whole → may → owns → ∃ t, exec (.shuttleRun m) s = .next t ∧ s.Waits t m (.shuttle e) ∧
          t.engine e = some {
            ctx := c, mbx := m, list := addr, count := cnt, listExt := le_
            timeout := if tmo = 0 then 64 else tmo } ∧
          (∀ k, k ≠ e → t.engine k = s.engine k) ∧ s.SameBut (t.setEngines s.engines) m)))) ∧
  (∀ (s : State) (e : Nat) (j : Job) (x : Nat) (ext : Extent) (off : Nat), e < s.engines.length → s.engine e = some j → j.descs = none →
    j.bolt = none → j.idx = 0 → j.count ≠ 0 → j.abort = false → s.enginesOn = true → s.engineHere e = true →
    s.extentAt j.list = some (x, ext, off) →
    ∃ t, exec (.shuttleListRead e) s = .next t ∧ t.engine e = some { j with descs := some ((List.range j.count).map fun i =>
        descOf (slice ((s.bytesNow x off (32 * j.count)).2.map fun b => b.getD 0) (32 * i) 32)) } ∧
      ∀ k, k ≠ e → t.engine k = s.engine k) ∧
  (∀ (s : State) (m : Mbx), s.Runs m 0x0081 true → isManaged m = true → s.engines.length = 8 →
    let e := s.rq m 0 1
    let ends := fun (st : Nat) => ∃ t, exec (.shuttleAbort m) s = .next t ∧ s.Answered t m st [] ∧ s.SameBut t m
    (7 < e → ends mBadArg) ∧ (e ≤ 7 → s.engine e = none → ends mState) ∧
    ∀ j, e ≤ 7 → s.engine e = some j → s.ctxLive j.ctx = true → j.cur = none → j.bolt = none → j.idx = 0 → 0 < j.count →
      j.back = [] → j.dropBack = false →
      ∃ t, exec (.shuttleAbort m) s = .next t ∧ s.Waits t m (.abort e) ∧
        t.engine e = some { j with abort := true, stop := some 0x08, idx := j.count
                                   back := (List.range j.count).map fun i => (i, 0x0B, 0) } ∧
        (∀ k, k ≠ e → t.engine k = s.engine k) ∧ s.SameBut (t.setEngines s.engines) m)

/-- For an engine whose job has read its list.  DESCRIPTOR_START, with no descriptor running and no write-back due: a descriptor that a
check of the start refuses ends at once with that status and 0 blocks, and stops the list unless its CONTINUE flag is set;
else it runs, from block 0.  SHUTTLE_BLOCK_ISSUE of a running PULL takes the next block and its read is to leave; of a COPY or a
PUSH whose next block holds stored data, that is neither TORN nor DIVERGENT, with no other request in the pool and no failed
channel, the block's read joins the requests.  PULL_TIMEOUT of a read that is out PULL_TIMEOUT picks, while a read of an earlier block is out: its tag is dead
for 1,024 picks and the descriptor fails with TIMEOUT at its block.  DESCRIPTOR_WRITE_BACK of an entry in a
near-resident page: the masked write of STATUS and DONE into the list entry joins the requests.  Each leaves the other engines and every context as they are. -/
def Obligations.ShuttleDescriptors : Prop :=  (∀ (s : State) (e : Nat) (j : Job) (ds : List Desc) (d : Desc), e < s.engines.length → s.engine e = some j →
    j.descs = some ds → ds[j.idx]? = some d → j.cur = none → j.abort = false → j.back = [] → j.dropBack = false → j.bolt = none →
    s.listOut e = false → j.idx < j.count → s.enginesOn = true →
    (∀ st, s.startRefusal e j.ctx d = some st → j.firstIdx = 0xFFFF → ∃ t k, exec (.descriptorStart e) s = .next t ∧
      t.engine e = some k ∧ k.cur = none ∧ k.ran = j.ran + 1 ∧ k.failed = j.failed + 1 ∧ k.firstIdx = j.idx ∧ k.firstSt = st ∧
      k.back.head? = some (j.idx, st, 0) ∧ k.idx = (if d.flags % 2 = 1 then j.idx + 1 else j.count) ∧
      (∀ i, i ≠ e → t.engine i = s.engine i) ∧ s.SameStored t ∧ t.ctxs = s.ctxs) ∧
    (s.startRefusal e j.ctx d = none → ∃ t, exec (.descriptorStart e) s = .next t ∧
      t.engine e = some { j with cur := some { d := d, idx := j.idx, conf := decide (2 ≤ d.kind) && (s.port d.port).conf } } ∧
      (∀ i, i ≠ e → t.engine i = s.engine i) ∧ t.setEngines s.engines = s)) ∧
  (∀ (s : State) (e : Nat) (j : Job) (c : Cur), e < s.engines.length → s.engine e = some j → j.cur = some c → j.abort = false →
    c.fail = none → c.next < c.d.len → c.inflight.length < 512 → s.enginesOn = true → j.bolt = none → c.done < c.d.len →
    (c.d.kind = 3 → c.conf = false → ∃ t, exec (.shuttleBlockIssue e) s = .next t ∧
      t.engine e = some { j with cur := some { c with
        next := c.next + 1, inflight := c.inflight ++ [c.next], toRead := c.toRead ++ [c.next] } } ∧
      (∀ i, i ≠ e → t.engine i = s.engine i) ∧ t.setEngines s.engines = s) ∧
    (∀ x ext off, c.d.kind ≠ 3 → s.extentAt (c.d.src + 256 * c.next) = some (x, ext, off) → s.zeroBlock x (off / 256) = false →
      s.divergent x (off / 256) = false → s.tornBlock x (off / 256) = false → s.reqs = [] → (∀ l, s.locFailed l = false) →
      ∃ t r, exec (.shuttleBlockIssue e) s = .next t ∧ Table.get? t.reqs s.nextReq = some r ∧ r.origin = .shuttle e c.next ∧
        r.op = .rd256 ∧ r.ext = x ∧ r.block = off / 256 ∧ r.arrival = s.time.pick ∧
        t.engine e = some { j with cur := some { c with next := c.next + 1, inflight := c.inflight ++ [c.next] } } ∧
        (∀ i, i ≠ e → t.engine i = s.engine i) ∧ s.SameStored t ∧ t.ctxs = s.ctxs)) ∧
  (∀ (s : State) (e tag tag' : Nat) (j : Job) (c : Cur) (r r' : ExpRead), s.Shape → s.engine e = some j → j.cur = some c →
    c.d.kind = 3 → c.fail = none → c.d.port < 6 → Table.get? (s.port c.d.port).rdTags tag = some r → r.engine = e →
    Table.get? (s.port c.d.port).rdTags tag' = some r' → r'.engine = e → r'.block < r.block → r.block < 2 ^ 32 →
    r.left + j.timeout ≤ s.time.pick → j.abort = false →
    ∃ t, exec (.pullTimeout e tag) s = .next t ∧
      t.engine e = some { j with cur := some { c with
        fail := some (r.block, 0x07), inflight := c.inflight.filter (· != r.block) } } ∧
      Table.get? (t.port c.d.port).rdTags tag = none ∧
      Table.get? (t.port c.d.port).deadTags tag = some (s.time.pick + 1024) ∧
      (∀ k, k ≠ tag → Table.get? (t.port c.d.port).rdTags k = Table.get? (s.port c.d.port).rdTags k) ∧
      (∀ i, i ≠ e → t.engine i = s.engine i) ∧ (∀ k, k ≠ c.d.port → t.port k = s.port k) ∧ s.SameStored t ∧ t.ctxs = s.ctxs) ∧
  (∀ (s : State) (e i st done : Nat) (rest : List (Nat × Nat × Nat)) (j : Job) (x : Nat) (ext : Extent) (off : Nat),
    s.engine e = some j → j.back = (i, st, done) :: rest → s.listOut e = false → j.dropBack = false → s.scrubOn = true →
    s.extentAt (j.list + 32 * i) = some (x, ext, off) → (s.page x (off / 65536)).near = true →
    (s.page x (off / 65536)).zor = false → (s.page x (off / 65536)).st = .settled → ext.cls = .plain → s.ras.work = [] → s.divergent x (off / 256) = false → s.reqs = [] →
    ∃ t r, exec (.descriptorWriteBack e) s = .next t ∧ Table.get? t.reqs s.nextReq = some r ∧ r.origin = .list e i ∧ r.op = .wrp ∧
      r.ext = x ∧ r.block = off / 256 ∧ r.quarter = off / 64 % 4 ∧
      r.data.getD ((j.list + 32 * i) % 64 + 0x18) 0 = BitVec.ofNat 8 st ∧
      slice r.data ((j.list + 32 * i) % 64 + 0x1C) 4 = toLe 4 done ∧ t.engines = s.engines ∧ s.SameStored t ∧ t.ctxs = s.ctxs)

/-- BOLT_LOAD, when it runs.  Without the cipher unit it completes NOT_PRESENT; with a bad identity STATE.  A target that is not BOUND
and granted to the context completes DENIED; one that holds or takes a bolt STATE; a source outside one Plain extent of the context,
or a LENGTH other than the header's TOTAL_SIZE, BAD_ARG; no idle engine, BUSY.  Else the engine holds the load, the target is marked
as loading, and the command waits.  BOLT_CHUNK of a load, while engines issue.  With one image block of the range of its step still
to read: the block's read joins the requests.  With a block of plaintext to write: its write joins the requests.  With its range
read: at step 1 an ill-formed header ends the load, and the command may complete BAD_ARG with step 1; at step 6 a chunk whose tag
does not verify ends it with SIG_FAIL and step 6, one that verifies gives the plaintext blocks of its part of the target and goes
to the next chunk, after the last to step 7; at step 7 the issuer's signature over the image ends it OK with step 0 and the bolt in
the target, another one with SIG_FAIL and step 7.
BOLT_ISSUERS, when it runs: NOT_PRESENT without the cipher unit.  ADD of a point off the curve completes BAD_ARG; of a key that
is present OK without change; of another one, at the end of the list OK while it holds fewer than sixteen, else NO_RESOURCE.
REMOVE of an absent key completes BAD_ARG; of a present one OK, and it is gone and the others stay.  LIST completes OK with the
number of keys and the SHA-256 of each in order of addition.  Nothing else changes: a loaded bolt stays. -/
def Obligations.Bolts : Prop :=
  ((∀ (s : State) (m : Mbx), s.Runs m 0x0090 true → s.engines.length = 8 →
    let n := s.rq m 1 1
    let e := s.rq m 2 2
    let src := s.rq m 8 8
    let len := s.rq m 0x10 8
    let ends := fun (st : Nat) => ∃ t, exec (.boltLoad m) s = .next t ∧ s.Answered t m st [] ∧ s.SameBut t m
    (s.hasCipher = false → ends mNotPresent) ∧
    ∀ c x, s.hasCipher = true → s.commandCtx m (s.rq m 0 1) = .inl c → s.ext? e = some x →
      let mine := x.st = .granted ∧ x.owner = c ∧ x.ending = false ∧ x.bound = true
      (s.umpire.idBad = true → ends mState) ∧
      (s.umpire.idBad = false → ¬ mine → ends mDenied) ∧
      (s.umpire.idBad = false → mine → (x.bolt.isSome = true ∨ x.boltLoading = true) → ends mState) ∧
      (s.umpire.idBad = false → mine → x.bolt = none → x.boltLoading = false →
        (s.boltSource c src len = false → ends mBadArg) ∧
        (s.boltSource c src len = true → (n ≤ 7 ∨ n = 0xFF) → le (s.poolBytes (src + 8) 8).2 = len →
          ∀ g, g < 8 → (n = g ∨ (n = 0xFF ∧ ∀ k, k < g → s.engine k ≠ none)) → s.engine g = none →
            s.umpire.entropyFail = false →
            ∃ t y, exec (.boltLoad m) s = .next t ∧ t.engine g = some {
                ctx := c, mbx := m, list := 0, count := 0, timeout := 64, listExt := 0xFFFF
                bolt := some { ext := e, src := src, len := len } } ∧
              (∀ k, k ≠ g → t.engine k = s.engine k) ∧ t.ext? e = some y ∧ y.boltLoading = true ∧
              (t.mbox m).wait = some { what := .bolt g } ∧ (t.mbox m).accepted = true))) ∧
  (∀ (s : State) (g : Nat) (j : Job) (b : BoltJob) (m : Mbx), g < s.engines.length → s.engine g = some j → j.bolt = some b →
    s.enginesOn = true → j.abort = false → b.bad = none → s.HasMbx m → s.waiter (.bolt g) = some m →
    let others := fun (t : State) => ∀ k, k ≠ g → t.engine k = s.engine k
    let missing := b.blocks.filter fun n => (Table.get? b.buf n).isNone
    let ends := fun (st : Nat) (body : List Byte) => ∃ t, exec (.boltChunk g) s = .next t ∧ t.engine g = none ∧ others t ∧
      (t.mbox m).wait = some { what := .bolt g, ready := true, status := st, body := body } ∧
      ∀ x, s.ext? b.ext = some x → (t.ext? b.ext).map (·.boltLoading) = some false
    (∀ n e x off, b.plain = [] → b.busy = false → missing = [n] → s.extentAt (256 * n) = some (e, x, off) →
      s.tornBlock e (off / 256) = false → s.zeroBlock e (off / 256) = false → s.divergent e (off / 256) = false → s.reqs = [] →
      (∀ l, s.locFailed l = false) →
      ∃ t r, exec (.boltChunk g) s = .next t ∧ Table.get? t.reqs s.nextReq = some r ∧ r.origin = .fetch g n ∧ r.op = .rd256 ∧
        r.ext = e ∧ r.block = off / 256 ∧ t.engine g = some { j with bolt := some { b with asked := [n] } } ∧ others t ∧
        s.SameStored t) ∧
    (∀ n data x, b.plain = [(n, data)] → b.writes = [] → s.ext? b.ext = some x → x.st = .granted → x.sealed = false →
      x.sealing = false → x.cls = .plain → (x.page (n / 256)).zor = false → s.divergent b.ext n = false → s.reqs = [] → (∀ l, s.locFailed l = false) →
      ∃ t r, exec (.boltChunk g) s = .next t ∧ Table.get? t.reqs s.nextReq = some r ∧ r.origin = .bolt g n ∧ r.op = .wr256 ∧
        r.ext = b.ext ∧ r.block = n ∧ r.data = data ∧
        t.engine g = some { j with bolt := some { b with plain := [], writes := [n] } } ∧ others t ∧ s.SameStored t) ∧
    (b.plain = [] → b.busy = false → missing = [] →
      (b.step = 1 → boltHeaderOk b.bytes b.len = false → ends mBadArg (zeros 16 ++ toLe 1 1 ++ zeros 7)) ∧
      (b.step = 6 →
        let n := b.bytes.length - 16
        let first := b.chunk * (b.chunkSize / 256)
        let pt := gcmOpen (b.key.getD []) (zeros 4 ++ toLe 8 b.chunk) (slice b.header 0x20 16 ++ toLe 4 b.chunk)
          (b.bytes.take n) (b.bytes.drop n)
        (pt = none → ends mSigFail (slice b.header 0x20 16 ++ toLe 1 6 ++ zeros 7)) ∧
        (∀ p, pt = some p → ∃ t y, exec (.boltChunk g) s = .next t ∧ t.engine g = some { j with bolt := some y } ∧ others t ∧
          y.plain = (List.range (p.length / 256)).map (fun k => (first + k, slice p (256 * k) 256)) ∧
          y.seen = b.seen ++ b.bytes ∧ y.chunk = b.chunk + 1 ∧ y.step = (if b.chunk + 1 = b.chunks_ then 7 else 6) ∧
          s.SameStored t ∧ t.reqs = s.reqs)) ∧
      (b.step = 7 →
        let signed := ∃ k, s.issuer b.header = some k ∧ ecdsaVerify k (sha256 b.seen) b.bytes = true
        (signed → ends mOk (slice b.header 0x20 16 ++ toLe 1 0 ++ zeros 7)) ∧
        (signed → ∀ x, s.ext? b.ext = some x → ∃ t, exec (.boltChunk g) s = .next t ∧
          (t.ext? b.ext).map (·.bolt) = some (some (BitVec.ofNat 64 (le (slice b.header 0x50 8))))) ∧
        (¬ signed → ends mSigFail (slice b.header 0x20 16 ++ toLe 1 7 ++ zeros 7)))))) ∧
  (∀ (s : State) (m : Mbx),
    let key := s.rqBytes m 8 64
    let keys := s.nor.issuers
    let ends := fun (c : Instr) (st : Nat) (b : List Byte) => ∃ t, exec c s = .next t ∧ s.Answered t m st b ∧ s.SameBut t m
    let leaves := fun (c : Instr) (l : List (List Byte)) => ∃ t, exec c s = .next t ∧ s.Answered t m mOk [] ∧ t.nor.issuers = l ∧
      s.SameBut { t with nor := { t.nor with issuers := keys } } m
    (s.Runs m 0x0091 (s.rq m 0 1 == 0) →
      (s.hasCipher = false → ends (.boltIssuersAdd m) mNotPresent []) ∧
      (s.hasCipher = true →
        (pointOf key = none → ends (.boltIssuersAdd m) mBadArg []) ∧
        ((pointOf key).isSome = true → key ∈ keys → ends (.boltIssuersAdd m) mOk []) ∧
        ((pointOf key).isSome = true → key ∉ keys → keys.length < 16 → leaves (.boltIssuersAdd m) (keys ++ [key])) ∧
        ((pointOf key).isSome = true → key ∉ keys → 16 ≤ keys.length → ends (.boltIssuersAdd m) mNoResource []))) ∧
    (s.Runs m 0x0091 (s.rq m 0 1 == 1) → s.hasCipher = true →
      (key ∉ keys → ends (.boltIssuersRemove m) mBadArg []) ∧
      (key ∈ keys → leaves (.boltIssuersRemove m) (keys.filter fun k => k != key))) ∧
    (s.Runs m 0x0091 (decide (2 ≤ s.rq m 0 1)) → s.hasCipher = true → s.rq m 0 1 = 2 →
      ends (.boltIssuersList m) mOk (toLe 1 keys.length ++ zeros 7 ++ keys.flatMap sha256)))

/-- SPDM_MSG of 4 to 1,024 bytes, when it runs, completes OK with the length of the reply and the reply, padded with zeros to 8
bytes, and the mailbox's connection goes on; of another length it completes BAD_ARG.  A message of 4 to 1,024 bytes at the I3C
target of a ready firmware leaves the reply to send and the target's own connection; while no firmware is ready the reply is the
ERROR Busy.  In a reply, GET_VERSION of version 1.0 begins a connection and gives version 1.2 alone; a request of another version
gives VersionMismatch; one that the responder does not support UnsupportedRequest with its code; one out of order
UnexpectedRequest; these errors leave the connection as it is.  The message layouts and codes are those of DSP0274
(log entry 30). -/
def Obligations.SpdmResponder : Prop :=  (∀ (s : State) (m : Mbx), s.Runs m 0x00A0 true →
    let n := s.rq m 0 4
    let r := s.spdmReply (s.mbox m).spdm (s.rqBytes m 8 n)
    (n < 4 ∨ 1024 < n → ∃ t, exec (.spdmMsg m) s = .next t ∧ s.Answered t m mBadArg [] ∧ s.SameBut t m) ∧
    (4 ≤ n → n ≤ 1024 → ∃ t, exec (.spdmMsg m) s = .next t ∧
      s.Answered t m mOk (toLe 4 r.resp.length ++ zeros 4 ++ r.resp ++ zeros (8 * ((r.resp.length + 7) / 8) - r.resp.length)) ∧
      (t.mbox m).spdm = r.conn ∧ s.SameBut t m)) ∧
  (∀ (s : State) (msg : List Byte), s.power.stage = 7 → 4 ≤ msg.length → msg.length ≤ 1024 →
    (s.umpire.ready = true → ∃ t, exec (.mctpSpdmMessage msg) s = .next t ∧
      t.umpire.mctp = (s.spdmReply s.umpire.mctp msg).conn ∧ t.umpire.mctpOut = (s.spdmReply s.umpire.mctp msg).resp ∧
      t.umpire.mboxes = s.umpire.mboxes ∧ s.SameTiers t ∧ s.SameObjects t ∧ s.SameUnits t ∧ t.nor = s.nor) ∧
    (s.umpire.ready = false → exec (.mctpSpdmMessage msg) s =
      .next { s with umpire := { s.umpire with mctpOut := [0x12#8, 0x7F#8, 0x03#8, 0x00#8] } })) ∧
  (∀ (s : State) (c : SpdmConn) (msg : List Byte),
    let ver := msg.getD 0 0
    let code := msg.getD 1 0
    let tells := fun (ec data : Byte) => (s.spdmReply c msg).conn = c ∧
      (s.spdmReply c msg).resp = [if c.stage = 0 then 0x10#8 else 0x12#8, 0x7F#8, ec, data]
    (ver = 0x10#8 → code = 0x84#8 → (s.spdmReply c msg).conn.stage = 1 ∧
      (s.spdmReply c msg).resp = [0x10#8, 0x04#8, 0x00#8, 0x00#8, 0x00#8, 0x01#8, 0x00#8, 0x12#8]) ∧
    (ver ≠ (if code = 0x84#8 then 0x10#8 else 0x12#8) → tells 0x41#8 0x00#8) ∧
    (ver = 0x12#8 → code ∉ [0x84#8, 0x81#8, 0x82#8, 0x83#8, 0xE0#8, 0xE1#8, 0xE3#8] → tells 0x07#8 code) ∧
    (ver = 0x12#8 → code = 0xE1#8 → c.stage ≠ 1 → tells 0x04#8 0x00#8) ∧
    (ver = 0x12#8 → code = 0xE3#8 → c.stage ≠ 2 → tells 0x04#8 0x00#8) ∧
    (ver = 0x12#8 → code ∈ [0x81#8, 0x82#8, 0x83#8, 0xE0#8] → c.stage ≠ 3 → tells 0x04#8 0x00#8))

/-- KEYX from the mailbox of a port `p` that is attached to a live context, on an expander with the cipher unit: while debug is
unlocked or the identity is bad every function completes STATE.  Else, KEY_AGREE of an UP port without keys, with a healthy entropy
source: with a host point on the curve the port
holds the three keys of the agreement in generation 0 with both message counters 0, may set CONF eight frames on, and the
command completes OK with the device's point and nonce and a signature; a point off the curve completes BAD_ARG; else STATE.
BOUNCE_ADD of a window that is 64 KiB aligned, not empty and apart from the others, while fewer than eight exist and the port has
keys, adds it; one that is not completes BAD_ARG, a ninth NO_RESOURCE, one without keys STATE.  BOUNCE_REMOVE takes out the window
at the address, unless it is in use: STATE; an unknown address completes BAD_ARG.  BOUNCE_LIST answers with all windows. -/
def Obligations.LinkKeys : Prop :=  ∀ (s : State) (p c : Nat), s.Shape → p < 6 → s.hasCipher = true → (s.port p).ctx = some c → s.ctxLive c = true →
    let m : Mbx := .port p
    let ends := fun (i : Instr) (st : Nat) (b : List Byte) => ∃ t, exec i s = .next t ∧ s.Answered t m st b ∧ s.SameBut t m
    let becomes := fun (t : State) (q : Port) => { t.port p with evts := [] } = { q with evts := [] } ∧
      s.SameBut (t.setPorts s.ports) m ∧ ∀ k, k ≠ p → t.port k = s.port k
    let barred := s.umpire.debugUnlocked = true ∨ s.umpire.idBad = true
    (barred → (s.Runs m 0x00A1 (s.rq m 0 1 == 0) → ends (.keyAgree m) mState []) ∧
      (s.Runs m 0x00A1 (s.rq m 0 1 == 1) → ends (.bounceAdd m) mState []) ∧
      (s.Runs m 0x00A1 (s.rq m 0 1 == 2) → ends (.bounceRemove m) mState []) ∧
      (s.Runs m 0x00A1 (decide (3 ≤ s.rq m 0 1)) → ends (.bounceList m) mState [])) ∧
    (s.Runs m 0x00A1 (s.rq m 0 1 == 0) → ¬ barred →
      (s.umpire.entropyFail = true ∨ (s.port p).keyE.isSome = true ∨ (s.slot p).st ≠ .up → ends (.keyAgree m) mState []) ∧
      (s.umpire.entropyFail = false → (s.port p).keyE = none → (s.slot p).st = .up →
        (pointOf (s.rqBytes m 0x08 64) = none → ends (.keyAgree m) mBadArg []) ∧
        ((pointOf (s.rqBytes m 0x08 64)).isSome = true → ∃ t a sig, exec (.keyAgree m) s = .next t ∧
          agree p c (s.rqBytes m 0x08 64) (s.rqBytes m 0x48 32) ((s.random 96).take 32) (slice (s.random 96) 32 32) = some a ∧
          s.Answered t m mOk (a.qd ++ a.nd ++ sig) ∧
          becomes t { s.port p with
            keyE := some a.egress, keyI := some a.ingress, keyINext := some (nextKey a.ingress 1 p 1), genE := 0, genI := 0
            xferKey := some a.xfer, pushCtr := 0, pullCtr := 0, confFrom := some ((s.port p).txFrame + 8) }))) ∧
    (s.Runs m 0x00A1 (s.rq m 0 1 == 1) → ¬ barred →
      let w := (s.rq m 0x08 8, s.rq m 0x10 8)
      let ws := (s.port p).bounce
      let good := w.1 % 65536 = 0 ∧ w.2 % 65536 = 0 ∧ w.2 ≠ 0 ∧ ∀ v ∈ ws, w.1 + w.2 ≤ v.1 ∨ v.1 + v.2 ≤ w.1
      (¬ good → ends (.bounceAdd m) mBadArg []) ∧ (good → 8 ≤ ws.length → ends (.bounceAdd m) mNoResource []) ∧
      (good → ws.length < 8 → (s.port p).keyE = none → ends (.bounceAdd m) mState []) ∧
      (good → ws.length < 8 → (s.port p).keyE.isSome = true → ∃ t, exec (.bounceAdd m) s = .next t ∧ s.Answered t m mOk [] ∧
        becomes t { s.port p with bounce := ws ++ [w] })) ∧
    (s.Runs m 0x00A1 (s.rq m 0 1 == 2) → ¬ barred →
      ((∀ v ∈ (s.port p).bounce, v.1 ≠ s.rq m 0x08 8) → ends (.bounceRemove m) mBadArg []) ∧
      ∀ w, (s.port p).bounce.find? (fun v => v.1 == s.rq m 0x08 8) = some w →
        (s.windowUsed p w = true → ends (.bounceRemove m) mState []) ∧
        (s.windowUsed p w = false → ∃ t, exec (.bounceRemove m) s = .next t ∧ s.Answered t m mOk [] ∧
          becomes t { s.port p with bounce := (s.port p).bounce.filter fun v => v.1 != s.rq m 0x08 8 })) ∧
    (s.Runs m 0x00A1 (decide (3 ≤ s.rq m 0 1)) → ¬ barred → s.rq m 0 1 = 3 →
      ends (.bounceList m) mOk (toLe 1 (s.port p).bounce.length ++ zeros 7 ++
        (s.port p).bounce.flatMap fun w => toLe 8 w.1 ++ toLe 8 w.2))

/-- RAS_QUERY, when it runs.  SUMMARY of the whole device completes OK with a body of 80 bytes: the near and far correction
counts, the uncorrectable counts, the damaged blocks with the unlisted ones, the divergent blocks, the failed channels, the
rebuilding groups, the beat and the units of the far pass, the Loom's corrections and the recomputed parity bursts.  SUMMARY of a
context completes OK with the counts of the extents that the context was granted, and through OPERATOR the fields from offset
0x28 on are 0.  LIST completes OK with the number of matching entries and up to 125 of them from START on; a scope that may not be
named completes with its status, a SCOPE above LIST with BAD_ARG.  Nothing else changes.
CE_TABLE_READ, when it runs, of the near (0) or the far (1) table completes OK with the number of entries, the overflow count
and 32 entries, zero from the number on; with CLEAR the table and its overflow are empty after it, the other table stays, and
without CLEAR both stay.  A TIER above 1 completes BAD_ARG.  SCRUB_CONFIG with READ completes OK with the settings in force and
changes nothing.  A pass length outside 1 to 168 or a PD_EN above 1 completes BAD_ARG.  Else the settings are stored and the command
waits for the next boundary, where the pass lengths, IDLE_PICKS and PD_EN are in force, PD_EN = 0 wakes every rank of a working
channel, and the command is ready OK. -/
def Obligations.RasCommands : Prop :=
  (∀ (s : State) (m : Mbx),
    let ends := fun (c : Instr) (st : Nat) (b : List Byte) => ∃ t, exec c s = .next t ∧ s.Answered t m st b ∧ s.SameBut t m
    let total := fun (t : Table Nat) => t.foldl (fun a kv => a + kv.2) 0
    let sum := fun (l : Table Extent) (f : Extent → Nat) => l.foldl (fun a kv => a + f kv.2) 0
    let want := s.rq m 2 2
    (s.Runs m 0x00B0 (s.rq m 0 1 == 0) →
      (m ≠ .operator → s.rq m 1 1 = 0xFF → ∃ body : List Byte, ends (.rasQuerySummary m) mOk body ∧ body.length = 80 ∧
        slice body 0x00 8 = toLe 8 (total s.ras.ceNear) ∧ slice body 0x08 8 = toLe 8 (total s.ras.ceFar) ∧
        slice body 0x10 8 = toLe 8 s.ras.nearUe.toNat ∧ slice body 0x18 8 = toLe 8 s.ras.farUe.toNat ∧
        slice body 0x20 4 = toLe 4 ((s.ras.damaged.filter fun d => (s.ext? d.ext).isSome && !d.diverge).length +
          sum (s.exts.filter fun kv => (s.ext? kv.1).isSome) (·.unlisted.length)) ∧
        slice body 0x24 4 = toLe 4 (s.ras.damaged.filter fun d => (s.ext? d.ext).isSome && d.diverge).length ∧
        slice body 0x28 4 = toLe 4 s.nor.failedCh.toNat ∧ slice body 0x2C 1 = toLe 1 s.rebuilding_ ∧
        slice body 0x30 8 = toLe 8 s.ras.passBeat.toNat ∧ slice body 0x38 8 = toLe 8 s.ras.passDone.toNat ∧
        slice body 0x40 8 = toLe 8 s.ras.sramCe.toNat ∧ slice body 0x48 8 = toLe 8 s.ras.parityFixed.toNat) ∧
      (∀ c, (m = .operator ∨ s.rq m 1 1 ≠ 0xFF) → s.commandCtx m (s.rq m 1 1) = .inl c →
        let mine := s.exts.filter fun kv => match s.ext? kv.1 with
          | some x => x.st == .granted && x.owner == c
          | none => false
        ∃ body : List Byte, ends (.rasQuerySummary m) mOk body ∧ body.length = 80 ∧
          slice body 0x00 8 = toLe 8 (sum mine (·.ceNear)) ∧ slice body 0x08 8 = toLe 8 (sum mine (·.ceFar)) ∧
          slice body 0x10 8 = toLe 8 (sum mine (·.ueNear)) ∧ slice body 0x18 8 = toLe 8 (sum mine (·.ueFar)) ∧
          (m = .operator → slice body 0x28 40 = zeros 40)) ∧
      (∀ st, s.rasScope m = .inr st → ends (.rasQuerySummary m) st [])) ∧
    (s.Runs m 0x00B0 (s.rq m 0 1 != 0) →
      (s.rq m 0 1 ≠ 1 → ends (.rasQueryList m) mBadArg []) ∧
      (s.rq m 0 1 = 1 → (∀ st, s.rasScope m = .inr st → ends (.rasQueryList m) st []) ∧
        ∀ sc, s.rasScope m = .inl sc →
          let all := s.ras.damaged.filter fun d => s.inScope sc d.ext && (want == 0xFFFF || d.ext == want)
          let page := (all.drop (s.rq m 4 4)).take 125
          ends (.rasQueryList m) mOk (toLe 4 all.length ++ toLe 2 page.length ++ zeros 2 ++ page.flatMap fun d =>
            toLe 8 (((s.ext? d.ext).map (·.blockAddr d.block)).getD 0) ++ toLe 2 d.ext ++ toLe 1 (if d.diverge then 1 else 0) ++
              toLe 1 (if d.far then 1 else 0) ++ zeros 4)))) ∧
  ((∀ (s : State) (m : Mbx), s.Runs m 0x00B1 true →
    let t0 := s.rq m 0 1
    let tab := if t0 = 0 then s.ras.tabNear else s.ras.tabFar
    let ovf := if t0 = 0 then s.ras.ovfNear else s.ras.ovfFar
    (1 < t0 → ∃ t, exec (.ceTableRead m) s = .next t ∧ s.Answered t m mBadArg [] ∧ s.SameBut t m) ∧
    (t0 ≤ 1 → ∃ (t : State) (body : List Byte), exec (.ceTableRead m) s = .next t ∧ s.Answered t m mOk body ∧ body.length = 520 ∧
      slice body 0 1 = toLe 1 tab.length ∧ slice body 4 4 = toLe 4 ovf ∧
      (∀ i e, i < 32 → tab[i]? = some e → slice body (8 + 16 * i) 16 = toLe 8 e.loc.toNat ++ toLe 4 e.hits ++ zeros 4) ∧
      (∀ i, i < 32 → tab.length ≤ i → slice body (8 + 16 * i) 16 = zeros 16) ∧
      t.ras = (if s.flag m 0 = false then s.ras else if t0 = 0 then { s.ras with tabNear := [], ovfNear := 0 }
        else { s.ras with tabFar := [], ovfFar := 0 }) ∧
      s.SameBut { t with ras := s.ras } m)) ∧
  (∀ (s : State) (m : Mbx), s.Runs m 0x00B3 true →
    let far := s.rq m 0 2
    let near := s.rq m 2 2
    let body := fun (u : State) => toLe 2 u.nor.farHours ++ toLe 2 u.nor.nearHours ++ toLe 2 u.nor.idlePicks ++
      toLe 1 (if u.nor.pdEn then 1 else 0) ++ zeros 1
    let fine := (1 ≤ far ∧ far ≤ 168) ∧ (1 ≤ near ∧ near ≤ 168) ∧ s.rq m 6 1 ≤ 1
    (s.flag m 0 = true → ∃ t, exec (.scrubConfig m) s = .next t ∧ s.Answered t m mOk (body s) ∧ s.SameBut t m) ∧
    (s.flag m 0 = false → ¬ fine → ∃ t, exec (.scrubConfig m) s = .next t ∧ s.Answered t m mBadArg [] ∧ s.SameBut t m) ∧
    (s.flag m 0 = false → fine → ∃ t, exec (.scrubConfig m) s = .next t ∧ s.Waits t m .scrubCfg ∧
      t.nor = { s.nor with farHours := far, nearHours := near, idlePicks := s.rq m 4 2, pdEn := s.rq m 6 1 == 1 } ∧
      t.umpire.deferred = s.umpire.deferred ++ [.scrubOn m] ∧
      s.SameBut ({ t with nor := s.nor }.putDeferred s.umpire.deferred) m)) ∧
  (∀ (s : State) (m : Mbx) (w : Wait), s.power.safe = false → s.HasMbx m → (s.mbox m).wait = some w → w.ready = false →
    let t := s.runDeferred (.scrubOn m)
    t.ras.farHours = s.nor.farHours ∧ t.ras.nearHours = s.nor.nearHours ∧ t.far.idlePicks = s.nor.idlePicks ∧
      t.far.pdEn = s.nor.pdEn ∧ (s.nor.pdEn = true → t.far.down = s.far.down) ∧
      (s.nor.pdEn = false → ∀ r ∈ t.far.down, s.chFailed (r / 4) = true) ∧
      (∃ b, (t.mbox m).wait = some { w with ready := true, status := mOk, body := b }) ∧ s.SameTiers t ∧ t.exts = s.exts))

/-- DIVERGENCE_RESOLVE with ACTION COPY_LOW (0), COPY_HIGH (1) or REWRITE (2), when it runs, on an extent that exists.  An extent that
is not MIRROR, or an address that is not the start of one of its blocks: BAD_ARG.  A block that is not divergent, or an extent
that is not granted: STATE.  Another command that resolves the block: BUSY.  Else the command waits, and its effect is put off
to a boundary.  There, a block that is divergent no more makes it ready with STATE; REWRITE marks the block so that a full write ends
the divergence, and makes it ready OK; a copy is queued, from the low or the high copy, and no stored byte has changed yet.
The end of a copy, put off to the boundary at which its write has committed, makes the command ready OK there and not before.  An
ACTION of no form completes BAD_ARG. -/
def Obligations.DivergenceResolve : Prop :=  (∀ (s : State) (m : Mbx) (c : Instr) (action : Nat) (form : Bool) (x : Extent),
    ((c = .copyLow m ∧ action = 0) ∨ (c = .copyHigh m ∧ action = 1) ∨ (c = .rewrite m ∧ action = 2)) →
    s.mailboxRow c = some (m, 0x00B2, form) → s.Runs m 0x00B2 form → s.rq m 0x0A 1 = action → s.ext? (s.rq m 8 2) = some x →
    let a := s.rq m 0 8
    let e := s.rq m 8 2
    let b := (a - x.base) / 256
    let good := x.base ≤ a ∧ b < x.blockCount ∧ a % 256 = 0 ∧ x.prot = .mirror
    let ends := fun (st : Nat) => ∃ t, exec c s = .next t ∧ s.Answered t m st [] ∧ s.SameBut t m
    (¬ good → ends mBadArg) ∧ (good → (x.st ≠ .granted ∨ s.divergent e b = false) → ends mState) ∧
    (good → x.st = .granted → s.divergent e b = true →
      (s.isWaiting (· == .resolve e b) = true → ends mBusy) ∧
      (s.isWaiting (· == .resolve e b) = false → ∃ t, exec c s = .next t ∧ s.Waits t m (.resolve e b) ∧
        t.umpire.deferred = s.umpire.deferred ++ [.resolveOn e b action 0 m] ∧ s.SameBut (t.putDeferred s.umpire.deferred) m))) ∧
  (∀ (s : State) (m : Mbx), s.Runs m 0x00B2 (decide (2 ≤ s.rq m 0x0A 1)) → 2 < s.rq m 0x0A 1 →
    ∃ t, exec (.rewrite m) s = .next t ∧ s.Answered t m mBadArg [] ∧ s.SameBut t m) ∧
  (∀ (s : State) (m : Mbx) (e b action : Nat) (w : Wait), s.power.safe = false → s.HasMbx m → (s.mbox m).wait = some w →
    w.ready = false → action ≤ 2 →
    let t := s.runDeferred (.resolveOn e b action 0 m)
    s.SameTiers t ∧ t.exts = s.exts ∧
    (s.divergent e b = false → (t.mbox m).wait = some { w with ready := true, status := mState, body := [] } ∧ t.ras = s.ras) ∧
    (s.divergent e b = true →
      (action = 2 → (t.mbox m).wait = some { w with ready := true, status := mOk, body := [] } ∧ t.rewritable e b = true) ∧
      (action < 2 → t.ras = { s.ras with work := s.ras.work ++ [.copy e b (action == 0) none none m] } ∧ t.mbox m = s.mbox m))) ∧
  (∀ (s : State) (m : Mbx) (e b due : Nat) (w : Wait), s.power.safe = false → s.HasMbx m → (s.mbox m).wait = some w →
    w.ready = false →
    let t := s.runDeferred (.resolveOn e b 3 due m)
    (s.time.pick < due → t = s.putDeferred (s.umpire.deferred ++ [.resolveOn e b 3 due m])) ∧
      (due ≤ s.time.pick → (t.mbox m).wait = some { w with ready := true, status := mOk, body := [] } ∧ t.ras = s.ras))

/-- FW_STAGE, when it runs, of a chunk of CHUNK_LENGTH bytes in the bulk window, while no other mailbox owns a stage.  A length
outside 256 to 524,288, or not a multiple of 256 but in the last chunk: BAD_ARG.  Another digest: SIG_FAIL.  A start that is neither 0
nor where the previous chunk ended, or an end above 256 + 16,777,216: BAD_ARG.  Else the bytes stand in the bank that does not
run, offset 0 beginning anew, and a chunk that is not the last completes OK with the bytes staged; with the last one the stage
ends, and the first condition that the image fails gives BAD_ARG, SIG_FAIL, DENIED or BAD_ARG; with none UPDATE_STAGED is set.
A stage of another mailbox: BUSY.  DISCARD ends the stage and clears UPDATE_STAGED.  FW_ACTIVATE without UPDATE_STAGED, or with contexts
and without FORCE: STATE; else the newer boot control record names the bank as the trial bank, armed, with the next sequence
number, the command completes OK with it, and a restart is due outside SAFE.  An image of the conditions of R380, and none else, is valid: the bytes staged are then exactly the image. -/
def Obligations.FirmwareStaging : Prop :=  (∀ (s : State) (m : Mbx), s.Runs m 0x00C0 (!s.flag m 1) →
    let off := s.rq m 0 4
    let len := s.rq m 4 4
    let chunk := (s.mbox m).bulk.readN 0 len
    let b := !s.runningB
    let ends := fun (st : Nat) => ∃ t, exec (.fwStage m) s = .next t ∧ s.Answered t m st [] ∧ s.SameBut t m
    let fits := 256 ≤ len ∧ len ≤ 524288 ∧ (len % 256 = 0 ∨ s.flag m 0 = true)
    let next := match s.umpire.stage with
      | some (_, n) => n
      | none => 0
    let inOrder := (off = 0 ∨ off = next) ∧ off + len ≤ 256 + 16777216
    let nor := s.nor.setBank b (Mem.writeN (if off = 0 then [] else s.nor.bank b) off chunk) (off + len)
    let verdict := { s with nor := nor }.badImage b
    let lands := fun (t : State) => t.nor.bank b = nor.bank b ∧ t.nor.bankSize b = off + len ∧
      t.nor.bank (!b) = s.nor.bank (!b) ∧
      s.SameBut { t with nor := { t.nor with bankA := s.nor.bankA, bankB := s.nor.bankB, sizeA := s.nor.sizeA, sizeB := s.nor.sizeB } } m
    (∀ o n, s.umpire.stage = some (o, n) → o ≠ m → ends mBusy) ∧
    ((∀ o n, s.umpire.stage = some (o, n) → o = m) →
      (¬ fits → ends mBadArg) ∧
      (fits → sha256 chunk ≠ s.rqBytes m 8 32 → ends mSigFail) ∧
      (fits → sha256 chunk = s.rqBytes m 8 32 → ¬ inOrder → ends mBadArg) ∧
      (fits → sha256 chunk = s.rqBytes m 8 32 → inOrder →
        (s.flag m 0 = false → ∃ t, exec (.fwStage m) s = .next t ∧ s.Answered t m mOk (toLe 4 (off + len) ++ zeros 4) ∧ lands t ∧
          t.umpire.stage = some (m, off + len) ∧ (off = 0 → t.umpire.updateStaged = false)) ∧
        (s.flag m 0 = true → ∃ t, exec (.fwStage m) s = .next t ∧ lands t ∧ t.umpire.stage = none ∧
          (verdict = none → s.Answered t m mOk (toLe 4 (off + len) ++ zeros 4) ∧ t.umpire.updateStaged = true) ∧
          (verdict = some .format ∨ verdict = some .stepping → s.Answered t m mBadArg []) ∧
          (verdict = some .signature → s.Answered t m mSigFail []) ∧ (verdict = some .rollback → s.Answered t m mDenied []))))) ∧
  (∀ (s : State) (m : Mbx), s.Runs m 0x00C0 (s.flag m 1) → s.rq m 4 4 = 0 →
    ((∃ n, s.umpire.stage = some (m, n)) ∨ s.umpire.stage = none) →
    ∃ t, exec (.fwStageDiscard m) s = .next t ∧ s.Answered t m mOk (zeros 8) ∧ t.umpire.stage = none ∧
      t.umpire.updateStaged = false ∧ s.SameBut t m) ∧
  (∀ (s : State) (m : Mbx), s.Runs m 0x00C1 true →
    (s.umpire.updateStaged = false ∨ (s.ctxs ≠ [] ∧ s.flag m 0 = false) →
      ∃ t, exec (.fwActivate m) s = .next t ∧ s.Answered t m mState [] ∧ s.SameBut t m) ∧
    (s.umpire.updateStaged = true → (s.ctxs = [] ∨ s.flag m 0 = true) →
      ∃ t, exec (.fwActivate m) s = .next t ∧ s.Answered t m mOk (toLe 1 (if s.runningB then 0 else 1) ++ zeros 7) ∧
        t.nor.trialB = !s.runningB ∧ t.nor.tState = .armed ∧ t.nor.activeB = s.nor.activeB ∧
        t.nor.bootRec.seq = s.nor.bootRec.seq + 1 ∧ t.umpire.restartDue = !s.power.safe ∧
        s.SameBut { t with nor := { t.nor with bootA := s.nor.bootA, bootB := s.nor.bootB } } m)) ∧
  (∀ (s : State) (b : Bool),
    let h := s.manifest b
    s.bankValid b = true ↔ le (slice h 0 4) = 0x574D4B50 ∧ le (slice h 4 2) = 1 ∧ le (slice h 8 4) ≤ 16777216 ∧
      s.nor.bankSize b = 256 + le (slice h 8 4) ∧ sha256 (slice h 0x30 64) = s.fuses.shadow.readN 0x10 32 ∧
      ecdsaVerify (slice h 0x30 64) (sha256 (slice h 0 0xC0)) (slice h 0xC0 64) = true ∧
      slice h 0x10 32 = sha256 ((s.nor.bank b).readN 256 (le (slice h 8 4))) ∧ s.fuses.svnF ≤ le (slice h 6 1) ∧
      le (slice h 7 1) = s.fuses.field 7 1)

/-- FUSE_PROGRAM, when it runs.  During a brace, in SAFE or with the input out of its range every function completes STATE and blows
nothing.  INSTALLER, of an image whose reserved bytes and bits count as 0: STATE when LOCK is set or a blown fuse is 0 in the image; BAD_ARG when the CRC, the key hash or LOCK do not
match; else the key record is the key, the fuses of the image that are missing are to be blown in ascending order, and the command
waits.  RESTORE_KEY: STATE before commissioning, BAD_ARG on another key, else the key record is the key and it completes OK.
ROLLBACK: BAD_ARG for a version that is not above SVN_F or above the running firmware's, STATE during a trial, else the pairs from
SVN_F up to the version are to be blown.  DEBUG_DISABLE: OK when already disabled, else the four fuses of R360 are to be blown.  When
programming runs to its end, the fuses blown are those before and the ones to blow up to the first that fails three attempts;
the shadow follows the array, and the command is ready OK, or STATE where one failed. -/
def Obligations.FuseProgramming : Prop :=  (∀ (s : State) (m : Mbx),
    let body := toLe 1 s.fuses.svnF ++ zeros 1 ++ toLe 2 0 ++ zeros 4
    let ends := fun (c : Instr) (st : Nat) => ∃ t, exec c s = .next t ∧ s.Answered t m st body ∧ s.SameBut t m
    let blocked := s.power.braced = true ∨ s.power.safe = true ∨ s.power.inputAlert = true
    let starts := fun (c : Instr) (todo : List Nat) (key : List Byte) => ∃ t, exec c s = .next t ∧ s.Waits t m .fuse ∧
      t.umpire.fuseJob = some { mbx := m, todo := todo, blown := 0 } ∧ t.nor.installerKey = key ∧
      s.SameBut { t with nor := { t.nor with installerKey := s.nor.installerKey } } m
    (s.Runs m 0x00D0 (s.rq m 0 1 == 0) →
      let sent := s.rqBytes m 0x08 128
      let image := sent.take 0x41 ++ zeros 0x37 ++ slice sent 0x78 4 ++ [sent.getD 0x7C 0 &&& 0x0F#8] ++ zeros 3
      let key := s.rqBytes m 0x88 64
      let missing := (List.range 1000).filter fun i => bit (image.getD (i / 8) 0).toNat (i % 8) && !s.fuses.blown (0x400 + i)
      let sound := le (slice image 0x78 4) = crc32 (image.take 120) ∧ image.take 32 = sha256 key ∧ image.getD 0x7C 0 = 0x0F#8
      let refused := blocked ∨ s.fuses.locked = true ∨ ∃ i, i < 1024 ∧ s.fuses.blown (0x400 + i) = true ∧
        bit (image.getD (i / 8) 0).toNat (i % 8) = false
      (refused → ends (.fuseProgramInstaller m) mState) ∧ (¬ refused → ¬ sound → ends (.fuseProgramInstaller m) mBadArg) ∧
      (¬ refused → sound → starts (.fuseProgramInstaller m) (missing.map (0x400 + ·)) key)) ∧
    (s.Runs m 0x00D0 (s.rq m 0 1 == 1) →
      let key := s.rqBytes m 0x08 64
      let refused := blocked ∨ s.commissioned = false
      (refused → ends (.restoreKey m) mState) ∧
      (¬ refused → sha256 key ≠ s.fuses.shadow.readN 0x80 32 → ends (.restoreKey m) mBadArg) ∧
      (¬ refused → sha256 key = s.fuses.shadow.readN 0x80 32 → ∃ t, exec (.restoreKey m) s = .next t ∧ s.Answered t m mOk body ∧
        t.nor.installerKey = key ∧ t.umpire.keyBad = false ∧
        s.SameBut { t with nor := { t.nor with installerKey := s.nor.installerKey } } m)) ∧
    (s.Runs m 0x00D0 (s.rq m 0 1 == 2) →
      let v := s.rq m 1 1
      (blocked → ends (.fuseProgramRollback m) mState) ∧
      (¬ blocked → (v ≤ s.fuses.svnF ∨ s.umpire.svn < v) → ends (.fuseProgramRollback m) mBadArg) ∧
      (¬ blocked → s.fuses.svnF < v → v ≤ s.umpire.svn →
        (s.umpire.trialRunning = true → ends (.fuseProgramRollback m) mState) ∧
        (s.umpire.trialRunning = false → starts (.fuseProgramRollback m)
          (((List.range (2 * (v - s.fuses.svnF))).map (0x800 + 2 * s.fuses.svnF + ·)).filter fun i => !s.fuses.blown i)
          s.nor.installerKey))) ∧
    (s.Runs m 0x00D0 (decide (3 ≤ s.rq m 0 1)) →
      (3 < s.rq m 0 1 → ends (.fuseProgramDebugDisable m) mBadArg) ∧
      (s.rq m 0 1 = 3 → blocked → ends (.fuseProgramDebugDisable m) mState) ∧
      (s.rq m 0 1 = 3 → ¬ blocked → s.fuses.debugDisabled = true → ends (.fuseProgramDebugDisable m) mOk) ∧
      (s.rq m 0 1 = 3 → ¬ blocked → s.fuses.debugDisabled = false → starts (.fuseProgramDebugDisable m)
        ([0x880, 0x881, 0x882, 0x883].filter fun i => !s.fuses.blown i) s.nor.installerKey))) ∧
  (∀ (s : State) (j : FuseJob) (w : Wait), s.umpire.fuseJob = some j → s.HasMbx j.mbx → (s.mbox j.mbx).wait = some w →
    w.ready = false → Mem.wf s.fuses.array = true → Mem.wf s.fuses.shadow = true →
    let t := s.fuseRun
    let n := (j.todo.takeWhile fun i => !Config.fuseStuck s.freeCount i).length
    (∀ i, t.fuses.blown i = true ↔ s.fuses.blown i = true ∨ i ∈ j.todo.take n) ∧
      (s.fuses.shadow = s.fuses.array → t.fuses.shadow = t.fuses.array) ∧ t.umpire.fuseJob = none ∧
      (t.mbox j.mbx).wait = some { w with ready := true, status := if n = j.todo.length then mOk else mState
                                          body := toLe 1 t.fuses.svnF ++ zeros 1 ++ toLe 2 (j.blown + n) ++ zeros 4 })

/-- AUDIT_READ, when it runs: a COUNT outside 1 to 7 completes BAD_ARG; else it completes OK with the number of records, the SEQ of
the oldest and the newest retained record, and up to COUNT records in ascending order from FIRST_SEQ on; the log has grown only by
the record of the command itself.  MAKER_UNLOCK, when it runs: with debug disabled by fuses DENIED; while any context exists or any
extent is granted or clears STATE; else it completes OK, debug is unlocked, the identity keys, the session and transfer keys of
every port and the keys of BOUND extents are zero, and contexts, stored bytes and fuses stay.  Debug is disabled when any of the
four fuses of R360 is blown. -/
def Obligations.AuditAndUnlock : Prop :=  (∀ (s : State) (m : Mbx), s.Runs m 0x00D1 true →
    let n := s.rq m 8 1
    let rs := (s.nor.audit.filter fun r => s.rq m 0 8 ≤ le (slice r 0 8)).take n
    (n = 0 ∨ 7 < n → ∃ t, exec (.auditRead m) s = .next t ∧ s.Answered t m mBadArg [] ∧ s.SameBut t m) ∧
    (1 ≤ n → n ≤ 7 → ∃ (t : State) (range : List Byte), exec (.auditRead m) s = .next t ∧
      s.Answered t m mOk (toLe 1 rs.length ++ zeros 7 ++ range ++ rs.flatMap id) ∧ range.length = 16 ∧
      (∀ a b, s.nor.audit.head? = some a → s.nor.audit.getLast? = some b → range = toLe 8 (le (slice a 0 8)) ++ toLe 8 (le (slice b 0 8))) ∧
      s.SameBut t m)) ∧
  (∀ (s : State) (m : Mbx), s.Runs m 0x0100 true →
    let ends := fun (st : Nat) => ∃ t, exec (.makerUnlock m) s = .next t ∧ s.Answered t m st [] ∧ s.SameBut t m
    let busy := s.ctxs ≠ [] ∨ ∃ kv ∈ s.exts, kv.2.st ≠ .ungranted
    (s.fuses.debugDisabled = true → ends mDenied) ∧ (s.fuses.debugDisabled = false → busy → ends mState) ∧
    (s.fuses.debugDisabled = false → ¬ busy → ∃ t, exec (.makerUnlock m) s = .next t ∧ s.Answered t m mOk [] ∧
      t.umpire.debugUnlocked = true ∧ t.umpire.idKey = 0 ∧ t.umpire.kaKey = 0 ∧
      (∀ p, p < s.ports.length → (t.port p).keyE = none ∧ (t.port p).keyI = none ∧ (t.port p).keyINext = none ∧
        (t.port p).xferKey = none) ∧
      (∀ kv ∈ t.exts, kv.2.boundKey = none) ∧ s.SameTiers t ∧ t.ctxs = s.ctxs ∧ s.SameUnits t)) ∧
  (∀ f : Fuses, f.debugDisabled = true ↔ f.shadow.read 0x110 &&& 0x0F#8 ≠ 0#8)

/-- The rows of PORT_SLOT_CTL, when they run.  A slot above 5 completes BAD_ARG, an absent one NOT_PRESENT whatever the ACTION; for one
that is present, an ACTION of no form BAD_ARG.
POWER_ON from OFF, or from FAULT with PWR_FAULT clear: cage power on, POWERING, OK; else STATE.  POWER_OFF from UP or HOLD: the drain
starts and the command waits; from POWERING or TRAINING: cage power off, OFF, OK; from DORMANT: also the PORT reset; else STATE.  CANCEL
from HOLD: UP; else STATE.  PORT_RESET from UP or DORMANT: TRAINING with cage power as before, and the port has no keys, frames or
expander reads left; else STATE.  SET_ATTN: the indicator; 3 and above BAD_ARG.  SET_POLICY waits for the boundary, where policy and
store hold it and the command is ready.  An OK carries the slot's state.  Other slots stay. -/
def Obligations.SlotControl : Prop :=  (∀ (s : State) (m : Mbx) (c : Instr) (form : Bool),
    c ∈ [Instr.slotPowerOn m, .slotPowerOff m, .slotCancel m, .slotPortReset m, .setAttn m, .setPolicy m] →
    s.mailboxRow c = some (m, 0x00E0, form) → s.Runs m 0x00E0 form →
    (5 < s.rq m 0 1 → ∃ t, exec c s = .next t ∧ s.Answered t m mBadArg [] ∧ s.SameBut t m) ∧
    (s.rq m 0 1 ≤ 5 → s.hasPort (s.rq m 0 1) = false →
      ∃ t, exec c s = .next t ∧ s.Answered t m mNotPresent [] ∧ s.SameBut t m)) ∧
  (∀ (s : State) (m : Mbx), s.Runs m 0x00E0 (decide (5 ≤ s.rq m 1 1)) → s.hasPort (s.rq m 0 1) = true → 5 < s.rq m 1 1 →
    ∃ t, exec (.setPolicy m) s = .next t ∧ s.Answered t m mBadArg [] ∧ s.SameBut t m) ∧
  (∀ (s : State) (m : Mbx), s.Shape → isManaged m = true → s.hasPort (s.rq m 0 1) = true →
    let p := s.rq m 0 1
    let d := s.slot p
    let refused := fun (c : Instr) (st : Nat) => ∃ t, exec c s = .next t ∧ s.Answered t m st [] ∧ s.SameBut t m
    let slotIs := fun (t : State) (d' : Slot) => t.slot p = d' ∧ ∀ k, k ≠ p → t.slot k = s.slot k
    let ok := fun (c : Instr) (d' : Slot) => ∃ t, exec c s = .next t ∧ s.Answered t m mOk (toLe 1 d'.st.code ++ zeros 7) ∧
      slotIs t d' ∧ s.SameBut (t.setSlots s.slots) m
    let isReset := fun (q : Port) => q.width = 0 ∧ q.keyE = none ∧ q.keyI = none ∧ q.xferKey = none ∧ q.conf = false ∧
      q.arrivals = [] ∧ q.cpls = [] ∧ q.grants = [] ∧ q.rdTags = [] ∧ q.bounce = []
    (s.Runs m 0x00E0 (s.rq m 1 1 == 0) →
      let may := d.st = .off ∨ (d.st = .fault ∧ d.sts.getLsbD 1 = false)
      (may → ok (.slotPowerOn m) { d with pwrOn := true, st := .powering, awaits := false }) ∧
      (¬ may → refused (.slotPowerOn m) mState)) ∧
    (s.Runs m 0x00E0 (s.rq m 1 1 == 1) →
      (d.st = .up ∨ d.st = .hold → ∃ t, exec (.slotPowerOff m) s = .next t ∧ s.Waits t m (.slot p) ∧
        slotIs t { d with st := .draining, drain := some .off, drainPick := none } ∧ s.SameBut (t.setSlots s.slots) m) ∧
      (d.st = .powering ∨ d.st = .training → ok (.slotPowerOff m) { d with pwrOn := false, pwrGood := false, st := .off }) ∧
      (d.st = .dormant → ∃ t, exec (.slotPowerOff m) s = .next t ∧ s.Answered t m mOk (toLe 1 SlotSt.off.code ++ zeros 7) ∧
        (t.slot p).st = .off ∧ (t.slot p).pwrOn = false ∧ isReset (t.port p)) ∧
      (d.st ∈ [SlotSt.empty, .off, .draining, .fault] → refused (.slotPowerOff m) mState)) ∧
    (s.Runs m 0x00E0 (s.rq m 1 1 == 2) → (d.st = .hold → ok (.slotCancel m) { d with st := .up }) ∧
      (d.st ≠ .hold → refused (.slotCancel m) mState)) ∧
    (s.Runs m 0x00E0 (s.rq m 1 1 == 3) →
      (d.st = .up ∨ d.st = .dormant → ∃ t, exec (.slotPortReset m) s = .next t ∧
        s.Answered t m mOk (toLe 1 SlotSt.training.code ++ zeros 7) ∧ (t.slot p).st = .training ∧ (t.slot p).pwrOn = d.pwrOn ∧
        isReset (t.port p) ∧ ((∃ kv ∈ s.leases, kv.2.holder = p ∧ kv.2.torn = false ∧ kv.2.dropping = false) →
          (s.port p).arrivals = [] → (t.port p).lossDue = true)) ∧
      (d.st ≠ .up → d.st ≠ .dormant → refused (.slotPortReset m) mState)) ∧
    (s.Runs m 0x00E0 (s.rq m 1 1 == 4) →
      (2 < s.rq m 2 1 → refused (.setAttn m) mBadArg) ∧
      (s.rq m 2 1 ≤ 2 → ok (.setAttn m) { d with attn := BitVec.ofNat 2 (s.rq m 2 1) })) ∧
    (s.Runs m 0x00E0 (decide (5 ≤ s.rq m 1 1)) → s.rq m 1 1 = 5 → ∃ t, exec (.setPolicy m) s = .next t ∧ s.Waits t m (.slotPolicy p) ∧
      t.umpire.deferred =
        s.umpire.deferred ++ [.policyOn p (bit (s.rq m 3 1) 0) (bit (s.rq m 3 1) 1) (bit (s.rq m 3 1) 2) m] ∧
      s.SameBut (t.putDeferred s.umpire.deferred) m)) ∧
  (∀ (s : State) (p : Nat) (a b c : Bool) (m : Mbx) (w : Wait), s.power.safe = false → s.Shape → p < 6 → s.HasMbx m →
    (s.mbox m).wait = some w → w.ready = false → s.nor.slotPolicy.length = 6 →
    let t := s.runDeferred (.policyOn p a b c m)
    t.slot p = { s.slot p with autoPower := a, buttonEn := b, aptClear := c } ∧ (∀ k, k ≠ p → t.slot k = s.slot k) ∧
      t.nor.slotPolicy[p]? = some (a, b, c) ∧ (∀ k, k ≠ p → t.nor.slotPolicy[k]? = s.nor.slotPolicy[k]?) ∧
      (t.mbox m).wait = some { w with ready := true, status := mOk, body := toLe 1 (s.slot p).st.code ++ zeros 7 })

/-- For a slot that exists.  PRESENCE_GAINED shows presence and sets PRES_CHG; outside SAFE an EMPTY slot becomes OFF and waits while the
store has not loaded, with AUTO_POWER it is powered and POWERING, else OFF.  BUTTON_PRESS sets BTN_PRESSED; outside SAFE with BUTTON_EN: OFF
to POWERING with cage power on, POWERING or TRAINING to OFF with cage power off, UP to HOLD, HOLD to UP, the other states stay.
TRAINING_START takes POWERING to TRAINING with PWR_GOOD.  LINK_TRAINED takes TRAINING to UP, sets LINK_CHG, and the port carries frames at
its width; TRAINING_RETRY leaves the slot in TRAINING.  HOLD_TIMEOUT takes HOLD to DRAINING.  PORT_DORMANT_WAKE takes a DORMANT slot whose
DORMANT bit and STANDBY are 0 to UP and sets LINK_CHG.  Every other slot and port, and everything but interrupts, stays. -/
def Obligations.SlotInputs : Prop :=  ∀ (s : State) (p : Nat), s.Shape → s.hasPort p = true →
    let d := s.slot p
    let pressed := { d with sts := d.sts ||| 0x04#5 }
    let becomes := fun (c : Instr) (d' : Slot) => ∃ t, exec c s = .next t ∧ t.slot p = d' ∧ (∀ k, k ≠ p → t.slot k = s.slot k) ∧
      { t with slots := s.slots, regs := { t.regs with msixPend := 0, msixOut := [] } } =
        { s with regs := { s.regs with msixPend := 0, msixOut := [] } }
    let framesOn := fun (c : Instr) (w : Nat) => ∃ t, exec c s = .next t ∧
      t.slot p = { d with st := .up, sts := d.sts ||| 0x10#5 } ∧ t.port p = { s.port p with width := w, closed := false } ∧
      (∀ k, k ≠ p → t.slot k = s.slot k ∧ t.port k = s.port k) ∧ s.SameTiers t ∧ t.umpire = s.umpire ∧ t.exts = s.exts
    (d.prsnt = false →
      let seen := { d with prsnt := true, sts := d.sts ||| 0x08#5 }
      (d.st ≠ .empty ∨ s.power.safe = true → becomes (.presenceGained p) seen) ∧
      (d.st = .empty → s.power.safe = false →
        (s.umpire.ready = false → becomes (.presenceGained p) { seen with st := .off, awaits := true }) ∧
        (s.umpire.ready = true → d.autoPower = true →
          becomes (.presenceGained p) { seen with st := .powering, pwrOn := true, awaits := false }) ∧
        (s.umpire.ready = true → d.autoPower = false → becomes (.presenceGained p) { seen with st := .off }))) ∧
    (d.prsnt = true → exec (.presenceGained p) s = .next s) ∧
    ((s.power.safe = true ∨ d.buttonEn = false ∨ d.st ∈ [SlotSt.empty, .draining, .fault, .dormant] →
        becomes (.buttonPress p) pressed) ∧
      (s.power.safe = false → d.buttonEn = true →
        (d.st = .off → becomes (.buttonPress p) { pressed with st := .powering, pwrOn := true, awaits := false }) ∧
        (d.st = .powering ∨ d.st = .training →
          becomes (.buttonPress p) { pressed with st := .off, pwrOn := false, pwrGood := false }) ∧
        (d.st = .up → becomes (.buttonPress p) { pressed with st := .hold }) ∧
        (d.st = .hold → becomes (.buttonPress p) { pressed with st := .up }))) ∧
    (s.power.safe = false →
      (d.st = .powering → becomes (.trainingStart p) { d with pwrGood := true, st := .training }) ∧
      (d.st = .hold → becomes (.holdTimeout p) { d with st := .draining, drain := some .off, drainPick := none }) ∧
      (∀ w, w = 8 ∨ w = 16 → s.umpire.ready = true →
        (d.st = .training → framesOn (.linkTrained p w) w) ∧
        (d.st = .dormant → maskHas s.power.dormant p = false → s.power.standbyBit = false → framesOn (.portDormantWake p w) w))) ∧
    (d.st = .training → becomes (.trainingRetry p) d) ∧
    (∀ w, d.st ≠ .training → exec (.linkTrained p w) s = .next s) ∧ (∀ w, w ≠ 8 → w ≠ 16 → exec (.linkTrained p w) s = .next s) ∧
    (d.st ≠ .powering → exec (.trainingStart p) s = .next s) ∧ (d.st ≠ .hold → exec (.holdTimeout p) s = .next s)

/-- PRESENCE_LOST in any state but EMPTY, POWER_FAULT with cage power on, and LINK_FAILURE of a link that is up outside SAFE: the port is
reset (no keys, no confidential mode, no frames, no expander reads, no completions), its requests are orphans or gone, so that no
completion leaves, and with no records to take it keeps its attachment and its telemetry; its leases are due to become TORN.  The slot
becomes EMPTY without presence and without cage power, FAULT with cage power off, PWR_FAULT set and the attention indicator on, or TRAINING, OFF
after a drain.  From FAULT, PRESENCE_LOST only empties the slot.  An emptied slot with APT_CLEAR loses both aperture sets, also from
the store; without it both stay.  In SAFE a link failure
resets the port likewise, while its slot and its link stay.  LEASE_TORN, when due, at a boundary and with no orphan write left, tears every lease of the port that is not being
dropped, and only those, and LEASE_TORN is set in RAS_EVENT.
PORT_DORMANT_ENTER of an UP port whose DORMANT bit is 1, or whose expander enters STANDBY, outside SAFE: its drain is due, DORMANT or STANDBY,
and nothing else changes.  DRAIN_START of a drain that is due outside SAFE: the next boundary is its boundary q, and nothing else changes.  At that
boundary the port closes, so that it grants no credit, and a descriptor that moves data over the port has failed.
DRAIN_END outside SAFE, of a drain that has started, with no request, completion, arrived record or expander read of the port left, or 48
picks after its start: a drain to power the slot off sets DRAIN_DONE and leaves the slot OFF without cage power and the port reset; a
drain to DORMANT leaves the slot DORMANT with its cage power, sets LINK_CHG, and the port keeps its keys, its FRAME count, its apertures and
its leases; before that nothing changes. -/
def Obligations.HostLossAndDrain : Prop :=
  ((∀ (s : State) (p : Nat), s.Shape → s.hasPort p = true →
    let d := s.slot p
    let lost := fun (t : State) =>
      (t.port p).width = 0 ∧ (t.port p).keyE = none ∧ (t.port p).keyI = none ∧ (t.port p).xferKey = none ∧
      (t.port p).conf = false ∧ (t.port p).arrivals = [] ∧ (t.port p).cpls = [] ∧ (t.port p).grants = [] ∧
      (t.port p).rdTags = [] ∧ (t.port p).bounce = [] ∧ (∀ kv ∈ t.reqs, kv.2.port = some p → kv.2.orphan = true) ∧
      ((s.port p).arrivals = [] → (t.port p).ctx = (s.port p).ctx ∧ (t.port p).telReqs = (s.port p).telReqs ∧
        ((∃ kv ∈ s.leases, kv.2.holder = p ∧ kv.2.torn = false ∧ kv.2.dropping = false) → (t.port p).lossDue = true) ∧
        s.SameTiers t ∧ t.leases = s.leases)
    let others := fun (t : State) => ∀ k, k ≠ p → t.slot k = s.slot k
    (d.prsnt = true → d.st ≠ .empty → d.st ≠ .fault → ∃ t, exec (.presenceLost p) s = .next t ∧ lost t ∧ others t ∧
      (t.slot p).st = .empty ∧ (t.slot p).prsnt = false ∧ (t.slot p).pwrOn = false ∧ (t.slot p).sts.getLsbD 3 = true ∧
      (d.aptClear = true → (t.port p).active = [] ∧ (t.port p).staged = [] ∧ Table.get? t.nor.apts p = none) ∧
      (d.aptClear = false → (s.port p).arrivals = [] → (t.port p).active = (s.port p).active ∧ t.nor.apts = s.nor.apts)) ∧
    (d.prsnt = true → d.st = .fault → ∃ t, exec (.presenceLost p) s = .next t ∧ others t ∧ (t.slot p).st = .empty ∧
      (t.slot p).prsnt = false ∧ (d.aptClear = false → t.ports = s.ports)) ∧
    (d.pwrOn = true → ∃ t, exec (.powerFault p) s = .next t ∧ lost t ∧ others t ∧ (t.slot p).st = .fault ∧ (t.slot p).pwrOn = false ∧
      (t.slot p).attn = 1#2 ∧ (t.slot p).sts.getLsbD 1 = true) ∧
    (s.power.safe = false → (d.st = .up ∨ d.st = .hold ∨ d.st = .draining) → ∃ t, exec (.linkFailure p) s = .next t ∧ lost t ∧ others t ∧
      (d.st ≠ .draining → (t.slot p).st = .training ∧ (t.slot p).pwrOn = d.pwrOn) ∧
      (d.st = .draining → (t.slot p).st = .off ∧ (t.slot p).pwrOn = false ∧ (t.slot p).sts.getLsbD 0 = true)) ∧
    (s.power.safe = true → (d.st = .up ∨ d.st = .hold ∨ d.st = .draining) → ∃ t, exec (.linkFailure p) s = .next t ∧ others t ∧
      (t.slot p).st = d.st ∧ (t.slot p).pwrOn = d.pwrOn ∧ (t.port p).width = (s.port p).width ∧ (t.port p).keyE = none ∧
      (t.port p).conf = false ∧ (t.port p).arrivals = [] ∧ (t.port p).cpls = [] ∧ (t.port p).rdTags = []) ∧
    (d.st ∉ [SlotSt.up, .hold, .draining] → exec (.linkFailure p) s = .next s)) ∧
  (∀ (s : State) (p : Nat), s.Shape → p < 6 → (s.port p).lossDue = true → s.atBoundary = true →
    (∀ kv ∈ s.reqs, kv.2.port = some p → kv.2.orphan = true → kv.2.open_ = false) → (s.leases.map (·.1)).Nodup →
    ∃ t, exec (.leaseTorn p) s = .next t ∧ (t.port p).lossDue = false ∧
      (∀ n l, Table.get? s.leases n = some l →
        Table.get? t.leases n = some (if l.holder = p ∧ l.torn = false ∧ l.dropping = false then
          { l with torn := true, whole := [], part := [] } else l)) ∧
      (∀ n, Table.get? s.leases n = none → Table.get? t.leases n = none) ∧
      ((∃ kv ∈ s.leases, kv.2.holder = p ∧ kv.2.torn = false ∧ kv.2.dropping = false) → t.ras.event.getLsbD 5 = true) ∧
      s.SameTiers t ∧ t.exts = s.exts)) ∧
  (∀ (s : State) (p : Nat), s.Shape → p < 6 → s.power.safe = false →
    let d := s.slot p
    (d.st = .up → d.drain = none → (maskHas s.power.dormant p = true ∨ s.power.standbyReq = true) →
      ∃ t, exec (.portDormantEnter p) s = .next t ∧ (∀ k, k ≠ p → t.slot k = s.slot k) ∧ t.setSlots s.slots = s ∧
        t.slot p = { d with drain := some (if maskHas s.power.dormant p then .dormant else .standby), drainPick := none }) ∧
    (maskHas s.power.dormant p = false → s.power.standbyReq = false → exec (.portDormantEnter p) s = .next s) ∧
    (d.drain ≠ none → d.drainPick = none → ∃ t, exec (.drainStart p) s = .next t ∧
      t.slot p = { d with drainPick := some (s.time.pick + 1) } ∧ (∀ k, k ≠ p → t.slot k = s.slot k) ∧ t.setSlots s.slots = s) ∧
    (d.drain ≠ none → d.drainPick = some s.time.pick →
      let t := s.drainAt p
      (t.port p).closed = true ∧ t.slots = s.slots ∧ s.SameTiers t ∧ t.exts = s.exts ∧
        ∀ e j c, e < 8 → t.engine e = some j → j.cur = some c → 2 ≤ c.d.kind → c.d.port = p → c.fail ≠ none) ∧
    (∀ q, d.drainPick = some q → s.time.pick < q → exec (.drainEnd p) s = .next s) ∧
    (∀ q, d.drainPick = some q → q ≤ s.time.pick →
      let left := (∃ kv ∈ s.reqs, kv.2.port = some p) ∨ (s.port p).cpls ≠ [] ∨ (s.port p).arrivals ≠ [] ∨ (s.port p).rdTags ≠ []
      (left → s.time.pick < q + 48 → exec (.drainEnd p) s = .next s) ∧
      ((¬ left ∨ q + 48 ≤ s.time.pick) →
        (d.drain = some .off → ∃ t, exec (.drainEnd p) s = .next t ∧ (t.slot p).st = .off ∧ (t.slot p).pwrOn = false ∧
          (t.slot p).sts.getLsbD 0 = true ∧ (t.port p).keyE = none ∧ (t.port p).keyI = none ∧ (t.port p).width = 0 ∧
          (t.slot p).drain = none ∧ ∀ k, k ≠ p → t.slot k = s.slot k) ∧
        (d.drain = some .dormant ∨ d.drain = some .standby → ∃ t, exec (.drainEnd p) s = .next t ∧ (t.slot p).st = .dormant ∧
          (t.slot p).pwrOn = d.pwrOn ∧ (t.slot p).sts.getLsbD 4 = true ∧ (t.slot p).drain = none ∧
          (∀ k, k ≠ p → t.slot k = s.slot k) ∧
          (¬ left → (t.port p).keyE = (s.port p).keyE ∧ (t.port p).keyI = (s.port p).keyI ∧ (t.port p).txFrame = (s.port p).txFrame ∧
            (t.port p).active = (s.port p).active ∧ (t.port p).ctx = (s.port p).ctx ∧ t.leases = s.leases)))))

/-- TELEMETRY_WINDOW_END sets the mean input power in whole watts, the input voltage, the sixteen temperatures, the hottest sensor and the
end of the window; every hundredth window also sets the operator's power, rounded down to 10 W, and every thousandth the operator's
temperature, rounded down to 5 degrees; nothing else changes.  TELEMETRY_READ through OPERATOR or a port answers 272 bytes of its context:
the operator's power and temperature, a window of 100 ms, and the context's counters; through INSTALLER with CTX_NUM and PORT 0xFF the power
and temperature of the last window, a window of 1 ms, and the sums over the six ports and every extent.  A port that does not exist, or a
context that does not, completes BAD_ARG, a context that is being destroyed STATE. -/
def Obligations.Telemetry : Prop :=  (∀ (s : State) (x : TelSample), x.temps.length = 16 → ∃ t, exec (.telemetryWindowEnd x) s = .next t ∧ t.setTel s.tel = s ∧
    t.tel.power = x.powerMw / 1000 ∧ t.tel.inputMv = x.inputMv ∧ t.tel.windowEnd = s.picks ∧ t.tel.temps = x.temps ∧
    t.tel.count = s.tel.count + 1 ∧
    (∀ k, k < 16 → x.temps.getD k 0 ≤ x.temps.getD t.tel.hotSensor 0) ∧ t.tel.hotSensor < 16 ∧
    ((s.tel.count + 1) % 100 ≠ 0 → t.tel.opPower = s.tel.opPower ∧ t.tel.opEnd = s.tel.opEnd ∧ t.tel.sum = s.tel.sum + x.powerMw) ∧
    ((s.tel.count + 1) % 100 = 0 → t.tel.opPower % 10 = 0 ∧ t.tel.opPower ≤ (s.tel.sum + x.powerMw) / 100000 ∧
      (s.tel.sum + x.powerMw) / 100000 < t.tel.opPower + 10 ∧ t.tel.opEnd = s.picks ∧ t.tel.sum = 0) ∧
    ((s.tel.count + 1) % 1000 ≠ 0 → t.tel.opTemp = s.tel.opTemp) ∧
    ((s.tel.count + 1) % 1000 = 0 → t.tel.opTemp % 5 = 0 ∧ t.tel.opTemp ≤ x.temps.getD t.tel.hotSensor 0 ∧
      x.temps.getD t.tel.hotSensor 0 < t.tel.opTemp + 5)) ∧
  (∀ (s : State) (m : Mbx), s.Runs m 0x00F0 true →
    let refused := fun (st : Nat) => ∃ t, exec (.telemetryRead m) s = .next t ∧ s.Answered t m st [] ∧ s.SameBut t m
    let answers := fun (P : List Byte → Prop) =>
      ∃ (t : State) (b : List Byte), exec (.telemetryRead m) s = .next t ∧ s.Answered t m mOk b ∧ s.SameBut t m ∧ b.length = 272 ∧ P b
    let total := fun (f : Port → Nat) => ((List.range 6).map fun p => f (s.port p)).sum
    ((m = .operator ∨ isManaged m = false) →
      (∀ st, s.commandCtx m (s.rq m 0 1) = .inr st → refused st) ∧
      (∀ c x, s.commandCtx m (s.rq m 0 1) = .inl c → s.ctx? c = some x → answers fun b =>
        slice b 0 4 = toLe 4 s.tel.opPower ∧ slice b 4 4 = toLe 4 100 ∧
        slice b 8 2 = toLe 2 (s.tel.opTemp % 65536).toNat ∧ slice b 0x10 8 = toLe 8 s.tel.opEnd ∧
        slice b 0x18 8 = toLe 8 x.telReqs ∧ slice b 0x20 16 = toLe 8 x.telRead ++ toLe 8 x.telWrite ∧
        slice b 0x30 16 = toLe 8 x.telProm ++ toLe 8 x.telEvict ∧
        (∀ k, k ≤ 12 → slice b (0x40 + 4 * k) 4 = toLe 4 (Table.getD x.telPicks k 0)) ∧ slice b 0x74 156 = zeros 156)) ∧
    (m = .installer → s.rq m 0 1 = 0xFF →
      (s.rq m 1 1 ≠ 0xFF → s.hasPort (s.rq m 1 1) = false → refused mBadArg) ∧
      (s.rq m 1 1 = 0xFF → answers fun b =>
        slice b 0 4 = toLe 4 s.tel.power ∧ slice b 4 4 = toLe 4 1 ∧ slice b 0x10 8 = toLe 8 s.tel.windowEnd ∧
        slice b 0x18 8 = toLe 8 (total (·.telReqs)) ∧ slice b 0x20 16 = toLe 8 (total (·.telRead)) ++ toLe 8 (total (·.telWrite)) ∧
        slice b 0x30 16 = toLe 8 s.tier.promotions ++ toLe 8 s.tier.evictions ∧
        ∀ k, k < 52 → slice b (0x40 + 4 * k) 4 = toLe 4 (total fun q => Table.getD q.telCycles k 0))) ∧
    (m = .installer → s.rq m 0 1 ≠ 0xFF → s.ctx? (s.rq m 0 1) = none → refused mBadArg) ∧
    (m = .installer → s.rq m 0 1 ≠ 0xFF → ∀ x, s.ctx? (s.rq m 0 1) = some x → x.dying ≠ none → refused mState))

/-- On an expander whose internal reset is released.  FORCE_SAFE, SUPPLY_HIGH, THERMTRIP and BRACE_TIMEOUT of a brace without recovery, outside
SAFE: SAFE with the cause of the row, SAFE_N and ALERT_N low, no brace, SAFE in DEV_EVENT; no engine has a job, no draft is RUNNING or
PENDING (a running one is HALTED with cause OVERRUN at this beat, a pending one LOADED), every waiting command may complete, with status
SAFE where no fuse is being programmed, and both tiers, extents, contexts and leases stay.  THERMTRIP also asserts THERMTRIP_N.  In
SAFE these rows keep the first cause, the power state (but for THERMTRIP's pin), mailboxes, drafts and requests.  At the first boundary
of SAFE, with no write in a position, no request is left, the tiers stay, copies, fills, rebuild work and scrub passes end, both
tiers are in self-refresh and the Loom clocks stop. -/
def Obligations.SafeEntry : Prop :=  (∀ (s : State) (c : Instr) (code : Nat), s.Shape → s.power.stage = 7 →
    ((c = .forceSafe ∧ code = 0x08) ∨ (c = .supplyHigh ∧ code = 0x02) ∨ (c = .thermtrip ∧ code = 0x03) ∨
      (c = .braceTimeout ∧ code = 0x01 ∧ s.power.braced = true ∧ s.power.recoverDue = false)) →
    (s.power.safe = false → ∃ t, exec c s = .next t ∧ t.power.safe = true ∧ t.power.safeCause = code ∧ t.power.safeDue = true ∧
      t.power.safeN = false ∧ t.power.alertN = false ∧ t.power.braced = false ∧ t.regs.event.getLsbD 1 = true ∧
      (c = .thermtrip → t.power.thermtripN = false ∧ t.power.thermTrip = true) ∧
      (∀ e, e < 8 → t.engine e = none) ∧
      (∀ h d, Table.get? s.loom.drafts h = some d → ∃ d', Table.get? t.loom.drafts h = some d' ∧ d'.st ≠ .running ∧ d'.st ≠ .pending ∧
        (d.st = .running → d'.st = .halted ∧ d'.cause = .overrun ∧ d'.ovrBeat = s.beatNow) ∧ (d.st = .pending → d'.st = .loaded) ∧
        (d.st ≠ .running → d.st ≠ .pending → d' = d)) ∧
      (∀ m w, (t.mbox m).wait = some w → w.ready = true) ∧
      (s.umpire.fuseJob = none → ∀ m w, (s.mbox m).wait = some w → w.ready = false →
        ∃ w', (t.mbox m).wait = some w' ∧ w'.what = w.what ∧ w'.status = mSafe) ∧
      s.SameTiers t ∧ t.exts = s.exts ∧ t.ctxs = s.ctxs ∧ t.leases = s.leases ∧ t.reqs = s.reqs) ∧
    (s.power.safe = true → ∃ t, exec c s = .next t ∧ t.power.safe = true ∧ t.power.safeCause = s.power.safeCause ∧
      (c ≠ .thermtrip → t.power = s.power) ∧ t.umpire.mboxes = s.umpire.mboxes ∧ t.loom = s.loom ∧ t.reqs = s.reqs ∧
      s.SameTiers t)) ∧
  (∀ s : State, (s.power.braced = false ∨ s.power.recoverDue = true) → exec .braceTimeout s = .next s) ∧
  (∀ s : State, (∀ kv ∈ s.reqs, kv.2.flyingW = []) →
    let t := s.safeBoundary
    t.reqs = [] ∧ s.SameTiers t ∧ t.tier.copies = [] ∧ t.tier.fills = [] ∧ t.tier.queue = [] ∧ t.ras.work = [] ∧
      t.ras.nearPatrol = [] ∧ t.ras.farPatrol = [] ∧ t.loom.clocked = false ∧ t.power.selfRefresh = true ∧ t.power.safeDue = false ∧
      ∀ p, ∀ c ∈ (t.port p).cpls, c.fixed = true ∨ (c.status = stSafe ∧ c.data = none))

/-- On an expander whose internal reset is released.  BRACE outside a brace and SAFE: BRACED since this pick, ALERT_N low, BRACE in DEV_EVENT; a
fuse job ends.  BRACE_RECOVERY marks the end for the next beat boundary, where the brace ends, ALERT_N follows what is left, and
the event bit is set.  INPUT_RANGE_ALERT outside a brace and SAFE, and THERMAL_ALERT, when not yet on, assert ALERT_N and set their DEV_EVENT
bit; their ends release ALERT_N unless another cause holds.  ENTROPY_FAIL sets its flag and nothing else.  STANDBY_ENTRY outside SAFE and a
brace sets STANDBY and begins the entry: a PENDING draft is LOADED, a RUNNING one is to stop.  When nothing runs, no link is up and no request is
in flight, the next beat boundary is STANDBY with both tiers in self-refresh and bay data zero.  STANDBY_EXIT clears STANDBY, and service
resumes no earlier than 64 picks on.  Both tiers' bytes, extents and contexts stay throughout. -/
def Obligations.BraceAlertsStandby : Prop :=  (∀ s : State, s.power.stage = 7 →
    let quietEvent := fun (t : State) (bit_ : Nat) (w : Power) => t.power = w ∧ t.regs.event.getLsbD bit_ = true ∧
      { t with power := s.power, regs := s.regs } = s ∧ ∀ i, i ≠ bit_ → t.regs.event.getLsbD i = s.regs.event.getLsbD i
    (s.power.braced = false → s.power.safe = false → ∃ t, exec .brace s = .next t ∧
      t.power = { s.power with braced := true, bracePick := s.time.pick, recoverDue := false, alertN := false } ∧
      t.regs.event.getLsbD 2 = true ∧ t.umpire.fuseJob = none ∧ s.SameTiers t ∧ t.exts = s.exts ∧ t.ctxs = s.ctxs ∧
      t.loom = s.loom ∧ t.engines = s.engines ∧ t.reqs = s.reqs) ∧
    (s.power.braced = true ∨ s.power.safe = true → exec .brace s = .next s) ∧
    (s.power.braced = true → exec .braceRecovery s = .next { s with power := { s.power with recoverDue := true } }) ∧
    (s.power.braced = false → exec .braceRecovery s = .next s) ∧
    (s.power.braced = false → s.power.safe = false → s.power.inputAlert = false →
      ∃ t, exec .inputRangeAlert s = .next t ∧ quietEvent t 7 { s.power with inputAlert := true, alertN := false }) ∧
    (s.power.braced = true ∨ s.power.safe = true ∨ s.power.inputAlert = true → exec .inputRangeAlert s = .next s) ∧
    (exec .inputRangeAlertEnd s = .next { s with power := { s.power with
      inputAlert := false, alertN := !(s.power.braced || s.power.hot || s.power.safe) } }) ∧
    (s.power.hot = false → ∃ t, exec .thermalAlert s = .next t ∧ quietEvent t 6 { s.power with hot := true, alertN := false }) ∧
    (s.power.hot = true → exec .thermalAlert s = .next s) ∧
    (exec .thermalAlertEnd s = .next { s with power := { s.power with
      hot := false, alertN := !(s.power.braced || s.power.inputAlert || s.power.safe) } }) ∧
    (exec .entropyFail s = .next { s with umpire := { s.umpire with entropyFail := true } }) ∧
    (s.power.standbyBit = false → s.power.safe = false → s.power.braced = false → s.power.standbyReq = false →
      ∃ t, exec .standbyEntry s = .next t ∧ t.power = { s.power with standbyBit := true, standbyReq := true } ∧
        s.SameTiers t ∧ t.exts = s.exts ∧ t.ctxs = s.ctxs ∧ t.reqs = s.reqs ∧ t.engines = s.engines ∧
        ((s.loom.drafts.map (·.1)).Nodup → ∀ h d, Table.get? s.loom.drafts h = some d → ∃ d', Table.get? t.loom.drafts h = some d' ∧
          (d.st = .pending → d'.st = .loaded) ∧ (d.st = .running → d'.st = .running ∧ d'.stopDue.isSome = true) ∧
          (d.st ≠ .pending → d.st ≠ .running → d' = d))) ∧
    (s.power.standbyBit = true → exec .standbyEntry s = .next s) ∧
    (s.power.standbyBit = true → exec .standbyExit s =
      .next { s with power := { s.power with standbyBit := false, resumePick := s.time.pick + 64 } }) ∧
    (s.power.standbyBit = false → exec .standbyExit s = .next s)) ∧
  (∀ s : State, s.power.safe = false →
    (s.power.braced = true → s.power.recoverDue = true → s.power.standbyBit = false →
      s.braceBeat.power = { s.power with braced := false, recoverDue := false, alertN := !(s.power.hot || s.power.inputAlert) } ∧
        s.braceBeat.regs.event.getLsbD 2 = true ∧ s.SameTiers s.braceBeat) ∧
    (s.power.standbyReq = true → s.power.standbyBit = true → s.power.standby = false → s.power.braced = false → s.reqs = [] →
      (∀ p, p < 6 → s.linkUp p = false) → (∀ kv ∈ s.loom.drafts, kv.2.st ≠ .running) → s.loom.kind = .idle →
      s.standbyBeat = { s with power := { s.power with standby := true, selfRefresh := true }
                               loom := { s.loom with clocked := false, bays := [] } }) ∧
    (s.power.standbyReq = true → s.power.standbyBit = false → s.time.pick < s.power.resumePick → s.standbyBeat = s) ∧
    (s.power.standbyReq = true → s.power.standbyBit = false → s.power.resumePick ≤ s.time.pick →
      s.standbyBeat.power = { s.power with standby := false, standbyReq := false, selfRefresh := false } ∧
        s.standbyBeat.loom.clocked = true))

/-- POWER_ON_RESET from every state leaves no context, lease, pin, request or draft, every engine idle, every slot EMPTY, nothing stored
that reads other than 0 (DESIGN CHOICE of log entry 2: the spec gives lost contents no value), no far unit initialised, every extent
CLEARING; the NOR's store and the fuses stay; without REFCLK it waits at step 2, with RESET_N low at step 3 with the fuses sensed, with
a thermal hold at step 4, else internal reset is released and a start is counted.  BROWN_OUT leaves the module off with PWR_GOOD
low.  DEVICE_RESET after step 3, with no write in a position and no fuse job, keeps both tiers' bytes, takes every other unit to its reset
value and waits with RESET_N low; before step 3 RESET_N is only noted.  RESET_N_RELEASE goes on from there.  REFCLK_LOSS and
REFCLK_RETURN, THERMAL_RESET_HOLD_END and RAIL_LEAVES_REGULATION change their own state alone where no start waits for them.
PERST_N resets the endpoint's MSI-X table and pending bits, PERST_N_RELEASE releases it. -/
def Obligations.ResetEvents : Prop :=  (∀ s : State,
    let gone := fun (t : State) => t.ctxs = [] ∧ t.leases = [] ∧ t.pins = [] ∧ t.reqs = [] ∧ t.loom.drafts = [] ∧
      t.engines = List.replicate 8 none ∧ t.tier.copies = [] ∧ t.tier.fills = [] ∧ t.umpire.ready = false ∧ t.tie.plan = none ∧
      t.time.sync = .free ∧ t.ras.damaged = [] ∧ t.ras.ceNear = [] ∧ t.ras.ceFar = [] ∧ t.ports.length = 6 ∧
      ∀ p, (t.port p).keyE = none ∧ (t.port p).keyI = none ∧ (t.port p).active = [] ∧ (t.port p).ctx = none ∧ (t.slot p).st = .empty
    let clears := fun (t : State) => t.exts.map (·.1) = s.exts.map (·.1) ∧
      ((s.exts.map (·.1)).Nodup → ∀ kv ∈ t.exts, kv.2.st = .clearing)
    (∃ t, exec .powerOnReset s = .next t ∧ gone t ∧ clears t ∧ t.nearMem = [] ∧ t.farMem = [] ∧
      t.ras.initCursor = (((List.range 4).filter s.hasGroup).map fun g => (g, 0)) ∧ t.nor.plan = s.nor.plan ∧
      t.nor.beatCfg = s.nor.beatCfg ∧ t.nor.slotPolicy = s.nor.slotPolicy ∧ t.nor.installerKey = s.nor.installerKey ∧
      (s.umpire.fuseJob = none → t.fuses.array = s.fuses.array) ∧
      (s.power.refclk = false → t.power.stage = 2) ∧
      (s.power.refclk = true → t.fuses.shadow = t.fuses.array ∧ t.fuses.valid = true ∧ t.power.pwrGood = true ∧
        (s.power.resetLow = true → t.power.stage = 3) ∧
        (s.power.resetLow = false → (s.power.thermTrip = true ∨ s.power.thermHold = true) → t.power.stage = 4) ∧
        (s.power.resetLow = false → s.power.thermTrip = false → s.power.thermHold = false → t.power.stage = 7 ∧
          t.nor.bootCount = s.nor.bootCount + 1 ∧ t.power.selfRefresh = false))) ∧
    (∃ t, exec .brownOut s = .next t ∧ gone t ∧ clears t ∧ t.nearMem = [] ∧ t.farMem = [] ∧ t.power.stage = 0 ∧
      t.power.pwrGood = false ∧ t.power.safe = false) ∧
    (s.power.stage < 3 → exec .deviceReset s = .next { s with power := { s.power with resetLow := true } }) ∧
    (3 ≤ s.power.stage → s.umpire.fuseJob = none → (∀ kv ∈ s.reqs, kv.2.flyingW = []) →
      ∃ t, exec .deviceReset s = .next t ∧ gone t ∧ s.SameTiers t ∧ t.nor = s.nor ∧ t.fuses.array = s.fuses.array ∧
        t.exts.map (·.1) = s.exts.map (·.1) ∧
        ((s.exts.map (·.1)).Nodup → ∀ e x, s.ext? e = some x → x.st ≠ .ungranted → ∃ y, t.ext? e = some y ∧ y.st = .clearing) ∧
        t.ras.initCursor = s.ras.initCursor ∧ t.power.stage = 3 ∧ t.power.resetLow = true ∧ t.power.safe = false ∧
        t.power.safeN = true ∧ t.power.alertN = true ∧ t.power.selfRefresh = true)) ∧
  (∀ s : State,
    (s.power.resetLow = false → exec .resetNRelease s = .next s) ∧
    (s.power.resetLow = true → s.power.stage ≠ 3 →
      exec .resetNRelease s = .next { s with power := { s.power with resetLow := false } }) ∧
    (s.power.resetLow = true → s.power.stage = 3 → s.power.refclk = true → s.power.thermHold = false →
      ∃ t, exec .resetNRelease s = .next t ∧ t.power.stage = 7 ∧ t.power.resetLow = false ∧ t.power.selfRefresh = false ∧
        t.fuses.shadow = t.fuses.array ∧ (s.umpire.fuseJob = none → t.fuses.array = s.fuses.array) ∧ t.nor.bootCount = s.nor.bootCount + 1 ∧
        s.SameTiers t ∧ t.exts = s.exts) ∧
    (exec .refclkLoss s = .next { s with power := { s.power with refclk := false
                                                                 pllHeld := s.power.pllHeld || decide (3 ≤ s.power.stage) } }) ∧
    (s.power.stage ≠ 2 → exec .refclkReturn s = .next { s with power := { s.power with refclk := true } }) ∧
    (s.power.stage = 2 → ∃ t, exec .refclkReturn s = .next t ∧ t.power.refclk = true ∧ t.power.pllHeld = false ∧
      t.fuses.shadow = t.fuses.array ∧ t.power.stage ≠ 2) ∧
    (s.power.stage ≠ 4 → exec .thermalResetHoldEnd s = .next { s with power := { s.power with thermHold := false } }) ∧
    (s.power.stage = 4 → ∃ t, exec .thermalResetHoldEnd s = .next t ∧ t.power.stage = 7 ∧ t.power.thermHold = false ∧
      t.nor.bootCount = s.nor.bootCount + 1) ∧
    (exec .railLeavesRegulation s = .next { s with power := { s.power with railsGood := false, pwrGood := false } }) ∧
    (exec .perstN s = .next { s with power := { s.power with perstLow := true }
                                     regs := { s.regs with msixTable := [], msixPend := 0, msixOut := [], latch := none, readData := none } }) ∧
    (exec .perstNRelease s = .next { s with power := { s.power with perstLow := false } }))

/-- On an expander whose internal reset is released and that has a valid bank.  UMPIRE_RESTART: no context, lease, pin, request or
draft is left, no engine has a job, no port is attached or has keys, every mailbox is at its reset value and owned by the Umpire, the
queue of commands is empty, every GRANTED extent is CLEARING, a port with a link waits in TRAINING and the other slots keep their state,
the sync state is FREE, DEV_PWR_CTL is 0, a start is counted; SAFE, the error counts, the fuses and, with no write in a position and
no record waiting, both tiers' bytes stay.  WATCHDOG_EXPIRY of a firmware that runs or starts does the same and counts; the third one
since a firmware was ready enters SAFE with cause WATCHDOG instead.  With a trial armed that is valid, the trial bank runs as
a trial.  ENGINE_RESET is due at the next boundary, on an expander with a Loom that is neither in SAFE nor enters STANDBY, else
nothing changes. -/
def Obligations.Restarts : Prop :=  (∀ s : State, s.Shape → s.power.stage = 7 → (s.bankValid false = true ∨ s.bankValid true = true) →
    let restarted := fun (t : State) =>
      t.ctxs = [] ∧ t.leases = [] ∧ t.pins = [] ∧ t.reqs = [] ∧ t.loom.drafts = [] ∧ t.engines = List.replicate 8 none ∧
      (∀ m, m ∈ allMbx → t.mbox m = {}) ∧ t.umpire.queue = [] ∧ t.umpire.ready = false ∧ t.umpire.starting = true ∧
      t.umpire.romService = false ∧ t.umpire.deferred = [] ∧ t.umpire.updateStaged = false ∧
      (∀ p, p < 6 → (t.port p).ctx = none ∧ (t.port p).keyE = none ∧ (t.port p).keyI = none ∧ (t.port p).xferKey = none ∧
        (t.slot p).st = if s.linkUp p then .training else (s.slot p).st) ∧
      (∀ e x, s.ext? e = some x → x.st ≠ .ungranted → ∃ y, t.ext? e = some y ∧ y.st = .clearing) ∧
      t.time.sync = .free ∧ t.power.dormant = 0 ∧ t.power.standbyBit = false ∧ t.power.safe = s.power.safe ∧
      t.power.safeCause = s.power.safeCause ∧ t.nor.bootCount = s.nor.bootCount + 1 ∧ t.ras.ceNear = s.ras.ceNear ∧
      t.ras.ceFar = s.ras.ceFar ∧ t.umpire.debugUnlocked = s.umpire.debugUnlocked ∧ t.umpire.entropyFail = s.umpire.entropyFail ∧
      t.fuses = s.fuses ∧ ((∀ kv ∈ s.reqs, kv.2.flyingW = []) → (∀ p, p < 6 → (s.port p).arrivals = []) → s.SameTiers t)
    (s.umpire.fuseJob = none → (s.exts.map (·.1)).Nodup →
      (∃ t, exec .umpireRestart s = .next t ∧ restarted t ∧ t.umpire.expiries = s.umpire.expiries ∧
        (s.nor.tState = .armed → s.bankValid s.nor.trialB = true →
          t.runningB = s.nor.trialB ∧ t.umpire.trialRunning = true ∧ t.nor.tState = .running) ∧
        (s.nor.tState = .none → s.bankValid s.nor.activeB = true → t.runningB = s.nor.activeB ∧ t.umpire.trialRunning = false)) ∧
      ((s.umpire.ready = true ∨ s.umpire.starting = true) → s.umpire.expiries < 2 →
        ∃ t, exec .watchdogExpiry s = .next t ∧ restarted t ∧ t.umpire.expiries = s.umpire.expiries + 1)) ∧
    ((s.umpire.ready = true ∨ s.umpire.starting = true) → 2 ≤ s.umpire.expiries → s.power.safe = false →
      ∃ t, exec .watchdogExpiry s = .next t ∧ t.power.safe = true ∧ t.power.safeCause = 0x05 ∧ t.ctxs = s.ctxs ∧ t.exts = s.exts)) ∧
  (∀ s : State, s.power.stage < 7 → exec .umpireRestart s = .next s ∧ exec .watchdogExpiry s = .next s) ∧
  (∀ s : State,
    (s.hasLoom = true → s.power.safe = false → s.power.standbyReq = false →
      exec .engineReset s = .next { s with loom := { s.loom with resetDue := true } }) ∧
    (s.hasLoom = false ∨ s.power.safe = true ∨ s.power.standbyReq = true → exec .engineReset s = .next s))

/-- FW_READY of a firmware that starts, with internal reset released: the firmware is ready, with the security version, the firmware version and
the maker key of its manifest; the plan is the stored one or the factory plan, BEAT_CONFIG, both aperture sets of each port, the slot policies, the
scrub settings and MIG_POLICY are the stored ones; every mailbox is the host's; a trial that runs is confirmed; READY is set in DEV_EVENT.
With FORCE_SAFE_N low SAFE begins with cause FORCE, else with the input below 44.0 V with SUPPLY_LOW, above 58.0 V with SUPPLY_HIGH, else
an expander outside SAFE stays so and every slot that waits in OFF with AUTO_POWER is powered.  Both tiers, extents and fuses stay.  Without a start
in progress nothing changes. -/
def Obligations.FirmwareReady : Prop :=  (∀ (s : State) (low : Bool) (mv : Nat), s.Shape → s.power.stage = 7 → s.umpire.starting = true →
    ∃ t, exec (.fwReady low mv) s = .next t ∧
      let h := s.manifest s.runningB
      t.umpire.ready = true ∧ t.umpire.starting = false ∧ t.umpire.expiries = 0 ∧ t.umpire.svn = le (slice h 6 1) ∧
      t.umpire.fwVersion.toNat = le (slice h 12 4) ∧ t.umpire.makerKey = slice h 0x30 64 ∧
      t.tie.plan = some (s.nor.plan.getD s.factoryPlan) ∧ t.time.cfg = s.nor.beatCfg ∧
      (∀ p, p < 6 → (t.port p).active = (Table.getD s.nor.apts p ([], [])).1 ∧
        (t.port p).staged = (Table.getD s.nor.apts p ([], [])).2 ∧
        ((t.slot p).autoPower, (t.slot p).buttonEn, (t.slot p).aptClear) = s.nor.slotPolicy.getD p (true, true, false)) ∧
      t.far.pdEn = s.nor.pdEn ∧ t.far.idlePicks = s.nor.idlePicks ∧ t.tier.policy = s.nor.policy ∧
      t.ras.farHours = s.nor.farHours ∧ t.ras.nearHours = s.nor.nearHours ∧
      (∀ m, m ∈ allMbx → (t.mbox m).owner = false ∧ (t.mbox m).accepted = false ∧ (t.mbox m).done = false ∧
        (isManaged m = true → (t.mbox m).challenge.length = 32)) ∧
      t.nor.tState = (if s.umpire.trialRunning then .none else s.nor.tState) ∧
      t.nor.activeB = (if s.umpire.trialRunning then s.nor.trialB else s.nor.activeB) ∧ t.regs.event.getLsbD 5 = true ∧
      (s.power.safe = false → t.power.safe = (low || decide (mv < 44000) || decide (58000 < mv)) ∧
        (low = true → t.power.safeCause = 0x08) ∧ (low = false → mv < 44000 → t.power.safeCause = 0x01) ∧
        (low = false → 58000 < mv → t.power.safeCause = 0x02)) ∧
      (s.power.safe = false → low = false → 44000 ≤ mv → mv ≤ 58000 → ∀ p, p < 6 →
        ((s.slot p).awaits = true → (s.slot p).st = .off → (s.nor.slotPolicy.getD p (true, true, false)).1 = true →
          (t.slot p).st = .powering ∧ (t.slot p).pwrOn = true) ∧
        ((s.slot p).awaits = false → (t.slot p).st = (s.slot p).st)) ∧
      s.SameTiers t ∧ t.exts = s.exts ∧ (s.umpire.fuseJob = none → t.fuses = s.fuses) ∧ t.ctxs = s.ctxs) ∧
  (∀ (s : State) (low : Bool) (mv : Nat), (s.power.stage < 7 ∨ s.umpire.starting = false) → exec (.fwReady low mv) s = .next s)

/-- On an expander whose fuse shadows are valid and whose endpoint is out of reset.  REGISTER_WRITE and BAD_ACCESS of a size or
alignment that its area does not accept add 1 to DEV_BAD_ACCESS, saturating, and change nothing else.  A 4-byte REGISTER_WRITE clears the
DEV_EVENT bits, the RAS_EVENT bits and the SLOT_STS bits that it writes as 1, stores DEV_EVENT_IE and the enables of SLOT_CTL, and writes the
MSI-X table, where a vector with a pending bit that it unmasks is delivered; a register area without writable fields stays as it is.
A bulk window takes bytes while OWNER is 0.  LOWER_HALF_READ returns the lower half of a 64-bit register and latches the upper half, which
the read of the upper half then returns whatever the register has become.  An access outside BAR0, or while BAR0 is closed,
changes nothing. -/
def Obligations.RegisterAccess : Prop :=  (∀ (s : State) (off : Nat) (data : List Byte), s.bar0Open off = false →
    exec (.registerWrite off data) s = .next s ∧ exec (.badAccess off data.length) s = .next s ∧ exec (.lowerHalfRead off) s = .next s) ∧
  (∀ (s : State) (off : Nat) (data : List Byte), off < 0x400000 → s.fuses.valid = true → s.power.perstLow = false →
    let window := (0x10000 ≤ off ∧ off < 0x14000) ∨ (0x200000 ≤ off ∧ off < 0x400000)
    let bad := (window ∧ ¬ (1 ≤ data.length ∧ data.length ≤ 256 ∧ off / 4096 = (off + data.length - 1) / 4096)) ∨
      (¬ window ∧ ¬ ((data.length = 4 ∨ data.length = 8) ∧ off % data.length = 0))
    let counted := { s with regs := { s.regs with
      badAccess := if s.regs.badAccess < 0xFFFFFFFF then s.regs.badAccess + 1 else 0xFFFFFFFF } }
    (bad → exec (.registerWrite off data) s = .next counted ∧ exec (.badAccess off data.length) s = .next counted) ∧
    (¬ bad → exec (.badAccess off data.length) s = .next s)) ∧
  (∀ (s : State) (data : List Byte), s.fuses.valid = true → s.power.perstLow = false → data.length = 4 →
    let v := le data
    (exec (.registerWrite 0x1004 data) s = .next { s with regs := { s.regs with event := s.regs.event &&& ~~~(BitVec.ofNat 8 v) } }) ∧
    (exec (.registerWrite 0x1008 data) s = .next { s with regs := { s.regs with eventIe := BitVec.ofNat 32 v } }) ∧
    (exec (.registerWrite 0x6000 data) s = .next { s with ras := { s.ras with event := s.ras.event &&& ~~~(BitVec.ofNat 6 v) } }) ∧
    (∀ p, s.Shape → s.hasPort p = true →
      (∃ t, exec (.registerWrite (0x3000 + 16 * p + 4) data) s = .next t ∧ t.slot p = { s.slot p with ie := BitVec.ofNat 5 v } ∧
        (∀ k, k ≠ p → t.slot k = s.slot k) ∧ t.setSlots s.slots = s) ∧
      (∃ t, exec (.registerWrite (0x3000 + 16 * p + 8) data) s = .next t ∧
        t.slot p = { s.slot p with sts := (s.slot p).sts &&& ~~~(BitVec.ofNat 5 v) } ∧
        (∀ k, k ≠ p → t.slot k = s.slot k) ∧ t.setSlots s.slots = s)) ∧
    (∀ off, off % 4 = 0 → off < 0x200000 → off ∉ [0x1004, 0x1008, 0x1010, 0x6000] → ¬ (0x2000 ≤ off ∧ off < 0x20A0) →
      ¬ (0x3000 ≤ off ∧ off < 0x3060) → ¬ (0x10000 ≤ off ∧ off < 0x14000) → exec (.registerWrite off data) s = .next s) ∧
    (∀ n, n < 10 → bit v 0 = false → s.regs.msixPend.getLsbD n = true → Mem.wf s.regs.msixTable = true → ∃ t,
      exec (.registerWrite (0x2000 + 16 * n + 12) data) s = .next t ∧ t.regs.msixPend.getLsbD n = false ∧
        t.regs.msixOut = s.regs.msixOut ++ [n] ∧ { t with regs := s.regs } = s)) ∧
  (∀ (s : State) (i o : Nat) (data : List Byte), s.fuses.valid = true → s.power.perstLow = false → s.umpire.ready = true → i < 4 →
    o < 0x80000 → 1 ≤ data.length → data.length ≤ 256 → o / 4096 = (o + data.length - 1) / 4096 →
    let m := mgmtMbx i
    let off := 0x200000 + 0x80000 * i + o
    ((s.mbox m).owner = true → exec (.registerWrite off data) s = .next s) ∧
    ((s.mbox m).owner = false → s.umpire.mboxes.map (·.1) = allMbx → Mem.wf (s.mbox m).bulk = true →
      ∃ t, exec (.registerWrite off data) s = .next t ∧
      (∀ a, Mem.read (t.mbox m).bulk a = if o ≤ a ∧ a < o + data.length then data.getD (a - o) 0 else Mem.read (s.mbox m).bulk a) ∧
      { t.mbox m with bulk := [] } = { s.mbox m with bulk := [] } ∧ (∀ k, k ≠ m → t.mbox k = s.mbox k) ∧
      { t with umpire := s.umpire } = s)) ∧
  (∀ (s : State) (off : Nat), s.fuses.valid = true → s.power.perstLow = false → isLowerHalf off = true →
    ∃ t, exec (.lowerHalfRead off) s = .next t ∧ t.regs.readData = some (BitVec.ofNat 32 (s.readReg off)) ∧
      { t with regs := s.regs } = s ∧ ∀ u : State, u.regs.latch = t.regs.latch → u.read4 (off + 4) = s.readReg (off + 4) % 2 ^ 32)

/-- DEBUG_DISABLE consists of bits [3:0] of byte 0x110: for every fuse state, debug is disabled exactly when one of these four bits
of the shadow of that byte is 1. -/
def Obligations.DebugDisableFuses : Prop :=  ∀ f : Fuses, f.debugDisabled = true ↔ ∃ i, i < 4 ∧ (f.shadow.read 0x110).getLsbD i = true

/-- For every global near channel g from 0 to 8,191: the register at 0x40000 + 4 g reads the channel's count; a corrected codeword of
section sec on channel c adds 1 to the count of channel 512 sec + c, saturating at 2^32 - 1, and to no other; a codeword without a
correction adds nothing; and a write of the register leaves the state as it is. -/
def Obligations.NearErrorCounters : Prop :=  (∀ (s : State) (g : Nat), g < 8192 → s.readReg (0x40000 + 4 * g) = Table.getD s.ras.ceNear g 0) ∧
  (∀ (s : State) (sec w : Nat) (d : Decoded), sec < 16 →
    let ch := 512 * sec + nearChannel w
    let t := s.recordCe (.near sec w) d
    (d.fixed = 0 → t = s) ∧
    (d.fixed ≠ 0 → ∀ g, g < 8192 → t.readReg (0x40000 + 4 * g) =
      if g = ch then min (s.readReg (0x40000 + 4 * g) + 1) 0xFFFFFFFF else s.readReg (0x40000 + 4 * g))) ∧
  (∀ (s : State) (g : Nat) (data : List Byte), g < 8192 → data.length = 4 → s.bar0Open (0x40000 + 4 * g) = true →
    exec (.registerWrite (0x40000 + 4 * g) data) s = .next s)

/-- Group burst index G of group g, with j = G mod 12, lies on channel 6 g + j / 2, subchannel j mod 2, local burst G / 12.  The
bursts of a block, at most four of them, of an extent without parity are consecutive in G within one group, and they lie on
distinct channels or subchannels, which one position carries. -/
def Obligations.GroupBurstMapping : Prop :=  (∀ g idx : Nat, ∃ j l, groupLoc g idx = .far g j l ∧ j = idx % 12 ∧ farChannel g j = 6 * g + (idx % 12) / 2 ∧
    j % 2 = idx % 12 % 2 ∧ l = idx / 12) ∧
  (∀ (x : Extent) (copy p b : Nat), x.prot ≠ .parity → copy < x.copies → groupsOf x.groups ≠ [] → p < x.pageCount → b < 256 → x.bursts ≤ 4 →
    ∃ g first, (x.blockRefs p b).map (x.burstLoc copy) = (List.range x.bursts).map (fun i => groupLoc g (first + i)) ∧
      ((x.blockRefs p b).map fun r => (x.burstLoc copy r).lane).Nodup)

/-- In every state: CAP_ID reads DEVICE_ID, STEPPING and REC_VERSION; DEV_STATUS holds SAFE_CAUSE; DEV_BEAT is two halves of the beat counter;
DEV_PICK reads PICKS_PER_BEAT and PICK_INDEX; an absent slot's three registers read 0, and SLOT_STS of a present slot reads its
state, presence and W1C bits at their places; TEL_POWER reads the last window's power; RAS_EVENT reads its bits.  An entry of the far
error table with LOCATION 0x0000_0C00_03B4_18B0 and HITS 5 reads as the bytes of the specification's worked example. -/
def Obligations.RegisterContents : Prop :=  (∀ s : State,
    s.readReg 0x0000 = 0x0C12 * 65536 + (s.fuses.shadow.read 7).toNat * 256 + 1 ∧
    s.readReg 0x1000 / 2 ^ 24 = s.safeCauseNow ∧ s.readReg 0x1004 % 256 / 2 = s.regs.event.toNat / 2 ∧
    (s.readReg 0x1004 % 2 = 1 ↔ s.ras.event ≠ 0) ∧ s.readReg 0x1008 = s.regs.eventIe.toNat ∧
    s.readReg 0x1018 + 2 ^ 32 * s.readReg 0x101C = s.beatNow.toNat ∧ s.readReg 0x1020 = s.time.cfg.picks * 65536 + s.time.idx ∧
    s.readReg 0x4000 = s.tel.power % 65536 ∧ s.readReg 0x6000 = s.ras.event.toNat ∧
    ∀ p, p < 6 →
      (s.hasPort p = false → s.readReg (0x3000 + 16 * p) = 0 ∧ s.readReg (0x3004 + 16 * p) = 0 ∧ s.readReg (0x3008 + 16 * p) = 0) ∧
      (s.hasPort p = true → s.readReg (0x3000 + 16 * p) = 0x8F18 + 4096 * p ∧
        s.readReg (0x3008 + 16 * p) / 2 ^ 28 = (s.slot p).st.code ∧ s.readReg (0x3008 + 16 * p) % 32 = (s.slot p).sts.toNat ∧
        bit (s.readReg (0x3008 + 16 * p)) 7 = (s.slot p).prsnt)) ∧
  (∀ s : State, s.ras.tabFar[2]? = some { loc := 0x00000C0003B418B0#64, hits := 5 } →
    s.readReg 0x6320 = 0x03B418B0 ∧ s.readReg 0x6324 = 0x00000C00 ∧ s.readReg 0x6328 = 5 ∧ s.readReg 0x632C = 0)

/-- State.reset is an expander whose internal reset has been released and whose firmware is not yet ready (that it is a PMK-12T-E as
shipped is log entry 2, a DESIGN CHOICE).  No context, lease, pin, request, draft or job exists, the sync state is FREE, the
slots are EMPTY without cage power, no port has keys or apertures, the mailboxes are owned by the Umpire and the queues are empty, SAFE,
the brace, STANDBY and the alerts are off, SAFE_N, ALERT_N and THERMTRIP_N are released and PWR_GOOD is high, DEV_EVENT, DEV_EVENT_IE, DEV_PWR_CTL,
DEV_BAD_ACCESS, RAS_EVENT and the error counts are 0, the plan is not yet loaded and the pending command queue is empty. -/
def Obligations.ResetState : Prop :=  let s := State.reset
  (s.power.stage = 7 ∧ s.umpire.ready = false ∧ s.umpire.starting = true ∧ s.pending = []) ∧
  (s.ctxs = [] ∧ s.leases = [] ∧ s.pins = [] ∧ s.reqs = [] ∧ s.loom.drafts = [] ∧ s.engines = List.replicate 8 none) ∧
  (s.time.sync = .free ∧ s.time.pick = 0 ∧ s.tier.beats = 0 ∧ s.tie.plan = none) ∧
  (∀ p, (s.slot p).st = .empty ∧ (s.slot p).pwrOn = false ∧ (s.slot p).ie = 0 ∧ (s.slot p).sts = 0 ∧ (s.port p).keyE = none ∧
    (s.port p).active = [] ∧ (s.port p).ctx = none) ∧
  (∀ m, m ∈ allMbx → (s.mbox m).owner = true ∧ (s.mbox m).done = false ∧ (s.mbox m).last = 0) ∧
  (s.power.safe = false ∧ s.power.safeCause = 0 ∧ s.power.braced = false ∧ s.power.standby = false ∧ s.power.safeN = true ∧
    s.power.alertN = true ∧ s.power.thermtripN = true ∧ s.power.pwrGood = true) ∧
  (s.readReg 0x1004 = 0 ∧ s.readReg 0x1008 = 0 ∧ s.readReg 0x100C = 0 ∧ s.readReg 0x1010 = 0 ∧ s.readReg 0x1038 = 0 ∧
    s.readReg 0x6000 = 0 ∧ s.readReg 0x6010 = 0 ∧ s.readReg 0x7000 / 2 ^ 24 = 0xFF)

/-- The checks of a request that arrives through a port, in order: SAFE; UNMAPPED with no enabled aperture over the address; UNMAPPED with no
such extent or none shared with the port; DENIED for a write without WR_EN, for a BOUND extent, for a write of a SEALED one, of a GEN window, or of a
page leased away; TORN for a read of a TORN block; else it is served at the aperture's offset.  RD64, RD256, WR64, WR256 and WRP take the front
record of the port when it is theirs, else nothing changes.  Without credit: a protocol error and DENIED; refused: a
completion with that status from the next pick on.  A request that is served, with no other one in the table and no damage, fill or failed channel,
stands in the table with its block, quarter, arrival pick and residency, and no completion is queued, unless it is a WR256 to a Satin
block that does not fit with no overflow entry free; a read of a page that is zero-on-read completes OK with zeros.  A WRP with a mask of 0
that is not refused for credit or damage counts a protocol error.  A FENCE with no earlier request completes OK.  The stored bytes of both tiers stay. -/
def Obligations.HostRequests : Prop :=  (∀ (s : State) (p addr : Nat) (write : Bool),
    let goes := fun (o : Access) => s.access p addr write = o
    (s.power.safe = true → goes (.refused stSafe)) ∧
    (s.power.safe = false →
      ((s.port p).active.find? (fun kv => kv.2.covers addr) = none → goes (.refused stUnmapped)) ∧
      ∀ i a, (s.port p).active.find? (fun kv => kv.2.covers addr) = some (i, a) →
        let off := addr - a.base + a.off * 2 ^ 21
        (s.ext? a.ext = none → goes (.refused stUnmapped)) ∧
        ∀ x, s.ext? a.ext = some x →
          (x.shares p s.time.pick = false → goes (.refused stUnmapped)) ∧
          (x.shares p s.time.pick = true →
            (write = true ∧ a.wrEn = false → goes (.refused stDenied)) ∧ (x.bound = true → goes (.refused stDenied)) ∧
            (write = true ∧ (x.sealed = true ∨ x.sealing = true ∨ a.gen = true ∨ s.leasedAway a.ext (off / 65536) (some p) = true) →
              goes (.refused stDenied)) ∧
            (write = false → x.bound = false → a.gen = true → goes (.served a.ext true off)) ∧
            (write = false → x.bound = false → a.gen = false →
              goes (if s.tornBlock a.ext (off / 256) then .refused stTorn else .served a.ext false off)) ∧
            (write = true → a.wrEn = true → x.bound = false → x.sealed = false → x.sealing = false → a.gen = false →
              s.leasedAway a.ext (off / 65536) (some p) = false → goes (.served a.ext false off))))) ∧
  (∀ (s : State) (p : Nat) (c : Instr) (code : Nat) (op : ReqOp), s.Shape → p < 6 →
    (c, code, op) ∈ [(Instr.rd64 p, 1, ReqOp.rd64), (.rd256 p, 2, .rd256), (.wr64 p, 3, .wr64), (.wr256 p, 4, .wr256), (.wrp p, 5, .wrp)] →
    ((s.port p).arrivals = [] → exec c s = .next s) ∧
    ∀ a rest, (s.port p).arrivals = a :: rest →
      let tag := a.rec_.toNat / 16 % 4096
      let addr := a.rec_.toNat / 2 ^ 18 * 64
      let queued := fun (t : State) (st : Nat) => ∃ k, (t.port p).cpls = (s.port p).cpls ++ [k] ∧ k.tag = tag ∧ k.status = st ∧
        k.data = none ∧ k.arrival = s.time.pick ∧ k.from_ = s.time.pick + 1 ∧ (t.port p).arrivals = rest ∧ t.reqs = s.reqs ∧
        s.SameTiers t ∧ t.exts = s.exts
      (a.rec_.toNat % 16 ≠ code → exec c s = .next s) ∧
      (a.rec_.toNat % 16 = code → s.tagOut p tag = false →
        (s.power.safe = true → ∃ t, exec c s = .next t ∧ queued t stSafe) ∧
        (s.power.safe = false → a.credit = false → ∃ t, exec c s = .next t ∧ queued t stDenied ∧
          (t.port p).protoErr = min ((s.port p).protoErr + 1) 0xFFFFFFFF) ∧
        (s.power.safe = false → a.credit = true → ((op = .rd256 ∨ op = .wr256) → addr % 256 = 0) → a.damaged = false →
          (∀ st, s.access p addr op.isWrite = .refused st → ∃ t, exec c s = .next t ∧ queued t st ∧
            (t.port p).protoErr = if op = .wrp ∧ le (slice a.data 64 8) = 0 then min ((s.port p).protoErr + 1) 0xFFFFFFFF
              else (s.port p).protoErr) ∧
          (∀ e x off, s.access p addr op.isWrite = .served e false off → s.ext? e = some x → s.reqs = [] → s.ras.damaged = [] →
            s.ras.work = [] → s.nor.failedCh = 0 → (op = .wrp → le (slice a.data 64 8) ≠ 0) →
            (op = .wr256 → s.chooseEntry e x (off / 256) a.data ≠ .full) →
            ((x.page (off / 65536)).zor = false → (x.page (off / 65536)).st = .settled → ∃ t r, exec c s = .next t ∧
              Table.get? t.reqs s.nextReq = some r ∧ r.op = op ∧ r.origin = .host p tag ∧ r.ext = e ∧ r.block = off / 256 ∧
              r.quarter = off / 64 % 4 ∧ r.arrival = s.time.pick ∧ r.near = (x.page (off / 65536)).near ∧ r.data = a.data ∧
              r.ro = a.rec_.getLsbD 16 ∧ (t.port p).cpls = (s.port p).cpls ∧ (t.port p).arrivals = rest ∧ s.SameTiers t) ∧
            ((x.page (off / 65536)).zor = true → (op = .rd64 ∨ op = .rd256) → ∃ t k, exec c s = .next t ∧
              (t.port p).cpls = (s.port p).cpls ++ [k] ∧ k.tag = tag ∧ k.status = stOk ∧
              k.data = some (zeros (if op = .rd64 then 64 else 256)) ∧ t.reqs = [] ∧ s.SameTiers t))))) ∧
  (∀ (s : State) (p : Nat) (a : Arrival) (rest : List Arrival), s.Shape → p < 6 → (s.port p).arrivals = a :: rest →
    a.rec_.toNat % 16 = 6 → a.credit = true → a.damaged = false → s.power.safe = false → s.reqs = [] →
    s.tagOut p (a.rec_.toNat / 16 % 4096) = false → ∃ t k, exec (.fence p) s = .next t ∧ (t.port p).arrivals = rest ∧ t.reqs = [] ∧
      (t.port p).cpls = (s.port p).cpls ++ [k] ∧ k.tag = a.rec_.toNat / 16 % 4096 ∧ k.status = stOk ∧ k.data = none ∧ s.SameTiers t)

/-- An MBX read at the front of a port's records, with credit, of a chunk below 4,096, with no other request and outside SAFE,
completes OK with the 256 bytes of the mailbox image there; an MBX write completes OK, and the mailbox becomes what a write of its 256 bytes at that
offset makes of it.  Without credit, or of an address that is not a chunk of the image, they complete DENIED and count a
protocol error.  A host completion whose tag no expander read has is discarded and counted.  A completion with data, in its opened slot, of a
read of a plain pull leaves the tag free and gives the engine's write of that block to the pool; a dataless one leaves the tag free. -/
def Obligations.MailboxRecordsAndHostCompletions : Prop :=  ∀ (s : State) (p : Nat) (a : Arrival) (rest : List Arrival), s.Shape → p < 6 → (s.port p).arrivals = a :: rest →
    let w := a.rec_.toNat
    let tag := w / 16 % 4096
    let addr := w / 2 ^ 18 * 64
    let m : Mbx := .port p
    (w % 16 = 7 → s.tagOut p tag = false → s.power.safe = false →
      let c : Instr := if a.rec_.getLsbD 17 then .mbxWrite p else .mbxRead p
      let okRec := a.credit = true ∧ addr % 256 = 0 ∧ addr < 4096
      (¬ okRec → ∃ t k, exec c s = .next t ∧ (t.port p).cpls = (s.port p).cpls ++ [k] ∧ k.tag = tag ∧ k.status = stDenied ∧
        (t.port p).protoErr = min ((s.port p).protoErr + 1) 0xFFFFFFFF ∧ t.umpire = s.umpire ∧ t.reqs = s.reqs) ∧
      (okRec → a.damaged = false → s.reqs = [] → ∃ t k, exec c s = .next t ∧ (t.port p).arrivals = rest ∧ t.reqs = [] ∧
        (t.port p).cpls = (s.port p).cpls ++ [k] ∧ k.tag = tag ∧ k.status = stOk ∧ s.SameTiers t ∧
        (a.rec_.getLsbD 17 = false → k.data = some (s.imageBytes m addr 256) ∧ t.umpire = s.umpire) ∧
        (a.rec_.getLsbD 17 = true → k.data = none ∧ t.mbox m = (s.writeImage m addr (a.data.take 256)).mbox m))) ∧
    ((w % 16 = 8 ∨ w % 16 = 9) →
      let c : Instr := if w % 16 = 9 then .hostCplD p else .hostCpl p
      (Table.get? (s.port p).rdTags tag = none → exec c s = .next { s with ports := s.ports.set p { s.port p with
        arrivals := rest, protoErr := min ((s.port p).protoErr + 1) 0xFFFFFFFF } }) ∧
      ∀ r, Table.get? (s.port p).rdTags tag = some r → a.credit = true →
        (∃ t, exec c s = .next t ∧ Table.get? (t.port p).rdTags tag = none ∧ (t.port p).arrivals = rest ∧ s.SameTiers t) ∧
        ∀ j cur e x off, w % 16 = 9 → w / 2 ^ 16 % 16 = stOk → a.damaged = false → r.engine < 8 → r.block < 2 ^ 32 → s.engine r.engine = some j → j.cur = some cur →
          cur.conf = false → cur.fail = none → s.extentAt (cur.d.dst + 256 * r.block) = some (e, x, off) → x.st = .granted →
          x.sealed = false → x.sealing = false → s.leases = [] →
          ∃ t q, exec c s = .next t ∧ Table.get? t.reqs s.nextReq = some q ∧ q.op = .wr256 ∧ q.origin = .shuttle r.engine r.block ∧
            q.ext = e ∧ q.block = off / 256 ∧ q.data = slice a.data 0 256)

/-- With one request of a host in the table, to a Plain extent without protection or damage.  TIER_ACCESS_ISSUE of a near position of its
port, free in this pick, in a pick no later than its last start: its near read takes the bytes that the unit holds there, and no stored byte
changes; its released whole write leaves its bytes in the unit there, for the accesses of later positions, and no other stored byte
changes.  READ_DATA_DELIVERED completes a read of a block OK with the decrypted bytes that it took, whatever the unit holds by then.
WRITE_COMMIT of a whole write that has taken its position completes it OK, and the page is DIRTY.  LATE_CEILING of a request that has not
started by its last start pick completes a read LATE, to leave twelve picks after its arrival; a write is LATE from then on and completes in
pick a + 12.  Before that, and once the request has started, nothing changes.  Without the request, nothing changes. -/
def Obligations.TierAccesses : Prop :=  (∀ (s : State) (id p tag : Nat) (r : Req) (x : Extent) (q : Position), s.reqs = [(id, r)] → r.origin = .host p tag → s.Shape → p < 6 →
    s.ext? r.ext = some x → x.cls = .plain → x.prot = .none → r.near = true → r.gen = false → r.entry = none → Table.get? x.ovf r.block = none →
    s.ras.damaged = [] → s.ras.work = [] →
    let l := r.nearLoc x
    let done := fun (t : State) (st : Nat) (data : Option (List Byte)) => t.reqs = [] ∧ ∃ k, (t.port p).cpls = (s.port p).cpls ++ [k] ∧
      k.tag = tag ∧ k.status = st ∧ k.data = data ∧ k.arrival = r.arrival
    let mine := q.tier = .near ∧ l.home = (.near, q.unit) ∧ s.tiersOpen = true ∧ s.ownerAt q = p + 1 ∧ s.lanesAt q = some [] ∧
      s.time.pick ≤ r.arrival + 10 ∧ r.started = false ∧ r.late = false ∧ r.flying = [] ∧ r.flyingW = [] ∧ r.snap = [] ∧ r.lastRead = none
    (mine → (r.op = .rd64 ∨ r.op = .rd256) → r.planned = false → (x.page r.page).zor = false → (x.page r.page).st = .settled →
      ∃ t, exec (.tierAccessIssue q) s = .next t ∧ t.reqs = [(id, { r with
          phases := [.read []], flying := [l], snap := [(l, s.stored l)], issued := some (true, s.time.pick, q.pos), started := true
          planned := true })] ∧
        t.lanesAt q = some [l.lane] ∧ s.SameTiers t ∧ t.exts = s.exts) ∧
    (∀ blk, mine → r.op = .wr256 → r.planned = true → r.phases = [.write [{ loc := l, off := 0, bytes := blk }]] → blk.length = 256 →
      Mem.wf s.nearMem = true →
      ∃ t, exec (.tierAccessIssue q) s = .next t ∧ t.reqs = [(id, { r with
          phases := [.write []], flyingW := [{ loc := l, off := 0, bytes := blk }], issued := some (true, s.time.pick, q.pos)
          started := true })] ∧
        t.lanesAt q = some [l.lane] ∧ (t.stored l).take 256 = blk ∧ t.farMem = s.farMem ∧ t.exts = s.exts ∧
        ∀ a, a < l.addr ∨ l.addr + 272 ≤ a → t.nearMem.read a = s.nearMem.read a) ∧
    (∀ raw d k, r.op = .rd256 → r.flying = [l] → r.phases = [.read []] → r.issued = some (true, s.time.pick, k) → r.got = [] →
      r.snap = [(l, raw)] → r.orphan = false → s.tiersOpen = true → s.decodeUnit l raw = some d → d.mark = 0 → x.unlisted = [] →
      ∃ t, exec (.readDataDelivered id []) s = .next t ∧ done t stOk (some (s.unseal x r.block false (slice d.data 0 256))) ∧ s.SameTiers t) ∧
    (∀ blk k, r.op = .wr256 → r.flyingW = [{ loc := l, off := 0, bytes := blk }] → r.phases = [.write []] → r.merged.isSome = true →
      r.issued = some (true, s.time.pick, k) → r.visible = false → r.orphan = false → s.tiersOpen = true → s.tier.copies = [] →
      s.tier.fills = [] → s.leases = [] → (x.page r.page).near = true →
      ∃ t y, exec (.writeCommit id) s = .next t ∧ done t stOk none ∧ s.SameTiers t ∧ t.ext? r.ext = some y ∧ (y.page r.page).dirty = true) ∧
    ((r.op.isRead = true ∨ r.op.isWrite = true) → r.orphan = false →
      let over_ := r.late = true ∨ r.arrival + s.lastStart (s.wouldBe r) < s.time.pick
      (r.started = false → over_ → (r.op.isRead = true ∨ r.arrival + 12 ≤ s.time.pick) →
        ∃ t, exec (.lateCeiling id) s = .next t ∧ done t stLate none ∧ s.SameTiers t ∧
          ∀ k ∈ (t.port p).cpls, k ∈ (s.port p).cpls ∨ k.from_ = r.arrival + 12) ∧
      (r.started = false → over_ → r.op.isWrite = true → s.time.pick < r.arrival + 12 →
        exec (.lateCeiling id) s = .next { s with reqs := [(id, { r with late := true })] }) ∧
      (r.started = true ∨ ¬ over_ → exec (.lateCeiling id) s = .next s))) ∧
  (∀ (s : State) (id : Nat) (errs : List CellError), Table.get? s.reqs id = none →
    exec (.readDataDelivered id errs) s = .next s ∧ exec (.writeCommit id) s = .next s ∧ exec (.lateCeiling id) s = .next s) ∧
  (∀ (s : State) (q : Position), s.tiersOpen = false → exec (.tierAccessIssue q) s = .next s)

/-- INGRESS_FRAME of a port in TRAINING counts a protocol error and is dropped; of a port without a link it changes nothing.  With a link, a whole
plaintext frame outside confidential mode, whose FRAME a recent egress HEAD carried and that is above the last taken, adds its
corrected codewords, ends the run of bad frames and appends the records of its flits to the arrivals; one out of order, one in plaintext that
must be encrypted, and one encrypted without a key count a protocol error alone.  A frame whose HEAD is lost only counts, the eighth bad frame in a row is a
link failure, and so is the fourth tag failure in a row; an earlier tag failure is counted and no record arrives.  In a
record flit, a read takes RD_CREDIT, a write needs its granted slot, a completion with data its opened slot, an EVT and a reserved opcode count a
protocol error.  REKEY in confidential mode at a FRAME that is a multiple of 2^23 moves the key to the next generation, else nothing
changes; CONF_START sets CONF once FRAME has reached the first one allowed. -/
def Obligations.LinkFrames : Prop :=  (∀ (s : State) (p : Nat) (f : RxFrame), s.Shape → p < 6 →
    let q := s.port p
    let k := le (slice f.bytes 8 8)
    let conf := bit (f.bytes.getD 0 0).toNat 3
    let becomes := fun (c : Instr) (q' : Port) => ∃ t, exec c s = .next t ∧ t.port p = q' ∧ (∀ i, i ≠ p → t.port i = s.port i) ∧
      t.setPorts s.ports = s
    let counted := { q with fecCorr := q.fecCorr + BitVec.ofNat 64 f.corrected, fecUncorr := q.fecUncorr + BitVec.ofNat 64 f.uncorr }
    let fault := fun (q : Port) => { q with protoErr := min (q.protoErr + 1) 0xFFFFFFFF }
    let inOrder := (Table.get? q.grants k).isSome = true ∧ ∀ l, q.rxFrame = some l → l < k
    let clean := f.uncorr = 0 ∧ f.badFlits = []
    ((s.slot p).st = .training → becomes (.ingressFrame p f) (fault q)) ∧
    ((s.slot p).st ≠ .training → s.linkUp p = false → exec (.ingressFrame p f) s = .next s) ∧
    (s.linkUp p = true →
      (clean → ¬ inOrder → becomes (.ingressFrame p f) (fault { counted with badRun := 0 })) ∧
      (clean → inOrder → conf = false → (∃ k0, q.conf = true ∧ q.confFrom = some k0 ∧ k0 ≤ k) →
        becomes (.ingressFrame p f) (fault { counted with badRun := 0 })) ∧
      (clean → inOrder → conf = true → q.keyI = none → becomes (.ingressFrame p f) (fault { counted with badRun := 0 })) ∧
      (∀ g, clean → inOrder → conf = false → q.conf = false → Table.get? q.grants k = some g →
        let r := parseFrame g s.time.pick f f.bytes false q.width
        becomes (.ingressFrame p f) { counted with
          badRun := 0, tagRun := 0, rxFrame := some k, grants := q.grants.filter fun kv => k < kv.1
          arrivals := q.arrivals ++ r.out, protoErr := min (q.protoErr + r.errs) 0xFFFFFFFF }) ∧
      (clean → inOrder → conf = true → q.keyI.isSome = true → Port.openFrame q p f.bytes = none → q.tagRun < 3 →
        ∃ t, exec (.ingressFrame p f) s = .next t ∧ (t.port p).tagFail = min (q.tagFail + 1) 0xFFFFFFFF ∧
          (t.port p).tagRun = q.tagRun + 1 ∧ (t.port p).arrivals = q.arrivals ∧ (t.port p).rxFrame = q.rxFrame) ∧
      (0 ∈ f.badFlits → q.badRun < 7 → becomes (.ingressFrame p f) { counted with badRun := q.badRun + 1 }) ∧
      (¬ clean → 7 ≤ q.badRun → s.power.safe = false → (s.slot p).st = .up →
        ∃ t, exec (.ingressFrame p f) s = .next t ∧ (t.slot p).st = .training ∧ (t.port p).keyE = none ∧ (t.port p).arrivals = [])) ∧
    (let due := q.conf = true ∧ q.txFrame % 2 ^ 23 = 0 ∧ q.rekeyAt ≠ some q.txFrame
     (due → becomes (.rekey p) { q with
        keyE := q.keyE.map fun key => hmac key (ascii "SEJOR-REKEY" ++ toLe 1 0 ++ toLe 1 p ++ toLe 8 (q.genE + 1))
        genE := q.genE + 1, keyPhase := (q.genE + 1) % 2 == 1, rekeyAt := some q.txFrame }) ∧
     (¬ due → becomes (.rekey p) q)) ∧
    (∀ k0, q.confFrom = some k0 → q.conf = false → k0 ≤ q.txFrame →
      becomes (.confStart p) { q with conf := true, confFrom := some q.txFrame }) ∧
    ((q.confFrom = none ∨ q.conf = true ∨ ∃ k0, q.confFrom = some k0 ∧ q.txFrame < k0) → becomes (.confStart p) q)) ∧
  (∀ (g : Grant) (pick i : Nat) (w : W64) (data : List Byte) (bad : Bool) (a : Parse), a.skip = false →
    let o := w.toNat % 16
    let arr : Arrival := { rec_ := w, data := data, slot := some i, damaged := bad, credit := true, pick := pick }
    let r := parseRecord g pick w (some i) data bad a
    (o = 0 → data = zeros 256 → r = a) ∧
    (o = 1 ∨ o = 2 ∨ o = 6 → r = { a with out := a.out ++ [{ arr with credit := decide (0 < a.credit), damaged := false }]
                                          credit := a.credit - 1 }) ∧
    (o = 3 ∨ o = 4 ∨ o = 5 → r = { a with out := a.out ++ [{ arr with credit := decide (i ∈ g.host) }] }) ∧
    (o = 9 → r = { a with out := a.out ++ [{ arr with credit := decide (i ∈ g.cpl) }] }) ∧
    (o = 10 → r = { a with errs := a.errs + 1, skip := true }) ∧ (10 < o → r = { a with errs := a.errs + 1 }))

/-- The lowest free run of a section is aligned, lies in the section, meets no run in use, and is the lowest such run.  PROMOTION_PLACE of the
first queued page, whose block 0 lies in the position's group, in a migration position with room for a copy: with a free run in the
page's section the page is PROMOTING to it and its copy starts; else with victims they are marked for eviction and the page waits
for their run; else the page is SETTLED and the promotion counts as blocked; of the other entries at most eviction marks that nothing waits for go.
EVICTION_START of a marked, unpinned, SETTLED near page, in a near migration
position of its section: EVICTING, and a copy starts, which a clean page has done at once.  RESIDENCE_SWITCH, at a pick boundary, of a copy that
completed in an earlier pick: the page is SETTLED, near at the destination or far, the copy is gone, and the move is counted; a read that has
not started goes on at the new residence (DESIGN CHOICE, log entry 23).  No stored byte changes. -/
def Obligations.Migration : Prop :=  (∀ (s : State) (sec f run : Nat), 0 < f → s.freeRun sec f = some run →
    let lo := 253952 * sec
    let fits := fun (a : Nat) => a % f = 0 ∧ lo ≤ a ∧ a + f ≤ lo + 253952 ∧ ∀ u ∈ s.usedRuns, overlap u (a, f) = false
    fits run ∧ ∀ a, fits a → run ≤ a) ∧
  (∀ (s : State) (g pos : Nat) (q : Promo) (rest : List Promo) (x : Extent), s.backgroundOn = true →
    s.farOwner s.pattern g pos = 0x10 → s.mayStart = true → s.tier.queue = q :: rest → q.wait = none → s.ext? q.ext = some x →
    s.sourceGroup q.ext q.page = some g →
    let h := x.targetSection q.page
    let unmarked := fun (pg : Page) => { pg with evict := false }
    let gone := rest.filter fun r => !(r.ext == q.ext && r.page == q.page)
    (∀ run, s.freeRun h x.frames = some run → ∃ t y, exec (.promotionPlace g pos) s = .next t ∧ t.tier.queue = gone ∧
      Table.get? t.tier.copies s.tier.nextCopy = some { ext := q.ext, page := q.page, kind := .promote, dest := run, src := 0 } ∧
      t.ext? q.ext = some y ∧ unmarked (y.page q.page) = unmarked { x.page q.page with st := .promoting, slot := run } ∧
      (∀ p, p ≠ q.page → unmarked (y.page p) = unmarked (x.page p)) ∧ s.SameTiers t) ∧
    (∀ v, s.freeRun h x.frames = none → s.victimRun h x.frames = some v → ∃ t, exec (.promotionPlace g pos) s = .next t ∧
      t.tier.queue.head? = some { q with wait := some v.start } ∧ (∀ ep ∈ v.victims, (t.page ep.1 ep.2).evict = true) ∧
      t.tier.copies = s.tier.copies ∧ s.SameTiers t) ∧
    (s.freeRun h x.frames = none → s.victimRun h x.frames = none → ∃ t y, exec (.promotionPlace g pos) s = .next t ∧
      t.tier.queue = gone ∧ t.tier.blocked = s.tier.blocked + 1 ∧ t.ext? q.ext = some y ∧
      unmarked (y.page q.page) = unmarked { x.page q.page with st := .settled } ∧ t.tier.copies = s.tier.copies ∧ s.SameTiers t)) ∧
  (∀ (s : State) (e p : Nat) (q : Position) (x : Extent), s.ext? e = some x →
    let pg := x.page p
    let mine := s.backgroundOn = true ∧ s.ownerAt q = 0x10 ∧ q.tier = .near ∧ (s.lanesAt q).isSome = true ∧ pg.near = true ∧
      pg.slot / 253952 = q.unit ∧ pg.evict = true ∧ pg.pin = false ∧ pg.st = .settled
    let starts := fun (c : Copy) => ∃ t y, exec (.evictionStart e p q) s = .next t ∧ t.ext? e = some y ∧
      y.page p = { pg with st := .evicting, evict := false } ∧ Table.get? t.tier.copies s.tier.nextCopy = some c ∧ s.SameTiers t
    (mine → pg.dirty = true → s.mayStart = true → starts { ext := e, page := p, kind := .evict, dest := 0, src := pg.slot }) ∧
    (mine → pg.dirty = false →
      starts { ext := e, page := p, kind := .evict, dest := 0, src := pg.slot, done := true, donePick := s.time.pick }) ∧
    (¬ mine → exec (.evictionStart e p q) s = .next s)) ∧
  (∀ (s : State) (id : Nat) (c : Copy) (x : Extent), Table.get? s.tier.copies id = some c → s.ext? c.ext = some x →
    let pg := x.page c.page
    (c.done = true → c.donePick < s.time.pick → s.pickFresh = true → s.reqs = [] → s.pins = [] → s.power.safe = false →
      ∃ t y, exec (.residenceSwitch id) s = .next t ∧ Table.get? t.tier.copies id = none ∧ t.ext? c.ext = some y ∧ s.SameTiers t ∧
        (c.kind = .evict → y.page c.page = { pg with near := false, slot := 0, st := .settled, dirty := false, evict := false } ∧
          t.tier.evictions = s.tier.evictions + 1 ∧ t.tier.promotions = s.tier.promotions) ∧
        (c.kind = .promote ∨ c.kind = .pinCopy →
          y.page c.page = { pg with near := true, slot := c.dest, st := .settled, dirty := false, evict := false } ∧
          t.tier.promotions = s.tier.promotions + 1 ∧ t.tier.evictions = s.tier.evictions) ∧
        (c.kind = .move → y.page c.page = { pg with near := true, slot := c.dest, st := .settled, evict := false } ∧
          t.tier.promotions = s.tier.promotions ∧ t.tier.evictions = s.tier.evictions)) ∧
    ((c.done = false ∨ s.time.pick ≤ c.donePick ∨ s.pickFresh = false ∨ s.power.safe = true) → exec (.residenceSwitch id) s = .next s)) ∧
  (∀ (s : State) (id : Nat) (r : Req) (x : Extent), s.reqs = [(id, r)] → s.ext? r.ext = some x → r.op.isRead = true → r.gen = false →
    (s.retargetPage r.ext r.page).reqs =
      [(id, if r.started then r else { r with near := (x.page r.page).near, slot := (x.page r.page).slot })])

/-- In a free migration position with background work on.  PAGE_COPY_STEP, with one copy in flight that may read blocks there: the copy holds
the leading ones of these blocks that need no redundancy read first, all of them where the page is unprotected or the source is near, and
goes on after them, and no stored byte changes; one that reads a part of a block there goes on with that block; one that may
write blocks there has written them, it is done after the last of 256, and a promotion leaves the far tier as it is, an eviction the near
tier.  ZFILL_STEP, with one fill in flight that can use the position: with all 256 blocks written and nothing owed the fill ends and its
page is SETTLED, else it goes on; the fill of a far page leaves the near tier as it is, that of a near page without protection the far
tier, and there the blocks whose slots it writes are the ones that become filled.  Elsewhere nothing changes. -/
def Obligations.CopiesAndFills : Prop :=  (∀ (s : State) (q : Position) (id : Nat) (c : Copy) (x : Extent), s.positionOf q 0x10 = some [] → s.backgroundOn = true →
    s.inFlight = [(id, true)] → Table.get? s.tier.copies id = some c → s.ext? c.ext = some x →
    (∀ b bs ls, s.copyWork c q [] = (b :: bs, ls, []) →
      ∃ t c' k, exec (.pageCopyStep q []) s = .next t ∧ Table.get? t.tier.copies id = some c' ∧ k ≤ bs.length + 1 ∧
        (x.prot = .none ∨ c.fromNear = true → k = bs.length + 1) ∧ c'.next = c.next + k ∧
        c'.held.map (·.1) = c.held.map (·.1) ++ (b :: bs).take k ∧ c'.wr = c.wr ∧ c'.done = c.done ∧ s.SameTiers t) ∧
    (∀ l ls, s.copyWork c q [] = ([], l :: ls, []) →
      ∃ t c', exec (.pageCopyStep q []) s = .next t ∧ Table.get? t.tier.copies id = some c' ∧ c'.next = c.next ∧
        c'.held = c.held ∧ c'.wr = c.wr ∧ c'.done = c.done ∧ s.SameTiers t) ∧
    (∀ b bs, s.copyWork c q [] = ([], [], b :: bs) →
      ∃ t c', exec (.pageCopyStep q []) s = .next t ∧ Table.get? t.tier.copies id = some c' ∧ c'.wr = c.wr + (bs.length + 1) ∧
        (c'.done = true ↔ 256 ≤ c.wr + (bs.length + 1)) ∧ (c.kind ≠ .evict → t.farMem = s.farMem) ∧
        (c.kind = .evict → t.nearMem = s.nearMem))) ∧
  (∀ (s : State) (q : Position) (i : Nat) (f : Fill) (x : Extent), s.tier.fills = [(i, f)] → s.ext? f.ext = some x →
    (∀ u g, s.positionOf q 0x10 = some [] → s.backgroundOn = true → s.inFlight = [(f.order, false)] → s.pins = [] → s.reqs = [] →
      s.fillServe i f x q [] = some u → Table.get? u.tier.fills i = some g →
      let ends := g.bits = BitVec.allOnes 256 ∧ g.owed = []
      ∃ t, exec (.zfillStep q) s = .next t ∧ (¬ ends → t.tier.fills = [(i, g)]) ∧
        (ends → t.tier.fills = [] ∧ (t.page f.ext f.page).st = .settled) ∧
        ((x.page f.page).near = false → t.nearMem = s.nearMem) ∧
        ((x.page f.page).near = true → x.prot = .none → t.farMem = s.farMem)) ∧
    (∀ b bs, q.tier = .near → (x.page f.page).near = true → x.prot = .none → s.fillNear x f q [] = b :: bs →
      ∃ u g, s.fillServe i f x q [] = some u ∧ Table.get? u.tier.fills i = some g ∧ g.owed = f.owed ∧
        ∀ k, k < 256 → g.bits.getLsbD k = (f.bits.getLsbD k || (b :: bs).contains k || f.done.contains (0, k)))) ∧
  (∀ (s : State) (q : Position) (errs : List CellError), (s.positionOf q 0x10 = none ∨ s.backgroundOn = false) →
    exec (.pageCopyStep q errs) s = .next s ∧ exec (.zfillStep q) s = .next s)

/-- RANK_POWER_DOWN, with PD_EN, of an unused rank of a working present channel that has been idle for IDLE_PICKS picks, outside self-refresh: the
rank is down; else nothing changes.  MR4_READ at least 1,024 picks after the last one sets the ranks that refresh at the high
rate, those of absent groups left out; earlier it changes nothing.  CLEAR_OVERWRITE_STEP of a far scrub position, for the one extent that clears,
with its cursor at a row of the group: the row's twelve bursts hold zero data, no other far byte and no near byte changes, and the
cursor moves on one row; after the last row the extent is UNGRANTED. -/
def Obligations.FarUpkeep : Prop :=  (∀ (s : State) (ch sub rank : Nat),
    let r := (ch * 2 + sub) * 2 + rank
    let may := s.far.pdEn = true ∧ max 1 s.far.idlePicks ≤ s.time.pick - Table.getD s.far.idle r 0 ∧ r ∉ s.far.down ∧ r ∉ s.far.used ∧
      s.hasGroup (ch / 6) = true ∧ s.nor.failedCh.getLsbD ch = false ∧ s.power.selfRefresh = false
    (may → exec (.rankPowerDown ch sub rank) s = .next { s with far := { s.far with down := r :: s.far.down } }) ∧
    (¬ may → exec (.rankPowerDown ch sub rank) s = .next s)) ∧
  (∀ (s : State) (hot : List (Nat × Nat × Nat)),
    (s.time.pick < s.far.mr4Pick + 1024 → exec (.mr4Read hot) s = .next s) ∧
    (s.far.mr4Pick + 1024 ≤ s.time.pick → exec (.mr4Read hot) s = .next { s with far := { s.far with
      fastRef := (hot.filter fun h => s.hasGroup (h.1 / 6)).map fun h => (h.1 * 2 + h.2.1) * 2 + h.2.2, mr4Pick := s.time.pick } })) ∧
  (∀ (s : State) (q : Position) (e : Nat) (x : Extent) (c : Clear) (n : Nat), s.positionOf q 0x11 = some [] → s.scrubWrites .far = true →
    q.tier = .far → s.exts = [(e, x)] → x.clear = some c → c.far = [(q.unit, n)] → c.skip = [] → c.owed = [] → c.frames = [] →
    x.looseFrames = [] → x.st = .clearing → s.reqs = [] → s.ras.initCursor = [] → s.ras.work = [] → s.nor.failedCh = 0 → s.ras.failing = 0 →
    Mem.wf s.farMem = true → n % 12 = 0 →
    let stop := (x.unitBase q.unit + x.units) * 3072
    n < stop → ∃ t y, exec (.clearOverwriteStep q) s = .next t ∧ t.ext? e = some y ∧ t.nearMem = s.nearMem ∧
      (n + 12 < stop → y.clear = some { c with far := [(q.unit, n + 12)] } ∧ y.st = .clearing) ∧
      (n + 12 = stop → y.clear = none ∧ y.st = .ungranted) ∧
      (∀ j, j < 12 → (t.stored (.far q.unit j (n / 12))).take 64 = zeros 64) ∧
      (∀ a, (∀ j, j < 12 → a < (Loc.far q.unit j (n / 12)).addr ∨ (Loc.far q.unit j (n / 12)).addr + 80 ≤ a) →
        t.farMem.read a = s.farMem.read a)) ∧
  (∀ (s : State) (q : Position), (s.positionOf q 0x11 = none ∨ s.scrubWrites q.tier = false) → exec (.clearOverwriteStep q) s = .next s)

/-- SCRUB_STEP_DUE of a scrubber whose next step is due and whose pass has not ended adds one due step, else nothing changes.
SCRUB_STEP in a free scrub position of a scrubber with a due step, with no rebuild, clearing or twin to serve there, does that step, and the
pass of the scrubber ends with its last one; without new errors no stored byte changes.  REBUILD_READ of a rebuild whose first source
reads clean there: the rebuild holds its data.  REBUILD_WRITE of such a rebuild after the gap: the queue is empty, the unit's data bytes are
that data, and its blocks are to be checked at the next boundary.  DEVICE_MARK of a device with 4,096 corrections in the pass, in a rank
without a mark, marks it in the NOR and sets DEV_MARK; CHANNEL_FAIL by ALERT_n, or with a second mark due, of a present channel that has not failed makes
it fail; else they change nothing.  At the next boundary a channel that fails has its bit in the NOR and CH_FAIL, its ranks are powered down
and its rebuilds dropped. -/
def Obligations.ScrubAndMarks : Prop :=  (∀ (s : State) (t : Tier) (u : Nat),
    let p := s.patrol t u
    let due := s.scrubber t u = true ∧ p.ended = false ∧ p.step + p.due < patrolSteps t ∧ s.stepDue t (p.step + p.due) ≤ s.time.pick
    (due → ∃ s', exec (.scrubStepDue t u) s = .next s' ∧ s'.patrol t u = { p with due := p.due + 1 } ∧ { s' with ras := s.ras } = s) ∧
    (¬ due → exec (.scrubStepDue t u) s = .next s)) ∧
  (∀ (s : State) (q : Position), s.positionOf q 0x11 = some [] → s.scrubOn = true → s.scrubber q.tier q.unit = true →
    s.workClaims q = false → s.clearClaims q = false → (q.tier = .far → s.twinsDue q.unit = []) →
    let p := s.patrol q.tier q.unit
    (p.due = 0 ∨ p.ended = true → exec (.scrubStep q []) s = .next s) ∧
    (p.due ≠ 0 → p.ended = false → ∃ t, exec (.scrubStep q []) s = .next t ∧ (t.patrol q.tier q.unit).step = p.step + 1 ∧
      (t.patrol q.tier q.unit).due = p.due - 1 ∧
      ((t.patrol q.tier q.unit).ended = true ↔ p.step + 1 = (if q.tier = .near then 32768 else 2 ^ 32)) ∧ s.SameTiers t)) ∧
  (∀ (s : State) (q : Position) (l : Loc) (src : List Loc) (more : List (List Loc)), s.positionOf q 0x11 = some [] → s.scrubOn = true →
    s.ras.work = [.rebuild l 0 none none] → s.sources l = src :: more → src ≠ [] → laneFree q [] src = true → s.reqs = [] →
    (∀ k ∈ src, ∃ d, s.readUnit k = some d ∧ d.mark = 0 ∧ d.fixed = 0) →
    ∃ t data, exec (.rebuildRead q []) s = .next t ∧
      t.ras.work = [.rebuild l 0 (some data) (some (q.tier == .near, s.time.pick, q.pos))] ∧ s.SameTiers t) ∧
  (∀ (s : State) (q : Position) (l : Loc) (k : Nat) (d : List Byte) (a : Bool × Nat × Nat), s.positionOf q 0x11 = some [] →
    s.scrubWrites q.tier = true → s.ras.work = [.rebuild l k (some d) (some a)] → l.home = (q.tier, q.unit) →
    gapOk (some a) (q.tier == .near, s.time.pick, q.pos) = true → s.reqs = [] → s.locDead l = false → d.length = l.dataSize → s.TiersOk →
    ∃ t, exec (.rebuildWrite q) s = .next t ∧ t.ras.work = [] ∧ (t.stored l).take l.dataSize = d ∧
      t.umpire.deferred = s.umpire.deferred ++ (s.unitBlocks (s.useOf l)).map fun eb =>
        .undamage eb.1 eb.2 (if q.tier = .near then s.time.pick + 1 else s.time.pick + 2)) ∧
  (∀ (s : State) (ch sub rank dev : Nat),
    let r := (ch * 2 + sub) * 2 + rank
    let due := 4096 ≤ Table.getD s.ras.devCount (r * 10 + dev) 0 ∧ dev < 10 ∧ Table.get? s.nor.devMarks r = none
    (due → ∃ t, exec (.deviceMark ch sub rank dev) s = .next t ∧ Table.get? t.nor.devMarks r = some dev ∧
      (∀ k, k ≠ r → Table.get? t.nor.devMarks k = Table.get? s.nor.devMarks k) ∧ t.ras.event.getLsbD 2 = true ∧ s.SameTiers t ∧
      t.exts = s.exts) ∧
    (¬ due → exec (.deviceMark ch sub rank dev) s = .next s)) ∧
  (∀ (s : State) (ch : Nat) (alert : Bool),
    let fails := ch < 24 ∧ s.nor.failedCh.getLsbD ch = false ∧ s.ras.failing.getLsbD ch = false ∧ s.hasGroup (ch / 6) = true ∧
      (alert = true ∨ s.secondMark ch = true)
    (fails → exec (.channelFail ch alert) s = .next { s with ras := { s.ras with
      failing := s.ras.failing ||| BitVec.ofNat 24 (2 ^ ch) } }) ∧
    (¬ fails → exec (.channelFail ch alert) s = .next s)) ∧
  (∀ s : State, s.ras.failing ≠ 0 →
    let t := s.channelsFail
    t.nor.failedCh = s.nor.failedCh ||| s.ras.failing ∧ t.ras.failing = 0 ∧ t.ras.event.getLsbD 3 = true ∧
      (∀ ch i, ch < 24 → i < 4 → s.ras.failing.getLsbD ch = true → ch * 4 + i ∈ t.far.down) ∧
      (∀ w ∈ t.ras.work, ∀ l, w.unit = some l → t.locFailed l = false) ∧ s.SameTiers t ∧ t.exts = s.exts)
end

