-- ==== Sys2Proof/Laws/State.lean ====
section
/-! SUPPORT. What each named update of the state leaves in each field: one equation per update and field, so that no proof
unfolds a record update. -/

namespace Sys2Proof.Machine

variable (s : State)

/-! ### modExt -/

@[simp] theorem State.modExt_time (e : Nat) (f : Extent → Extent) : (s.modExt e f).time = s.time := rfl
@[simp] theorem State.modExt_tie (e : Nat) (f : Extent → Extent) : (s.modExt e f).tie = s.tie := rfl
@[simp] theorem State.modExt_exts (e : Nat) (f : Extent → Extent) : (s.modExt e f).exts = Table.modify s.exts e f := rfl
@[simp] theorem State.modExt_ctxs (e : Nat) (f : Extent → Extent) : (s.modExt e f).ctxs = s.ctxs := rfl
@[simp] theorem State.modExt_leases (e : Nat) (f : Extent → Extent) : (s.modExt e f).leases = s.leases := rfl
@[simp] theorem State.modExt_pins (e : Nat) (f : Extent → Extent) : (s.modExt e f).pins = s.pins := rfl
@[simp] theorem State.modExt_tier (e : Nat) (f : Extent → Extent) : (s.modExt e f).tier = s.tier := rfl
@[simp] theorem State.modExt_nearMem (e : Nat) (f : Extent → Extent) : (s.modExt e f).nearMem = s.nearMem := rfl
@[simp] theorem State.modExt_farMem (e : Nat) (f : Extent → Extent) : (s.modExt e f).farMem = s.farMem := rfl
@[simp] theorem State.modExt_reqs (e : Nat) (f : Extent → Extent) : (s.modExt e f).reqs = s.reqs := rfl
@[simp] theorem State.modExt_nextReq (e : Nat) (f : Extent → Extent) : (s.modExt e f).nextReq = s.nextReq := rfl
@[simp] theorem State.modExt_ports (e : Nat) (f : Extent → Extent) : (s.modExt e f).ports = s.ports := rfl
@[simp] theorem State.modExt_slots (e : Nat) (f : Extent → Extent) : (s.modExt e f).slots = s.slots := rfl
@[simp] theorem State.modExt_engines (e : Nat) (f : Extent → Extent) : (s.modExt e f).engines = s.engines := rfl
@[simp] theorem State.modExt_loom (e : Nat) (f : Extent → Extent) : (s.modExt e f).loom = s.loom := rfl
@[simp] theorem State.modExt_umpire (e : Nat) (f : Extent → Extent) : (s.modExt e f).umpire = s.umpire := rfl
@[simp] theorem State.modExt_nor (e : Nat) (f : Extent → Extent) : (s.modExt e f).nor = s.nor := rfl
@[simp] theorem State.modExt_fuses (e : Nat) (f : Extent → Extent) : (s.modExt e f).fuses = s.fuses := rfl
@[simp] theorem State.modExt_ras (e : Nat) (f : Extent → Extent) : (s.modExt e f).ras = s.ras := rfl
@[simp] theorem State.modExt_far (e : Nat) (f : Extent → Extent) : (s.modExt e f).far = s.far := rfl
@[simp] theorem State.modExt_power (e : Nat) (f : Extent → Extent) : (s.modExt e f).power = s.power := rfl
@[simp] theorem State.modExt_tel (e : Nat) (f : Extent → Extent) : (s.modExt e f).tel = s.tel := rfl
@[simp] theorem State.modExt_regs (e : Nat) (f : Extent → Extent) : (s.modExt e f).regs = s.regs := rfl
@[simp] theorem State.modExt_freeCount (e : Nat) (f : Extent → Extent) : (s.modExt e f).freeCount = s.freeCount := rfl
@[simp] theorem State.modExt_pending (e : Nat) (f : Extent → Extent) : (s.modExt e f).pending = s.pending := rfl

/-! ### modPort -/

@[simp] theorem State.modPort_time (p : Nat) (f : Port → Port) : (s.modPort p f).time = s.time := rfl
@[simp] theorem State.modPort_tie (p : Nat) (f : Port → Port) : (s.modPort p f).tie = s.tie := rfl
@[simp] theorem State.modPort_exts (p : Nat) (f : Port → Port) : (s.modPort p f).exts = s.exts := rfl
@[simp] theorem State.modPort_ctxs (p : Nat) (f : Port → Port) : (s.modPort p f).ctxs = s.ctxs := rfl
@[simp] theorem State.modPort_leases (p : Nat) (f : Port → Port) : (s.modPort p f).leases = s.leases := rfl
@[simp] theorem State.modPort_pins (p : Nat) (f : Port → Port) : (s.modPort p f).pins = s.pins := rfl
@[simp] theorem State.modPort_tier (p : Nat) (f : Port → Port) : (s.modPort p f).tier = s.tier := rfl
@[simp] theorem State.modPort_nearMem (p : Nat) (f : Port → Port) : (s.modPort p f).nearMem = s.nearMem := rfl
@[simp] theorem State.modPort_farMem (p : Nat) (f : Port → Port) : (s.modPort p f).farMem = s.farMem := rfl
@[simp] theorem State.modPort_reqs (p : Nat) (f : Port → Port) : (s.modPort p f).reqs = s.reqs := rfl
@[simp] theorem State.modPort_nextReq (p : Nat) (f : Port → Port) : (s.modPort p f).nextReq = s.nextReq := rfl
@[simp] theorem State.modPort_ports (p : Nat) (f : Port → Port) : (s.modPort p f).ports = List.modifyAt s.ports p f := rfl
@[simp] theorem State.modPort_slots (p : Nat) (f : Port → Port) : (s.modPort p f).slots = s.slots := rfl
@[simp] theorem State.modPort_engines (p : Nat) (f : Port → Port) : (s.modPort p f).engines = s.engines := rfl
@[simp] theorem State.modPort_loom (p : Nat) (f : Port → Port) : (s.modPort p f).loom = s.loom := rfl
@[simp] theorem State.modPort_umpire (p : Nat) (f : Port → Port) : (s.modPort p f).umpire = s.umpire := rfl
@[simp] theorem State.modPort_nor (p : Nat) (f : Port → Port) : (s.modPort p f).nor = s.nor := rfl
@[simp] theorem State.modPort_fuses (p : Nat) (f : Port → Port) : (s.modPort p f).fuses = s.fuses := rfl
@[simp] theorem State.modPort_ras (p : Nat) (f : Port → Port) : (s.modPort p f).ras = s.ras := rfl
@[simp] theorem State.modPort_far (p : Nat) (f : Port → Port) : (s.modPort p f).far = s.far := rfl
@[simp] theorem State.modPort_power (p : Nat) (f : Port → Port) : (s.modPort p f).power = s.power := rfl
@[simp] theorem State.modPort_tel (p : Nat) (f : Port → Port) : (s.modPort p f).tel = s.tel := rfl
@[simp] theorem State.modPort_regs (p : Nat) (f : Port → Port) : (s.modPort p f).regs = s.regs := rfl
@[simp] theorem State.modPort_freeCount (p : Nat) (f : Port → Port) : (s.modPort p f).freeCount = s.freeCount := rfl
@[simp] theorem State.modPort_pending (p : Nat) (f : Port → Port) : (s.modPort p f).pending = s.pending := rfl

/-! ### modSlot -/

@[simp] theorem State.modSlot_time (p : Nat) (f : Slot → Slot) : (s.modSlot p f).time = s.time := rfl
@[simp] theorem State.modSlot_tie (p : Nat) (f : Slot → Slot) : (s.modSlot p f).tie = s.tie := rfl
@[simp] theorem State.modSlot_exts (p : Nat) (f : Slot → Slot) : (s.modSlot p f).exts = s.exts := rfl
@[simp] theorem State.modSlot_ctxs (p : Nat) (f : Slot → Slot) : (s.modSlot p f).ctxs = s.ctxs := rfl
@[simp] theorem State.modSlot_leases (p : Nat) (f : Slot → Slot) : (s.modSlot p f).leases = s.leases := rfl
@[simp] theorem State.modSlot_pins (p : Nat) (f : Slot → Slot) : (s.modSlot p f).pins = s.pins := rfl
@[simp] theorem State.modSlot_tier (p : Nat) (f : Slot → Slot) : (s.modSlot p f).tier = s.tier := rfl
@[simp] theorem State.modSlot_nearMem (p : Nat) (f : Slot → Slot) : (s.modSlot p f).nearMem = s.nearMem := rfl
@[simp] theorem State.modSlot_farMem (p : Nat) (f : Slot → Slot) : (s.modSlot p f).farMem = s.farMem := rfl
@[simp] theorem State.modSlot_reqs (p : Nat) (f : Slot → Slot) : (s.modSlot p f).reqs = s.reqs := rfl
@[simp] theorem State.modSlot_nextReq (p : Nat) (f : Slot → Slot) : (s.modSlot p f).nextReq = s.nextReq := rfl
@[simp] theorem State.modSlot_ports (p : Nat) (f : Slot → Slot) : (s.modSlot p f).ports = s.ports := rfl
@[simp] theorem State.modSlot_slots (p : Nat) (f : Slot → Slot) : (s.modSlot p f).slots = List.modifyAt s.slots p f := rfl
@[simp] theorem State.modSlot_engines (p : Nat) (f : Slot → Slot) : (s.modSlot p f).engines = s.engines := rfl
@[simp] theorem State.modSlot_loom (p : Nat) (f : Slot → Slot) : (s.modSlot p f).loom = s.loom := rfl
@[simp] theorem State.modSlot_umpire (p : Nat) (f : Slot → Slot) : (s.modSlot p f).umpire = s.umpire := rfl
@[simp] theorem State.modSlot_nor (p : Nat) (f : Slot → Slot) : (s.modSlot p f).nor = s.nor := rfl
@[simp] theorem State.modSlot_fuses (p : Nat) (f : Slot → Slot) : (s.modSlot p f).fuses = s.fuses := rfl
@[simp] theorem State.modSlot_ras (p : Nat) (f : Slot → Slot) : (s.modSlot p f).ras = s.ras := rfl
@[simp] theorem State.modSlot_far (p : Nat) (f : Slot → Slot) : (s.modSlot p f).far = s.far := rfl
@[simp] theorem State.modSlot_power (p : Nat) (f : Slot → Slot) : (s.modSlot p f).power = s.power := rfl
@[simp] theorem State.modSlot_tel (p : Nat) (f : Slot → Slot) : (s.modSlot p f).tel = s.tel := rfl
@[simp] theorem State.modSlot_regs (p : Nat) (f : Slot → Slot) : (s.modSlot p f).regs = s.regs := rfl
@[simp] theorem State.modSlot_freeCount (p : Nat) (f : Slot → Slot) : (s.modSlot p f).freeCount = s.freeCount := rfl
@[simp] theorem State.modSlot_pending (p : Nat) (f : Slot → Slot) : (s.modSlot p f).pending = s.pending := rfl

/-! ### modCtx -/

@[simp] theorem State.modCtx_time (c : Nat) (f : Ctx → Ctx) : (s.modCtx c f).time = s.time := rfl
@[simp] theorem State.modCtx_tie (c : Nat) (f : Ctx → Ctx) : (s.modCtx c f).tie = s.tie := rfl
@[simp] theorem State.modCtx_exts (c : Nat) (f : Ctx → Ctx) : (s.modCtx c f).exts = s.exts := rfl
@[simp] theorem State.modCtx_ctxs (c : Nat) (f : Ctx → Ctx) : (s.modCtx c f).ctxs = Table.modify s.ctxs c f := rfl
@[simp] theorem State.modCtx_leases (c : Nat) (f : Ctx → Ctx) : (s.modCtx c f).leases = s.leases := rfl
@[simp] theorem State.modCtx_pins (c : Nat) (f : Ctx → Ctx) : (s.modCtx c f).pins = s.pins := rfl
@[simp] theorem State.modCtx_tier (c : Nat) (f : Ctx → Ctx) : (s.modCtx c f).tier = s.tier := rfl
@[simp] theorem State.modCtx_nearMem (c : Nat) (f : Ctx → Ctx) : (s.modCtx c f).nearMem = s.nearMem := rfl
@[simp] theorem State.modCtx_farMem (c : Nat) (f : Ctx → Ctx) : (s.modCtx c f).farMem = s.farMem := rfl
@[simp] theorem State.modCtx_reqs (c : Nat) (f : Ctx → Ctx) : (s.modCtx c f).reqs = s.reqs := rfl
@[simp] theorem State.modCtx_nextReq (c : Nat) (f : Ctx → Ctx) : (s.modCtx c f).nextReq = s.nextReq := rfl
@[simp] theorem State.modCtx_ports (c : Nat) (f : Ctx → Ctx) : (s.modCtx c f).ports = s.ports := rfl
@[simp] theorem State.modCtx_slots (c : Nat) (f : Ctx → Ctx) : (s.modCtx c f).slots = s.slots := rfl
@[simp] theorem State.modCtx_engines (c : Nat) (f : Ctx → Ctx) : (s.modCtx c f).engines = s.engines := rfl
@[simp] theorem State.modCtx_loom (c : Nat) (f : Ctx → Ctx) : (s.modCtx c f).loom = s.loom := rfl
@[simp] theorem State.modCtx_umpire (c : Nat) (f : Ctx → Ctx) : (s.modCtx c f).umpire = s.umpire := rfl
@[simp] theorem State.modCtx_nor (c : Nat) (f : Ctx → Ctx) : (s.modCtx c f).nor = s.nor := rfl
@[simp] theorem State.modCtx_fuses (c : Nat) (f : Ctx → Ctx) : (s.modCtx c f).fuses = s.fuses := rfl
@[simp] theorem State.modCtx_ras (c : Nat) (f : Ctx → Ctx) : (s.modCtx c f).ras = s.ras := rfl
@[simp] theorem State.modCtx_far (c : Nat) (f : Ctx → Ctx) : (s.modCtx c f).far = s.far := rfl
@[simp] theorem State.modCtx_power (c : Nat) (f : Ctx → Ctx) : (s.modCtx c f).power = s.power := rfl
@[simp] theorem State.modCtx_tel (c : Nat) (f : Ctx → Ctx) : (s.modCtx c f).tel = s.tel := rfl
@[simp] theorem State.modCtx_regs (c : Nat) (f : Ctx → Ctx) : (s.modCtx c f).regs = s.regs := rfl
@[simp] theorem State.modCtx_freeCount (c : Nat) (f : Ctx → Ctx) : (s.modCtx c f).freeCount = s.freeCount := rfl
@[simp] theorem State.modCtx_pending (c : Nat) (f : Ctx → Ctx) : (s.modCtx c f).pending = s.pending := rfl

/-! ### modLease -/

@[simp] theorem State.modLease_time (n : Nat) (f : Lease → Lease) : (s.modLease n f).time = s.time := rfl
@[simp] theorem State.modLease_tie (n : Nat) (f : Lease → Lease) : (s.modLease n f).tie = s.tie := rfl
@[simp] theorem State.modLease_exts (n : Nat) (f : Lease → Lease) : (s.modLease n f).exts = s.exts := rfl
@[simp] theorem State.modLease_ctxs (n : Nat) (f : Lease → Lease) : (s.modLease n f).ctxs = s.ctxs := rfl
@[simp] theorem State.modLease_leases (n : Nat) (f : Lease → Lease) : (s.modLease n f).leases = Table.modify s.leases n f := rfl
@[simp] theorem State.modLease_pins (n : Nat) (f : Lease → Lease) : (s.modLease n f).pins = s.pins := rfl
@[simp] theorem State.modLease_tier (n : Nat) (f : Lease → Lease) : (s.modLease n f).tier = s.tier := rfl
@[simp] theorem State.modLease_nearMem (n : Nat) (f : Lease → Lease) : (s.modLease n f).nearMem = s.nearMem := rfl
@[simp] theorem State.modLease_farMem (n : Nat) (f : Lease → Lease) : (s.modLease n f).farMem = s.farMem := rfl
@[simp] theorem State.modLease_reqs (n : Nat) (f : Lease → Lease) : (s.modLease n f).reqs = s.reqs := rfl
@[simp] theorem State.modLease_nextReq (n : Nat) (f : Lease → Lease) : (s.modLease n f).nextReq = s.nextReq := rfl
@[simp] theorem State.modLease_ports (n : Nat) (f : Lease → Lease) : (s.modLease n f).ports = s.ports := rfl
@[simp] theorem State.modLease_slots (n : Nat) (f : Lease → Lease) : (s.modLease n f).slots = s.slots := rfl
@[simp] theorem State.modLease_engines (n : Nat) (f : Lease → Lease) : (s.modLease n f).engines = s.engines := rfl
@[simp] theorem State.modLease_loom (n : Nat) (f : Lease → Lease) : (s.modLease n f).loom = s.loom := rfl
@[simp] theorem State.modLease_umpire (n : Nat) (f : Lease → Lease) : (s.modLease n f).umpire = s.umpire := rfl
@[simp] theorem State.modLease_nor (n : Nat) (f : Lease → Lease) : (s.modLease n f).nor = s.nor := rfl
@[simp] theorem State.modLease_fuses (n : Nat) (f : Lease → Lease) : (s.modLease n f).fuses = s.fuses := rfl
@[simp] theorem State.modLease_ras (n : Nat) (f : Lease → Lease) : (s.modLease n f).ras = s.ras := rfl
@[simp] theorem State.modLease_far (n : Nat) (f : Lease → Lease) : (s.modLease n f).far = s.far := rfl
@[simp] theorem State.modLease_power (n : Nat) (f : Lease → Lease) : (s.modLease n f).power = s.power := rfl
@[simp] theorem State.modLease_tel (n : Nat) (f : Lease → Lease) : (s.modLease n f).tel = s.tel := rfl
@[simp] theorem State.modLease_regs (n : Nat) (f : Lease → Lease) : (s.modLease n f).regs = s.regs := rfl
@[simp] theorem State.modLease_freeCount (n : Nat) (f : Lease → Lease) : (s.modLease n f).freeCount = s.freeCount := rfl
@[simp] theorem State.modLease_pending (n : Nat) (f : Lease → Lease) : (s.modLease n f).pending = s.pending := rfl

/-! ### modEngine -/

@[simp] theorem State.modEngine_time (e : Nat) (f : Option Job → Option Job) : (s.modEngine e f).time = s.time := rfl
@[simp] theorem State.modEngine_tie (e : Nat) (f : Option Job → Option Job) : (s.modEngine e f).tie = s.tie := rfl
@[simp] theorem State.modEngine_exts (e : Nat) (f : Option Job → Option Job) : (s.modEngine e f).exts = s.exts := rfl
@[simp] theorem State.modEngine_ctxs (e : Nat) (f : Option Job → Option Job) : (s.modEngine e f).ctxs = s.ctxs := rfl
@[simp] theorem State.modEngine_leases (e : Nat) (f : Option Job → Option Job) : (s.modEngine e f).leases = s.leases := rfl
@[simp] theorem State.modEngine_pins (e : Nat) (f : Option Job → Option Job) : (s.modEngine e f).pins = s.pins := rfl
@[simp] theorem State.modEngine_tier (e : Nat) (f : Option Job → Option Job) : (s.modEngine e f).tier = s.tier := rfl
@[simp] theorem State.modEngine_nearMem (e : Nat) (f : Option Job → Option Job) : (s.modEngine e f).nearMem = s.nearMem := rfl
@[simp] theorem State.modEngine_farMem (e : Nat) (f : Option Job → Option Job) : (s.modEngine e f).farMem = s.farMem := rfl
@[simp] theorem State.modEngine_reqs (e : Nat) (f : Option Job → Option Job) : (s.modEngine e f).reqs = s.reqs := rfl
@[simp] theorem State.modEngine_nextReq (e : Nat) (f : Option Job → Option Job) : (s.modEngine e f).nextReq = s.nextReq := rfl
@[simp] theorem State.modEngine_ports (e : Nat) (f : Option Job → Option Job) : (s.modEngine e f).ports = s.ports := rfl
@[simp] theorem State.modEngine_slots (e : Nat) (f : Option Job → Option Job) : (s.modEngine e f).slots = s.slots := rfl
@[simp] theorem State.modEngine_engines (e : Nat) (f : Option Job → Option Job) : (s.modEngine e f).engines = List.modifyAt s.engines e f := rfl
@[simp] theorem State.modEngine_loom (e : Nat) (f : Option Job → Option Job) : (s.modEngine e f).loom = s.loom := rfl
@[simp] theorem State.modEngine_umpire (e : Nat) (f : Option Job → Option Job) : (s.modEngine e f).umpire = s.umpire := rfl
@[simp] theorem State.modEngine_nor (e : Nat) (f : Option Job → Option Job) : (s.modEngine e f).nor = s.nor := rfl
@[simp] theorem State.modEngine_fuses (e : Nat) (f : Option Job → Option Job) : (s.modEngine e f).fuses = s.fuses := rfl
@[simp] theorem State.modEngine_ras (e : Nat) (f : Option Job → Option Job) : (s.modEngine e f).ras = s.ras := rfl
@[simp] theorem State.modEngine_far (e : Nat) (f : Option Job → Option Job) : (s.modEngine e f).far = s.far := rfl
@[simp] theorem State.modEngine_power (e : Nat) (f : Option Job → Option Job) : (s.modEngine e f).power = s.power := rfl
@[simp] theorem State.modEngine_tel (e : Nat) (f : Option Job → Option Job) : (s.modEngine e f).tel = s.tel := rfl
@[simp] theorem State.modEngine_regs (e : Nat) (f : Option Job → Option Job) : (s.modEngine e f).regs = s.regs := rfl
@[simp] theorem State.modEngine_freeCount (e : Nat) (f : Option Job → Option Job) : (s.modEngine e f).freeCount = s.freeCount := rfl
@[simp] theorem State.modEngine_pending (e : Nat) (f : Option Job → Option Job) : (s.modEngine e f).pending = s.pending := rfl

/-! ### modJob -/

@[simp] theorem State.modJob_time (e : Nat) (f : Job → Job) : (s.modJob e f).time = s.time := rfl
@[simp] theorem State.modJob_tie (e : Nat) (f : Job → Job) : (s.modJob e f).tie = s.tie := rfl
@[simp] theorem State.modJob_exts (e : Nat) (f : Job → Job) : (s.modJob e f).exts = s.exts := rfl
@[simp] theorem State.modJob_ctxs (e : Nat) (f : Job → Job) : (s.modJob e f).ctxs = s.ctxs := rfl
@[simp] theorem State.modJob_leases (e : Nat) (f : Job → Job) : (s.modJob e f).leases = s.leases := rfl
@[simp] theorem State.modJob_pins (e : Nat) (f : Job → Job) : (s.modJob e f).pins = s.pins := rfl
@[simp] theorem State.modJob_tier (e : Nat) (f : Job → Job) : (s.modJob e f).tier = s.tier := rfl
@[simp] theorem State.modJob_nearMem (e : Nat) (f : Job → Job) : (s.modJob e f).nearMem = s.nearMem := rfl
@[simp] theorem State.modJob_farMem (e : Nat) (f : Job → Job) : (s.modJob e f).farMem = s.farMem := rfl
@[simp] theorem State.modJob_reqs (e : Nat) (f : Job → Job) : (s.modJob e f).reqs = s.reqs := rfl
@[simp] theorem State.modJob_nextReq (e : Nat) (f : Job → Job) : (s.modJob e f).nextReq = s.nextReq := rfl
@[simp] theorem State.modJob_ports (e : Nat) (f : Job → Job) : (s.modJob e f).ports = s.ports := rfl
@[simp] theorem State.modJob_slots (e : Nat) (f : Job → Job) : (s.modJob e f).slots = s.slots := rfl
@[simp] theorem State.modJob_loom (e : Nat) (f : Job → Job) : (s.modJob e f).loom = s.loom := rfl
@[simp] theorem State.modJob_umpire (e : Nat) (f : Job → Job) : (s.modJob e f).umpire = s.umpire := rfl
@[simp] theorem State.modJob_nor (e : Nat) (f : Job → Job) : (s.modJob e f).nor = s.nor := rfl
@[simp] theorem State.modJob_fuses (e : Nat) (f : Job → Job) : (s.modJob e f).fuses = s.fuses := rfl
@[simp] theorem State.modJob_ras (e : Nat) (f : Job → Job) : (s.modJob e f).ras = s.ras := rfl
@[simp] theorem State.modJob_far (e : Nat) (f : Job → Job) : (s.modJob e f).far = s.far := rfl
@[simp] theorem State.modJob_power (e : Nat) (f : Job → Job) : (s.modJob e f).power = s.power := rfl
@[simp] theorem State.modJob_tel (e : Nat) (f : Job → Job) : (s.modJob e f).tel = s.tel := rfl
@[simp] theorem State.modJob_regs (e : Nat) (f : Job → Job) : (s.modJob e f).regs = s.regs := rfl
@[simp] theorem State.modJob_freeCount (e : Nat) (f : Job → Job) : (s.modJob e f).freeCount = s.freeCount := rfl
@[simp] theorem State.modJob_pending (e : Nat) (f : Job → Job) : (s.modJob e f).pending = s.pending := rfl

/-! ### modCur -/

@[simp] theorem State.modCur_time (e : Nat) (f : Cur → Cur) : (s.modCur e f).time = s.time := rfl
@[simp] theorem State.modCur_tie (e : Nat) (f : Cur → Cur) : (s.modCur e f).tie = s.tie := rfl
@[simp] theorem State.modCur_exts (e : Nat) (f : Cur → Cur) : (s.modCur e f).exts = s.exts := rfl
@[simp] theorem State.modCur_ctxs (e : Nat) (f : Cur → Cur) : (s.modCur e f).ctxs = s.ctxs := rfl
@[simp] theorem State.modCur_leases (e : Nat) (f : Cur → Cur) : (s.modCur e f).leases = s.leases := rfl
@[simp] theorem State.modCur_pins (e : Nat) (f : Cur → Cur) : (s.modCur e f).pins = s.pins := rfl
@[simp] theorem State.modCur_tier (e : Nat) (f : Cur → Cur) : (s.modCur e f).tier = s.tier := rfl
@[simp] theorem State.modCur_nearMem (e : Nat) (f : Cur → Cur) : (s.modCur e f).nearMem = s.nearMem := rfl
@[simp] theorem State.modCur_farMem (e : Nat) (f : Cur → Cur) : (s.modCur e f).farMem = s.farMem := rfl
@[simp] theorem State.modCur_reqs (e : Nat) (f : Cur → Cur) : (s.modCur e f).reqs = s.reqs := rfl
@[simp] theorem State.modCur_nextReq (e : Nat) (f : Cur → Cur) : (s.modCur e f).nextReq = s.nextReq := rfl
@[simp] theorem State.modCur_ports (e : Nat) (f : Cur → Cur) : (s.modCur e f).ports = s.ports := rfl
@[simp] theorem State.modCur_slots (e : Nat) (f : Cur → Cur) : (s.modCur e f).slots = s.slots := rfl
@[simp] theorem State.modCur_loom (e : Nat) (f : Cur → Cur) : (s.modCur e f).loom = s.loom := rfl
@[simp] theorem State.modCur_umpire (e : Nat) (f : Cur → Cur) : (s.modCur e f).umpire = s.umpire := rfl
@[simp] theorem State.modCur_nor (e : Nat) (f : Cur → Cur) : (s.modCur e f).nor = s.nor := rfl
@[simp] theorem State.modCur_fuses (e : Nat) (f : Cur → Cur) : (s.modCur e f).fuses = s.fuses := rfl
@[simp] theorem State.modCur_ras (e : Nat) (f : Cur → Cur) : (s.modCur e f).ras = s.ras := rfl
@[simp] theorem State.modCur_far (e : Nat) (f : Cur → Cur) : (s.modCur e f).far = s.far := rfl
@[simp] theorem State.modCur_power (e : Nat) (f : Cur → Cur) : (s.modCur e f).power = s.power := rfl
@[simp] theorem State.modCur_tel (e : Nat) (f : Cur → Cur) : (s.modCur e f).tel = s.tel := rfl
@[simp] theorem State.modCur_regs (e : Nat) (f : Cur → Cur) : (s.modCur e f).regs = s.regs := rfl
@[simp] theorem State.modCur_freeCount (e : Nat) (f : Cur → Cur) : (s.modCur e f).freeCount = s.freeCount := rfl
@[simp] theorem State.modCur_pending (e : Nat) (f : Cur → Cur) : (s.modCur e f).pending = s.pending := rfl

/-! ### modMbox -/

@[simp] theorem State.modMbox_time (m : Mbx) (f : Mailbox → Mailbox) : (s.modMbox m f).time = s.time := rfl
@[simp] theorem State.modMbox_tie (m : Mbx) (f : Mailbox → Mailbox) : (s.modMbox m f).tie = s.tie := rfl
@[simp] theorem State.modMbox_exts (m : Mbx) (f : Mailbox → Mailbox) : (s.modMbox m f).exts = s.exts := rfl
@[simp] theorem State.modMbox_ctxs (m : Mbx) (f : Mailbox → Mailbox) : (s.modMbox m f).ctxs = s.ctxs := rfl
@[simp] theorem State.modMbox_leases (m : Mbx) (f : Mailbox → Mailbox) : (s.modMbox m f).leases = s.leases := rfl
@[simp] theorem State.modMbox_pins (m : Mbx) (f : Mailbox → Mailbox) : (s.modMbox m f).pins = s.pins := rfl
@[simp] theorem State.modMbox_tier (m : Mbx) (f : Mailbox → Mailbox) : (s.modMbox m f).tier = s.tier := rfl
@[simp] theorem State.modMbox_nearMem (m : Mbx) (f : Mailbox → Mailbox) : (s.modMbox m f).nearMem = s.nearMem := rfl
@[simp] theorem State.modMbox_farMem (m : Mbx) (f : Mailbox → Mailbox) : (s.modMbox m f).farMem = s.farMem := rfl
@[simp] theorem State.modMbox_reqs (m : Mbx) (f : Mailbox → Mailbox) : (s.modMbox m f).reqs = s.reqs := rfl
@[simp] theorem State.modMbox_nextReq (m : Mbx) (f : Mailbox → Mailbox) : (s.modMbox m f).nextReq = s.nextReq := rfl
@[simp] theorem State.modMbox_ports (m : Mbx) (f : Mailbox → Mailbox) : (s.modMbox m f).ports = s.ports := rfl
@[simp] theorem State.modMbox_slots (m : Mbx) (f : Mailbox → Mailbox) : (s.modMbox m f).slots = s.slots := rfl
@[simp] theorem State.modMbox_engines (m : Mbx) (f : Mailbox → Mailbox) : (s.modMbox m f).engines = s.engines := rfl
@[simp] theorem State.modMbox_loom (m : Mbx) (f : Mailbox → Mailbox) : (s.modMbox m f).loom = s.loom := rfl
@[simp] theorem State.modMbox_nor (m : Mbx) (f : Mailbox → Mailbox) : (s.modMbox m f).nor = s.nor := rfl
@[simp] theorem State.modMbox_fuses (m : Mbx) (f : Mailbox → Mailbox) : (s.modMbox m f).fuses = s.fuses := rfl
@[simp] theorem State.modMbox_ras (m : Mbx) (f : Mailbox → Mailbox) : (s.modMbox m f).ras = s.ras := rfl
@[simp] theorem State.modMbox_far (m : Mbx) (f : Mailbox → Mailbox) : (s.modMbox m f).far = s.far := rfl
@[simp] theorem State.modMbox_power (m : Mbx) (f : Mailbox → Mailbox) : (s.modMbox m f).power = s.power := rfl
@[simp] theorem State.modMbox_tel (m : Mbx) (f : Mailbox → Mailbox) : (s.modMbox m f).tel = s.tel := rfl
@[simp] theorem State.modMbox_regs (m : Mbx) (f : Mailbox → Mailbox) : (s.modMbox m f).regs = s.regs := rfl
@[simp] theorem State.modMbox_freeCount (m : Mbx) (f : Mailbox → Mailbox) : (s.modMbox m f).freeCount = s.freeCount := rfl
@[simp] theorem State.modMbox_pending (m : Mbx) (f : Mailbox → Mailbox) : (s.modMbox m f).pending = s.pending := rfl

/-! ### modReq -/

@[simp] theorem State.modReq_time (r : Nat) (f : Req → Req) : (s.modReq r f).time = s.time := rfl
@[simp] theorem State.modReq_tie (r : Nat) (f : Req → Req) : (s.modReq r f).tie = s.tie := rfl
@[simp] theorem State.modReq_exts (r : Nat) (f : Req → Req) : (s.modReq r f).exts = s.exts := rfl
@[simp] theorem State.modReq_ctxs (r : Nat) (f : Req → Req) : (s.modReq r f).ctxs = s.ctxs := rfl
@[simp] theorem State.modReq_leases (r : Nat) (f : Req → Req) : (s.modReq r f).leases = s.leases := rfl
@[simp] theorem State.modReq_pins (r : Nat) (f : Req → Req) : (s.modReq r f).pins = s.pins := rfl
@[simp] theorem State.modReq_tier (r : Nat) (f : Req → Req) : (s.modReq r f).tier = s.tier := rfl
@[simp] theorem State.modReq_nearMem (r : Nat) (f : Req → Req) : (s.modReq r f).nearMem = s.nearMem := rfl
@[simp] theorem State.modReq_farMem (r : Nat) (f : Req → Req) : (s.modReq r f).farMem = s.farMem := rfl
@[simp] theorem State.modReq_reqs (r : Nat) (f : Req → Req) : (s.modReq r f).reqs = Table.modify s.reqs r f := rfl
@[simp] theorem State.modReq_nextReq (r : Nat) (f : Req → Req) : (s.modReq r f).nextReq = s.nextReq := rfl
@[simp] theorem State.modReq_ports (r : Nat) (f : Req → Req) : (s.modReq r f).ports = s.ports := rfl
@[simp] theorem State.modReq_slots (r : Nat) (f : Req → Req) : (s.modReq r f).slots = s.slots := rfl
@[simp] theorem State.modReq_engines (r : Nat) (f : Req → Req) : (s.modReq r f).engines = s.engines := rfl
@[simp] theorem State.modReq_loom (r : Nat) (f : Req → Req) : (s.modReq r f).loom = s.loom := rfl
@[simp] theorem State.modReq_umpire (r : Nat) (f : Req → Req) : (s.modReq r f).umpire = s.umpire := rfl
@[simp] theorem State.modReq_nor (r : Nat) (f : Req → Req) : (s.modReq r f).nor = s.nor := rfl
@[simp] theorem State.modReq_fuses (r : Nat) (f : Req → Req) : (s.modReq r f).fuses = s.fuses := rfl
@[simp] theorem State.modReq_ras (r : Nat) (f : Req → Req) : (s.modReq r f).ras = s.ras := rfl
@[simp] theorem State.modReq_far (r : Nat) (f : Req → Req) : (s.modReq r f).far = s.far := rfl
@[simp] theorem State.modReq_power (r : Nat) (f : Req → Req) : (s.modReq r f).power = s.power := rfl
@[simp] theorem State.modReq_tel (r : Nat) (f : Req → Req) : (s.modReq r f).tel = s.tel := rfl
@[simp] theorem State.modReq_regs (r : Nat) (f : Req → Req) : (s.modReq r f).regs = s.regs := rfl
@[simp] theorem State.modReq_freeCount (r : Nat) (f : Req → Req) : (s.modReq r f).freeCount = s.freeCount := rfl
@[simp] theorem State.modReq_pending (r : Nat) (f : Req → Req) : (s.modReq r f).pending = s.pending := rfl

/-! ### modUmpire -/

@[simp] theorem State.modUmpire_time (f : Umpire → Umpire) : (s.modUmpire f).time = s.time := rfl
@[simp] theorem State.modUmpire_tie (f : Umpire → Umpire) : (s.modUmpire f).tie = s.tie := rfl
@[simp] theorem State.modUmpire_exts (f : Umpire → Umpire) : (s.modUmpire f).exts = s.exts := rfl
@[simp] theorem State.modUmpire_ctxs (f : Umpire → Umpire) : (s.modUmpire f).ctxs = s.ctxs := rfl
@[simp] theorem State.modUmpire_leases (f : Umpire → Umpire) : (s.modUmpire f).leases = s.leases := rfl
@[simp] theorem State.modUmpire_pins (f : Umpire → Umpire) : (s.modUmpire f).pins = s.pins := rfl
@[simp] theorem State.modUmpire_tier (f : Umpire → Umpire) : (s.modUmpire f).tier = s.tier := rfl
@[simp] theorem State.modUmpire_nearMem (f : Umpire → Umpire) : (s.modUmpire f).nearMem = s.nearMem := rfl
@[simp] theorem State.modUmpire_farMem (f : Umpire → Umpire) : (s.modUmpire f).farMem = s.farMem := rfl
@[simp] theorem State.modUmpire_reqs (f : Umpire → Umpire) : (s.modUmpire f).reqs = s.reqs := rfl
@[simp] theorem State.modUmpire_nextReq (f : Umpire → Umpire) : (s.modUmpire f).nextReq = s.nextReq := rfl
@[simp] theorem State.modUmpire_ports (f : Umpire → Umpire) : (s.modUmpire f).ports = s.ports := rfl
@[simp] theorem State.modUmpire_slots (f : Umpire → Umpire) : (s.modUmpire f).slots = s.slots := rfl
@[simp] theorem State.modUmpire_engines (f : Umpire → Umpire) : (s.modUmpire f).engines = s.engines := rfl
@[simp] theorem State.modUmpire_loom (f : Umpire → Umpire) : (s.modUmpire f).loom = s.loom := rfl
@[simp] theorem State.modUmpire_umpire (f : Umpire → Umpire) : (s.modUmpire f).umpire = f s.umpire := rfl
@[simp] theorem State.modUmpire_nor (f : Umpire → Umpire) : (s.modUmpire f).nor = s.nor := rfl
@[simp] theorem State.modUmpire_fuses (f : Umpire → Umpire) : (s.modUmpire f).fuses = s.fuses := rfl
@[simp] theorem State.modUmpire_ras (f : Umpire → Umpire) : (s.modUmpire f).ras = s.ras := rfl
@[simp] theorem State.modUmpire_far (f : Umpire → Umpire) : (s.modUmpire f).far = s.far := rfl
@[simp] theorem State.modUmpire_power (f : Umpire → Umpire) : (s.modUmpire f).power = s.power := rfl
@[simp] theorem State.modUmpire_tel (f : Umpire → Umpire) : (s.modUmpire f).tel = s.tel := rfl
@[simp] theorem State.modUmpire_regs (f : Umpire → Umpire) : (s.modUmpire f).regs = s.regs := rfl
@[simp] theorem State.modUmpire_freeCount (f : Umpire → Umpire) : (s.modUmpire f).freeCount = s.freeCount := rfl
@[simp] theorem State.modUmpire_pending (f : Umpire → Umpire) : (s.modUmpire f).pending = s.pending := rfl

/-! ### modNor -/

@[simp] theorem State.modNor_time (f : Nor → Nor) : (s.modNor f).time = s.time := rfl
@[simp] theorem State.modNor_tie (f : Nor → Nor) : (s.modNor f).tie = s.tie := rfl
@[simp] theorem State.modNor_exts (f : Nor → Nor) : (s.modNor f).exts = s.exts := rfl
@[simp] theorem State.modNor_ctxs (f : Nor → Nor) : (s.modNor f).ctxs = s.ctxs := rfl
@[simp] theorem State.modNor_leases (f : Nor → Nor) : (s.modNor f).leases = s.leases := rfl
@[simp] theorem State.modNor_pins (f : Nor → Nor) : (s.modNor f).pins = s.pins := rfl
@[simp] theorem State.modNor_tier (f : Nor → Nor) : (s.modNor f).tier = s.tier := rfl
@[simp] theorem State.modNor_nearMem (f : Nor → Nor) : (s.modNor f).nearMem = s.nearMem := rfl
@[simp] theorem State.modNor_farMem (f : Nor → Nor) : (s.modNor f).farMem = s.farMem := rfl
@[simp] theorem State.modNor_reqs (f : Nor → Nor) : (s.modNor f).reqs = s.reqs := rfl
@[simp] theorem State.modNor_nextReq (f : Nor → Nor) : (s.modNor f).nextReq = s.nextReq := rfl
@[simp] theorem State.modNor_ports (f : Nor → Nor) : (s.modNor f).ports = s.ports := rfl
@[simp] theorem State.modNor_slots (f : Nor → Nor) : (s.modNor f).slots = s.slots := rfl
@[simp] theorem State.modNor_engines (f : Nor → Nor) : (s.modNor f).engines = s.engines := rfl
@[simp] theorem State.modNor_loom (f : Nor → Nor) : (s.modNor f).loom = s.loom := rfl
@[simp] theorem State.modNor_umpire (f : Nor → Nor) : (s.modNor f).umpire = s.umpire := rfl
@[simp] theorem State.modNor_nor (f : Nor → Nor) : (s.modNor f).nor = f s.nor := rfl
@[simp] theorem State.modNor_fuses (f : Nor → Nor) : (s.modNor f).fuses = s.fuses := rfl
@[simp] theorem State.modNor_ras (f : Nor → Nor) : (s.modNor f).ras = s.ras := rfl
@[simp] theorem State.modNor_far (f : Nor → Nor) : (s.modNor f).far = s.far := rfl
@[simp] theorem State.modNor_power (f : Nor → Nor) : (s.modNor f).power = s.power := rfl
@[simp] theorem State.modNor_tel (f : Nor → Nor) : (s.modNor f).tel = s.tel := rfl
@[simp] theorem State.modNor_regs (f : Nor → Nor) : (s.modNor f).regs = s.regs := rfl
@[simp] theorem State.modNor_freeCount (f : Nor → Nor) : (s.modNor f).freeCount = s.freeCount := rfl
@[simp] theorem State.modNor_pending (f : Nor → Nor) : (s.modNor f).pending = s.pending := rfl

/-! ### modRas -/

@[simp] theorem State.modRas_time (f : Ras → Ras) : (s.modRas f).time = s.time := rfl
@[simp] theorem State.modRas_tie (f : Ras → Ras) : (s.modRas f).tie = s.tie := rfl
@[simp] theorem State.modRas_exts (f : Ras → Ras) : (s.modRas f).exts = s.exts := rfl
@[simp] theorem State.modRas_ctxs (f : Ras → Ras) : (s.modRas f).ctxs = s.ctxs := rfl
@[simp] theorem State.modRas_leases (f : Ras → Ras) : (s.modRas f).leases = s.leases := rfl
@[simp] theorem State.modRas_pins (f : Ras → Ras) : (s.modRas f).pins = s.pins := rfl
@[simp] theorem State.modRas_tier (f : Ras → Ras) : (s.modRas f).tier = s.tier := rfl
@[simp] theorem State.modRas_nearMem (f : Ras → Ras) : (s.modRas f).nearMem = s.nearMem := rfl
@[simp] theorem State.modRas_farMem (f : Ras → Ras) : (s.modRas f).farMem = s.farMem := rfl
@[simp] theorem State.modRas_reqs (f : Ras → Ras) : (s.modRas f).reqs = s.reqs := rfl
@[simp] theorem State.modRas_nextReq (f : Ras → Ras) : (s.modRas f).nextReq = s.nextReq := rfl
@[simp] theorem State.modRas_ports (f : Ras → Ras) : (s.modRas f).ports = s.ports := rfl
@[simp] theorem State.modRas_slots (f : Ras → Ras) : (s.modRas f).slots = s.slots := rfl
@[simp] theorem State.modRas_engines (f : Ras → Ras) : (s.modRas f).engines = s.engines := rfl
@[simp] theorem State.modRas_loom (f : Ras → Ras) : (s.modRas f).loom = s.loom := rfl
@[simp] theorem State.modRas_umpire (f : Ras → Ras) : (s.modRas f).umpire = s.umpire := rfl
@[simp] theorem State.modRas_nor (f : Ras → Ras) : (s.modRas f).nor = s.nor := rfl
@[simp] theorem State.modRas_fuses (f : Ras → Ras) : (s.modRas f).fuses = s.fuses := rfl
@[simp] theorem State.modRas_ras (f : Ras → Ras) : (s.modRas f).ras = f s.ras := rfl
@[simp] theorem State.modRas_far (f : Ras → Ras) : (s.modRas f).far = s.far := rfl
@[simp] theorem State.modRas_power (f : Ras → Ras) : (s.modRas f).power = s.power := rfl
@[simp] theorem State.modRas_tel (f : Ras → Ras) : (s.modRas f).tel = s.tel := rfl
@[simp] theorem State.modRas_regs (f : Ras → Ras) : (s.modRas f).regs = s.regs := rfl
@[simp] theorem State.modRas_freeCount (f : Ras → Ras) : (s.modRas f).freeCount = s.freeCount := rfl
@[simp] theorem State.modRas_pending (f : Ras → Ras) : (s.modRas f).pending = s.pending := rfl

/-! ### modTier -/

@[simp] theorem State.modTier_time (f : Tiering → Tiering) : (s.modTier f).time = s.time := rfl
@[simp] theorem State.modTier_tie (f : Tiering → Tiering) : (s.modTier f).tie = s.tie := rfl
@[simp] theorem State.modTier_exts (f : Tiering → Tiering) : (s.modTier f).exts = s.exts := rfl
@[simp] theorem State.modTier_ctxs (f : Tiering → Tiering) : (s.modTier f).ctxs = s.ctxs := rfl
@[simp] theorem State.modTier_leases (f : Tiering → Tiering) : (s.modTier f).leases = s.leases := rfl
@[simp] theorem State.modTier_pins (f : Tiering → Tiering) : (s.modTier f).pins = s.pins := rfl
@[simp] theorem State.modTier_tier (f : Tiering → Tiering) : (s.modTier f).tier = f s.tier := rfl
@[simp] theorem State.modTier_nearMem (f : Tiering → Tiering) : (s.modTier f).nearMem = s.nearMem := rfl
@[simp] theorem State.modTier_farMem (f : Tiering → Tiering) : (s.modTier f).farMem = s.farMem := rfl
@[simp] theorem State.modTier_reqs (f : Tiering → Tiering) : (s.modTier f).reqs = s.reqs := rfl
@[simp] theorem State.modTier_nextReq (f : Tiering → Tiering) : (s.modTier f).nextReq = s.nextReq := rfl
@[simp] theorem State.modTier_ports (f : Tiering → Tiering) : (s.modTier f).ports = s.ports := rfl
@[simp] theorem State.modTier_slots (f : Tiering → Tiering) : (s.modTier f).slots = s.slots := rfl
@[simp] theorem State.modTier_engines (f : Tiering → Tiering) : (s.modTier f).engines = s.engines := rfl
@[simp] theorem State.modTier_loom (f : Tiering → Tiering) : (s.modTier f).loom = s.loom := rfl
@[simp] theorem State.modTier_umpire (f : Tiering → Tiering) : (s.modTier f).umpire = s.umpire := rfl
@[simp] theorem State.modTier_nor (f : Tiering → Tiering) : (s.modTier f).nor = s.nor := rfl
@[simp] theorem State.modTier_fuses (f : Tiering → Tiering) : (s.modTier f).fuses = s.fuses := rfl
@[simp] theorem State.modTier_ras (f : Tiering → Tiering) : (s.modTier f).ras = s.ras := rfl
@[simp] theorem State.modTier_far (f : Tiering → Tiering) : (s.modTier f).far = s.far := rfl
@[simp] theorem State.modTier_power (f : Tiering → Tiering) : (s.modTier f).power = s.power := rfl
@[simp] theorem State.modTier_tel (f : Tiering → Tiering) : (s.modTier f).tel = s.tel := rfl
@[simp] theorem State.modTier_regs (f : Tiering → Tiering) : (s.modTier f).regs = s.regs := rfl
@[simp] theorem State.modTier_freeCount (f : Tiering → Tiering) : (s.modTier f).freeCount = s.freeCount := rfl
@[simp] theorem State.modTier_pending (f : Tiering → Tiering) : (s.modTier f).pending = s.pending := rfl

/-! ### modTime -/

@[simp] theorem State.modTime_time (f : TimeBase → TimeBase) : (s.modTime f).time = f s.time := rfl
@[simp] theorem State.modTime_tie (f : TimeBase → TimeBase) : (s.modTime f).tie = s.tie := rfl
@[simp] theorem State.modTime_exts (f : TimeBase → TimeBase) : (s.modTime f).exts = s.exts := rfl
@[simp] theorem State.modTime_ctxs (f : TimeBase → TimeBase) : (s.modTime f).ctxs = s.ctxs := rfl
@[simp] theorem State.modTime_leases (f : TimeBase → TimeBase) : (s.modTime f).leases = s.leases := rfl
@[simp] theorem State.modTime_pins (f : TimeBase → TimeBase) : (s.modTime f).pins = s.pins := rfl
@[simp] theorem State.modTime_tier (f : TimeBase → TimeBase) : (s.modTime f).tier = s.tier := rfl
@[simp] theorem State.modTime_nearMem (f : TimeBase → TimeBase) : (s.modTime f).nearMem = s.nearMem := rfl
@[simp] theorem State.modTime_farMem (f : TimeBase → TimeBase) : (s.modTime f).farMem = s.farMem := rfl
@[simp] theorem State.modTime_reqs (f : TimeBase → TimeBase) : (s.modTime f).reqs = s.reqs := rfl
@[simp] theorem State.modTime_nextReq (f : TimeBase → TimeBase) : (s.modTime f).nextReq = s.nextReq := rfl
@[simp] theorem State.modTime_ports (f : TimeBase → TimeBase) : (s.modTime f).ports = s.ports := rfl
@[simp] theorem State.modTime_slots (f : TimeBase → TimeBase) : (s.modTime f).slots = s.slots := rfl
@[simp] theorem State.modTime_engines (f : TimeBase → TimeBase) : (s.modTime f).engines = s.engines := rfl
@[simp] theorem State.modTime_loom (f : TimeBase → TimeBase) : (s.modTime f).loom = s.loom := rfl
@[simp] theorem State.modTime_umpire (f : TimeBase → TimeBase) : (s.modTime f).umpire = s.umpire := rfl
@[simp] theorem State.modTime_nor (f : TimeBase → TimeBase) : (s.modTime f).nor = s.nor := rfl
@[simp] theorem State.modTime_fuses (f : TimeBase → TimeBase) : (s.modTime f).fuses = s.fuses := rfl
@[simp] theorem State.modTime_ras (f : TimeBase → TimeBase) : (s.modTime f).ras = s.ras := rfl
@[simp] theorem State.modTime_far (f : TimeBase → TimeBase) : (s.modTime f).far = s.far := rfl
@[simp] theorem State.modTime_power (f : TimeBase → TimeBase) : (s.modTime f).power = s.power := rfl
@[simp] theorem State.modTime_tel (f : TimeBase → TimeBase) : (s.modTime f).tel = s.tel := rfl
@[simp] theorem State.modTime_regs (f : TimeBase → TimeBase) : (s.modTime f).regs = s.regs := rfl
@[simp] theorem State.modTime_freeCount (f : TimeBase → TimeBase) : (s.modTime f).freeCount = s.freeCount := rfl
@[simp] theorem State.modTime_pending (f : TimeBase → TimeBase) : (s.modTime f).pending = s.pending := rfl

/-! ### modTie -/

@[simp] theorem State.modTie_time (f : TieUp → TieUp) : (s.modTie f).time = s.time := rfl
@[simp] theorem State.modTie_tie (f : TieUp → TieUp) : (s.modTie f).tie = f s.tie := rfl
@[simp] theorem State.modTie_exts (f : TieUp → TieUp) : (s.modTie f).exts = s.exts := rfl
@[simp] theorem State.modTie_ctxs (f : TieUp → TieUp) : (s.modTie f).ctxs = s.ctxs := rfl
@[simp] theorem State.modTie_leases (f : TieUp → TieUp) : (s.modTie f).leases = s.leases := rfl
@[simp] theorem State.modTie_pins (f : TieUp → TieUp) : (s.modTie f).pins = s.pins := rfl
@[simp] theorem State.modTie_tier (f : TieUp → TieUp) : (s.modTie f).tier = s.tier := rfl
@[simp] theorem State.modTie_nearMem (f : TieUp → TieUp) : (s.modTie f).nearMem = s.nearMem := rfl
@[simp] theorem State.modTie_farMem (f : TieUp → TieUp) : (s.modTie f).farMem = s.farMem := rfl
@[simp] theorem State.modTie_reqs (f : TieUp → TieUp) : (s.modTie f).reqs = s.reqs := rfl
@[simp] theorem State.modTie_nextReq (f : TieUp → TieUp) : (s.modTie f).nextReq = s.nextReq := rfl
@[simp] theorem State.modTie_ports (f : TieUp → TieUp) : (s.modTie f).ports = s.ports := rfl
@[simp] theorem State.modTie_slots (f : TieUp → TieUp) : (s.modTie f).slots = s.slots := rfl
@[simp] theorem State.modTie_engines (f : TieUp → TieUp) : (s.modTie f).engines = s.engines := rfl
@[simp] theorem State.modTie_loom (f : TieUp → TieUp) : (s.modTie f).loom = s.loom := rfl
@[simp] theorem State.modTie_umpire (f : TieUp → TieUp) : (s.modTie f).umpire = s.umpire := rfl
@[simp] theorem State.modTie_nor (f : TieUp → TieUp) : (s.modTie f).nor = s.nor := rfl
@[simp] theorem State.modTie_fuses (f : TieUp → TieUp) : (s.modTie f).fuses = s.fuses := rfl
@[simp] theorem State.modTie_ras (f : TieUp → TieUp) : (s.modTie f).ras = s.ras := rfl
@[simp] theorem State.modTie_far (f : TieUp → TieUp) : (s.modTie f).far = s.far := rfl
@[simp] theorem State.modTie_power (f : TieUp → TieUp) : (s.modTie f).power = s.power := rfl
@[simp] theorem State.modTie_tel (f : TieUp → TieUp) : (s.modTie f).tel = s.tel := rfl
@[simp] theorem State.modTie_regs (f : TieUp → TieUp) : (s.modTie f).regs = s.regs := rfl
@[simp] theorem State.modTie_freeCount (f : TieUp → TieUp) : (s.modTie f).freeCount = s.freeCount := rfl
@[simp] theorem State.modTie_pending (f : TieUp → TieUp) : (s.modTie f).pending = s.pending := rfl

/-! ### modLoom -/

@[simp] theorem State.modLoom_time (f : Loom → Loom) : (s.modLoom f).time = s.time := rfl
@[simp] theorem State.modLoom_tie (f : Loom → Loom) : (s.modLoom f).tie = s.tie := rfl
@[simp] theorem State.modLoom_exts (f : Loom → Loom) : (s.modLoom f).exts = s.exts := rfl
@[simp] theorem State.modLoom_ctxs (f : Loom → Loom) : (s.modLoom f).ctxs = s.ctxs := rfl
@[simp] theorem State.modLoom_leases (f : Loom → Loom) : (s.modLoom f).leases = s.leases := rfl
@[simp] theorem State.modLoom_pins (f : Loom → Loom) : (s.modLoom f).pins = s.pins := rfl
@[simp] theorem State.modLoom_tier (f : Loom → Loom) : (s.modLoom f).tier = s.tier := rfl
@[simp] theorem State.modLoom_nearMem (f : Loom → Loom) : (s.modLoom f).nearMem = s.nearMem := rfl
@[simp] theorem State.modLoom_farMem (f : Loom → Loom) : (s.modLoom f).farMem = s.farMem := rfl
@[simp] theorem State.modLoom_reqs (f : Loom → Loom) : (s.modLoom f).reqs = s.reqs := rfl
@[simp] theorem State.modLoom_nextReq (f : Loom → Loom) : (s.modLoom f).nextReq = s.nextReq := rfl
@[simp] theorem State.modLoom_ports (f : Loom → Loom) : (s.modLoom f).ports = s.ports := rfl
@[simp] theorem State.modLoom_slots (f : Loom → Loom) : (s.modLoom f).slots = s.slots := rfl
@[simp] theorem State.modLoom_engines (f : Loom → Loom) : (s.modLoom f).engines = s.engines := rfl
@[simp] theorem State.modLoom_loom (f : Loom → Loom) : (s.modLoom f).loom = f s.loom := rfl
@[simp] theorem State.modLoom_umpire (f : Loom → Loom) : (s.modLoom f).umpire = s.umpire := rfl
@[simp] theorem State.modLoom_nor (f : Loom → Loom) : (s.modLoom f).nor = s.nor := rfl
@[simp] theorem State.modLoom_fuses (f : Loom → Loom) : (s.modLoom f).fuses = s.fuses := rfl
@[simp] theorem State.modLoom_ras (f : Loom → Loom) : (s.modLoom f).ras = s.ras := rfl
@[simp] theorem State.modLoom_far (f : Loom → Loom) : (s.modLoom f).far = s.far := rfl
@[simp] theorem State.modLoom_power (f : Loom → Loom) : (s.modLoom f).power = s.power := rfl
@[simp] theorem State.modLoom_tel (f : Loom → Loom) : (s.modLoom f).tel = s.tel := rfl
@[simp] theorem State.modLoom_regs (f : Loom → Loom) : (s.modLoom f).regs = s.regs := rfl
@[simp] theorem State.modLoom_freeCount (f : Loom → Loom) : (s.modLoom f).freeCount = s.freeCount := rfl
@[simp] theorem State.modLoom_pending (f : Loom → Loom) : (s.modLoom f).pending = s.pending := rfl

/-! ### modPower -/

@[simp] theorem State.modPower_time (f : Power → Power) : (s.modPower f).time = s.time := rfl
@[simp] theorem State.modPower_tie (f : Power → Power) : (s.modPower f).tie = s.tie := rfl
@[simp] theorem State.modPower_exts (f : Power → Power) : (s.modPower f).exts = s.exts := rfl
@[simp] theorem State.modPower_ctxs (f : Power → Power) : (s.modPower f).ctxs = s.ctxs := rfl
@[simp] theorem State.modPower_leases (f : Power → Power) : (s.modPower f).leases = s.leases := rfl
@[simp] theorem State.modPower_pins (f : Power → Power) : (s.modPower f).pins = s.pins := rfl
@[simp] theorem State.modPower_tier (f : Power → Power) : (s.modPower f).tier = s.tier := rfl
@[simp] theorem State.modPower_nearMem (f : Power → Power) : (s.modPower f).nearMem = s.nearMem := rfl
@[simp] theorem State.modPower_farMem (f : Power → Power) : (s.modPower f).farMem = s.farMem := rfl
@[simp] theorem State.modPower_reqs (f : Power → Power) : (s.modPower f).reqs = s.reqs := rfl
@[simp] theorem State.modPower_nextReq (f : Power → Power) : (s.modPower f).nextReq = s.nextReq := rfl
@[simp] theorem State.modPower_ports (f : Power → Power) : (s.modPower f).ports = s.ports := rfl
@[simp] theorem State.modPower_slots (f : Power → Power) : (s.modPower f).slots = s.slots := rfl
@[simp] theorem State.modPower_engines (f : Power → Power) : (s.modPower f).engines = s.engines := rfl
@[simp] theorem State.modPower_loom (f : Power → Power) : (s.modPower f).loom = s.loom := rfl
@[simp] theorem State.modPower_umpire (f : Power → Power) : (s.modPower f).umpire = s.umpire := rfl
@[simp] theorem State.modPower_nor (f : Power → Power) : (s.modPower f).nor = s.nor := rfl
@[simp] theorem State.modPower_fuses (f : Power → Power) : (s.modPower f).fuses = s.fuses := rfl
@[simp] theorem State.modPower_ras (f : Power → Power) : (s.modPower f).ras = s.ras := rfl
@[simp] theorem State.modPower_far (f : Power → Power) : (s.modPower f).far = s.far := rfl
@[simp] theorem State.modPower_power (f : Power → Power) : (s.modPower f).power = f s.power := rfl
@[simp] theorem State.modPower_tel (f : Power → Power) : (s.modPower f).tel = s.tel := rfl
@[simp] theorem State.modPower_regs (f : Power → Power) : (s.modPower f).regs = s.regs := rfl
@[simp] theorem State.modPower_freeCount (f : Power → Power) : (s.modPower f).freeCount = s.freeCount := rfl
@[simp] theorem State.modPower_pending (f : Power → Power) : (s.modPower f).pending = s.pending := rfl

/-! ### modRegs -/

@[simp] theorem State.modRegs_time (f : Regs → Regs) : (s.modRegs f).time = s.time := rfl
@[simp] theorem State.modRegs_tie (f : Regs → Regs) : (s.modRegs f).tie = s.tie := rfl
@[simp] theorem State.modRegs_exts (f : Regs → Regs) : (s.modRegs f).exts = s.exts := rfl
@[simp] theorem State.modRegs_ctxs (f : Regs → Regs) : (s.modRegs f).ctxs = s.ctxs := rfl
@[simp] theorem State.modRegs_leases (f : Regs → Regs) : (s.modRegs f).leases = s.leases := rfl
@[simp] theorem State.modRegs_pins (f : Regs → Regs) : (s.modRegs f).pins = s.pins := rfl
@[simp] theorem State.modRegs_tier (f : Regs → Regs) : (s.modRegs f).tier = s.tier := rfl
@[simp] theorem State.modRegs_nearMem (f : Regs → Regs) : (s.modRegs f).nearMem = s.nearMem := rfl
@[simp] theorem State.modRegs_farMem (f : Regs → Regs) : (s.modRegs f).farMem = s.farMem := rfl
@[simp] theorem State.modRegs_reqs (f : Regs → Regs) : (s.modRegs f).reqs = s.reqs := rfl
@[simp] theorem State.modRegs_nextReq (f : Regs → Regs) : (s.modRegs f).nextReq = s.nextReq := rfl
@[simp] theorem State.modRegs_ports (f : Regs → Regs) : (s.modRegs f).ports = s.ports := rfl
@[simp] theorem State.modRegs_slots (f : Regs → Regs) : (s.modRegs f).slots = s.slots := rfl
@[simp] theorem State.modRegs_engines (f : Regs → Regs) : (s.modRegs f).engines = s.engines := rfl
@[simp] theorem State.modRegs_loom (f : Regs → Regs) : (s.modRegs f).loom = s.loom := rfl
@[simp] theorem State.modRegs_umpire (f : Regs → Regs) : (s.modRegs f).umpire = s.umpire := rfl
@[simp] theorem State.modRegs_nor (f : Regs → Regs) : (s.modRegs f).nor = s.nor := rfl
@[simp] theorem State.modRegs_fuses (f : Regs → Regs) : (s.modRegs f).fuses = s.fuses := rfl
@[simp] theorem State.modRegs_ras (f : Regs → Regs) : (s.modRegs f).ras = s.ras := rfl
@[simp] theorem State.modRegs_far (f : Regs → Regs) : (s.modRegs f).far = s.far := rfl
@[simp] theorem State.modRegs_power (f : Regs → Regs) : (s.modRegs f).power = s.power := rfl
@[simp] theorem State.modRegs_tel (f : Regs → Regs) : (s.modRegs f).tel = s.tel := rfl
@[simp] theorem State.modRegs_regs (f : Regs → Regs) : (s.modRegs f).regs = f s.regs := rfl
@[simp] theorem State.modRegs_freeCount (f : Regs → Regs) : (s.modRegs f).freeCount = s.freeCount := rfl
@[simp] theorem State.modRegs_pending (f : Regs → Regs) : (s.modRegs f).pending = s.pending := rfl

/-! ### setExts -/

@[simp] theorem State.setExts_time (x : Table Extent) : (s.setExts x).time = s.time := rfl
@[simp] theorem State.setExts_tie (x : Table Extent) : (s.setExts x).tie = s.tie := rfl
@[simp] theorem State.setExts_exts (x : Table Extent) : (s.setExts x).exts = x := rfl
@[simp] theorem State.setExts_ctxs (x : Table Extent) : (s.setExts x).ctxs = s.ctxs := rfl
@[simp] theorem State.setExts_leases (x : Table Extent) : (s.setExts x).leases = s.leases := rfl
@[simp] theorem State.setExts_pins (x : Table Extent) : (s.setExts x).pins = s.pins := rfl
@[simp] theorem State.setExts_tier (x : Table Extent) : (s.setExts x).tier = s.tier := rfl
@[simp] theorem State.setExts_nearMem (x : Table Extent) : (s.setExts x).nearMem = s.nearMem := rfl
@[simp] theorem State.setExts_farMem (x : Table Extent) : (s.setExts x).farMem = s.farMem := rfl
@[simp] theorem State.setExts_reqs (x : Table Extent) : (s.setExts x).reqs = s.reqs := rfl
@[simp] theorem State.setExts_nextReq (x : Table Extent) : (s.setExts x).nextReq = s.nextReq := rfl
@[simp] theorem State.setExts_ports (x : Table Extent) : (s.setExts x).ports = s.ports := rfl
@[simp] theorem State.setExts_slots (x : Table Extent) : (s.setExts x).slots = s.slots := rfl
@[simp] theorem State.setExts_engines (x : Table Extent) : (s.setExts x).engines = s.engines := rfl
@[simp] theorem State.setExts_loom (x : Table Extent) : (s.setExts x).loom = s.loom := rfl
@[simp] theorem State.setExts_umpire (x : Table Extent) : (s.setExts x).umpire = s.umpire := rfl
@[simp] theorem State.setExts_nor (x : Table Extent) : (s.setExts x).nor = s.nor := rfl
@[simp] theorem State.setExts_fuses (x : Table Extent) : (s.setExts x).fuses = s.fuses := rfl
@[simp] theorem State.setExts_ras (x : Table Extent) : (s.setExts x).ras = s.ras := rfl
@[simp] theorem State.setExts_far (x : Table Extent) : (s.setExts x).far = s.far := rfl
@[simp] theorem State.setExts_power (x : Table Extent) : (s.setExts x).power = s.power := rfl
@[simp] theorem State.setExts_tel (x : Table Extent) : (s.setExts x).tel = s.tel := rfl
@[simp] theorem State.setExts_regs (x : Table Extent) : (s.setExts x).regs = s.regs := rfl
@[simp] theorem State.setExts_freeCount (x : Table Extent) : (s.setExts x).freeCount = s.freeCount := rfl
@[simp] theorem State.setExts_pending (x : Table Extent) : (s.setExts x).pending = s.pending := rfl

/-! ### setCtxs -/

@[simp] theorem State.setCtxs_time (x : Table Ctx) : (s.setCtxs x).time = s.time := rfl
@[simp] theorem State.setCtxs_tie (x : Table Ctx) : (s.setCtxs x).tie = s.tie := rfl
@[simp] theorem State.setCtxs_exts (x : Table Ctx) : (s.setCtxs x).exts = s.exts := rfl
@[simp] theorem State.setCtxs_ctxs (x : Table Ctx) : (s.setCtxs x).ctxs = x := rfl
@[simp] theorem State.setCtxs_leases (x : Table Ctx) : (s.setCtxs x).leases = s.leases := rfl
@[simp] theorem State.setCtxs_pins (x : Table Ctx) : (s.setCtxs x).pins = s.pins := rfl
@[simp] theorem State.setCtxs_tier (x : Table Ctx) : (s.setCtxs x).tier = s.tier := rfl
@[simp] theorem State.setCtxs_nearMem (x : Table Ctx) : (s.setCtxs x).nearMem = s.nearMem := rfl
@[simp] theorem State.setCtxs_farMem (x : Table Ctx) : (s.setCtxs x).farMem = s.farMem := rfl
@[simp] theorem State.setCtxs_reqs (x : Table Ctx) : (s.setCtxs x).reqs = s.reqs := rfl
@[simp] theorem State.setCtxs_nextReq (x : Table Ctx) : (s.setCtxs x).nextReq = s.nextReq := rfl
@[simp] theorem State.setCtxs_ports (x : Table Ctx) : (s.setCtxs x).ports = s.ports := rfl
@[simp] theorem State.setCtxs_slots (x : Table Ctx) : (s.setCtxs x).slots = s.slots := rfl
@[simp] theorem State.setCtxs_engines (x : Table Ctx) : (s.setCtxs x).engines = s.engines := rfl
@[simp] theorem State.setCtxs_loom (x : Table Ctx) : (s.setCtxs x).loom = s.loom := rfl
@[simp] theorem State.setCtxs_umpire (x : Table Ctx) : (s.setCtxs x).umpire = s.umpire := rfl
@[simp] theorem State.setCtxs_nor (x : Table Ctx) : (s.setCtxs x).nor = s.nor := rfl
@[simp] theorem State.setCtxs_fuses (x : Table Ctx) : (s.setCtxs x).fuses = s.fuses := rfl
@[simp] theorem State.setCtxs_ras (x : Table Ctx) : (s.setCtxs x).ras = s.ras := rfl
@[simp] theorem State.setCtxs_far (x : Table Ctx) : (s.setCtxs x).far = s.far := rfl
@[simp] theorem State.setCtxs_power (x : Table Ctx) : (s.setCtxs x).power = s.power := rfl
@[simp] theorem State.setCtxs_tel (x : Table Ctx) : (s.setCtxs x).tel = s.tel := rfl
@[simp] theorem State.setCtxs_regs (x : Table Ctx) : (s.setCtxs x).regs = s.regs := rfl
@[simp] theorem State.setCtxs_freeCount (x : Table Ctx) : (s.setCtxs x).freeCount = s.freeCount := rfl
@[simp] theorem State.setCtxs_pending (x : Table Ctx) : (s.setCtxs x).pending = s.pending := rfl

/-! ### setLeases -/

@[simp] theorem State.setLeases_time (x : Table Lease) : (s.setLeases x).time = s.time := rfl
@[simp] theorem State.setLeases_tie (x : Table Lease) : (s.setLeases x).tie = s.tie := rfl
@[simp] theorem State.setLeases_exts (x : Table Lease) : (s.setLeases x).exts = s.exts := rfl
@[simp] theorem State.setLeases_ctxs (x : Table Lease) : (s.setLeases x).ctxs = s.ctxs := rfl
@[simp] theorem State.setLeases_leases (x : Table Lease) : (s.setLeases x).leases = x := rfl
@[simp] theorem State.setLeases_pins (x : Table Lease) : (s.setLeases x).pins = s.pins := rfl
@[simp] theorem State.setLeases_tier (x : Table Lease) : (s.setLeases x).tier = s.tier := rfl
@[simp] theorem State.setLeases_nearMem (x : Table Lease) : (s.setLeases x).nearMem = s.nearMem := rfl
@[simp] theorem State.setLeases_farMem (x : Table Lease) : (s.setLeases x).farMem = s.farMem := rfl
@[simp] theorem State.setLeases_reqs (x : Table Lease) : (s.setLeases x).reqs = s.reqs := rfl
@[simp] theorem State.setLeases_nextReq (x : Table Lease) : (s.setLeases x).nextReq = s.nextReq := rfl
@[simp] theorem State.setLeases_ports (x : Table Lease) : (s.setLeases x).ports = s.ports := rfl
@[simp] theorem State.setLeases_slots (x : Table Lease) : (s.setLeases x).slots = s.slots := rfl
@[simp] theorem State.setLeases_engines (x : Table Lease) : (s.setLeases x).engines = s.engines := rfl
@[simp] theorem State.setLeases_loom (x : Table Lease) : (s.setLeases x).loom = s.loom := rfl
@[simp] theorem State.setLeases_umpire (x : Table Lease) : (s.setLeases x).umpire = s.umpire := rfl
@[simp] theorem State.setLeases_nor (x : Table Lease) : (s.setLeases x).nor = s.nor := rfl
@[simp] theorem State.setLeases_fuses (x : Table Lease) : (s.setLeases x).fuses = s.fuses := rfl
@[simp] theorem State.setLeases_ras (x : Table Lease) : (s.setLeases x).ras = s.ras := rfl
@[simp] theorem State.setLeases_far (x : Table Lease) : (s.setLeases x).far = s.far := rfl
@[simp] theorem State.setLeases_power (x : Table Lease) : (s.setLeases x).power = s.power := rfl
@[simp] theorem State.setLeases_tel (x : Table Lease) : (s.setLeases x).tel = s.tel := rfl
@[simp] theorem State.setLeases_regs (x : Table Lease) : (s.setLeases x).regs = s.regs := rfl
@[simp] theorem State.setLeases_freeCount (x : Table Lease) : (s.setLeases x).freeCount = s.freeCount := rfl
@[simp] theorem State.setLeases_pending (x : Table Lease) : (s.setLeases x).pending = s.pending := rfl

/-! ### setPins -/

@[simp] theorem State.setPins_time (x : Table Pin) : (s.setPins x).time = s.time := rfl
@[simp] theorem State.setPins_tie (x : Table Pin) : (s.setPins x).tie = s.tie := rfl
@[simp] theorem State.setPins_exts (x : Table Pin) : (s.setPins x).exts = s.exts := rfl
@[simp] theorem State.setPins_ctxs (x : Table Pin) : (s.setPins x).ctxs = s.ctxs := rfl
@[simp] theorem State.setPins_leases (x : Table Pin) : (s.setPins x).leases = s.leases := rfl
@[simp] theorem State.setPins_pins (x : Table Pin) : (s.setPins x).pins = x := rfl
@[simp] theorem State.setPins_tier (x : Table Pin) : (s.setPins x).tier = s.tier := rfl
@[simp] theorem State.setPins_nearMem (x : Table Pin) : (s.setPins x).nearMem = s.nearMem := rfl
@[simp] theorem State.setPins_farMem (x : Table Pin) : (s.setPins x).farMem = s.farMem := rfl
@[simp] theorem State.setPins_reqs (x : Table Pin) : (s.setPins x).reqs = s.reqs := rfl
@[simp] theorem State.setPins_nextReq (x : Table Pin) : (s.setPins x).nextReq = s.nextReq := rfl
@[simp] theorem State.setPins_ports (x : Table Pin) : (s.setPins x).ports = s.ports := rfl
@[simp] theorem State.setPins_slots (x : Table Pin) : (s.setPins x).slots = s.slots := rfl
@[simp] theorem State.setPins_engines (x : Table Pin) : (s.setPins x).engines = s.engines := rfl
@[simp] theorem State.setPins_loom (x : Table Pin) : (s.setPins x).loom = s.loom := rfl
@[simp] theorem State.setPins_umpire (x : Table Pin) : (s.setPins x).umpire = s.umpire := rfl
@[simp] theorem State.setPins_nor (x : Table Pin) : (s.setPins x).nor = s.nor := rfl
@[simp] theorem State.setPins_fuses (x : Table Pin) : (s.setPins x).fuses = s.fuses := rfl
@[simp] theorem State.setPins_ras (x : Table Pin) : (s.setPins x).ras = s.ras := rfl
@[simp] theorem State.setPins_far (x : Table Pin) : (s.setPins x).far = s.far := rfl
@[simp] theorem State.setPins_power (x : Table Pin) : (s.setPins x).power = s.power := rfl
@[simp] theorem State.setPins_tel (x : Table Pin) : (s.setPins x).tel = s.tel := rfl
@[simp] theorem State.setPins_regs (x : Table Pin) : (s.setPins x).regs = s.regs := rfl
@[simp] theorem State.setPins_freeCount (x : Table Pin) : (s.setPins x).freeCount = s.freeCount := rfl
@[simp] theorem State.setPins_pending (x : Table Pin) : (s.setPins x).pending = s.pending := rfl

/-! ### setReqs -/

@[simp] theorem State.setReqs_time (x : Table Req) : (s.setReqs x).time = s.time := rfl
@[simp] theorem State.setReqs_tie (x : Table Req) : (s.setReqs x).tie = s.tie := rfl
@[simp] theorem State.setReqs_exts (x : Table Req) : (s.setReqs x).exts = s.exts := rfl
@[simp] theorem State.setReqs_ctxs (x : Table Req) : (s.setReqs x).ctxs = s.ctxs := rfl
@[simp] theorem State.setReqs_leases (x : Table Req) : (s.setReqs x).leases = s.leases := rfl
@[simp] theorem State.setReqs_pins (x : Table Req) : (s.setReqs x).pins = s.pins := rfl
@[simp] theorem State.setReqs_tier (x : Table Req) : (s.setReqs x).tier = s.tier := rfl
@[simp] theorem State.setReqs_nearMem (x : Table Req) : (s.setReqs x).nearMem = s.nearMem := rfl
@[simp] theorem State.setReqs_farMem (x : Table Req) : (s.setReqs x).farMem = s.farMem := rfl
@[simp] theorem State.setReqs_reqs (x : Table Req) : (s.setReqs x).reqs = x := rfl
@[simp] theorem State.setReqs_nextReq (x : Table Req) : (s.setReqs x).nextReq = s.nextReq := rfl
@[simp] theorem State.setReqs_ports (x : Table Req) : (s.setReqs x).ports = s.ports := rfl
@[simp] theorem State.setReqs_slots (x : Table Req) : (s.setReqs x).slots = s.slots := rfl
@[simp] theorem State.setReqs_engines (x : Table Req) : (s.setReqs x).engines = s.engines := rfl
@[simp] theorem State.setReqs_loom (x : Table Req) : (s.setReqs x).loom = s.loom := rfl
@[simp] theorem State.setReqs_umpire (x : Table Req) : (s.setReqs x).umpire = s.umpire := rfl
@[simp] theorem State.setReqs_nor (x : Table Req) : (s.setReqs x).nor = s.nor := rfl
@[simp] theorem State.setReqs_fuses (x : Table Req) : (s.setReqs x).fuses = s.fuses := rfl
@[simp] theorem State.setReqs_ras (x : Table Req) : (s.setReqs x).ras = s.ras := rfl
@[simp] theorem State.setReqs_far (x : Table Req) : (s.setReqs x).far = s.far := rfl
@[simp] theorem State.setReqs_power (x : Table Req) : (s.setReqs x).power = s.power := rfl
@[simp] theorem State.setReqs_tel (x : Table Req) : (s.setReqs x).tel = s.tel := rfl
@[simp] theorem State.setReqs_regs (x : Table Req) : (s.setReqs x).regs = s.regs := rfl
@[simp] theorem State.setReqs_freeCount (x : Table Req) : (s.setReqs x).freeCount = s.freeCount := rfl
@[simp] theorem State.setReqs_pending (x : Table Req) : (s.setReqs x).pending = s.pending := rfl

/-! ### setNextReq -/

@[simp] theorem State.setNextReq_time (x : Nat) : (s.setNextReq x).time = s.time := rfl
@[simp] theorem State.setNextReq_tie (x : Nat) : (s.setNextReq x).tie = s.tie := rfl
@[simp] theorem State.setNextReq_exts (x : Nat) : (s.setNextReq x).exts = s.exts := rfl
@[simp] theorem State.setNextReq_ctxs (x : Nat) : (s.setNextReq x).ctxs = s.ctxs := rfl
@[simp] theorem State.setNextReq_leases (x : Nat) : (s.setNextReq x).leases = s.leases := rfl
@[simp] theorem State.setNextReq_pins (x : Nat) : (s.setNextReq x).pins = s.pins := rfl
@[simp] theorem State.setNextReq_tier (x : Nat) : (s.setNextReq x).tier = s.tier := rfl
@[simp] theorem State.setNextReq_nearMem (x : Nat) : (s.setNextReq x).nearMem = s.nearMem := rfl
@[simp] theorem State.setNextReq_farMem (x : Nat) : (s.setNextReq x).farMem = s.farMem := rfl
@[simp] theorem State.setNextReq_reqs (x : Nat) : (s.setNextReq x).reqs = s.reqs := rfl
@[simp] theorem State.setNextReq_nextReq (x : Nat) : (s.setNextReq x).nextReq = x := rfl
@[simp] theorem State.setNextReq_ports (x : Nat) : (s.setNextReq x).ports = s.ports := rfl
@[simp] theorem State.setNextReq_slots (x : Nat) : (s.setNextReq x).slots = s.slots := rfl
@[simp] theorem State.setNextReq_engines (x : Nat) : (s.setNextReq x).engines = s.engines := rfl
@[simp] theorem State.setNextReq_loom (x : Nat) : (s.setNextReq x).loom = s.loom := rfl
@[simp] theorem State.setNextReq_umpire (x : Nat) : (s.setNextReq x).umpire = s.umpire := rfl
@[simp] theorem State.setNextReq_nor (x : Nat) : (s.setNextReq x).nor = s.nor := rfl
@[simp] theorem State.setNextReq_fuses (x : Nat) : (s.setNextReq x).fuses = s.fuses := rfl
@[simp] theorem State.setNextReq_ras (x : Nat) : (s.setNextReq x).ras = s.ras := rfl
@[simp] theorem State.setNextReq_far (x : Nat) : (s.setNextReq x).far = s.far := rfl
@[simp] theorem State.setNextReq_power (x : Nat) : (s.setNextReq x).power = s.power := rfl
@[simp] theorem State.setNextReq_tel (x : Nat) : (s.setNextReq x).tel = s.tel := rfl
@[simp] theorem State.setNextReq_regs (x : Nat) : (s.setNextReq x).regs = s.regs := rfl
@[simp] theorem State.setNextReq_freeCount (x : Nat) : (s.setNextReq x).freeCount = s.freeCount := rfl
@[simp] theorem State.setNextReq_pending (x : Nat) : (s.setNextReq x).pending = s.pending := rfl

/-! ### setPorts -/

@[simp] theorem State.setPorts_time (x : List Port) : (s.setPorts x).time = s.time := rfl
@[simp] theorem State.setPorts_tie (x : List Port) : (s.setPorts x).tie = s.tie := rfl
@[simp] theorem State.setPorts_exts (x : List Port) : (s.setPorts x).exts = s.exts := rfl
@[simp] theorem State.setPorts_ctxs (x : List Port) : (s.setPorts x).ctxs = s.ctxs := rfl
@[simp] theorem State.setPorts_leases (x : List Port) : (s.setPorts x).leases = s.leases := rfl
@[simp] theorem State.setPorts_pins (x : List Port) : (s.setPorts x).pins = s.pins := rfl
@[simp] theorem State.setPorts_tier (x : List Port) : (s.setPorts x).tier = s.tier := rfl
@[simp] theorem State.setPorts_nearMem (x : List Port) : (s.setPorts x).nearMem = s.nearMem := rfl
@[simp] theorem State.setPorts_farMem (x : List Port) : (s.setPorts x).farMem = s.farMem := rfl
@[simp] theorem State.setPorts_reqs (x : List Port) : (s.setPorts x).reqs = s.reqs := rfl
@[simp] theorem State.setPorts_nextReq (x : List Port) : (s.setPorts x).nextReq = s.nextReq := rfl
@[simp] theorem State.setPorts_ports (x : List Port) : (s.setPorts x).ports = x := rfl
@[simp] theorem State.setPorts_slots (x : List Port) : (s.setPorts x).slots = s.slots := rfl
@[simp] theorem State.setPorts_engines (x : List Port) : (s.setPorts x).engines = s.engines := rfl
@[simp] theorem State.setPorts_loom (x : List Port) : (s.setPorts x).loom = s.loom := rfl
@[simp] theorem State.setPorts_umpire (x : List Port) : (s.setPorts x).umpire = s.umpire := rfl
@[simp] theorem State.setPorts_nor (x : List Port) : (s.setPorts x).nor = s.nor := rfl
@[simp] theorem State.setPorts_fuses (x : List Port) : (s.setPorts x).fuses = s.fuses := rfl
@[simp] theorem State.setPorts_ras (x : List Port) : (s.setPorts x).ras = s.ras := rfl
@[simp] theorem State.setPorts_far (x : List Port) : (s.setPorts x).far = s.far := rfl
@[simp] theorem State.setPorts_power (x : List Port) : (s.setPorts x).power = s.power := rfl
@[simp] theorem State.setPorts_tel (x : List Port) : (s.setPorts x).tel = s.tel := rfl
@[simp] theorem State.setPorts_regs (x : List Port) : (s.setPorts x).regs = s.regs := rfl
@[simp] theorem State.setPorts_freeCount (x : List Port) : (s.setPorts x).freeCount = s.freeCount := rfl
@[simp] theorem State.setPorts_pending (x : List Port) : (s.setPorts x).pending = s.pending := rfl

/-! ### setSlots -/

@[simp] theorem State.setSlots_time (x : List Slot) : (s.setSlots x).time = s.time := rfl
@[simp] theorem State.setSlots_tie (x : List Slot) : (s.setSlots x).tie = s.tie := rfl
@[simp] theorem State.setSlots_exts (x : List Slot) : (s.setSlots x).exts = s.exts := rfl
@[simp] theorem State.setSlots_ctxs (x : List Slot) : (s.setSlots x).ctxs = s.ctxs := rfl
@[simp] theorem State.setSlots_leases (x : List Slot) : (s.setSlots x).leases = s.leases := rfl
@[simp] theorem State.setSlots_pins (x : List Slot) : (s.setSlots x).pins = s.pins := rfl
@[simp] theorem State.setSlots_tier (x : List Slot) : (s.setSlots x).tier = s.tier := rfl
@[simp] theorem State.setSlots_nearMem (x : List Slot) : (s.setSlots x).nearMem = s.nearMem := rfl
@[simp] theorem State.setSlots_farMem (x : List Slot) : (s.setSlots x).farMem = s.farMem := rfl
@[simp] theorem State.setSlots_reqs (x : List Slot) : (s.setSlots x).reqs = s.reqs := rfl
@[simp] theorem State.setSlots_nextReq (x : List Slot) : (s.setSlots x).nextReq = s.nextReq := rfl
@[simp] theorem State.setSlots_ports (x : List Slot) : (s.setSlots x).ports = s.ports := rfl
@[simp] theorem State.setSlots_slots (x : List Slot) : (s.setSlots x).slots = x := rfl
@[simp] theorem State.setSlots_engines (x : List Slot) : (s.setSlots x).engines = s.engines := rfl
@[simp] theorem State.setSlots_loom (x : List Slot) : (s.setSlots x).loom = s.loom := rfl
@[simp] theorem State.setSlots_umpire (x : List Slot) : (s.setSlots x).umpire = s.umpire := rfl
@[simp] theorem State.setSlots_nor (x : List Slot) : (s.setSlots x).nor = s.nor := rfl
@[simp] theorem State.setSlots_fuses (x : List Slot) : (s.setSlots x).fuses = s.fuses := rfl
@[simp] theorem State.setSlots_ras (x : List Slot) : (s.setSlots x).ras = s.ras := rfl
@[simp] theorem State.setSlots_far (x : List Slot) : (s.setSlots x).far = s.far := rfl
@[simp] theorem State.setSlots_power (x : List Slot) : (s.setSlots x).power = s.power := rfl
@[simp] theorem State.setSlots_tel (x : List Slot) : (s.setSlots x).tel = s.tel := rfl
@[simp] theorem State.setSlots_regs (x : List Slot) : (s.setSlots x).regs = s.regs := rfl
@[simp] theorem State.setSlots_freeCount (x : List Slot) : (s.setSlots x).freeCount = s.freeCount := rfl
@[simp] theorem State.setSlots_pending (x : List Slot) : (s.setSlots x).pending = s.pending := rfl

/-! ### setEngines -/

@[simp] theorem State.setEngines_time (x : List (Option Job)) : (s.setEngines x).time = s.time := rfl
@[simp] theorem State.setEngines_tie (x : List (Option Job)) : (s.setEngines x).tie = s.tie := rfl
@[simp] theorem State.setEngines_exts (x : List (Option Job)) : (s.setEngines x).exts = s.exts := rfl
@[simp] theorem State.setEngines_ctxs (x : List (Option Job)) : (s.setEngines x).ctxs = s.ctxs := rfl
@[simp] theorem State.setEngines_leases (x : List (Option Job)) : (s.setEngines x).leases = s.leases := rfl
@[simp] theorem State.setEngines_pins (x : List (Option Job)) : (s.setEngines x).pins = s.pins := rfl
@[simp] theorem State.setEngines_tier (x : List (Option Job)) : (s.setEngines x).tier = s.tier := rfl
@[simp] theorem State.setEngines_nearMem (x : List (Option Job)) : (s.setEngines x).nearMem = s.nearMem := rfl
@[simp] theorem State.setEngines_farMem (x : List (Option Job)) : (s.setEngines x).farMem = s.farMem := rfl
@[simp] theorem State.setEngines_reqs (x : List (Option Job)) : (s.setEngines x).reqs = s.reqs := rfl
@[simp] theorem State.setEngines_nextReq (x : List (Option Job)) : (s.setEngines x).nextReq = s.nextReq := rfl
@[simp] theorem State.setEngines_ports (x : List (Option Job)) : (s.setEngines x).ports = s.ports := rfl
@[simp] theorem State.setEngines_slots (x : List (Option Job)) : (s.setEngines x).slots = s.slots := rfl
@[simp] theorem State.setEngines_engines (x : List (Option Job)) : (s.setEngines x).engines = x := rfl
@[simp] theorem State.setEngines_loom (x : List (Option Job)) : (s.setEngines x).loom = s.loom := rfl
@[simp] theorem State.setEngines_umpire (x : List (Option Job)) : (s.setEngines x).umpire = s.umpire := rfl
@[simp] theorem State.setEngines_nor (x : List (Option Job)) : (s.setEngines x).nor = s.nor := rfl
@[simp] theorem State.setEngines_fuses (x : List (Option Job)) : (s.setEngines x).fuses = s.fuses := rfl
@[simp] theorem State.setEngines_ras (x : List (Option Job)) : (s.setEngines x).ras = s.ras := rfl
@[simp] theorem State.setEngines_far (x : List (Option Job)) : (s.setEngines x).far = s.far := rfl
@[simp] theorem State.setEngines_power (x : List (Option Job)) : (s.setEngines x).power = s.power := rfl
@[simp] theorem State.setEngines_tel (x : List (Option Job)) : (s.setEngines x).tel = s.tel := rfl
@[simp] theorem State.setEngines_regs (x : List (Option Job)) : (s.setEngines x).regs = s.regs := rfl
@[simp] theorem State.setEngines_freeCount (x : List (Option Job)) : (s.setEngines x).freeCount = s.freeCount := rfl
@[simp] theorem State.setEngines_pending (x : List (Option Job)) : (s.setEngines x).pending = s.pending := rfl

/-! ### setFuses -/

@[simp] theorem State.setFuses_time (x : Fuses) : (s.setFuses x).time = s.time := rfl
@[simp] theorem State.setFuses_tie (x : Fuses) : (s.setFuses x).tie = s.tie := rfl
@[simp] theorem State.setFuses_exts (x : Fuses) : (s.setFuses x).exts = s.exts := rfl
@[simp] theorem State.setFuses_ctxs (x : Fuses) : (s.setFuses x).ctxs = s.ctxs := rfl
@[simp] theorem State.setFuses_leases (x : Fuses) : (s.setFuses x).leases = s.leases := rfl
@[simp] theorem State.setFuses_pins (x : Fuses) : (s.setFuses x).pins = s.pins := rfl
@[simp] theorem State.setFuses_tier (x : Fuses) : (s.setFuses x).tier = s.tier := rfl
@[simp] theorem State.setFuses_nearMem (x : Fuses) : (s.setFuses x).nearMem = s.nearMem := rfl
@[simp] theorem State.setFuses_farMem (x : Fuses) : (s.setFuses x).farMem = s.farMem := rfl
@[simp] theorem State.setFuses_reqs (x : Fuses) : (s.setFuses x).reqs = s.reqs := rfl
@[simp] theorem State.setFuses_nextReq (x : Fuses) : (s.setFuses x).nextReq = s.nextReq := rfl
@[simp] theorem State.setFuses_ports (x : Fuses) : (s.setFuses x).ports = s.ports := rfl
@[simp] theorem State.setFuses_slots (x : Fuses) : (s.setFuses x).slots = s.slots := rfl
@[simp] theorem State.setFuses_engines (x : Fuses) : (s.setFuses x).engines = s.engines := rfl
@[simp] theorem State.setFuses_loom (x : Fuses) : (s.setFuses x).loom = s.loom := rfl
@[simp] theorem State.setFuses_umpire (x : Fuses) : (s.setFuses x).umpire = s.umpire := rfl
@[simp] theorem State.setFuses_nor (x : Fuses) : (s.setFuses x).nor = s.nor := rfl
@[simp] theorem State.setFuses_fuses (x : Fuses) : (s.setFuses x).fuses = x := rfl
@[simp] theorem State.setFuses_ras (x : Fuses) : (s.setFuses x).ras = s.ras := rfl
@[simp] theorem State.setFuses_far (x : Fuses) : (s.setFuses x).far = s.far := rfl
@[simp] theorem State.setFuses_power (x : Fuses) : (s.setFuses x).power = s.power := rfl
@[simp] theorem State.setFuses_tel (x : Fuses) : (s.setFuses x).tel = s.tel := rfl
@[simp] theorem State.setFuses_regs (x : Fuses) : (s.setFuses x).regs = s.regs := rfl
@[simp] theorem State.setFuses_freeCount (x : Fuses) : (s.setFuses x).freeCount = s.freeCount := rfl
@[simp] theorem State.setFuses_pending (x : Fuses) : (s.setFuses x).pending = s.pending := rfl

/-! ### setFar -/

@[simp] theorem State.setFar_time (x : FarCtl) : (s.setFar x).time = s.time := rfl
@[simp] theorem State.setFar_tie (x : FarCtl) : (s.setFar x).tie = s.tie := rfl
@[simp] theorem State.setFar_exts (x : FarCtl) : (s.setFar x).exts = s.exts := rfl
@[simp] theorem State.setFar_ctxs (x : FarCtl) : (s.setFar x).ctxs = s.ctxs := rfl
@[simp] theorem State.setFar_leases (x : FarCtl) : (s.setFar x).leases = s.leases := rfl
@[simp] theorem State.setFar_pins (x : FarCtl) : (s.setFar x).pins = s.pins := rfl
@[simp] theorem State.setFar_tier (x : FarCtl) : (s.setFar x).tier = s.tier := rfl
@[simp] theorem State.setFar_nearMem (x : FarCtl) : (s.setFar x).nearMem = s.nearMem := rfl
@[simp] theorem State.setFar_farMem (x : FarCtl) : (s.setFar x).farMem = s.farMem := rfl
@[simp] theorem State.setFar_reqs (x : FarCtl) : (s.setFar x).reqs = s.reqs := rfl
@[simp] theorem State.setFar_nextReq (x : FarCtl) : (s.setFar x).nextReq = s.nextReq := rfl
@[simp] theorem State.setFar_ports (x : FarCtl) : (s.setFar x).ports = s.ports := rfl
@[simp] theorem State.setFar_slots (x : FarCtl) : (s.setFar x).slots = s.slots := rfl
@[simp] theorem State.setFar_engines (x : FarCtl) : (s.setFar x).engines = s.engines := rfl
@[simp] theorem State.setFar_loom (x : FarCtl) : (s.setFar x).loom = s.loom := rfl
@[simp] theorem State.setFar_umpire (x : FarCtl) : (s.setFar x).umpire = s.umpire := rfl
@[simp] theorem State.setFar_nor (x : FarCtl) : (s.setFar x).nor = s.nor := rfl
@[simp] theorem State.setFar_fuses (x : FarCtl) : (s.setFar x).fuses = s.fuses := rfl
@[simp] theorem State.setFar_ras (x : FarCtl) : (s.setFar x).ras = s.ras := rfl
@[simp] theorem State.setFar_far (x : FarCtl) : (s.setFar x).far = x := rfl
@[simp] theorem State.setFar_power (x : FarCtl) : (s.setFar x).power = s.power := rfl
@[simp] theorem State.setFar_tel (x : FarCtl) : (s.setFar x).tel = s.tel := rfl
@[simp] theorem State.setFar_regs (x : FarCtl) : (s.setFar x).regs = s.regs := rfl
@[simp] theorem State.setFar_freeCount (x : FarCtl) : (s.setFar x).freeCount = s.freeCount := rfl
@[simp] theorem State.setFar_pending (x : FarCtl) : (s.setFar x).pending = s.pending := rfl

/-! ### setTel -/

@[simp] theorem State.setTel_time (x : Tel) : (s.setTel x).time = s.time := rfl
@[simp] theorem State.setTel_tie (x : Tel) : (s.setTel x).tie = s.tie := rfl
@[simp] theorem State.setTel_exts (x : Tel) : (s.setTel x).exts = s.exts := rfl
@[simp] theorem State.setTel_ctxs (x : Tel) : (s.setTel x).ctxs = s.ctxs := rfl
@[simp] theorem State.setTel_leases (x : Tel) : (s.setTel x).leases = s.leases := rfl
@[simp] theorem State.setTel_pins (x : Tel) : (s.setTel x).pins = s.pins := rfl
@[simp] theorem State.setTel_tier (x : Tel) : (s.setTel x).tier = s.tier := rfl
@[simp] theorem State.setTel_nearMem (x : Tel) : (s.setTel x).nearMem = s.nearMem := rfl
@[simp] theorem State.setTel_farMem (x : Tel) : (s.setTel x).farMem = s.farMem := rfl
@[simp] theorem State.setTel_reqs (x : Tel) : (s.setTel x).reqs = s.reqs := rfl
@[simp] theorem State.setTel_nextReq (x : Tel) : (s.setTel x).nextReq = s.nextReq := rfl
@[simp] theorem State.setTel_ports (x : Tel) : (s.setTel x).ports = s.ports := rfl
@[simp] theorem State.setTel_slots (x : Tel) : (s.setTel x).slots = s.slots := rfl
@[simp] theorem State.setTel_engines (x : Tel) : (s.setTel x).engines = s.engines := rfl
@[simp] theorem State.setTel_loom (x : Tel) : (s.setTel x).loom = s.loom := rfl
@[simp] theorem State.setTel_umpire (x : Tel) : (s.setTel x).umpire = s.umpire := rfl
@[simp] theorem State.setTel_nor (x : Tel) : (s.setTel x).nor = s.nor := rfl
@[simp] theorem State.setTel_fuses (x : Tel) : (s.setTel x).fuses = s.fuses := rfl
@[simp] theorem State.setTel_ras (x : Tel) : (s.setTel x).ras = s.ras := rfl
@[simp] theorem State.setTel_far (x : Tel) : (s.setTel x).far = s.far := rfl
@[simp] theorem State.setTel_power (x : Tel) : (s.setTel x).power = s.power := rfl
@[simp] theorem State.setTel_tel (x : Tel) : (s.setTel x).tel = x := rfl
@[simp] theorem State.setTel_regs (x : Tel) : (s.setTel x).regs = s.regs := rfl
@[simp] theorem State.setTel_freeCount (x : Tel) : (s.setTel x).freeCount = s.freeCount := rfl
@[simp] theorem State.setTel_pending (x : Tel) : (s.setTel x).pending = s.pending := rfl

/-! ### setNearMem -/

@[simp] theorem State.setNearMem_time (x : Mem) : (s.setNearMem x).time = s.time := rfl
@[simp] theorem State.setNearMem_tie (x : Mem) : (s.setNearMem x).tie = s.tie := rfl
@[simp] theorem State.setNearMem_exts (x : Mem) : (s.setNearMem x).exts = s.exts := rfl
@[simp] theorem State.setNearMem_ctxs (x : Mem) : (s.setNearMem x).ctxs = s.ctxs := rfl
@[simp] theorem State.setNearMem_leases (x : Mem) : (s.setNearMem x).leases = s.leases := rfl
@[simp] theorem State.setNearMem_pins (x : Mem) : (s.setNearMem x).pins = s.pins := rfl
@[simp] theorem State.setNearMem_tier (x : Mem) : (s.setNearMem x).tier = s.tier := rfl
@[simp] theorem State.setNearMem_nearMem (x : Mem) : (s.setNearMem x).nearMem = x := rfl
@[simp] theorem State.setNearMem_farMem (x : Mem) : (s.setNearMem x).farMem = s.farMem := rfl
@[simp] theorem State.setNearMem_reqs (x : Mem) : (s.setNearMem x).reqs = s.reqs := rfl
@[simp] theorem State.setNearMem_nextReq (x : Mem) : (s.setNearMem x).nextReq = s.nextReq := rfl
@[simp] theorem State.setNearMem_ports (x : Mem) : (s.setNearMem x).ports = s.ports := rfl
@[simp] theorem State.setNearMem_slots (x : Mem) : (s.setNearMem x).slots = s.slots := rfl
@[simp] theorem State.setNearMem_engines (x : Mem) : (s.setNearMem x).engines = s.engines := rfl
@[simp] theorem State.setNearMem_loom (x : Mem) : (s.setNearMem x).loom = s.loom := rfl
@[simp] theorem State.setNearMem_umpire (x : Mem) : (s.setNearMem x).umpire = s.umpire := rfl
@[simp] theorem State.setNearMem_nor (x : Mem) : (s.setNearMem x).nor = s.nor := rfl
@[simp] theorem State.setNearMem_fuses (x : Mem) : (s.setNearMem x).fuses = s.fuses := rfl
@[simp] theorem State.setNearMem_ras (x : Mem) : (s.setNearMem x).ras = s.ras := rfl
@[simp] theorem State.setNearMem_far (x : Mem) : (s.setNearMem x).far = s.far := rfl
@[simp] theorem State.setNearMem_power (x : Mem) : (s.setNearMem x).power = s.power := rfl
@[simp] theorem State.setNearMem_tel (x : Mem) : (s.setNearMem x).tel = s.tel := rfl
@[simp] theorem State.setNearMem_regs (x : Mem) : (s.setNearMem x).regs = s.regs := rfl
@[simp] theorem State.setNearMem_freeCount (x : Mem) : (s.setNearMem x).freeCount = s.freeCount := rfl
@[simp] theorem State.setNearMem_pending (x : Mem) : (s.setNearMem x).pending = s.pending := rfl

/-! ### setFarMem -/

@[simp] theorem State.setFarMem_time (x : Mem) : (s.setFarMem x).time = s.time := rfl
@[simp] theorem State.setFarMem_tie (x : Mem) : (s.setFarMem x).tie = s.tie := rfl
@[simp] theorem State.setFarMem_exts (x : Mem) : (s.setFarMem x).exts = s.exts := rfl
@[simp] theorem State.setFarMem_ctxs (x : Mem) : (s.setFarMem x).ctxs = s.ctxs := rfl
@[simp] theorem State.setFarMem_leases (x : Mem) : (s.setFarMem x).leases = s.leases := rfl
@[simp] theorem State.setFarMem_pins (x : Mem) : (s.setFarMem x).pins = s.pins := rfl
@[simp] theorem State.setFarMem_tier (x : Mem) : (s.setFarMem x).tier = s.tier := rfl
@[simp] theorem State.setFarMem_nearMem (x : Mem) : (s.setFarMem x).nearMem = s.nearMem := rfl
@[simp] theorem State.setFarMem_farMem (x : Mem) : (s.setFarMem x).farMem = x := rfl
@[simp] theorem State.setFarMem_reqs (x : Mem) : (s.setFarMem x).reqs = s.reqs := rfl
@[simp] theorem State.setFarMem_nextReq (x : Mem) : (s.setFarMem x).nextReq = s.nextReq := rfl
@[simp] theorem State.setFarMem_ports (x : Mem) : (s.setFarMem x).ports = s.ports := rfl
@[simp] theorem State.setFarMem_slots (x : Mem) : (s.setFarMem x).slots = s.slots := rfl
@[simp] theorem State.setFarMem_engines (x : Mem) : (s.setFarMem x).engines = s.engines := rfl
@[simp] theorem State.setFarMem_loom (x : Mem) : (s.setFarMem x).loom = s.loom := rfl
@[simp] theorem State.setFarMem_umpire (x : Mem) : (s.setFarMem x).umpire = s.umpire := rfl
@[simp] theorem State.setFarMem_nor (x : Mem) : (s.setFarMem x).nor = s.nor := rfl
@[simp] theorem State.setFarMem_fuses (x : Mem) : (s.setFarMem x).fuses = s.fuses := rfl
@[simp] theorem State.setFarMem_ras (x : Mem) : (s.setFarMem x).ras = s.ras := rfl
@[simp] theorem State.setFarMem_far (x : Mem) : (s.setFarMem x).far = s.far := rfl
@[simp] theorem State.setFarMem_power (x : Mem) : (s.setFarMem x).power = s.power := rfl
@[simp] theorem State.setFarMem_tel (x : Mem) : (s.setFarMem x).tel = s.tel := rfl
@[simp] theorem State.setFarMem_regs (x : Mem) : (s.setFarMem x).regs = s.regs := rfl
@[simp] theorem State.setFarMem_freeCount (x : Mem) : (s.setFarMem x).freeCount = s.freeCount := rfl
@[simp] theorem State.setFarMem_pending (x : Mem) : (s.setFarMem x).pending = s.pending := rfl

/-! ### setFreeCount -/

@[simp] theorem State.setFreeCount_time (x : Nat) : (s.setFreeCount x).time = s.time := rfl
@[simp] theorem State.setFreeCount_tie (x : Nat) : (s.setFreeCount x).tie = s.tie := rfl
@[simp] theorem State.setFreeCount_exts (x : Nat) : (s.setFreeCount x).exts = s.exts := rfl
@[simp] theorem State.setFreeCount_ctxs (x : Nat) : (s.setFreeCount x).ctxs = s.ctxs := rfl
@[simp] theorem State.setFreeCount_leases (x : Nat) : (s.setFreeCount x).leases = s.leases := rfl
@[simp] theorem State.setFreeCount_pins (x : Nat) : (s.setFreeCount x).pins = s.pins := rfl
@[simp] theorem State.setFreeCount_tier (x : Nat) : (s.setFreeCount x).tier = s.tier := rfl
@[simp] theorem State.setFreeCount_nearMem (x : Nat) : (s.setFreeCount x).nearMem = s.nearMem := rfl
@[simp] theorem State.setFreeCount_farMem (x : Nat) : (s.setFreeCount x).farMem = s.farMem := rfl
@[simp] theorem State.setFreeCount_reqs (x : Nat) : (s.setFreeCount x).reqs = s.reqs := rfl
@[simp] theorem State.setFreeCount_nextReq (x : Nat) : (s.setFreeCount x).nextReq = s.nextReq := rfl
@[simp] theorem State.setFreeCount_ports (x : Nat) : (s.setFreeCount x).ports = s.ports := rfl
@[simp] theorem State.setFreeCount_slots (x : Nat) : (s.setFreeCount x).slots = s.slots := rfl
@[simp] theorem State.setFreeCount_engines (x : Nat) : (s.setFreeCount x).engines = s.engines := rfl
@[simp] theorem State.setFreeCount_loom (x : Nat) : (s.setFreeCount x).loom = s.loom := rfl
@[simp] theorem State.setFreeCount_umpire (x : Nat) : (s.setFreeCount x).umpire = s.umpire := rfl
@[simp] theorem State.setFreeCount_nor (x : Nat) : (s.setFreeCount x).nor = s.nor := rfl
@[simp] theorem State.setFreeCount_fuses (x : Nat) : (s.setFreeCount x).fuses = s.fuses := rfl
@[simp] theorem State.setFreeCount_ras (x : Nat) : (s.setFreeCount x).ras = s.ras := rfl
@[simp] theorem State.setFreeCount_far (x : Nat) : (s.setFreeCount x).far = s.far := rfl
@[simp] theorem State.setFreeCount_power (x : Nat) : (s.setFreeCount x).power = s.power := rfl
@[simp] theorem State.setFreeCount_tel (x : Nat) : (s.setFreeCount x).tel = s.tel := rfl
@[simp] theorem State.setFreeCount_regs (x : Nat) : (s.setFreeCount x).regs = s.regs := rfl
@[simp] theorem State.setFreeCount_freeCount (x : Nat) : (s.setFreeCount x).freeCount = x := rfl
@[simp] theorem State.setFreeCount_pending (x : Nat) : (s.setFreeCount x).pending = s.pending := rfl

/-! ### setNor -/

@[simp] theorem State.setNor_time (x : Nor) : (s.setNor x).time = s.time := rfl
@[simp] theorem State.setNor_tie (x : Nor) : (s.setNor x).tie = s.tie := rfl
@[simp] theorem State.setNor_exts (x : Nor) : (s.setNor x).exts = s.exts := rfl
@[simp] theorem State.setNor_ctxs (x : Nor) : (s.setNor x).ctxs = s.ctxs := rfl
@[simp] theorem State.setNor_leases (x : Nor) : (s.setNor x).leases = s.leases := rfl
@[simp] theorem State.setNor_pins (x : Nor) : (s.setNor x).pins = s.pins := rfl
@[simp] theorem State.setNor_tier (x : Nor) : (s.setNor x).tier = s.tier := rfl
@[simp] theorem State.setNor_nearMem (x : Nor) : (s.setNor x).nearMem = s.nearMem := rfl
@[simp] theorem State.setNor_farMem (x : Nor) : (s.setNor x).farMem = s.farMem := rfl
@[simp] theorem State.setNor_reqs (x : Nor) : (s.setNor x).reqs = s.reqs := rfl
@[simp] theorem State.setNor_nextReq (x : Nor) : (s.setNor x).nextReq = s.nextReq := rfl
@[simp] theorem State.setNor_ports (x : Nor) : (s.setNor x).ports = s.ports := rfl
@[simp] theorem State.setNor_slots (x : Nor) : (s.setNor x).slots = s.slots := rfl
@[simp] theorem State.setNor_engines (x : Nor) : (s.setNor x).engines = s.engines := rfl
@[simp] theorem State.setNor_loom (x : Nor) : (s.setNor x).loom = s.loom := rfl
@[simp] theorem State.setNor_umpire (x : Nor) : (s.setNor x).umpire = s.umpire := rfl
@[simp] theorem State.setNor_nor (x : Nor) : (s.setNor x).nor = x := rfl
@[simp] theorem State.setNor_fuses (x : Nor) : (s.setNor x).fuses = s.fuses := rfl
@[simp] theorem State.setNor_ras (x : Nor) : (s.setNor x).ras = s.ras := rfl
@[simp] theorem State.setNor_far (x : Nor) : (s.setNor x).far = s.far := rfl
@[simp] theorem State.setNor_power (x : Nor) : (s.setNor x).power = s.power := rfl
@[simp] theorem State.setNor_tel (x : Nor) : (s.setNor x).tel = s.tel := rfl
@[simp] theorem State.setNor_regs (x : Nor) : (s.setNor x).regs = s.regs := rfl
@[simp] theorem State.setNor_freeCount (x : Nor) : (s.setNor x).freeCount = s.freeCount := rfl
@[simp] theorem State.setNor_pending (x : Nor) : (s.setNor x).pending = s.pending := rfl

/-! ### setTier -/

@[simp] theorem State.setTier_time (x : Tiering) : (s.setTier x).time = s.time := rfl
@[simp] theorem State.setTier_tie (x : Tiering) : (s.setTier x).tie = s.tie := rfl
@[simp] theorem State.setTier_exts (x : Tiering) : (s.setTier x).exts = s.exts := rfl
@[simp] theorem State.setTier_ctxs (x : Tiering) : (s.setTier x).ctxs = s.ctxs := rfl
@[simp] theorem State.setTier_leases (x : Tiering) : (s.setTier x).leases = s.leases := rfl
@[simp] theorem State.setTier_pins (x : Tiering) : (s.setTier x).pins = s.pins := rfl
@[simp] theorem State.setTier_tier (x : Tiering) : (s.setTier x).tier = x := rfl
@[simp] theorem State.setTier_nearMem (x : Tiering) : (s.setTier x).nearMem = s.nearMem := rfl
@[simp] theorem State.setTier_farMem (x : Tiering) : (s.setTier x).farMem = s.farMem := rfl
@[simp] theorem State.setTier_reqs (x : Tiering) : (s.setTier x).reqs = s.reqs := rfl
@[simp] theorem State.setTier_nextReq (x : Tiering) : (s.setTier x).nextReq = s.nextReq := rfl
@[simp] theorem State.setTier_ports (x : Tiering) : (s.setTier x).ports = s.ports := rfl
@[simp] theorem State.setTier_slots (x : Tiering) : (s.setTier x).slots = s.slots := rfl
@[simp] theorem State.setTier_engines (x : Tiering) : (s.setTier x).engines = s.engines := rfl
@[simp] theorem State.setTier_loom (x : Tiering) : (s.setTier x).loom = s.loom := rfl
@[simp] theorem State.setTier_umpire (x : Tiering) : (s.setTier x).umpire = s.umpire := rfl
@[simp] theorem State.setTier_nor (x : Tiering) : (s.setTier x).nor = s.nor := rfl
@[simp] theorem State.setTier_fuses (x : Tiering) : (s.setTier x).fuses = s.fuses := rfl
@[simp] theorem State.setTier_ras (x : Tiering) : (s.setTier x).ras = s.ras := rfl
@[simp] theorem State.setTier_far (x : Tiering) : (s.setTier x).far = s.far := rfl
@[simp] theorem State.setTier_power (x : Tiering) : (s.setTier x).power = s.power := rfl
@[simp] theorem State.setTier_tel (x : Tiering) : (s.setTier x).tel = s.tel := rfl
@[simp] theorem State.setTier_regs (x : Tiering) : (s.setTier x).regs = s.regs := rfl
@[simp] theorem State.setTier_freeCount (x : Tiering) : (s.setTier x).freeCount = s.freeCount := rfl
@[simp] theorem State.setTier_pending (x : Tiering) : (s.setTier x).pending = s.pending := rfl

/-! ### setLoom -/

@[simp] theorem State.setLoom_time (x : Loom) : (s.setLoom x).time = s.time := rfl
@[simp] theorem State.setLoom_tie (x : Loom) : (s.setLoom x).tie = s.tie := rfl
@[simp] theorem State.setLoom_exts (x : Loom) : (s.setLoom x).exts = s.exts := rfl
@[simp] theorem State.setLoom_ctxs (x : Loom) : (s.setLoom x).ctxs = s.ctxs := rfl
@[simp] theorem State.setLoom_leases (x : Loom) : (s.setLoom x).leases = s.leases := rfl
@[simp] theorem State.setLoom_pins (x : Loom) : (s.setLoom x).pins = s.pins := rfl
@[simp] theorem State.setLoom_tier (x : Loom) : (s.setLoom x).tier = s.tier := rfl
@[simp] theorem State.setLoom_nearMem (x : Loom) : (s.setLoom x).nearMem = s.nearMem := rfl
@[simp] theorem State.setLoom_farMem (x : Loom) : (s.setLoom x).farMem = s.farMem := rfl
@[simp] theorem State.setLoom_reqs (x : Loom) : (s.setLoom x).reqs = s.reqs := rfl
@[simp] theorem State.setLoom_nextReq (x : Loom) : (s.setLoom x).nextReq = s.nextReq := rfl
@[simp] theorem State.setLoom_ports (x : Loom) : (s.setLoom x).ports = s.ports := rfl
@[simp] theorem State.setLoom_slots (x : Loom) : (s.setLoom x).slots = s.slots := rfl
@[simp] theorem State.setLoom_engines (x : Loom) : (s.setLoom x).engines = s.engines := rfl
@[simp] theorem State.setLoom_loom (x : Loom) : (s.setLoom x).loom = x := rfl
@[simp] theorem State.setLoom_umpire (x : Loom) : (s.setLoom x).umpire = s.umpire := rfl
@[simp] theorem State.setLoom_nor (x : Loom) : (s.setLoom x).nor = s.nor := rfl
@[simp] theorem State.setLoom_fuses (x : Loom) : (s.setLoom x).fuses = s.fuses := rfl
@[simp] theorem State.setLoom_ras (x : Loom) : (s.setLoom x).ras = s.ras := rfl
@[simp] theorem State.setLoom_far (x : Loom) : (s.setLoom x).far = s.far := rfl
@[simp] theorem State.setLoom_power (x : Loom) : (s.setLoom x).power = s.power := rfl
@[simp] theorem State.setLoom_tel (x : Loom) : (s.setLoom x).tel = s.tel := rfl
@[simp] theorem State.setLoom_regs (x : Loom) : (s.setLoom x).regs = s.regs := rfl
@[simp] theorem State.setLoom_freeCount (x : Loom) : (s.setLoom x).freeCount = s.freeCount := rfl
@[simp] theorem State.setLoom_pending (x : Loom) : (s.setLoom x).pending = s.pending := rfl

end Sys2Proof.Machine
end

