-- ==== Sys2Proof/Laws/Store.lean ====
section
/-! SUPPORT. Laws of tables and memories: a memory keeps its canonical form, a read after a write gives the byte written,
and a write leaves every other byte alone. -/

namespace Sys2Proof

/-! ### The canonical form -/

/-- A well-formed tail stays well formed under a lower bound. -/
theorem Mem.wfFrom_mono {lo lo' : Option Nat} {m : Mem} (h : Mem.wfFrom lo m = true)
    (hl : ∀ l, lo' = some l → ∃ k, lo = some k ∧ l ≤ k) : Mem.wfFrom lo' m = true := by
  cases m with
  | nil => simp [Mem.wfFrom]
  | cons c t =>
    obtain ⟨a, b⟩ := c
    cases lo' with
    | none => simp [Mem.wfFrom] at h ⊢; exact ⟨h.1.2, h.2⟩
    | some l =>
      obtain ⟨k, rfl, hk⟩ := hl l rfl
      simp [Mem.wfFrom] at h ⊢
      exact ⟨⟨by omega, h.1.2⟩, h.2⟩

/-- A write of one byte above a bound keeps the form above it. -/
theorem Mem.wfFrom_write (m : Mem) (lo : Option Nat) (i : Nat) (b : Byte) (h : Mem.wfFrom lo m = true)
    (hi : ∀ l, lo = some l → l < i) : Mem.wfFrom lo (m.write i b) = true := by
  induction m generalizing lo with
  | nil =>
    unfold Mem.write
    split
    · simp [Mem.wfFrom]
    · next hb => cases lo <;> simp_all [Mem.wfFrom]
  | cons c t ih =>
    obtain ⟨a, c⟩ := c
    unfold Mem.write
    split
    · next hia =>
      split
      · exact h
      · next hb =>
        cases lo <;> simp_all [Mem.wfFrom]
    · next hia =>
      split
      · next hEq =>
        subst hEq
        split
        · simp only [Mem.wfFrom, Bool.and_eq_true] at h
          refine Mem.wfFrom_mono h.2 fun l hl => ⟨i, rfl, ?_⟩
          exact Nat.le_of_lt (hi l hl)
        · next hb => cases lo <;> simp_all [Mem.wfFrom]
      · next hne =>
        simp only [Mem.wfFrom, Bool.and_eq_true] at h ⊢
        exact ⟨h.1, ih (some a) h.2 fun l hl => by cases hl; omega⟩

/-- A write of one byte keeps the canonical form. -/
theorem Mem.write_wf {m : Mem} (h : m.wf = true) (i : Nat) (b : Byte) : (m.write i b).wf = true :=
  Mem.wfFrom_write m none i b h (by simp)

/-- A write of bytes keeps the canonical form. -/
theorem Mem.writeN_wf {m : Mem} (h : m.wf = true) (i : Nat) (l : List Byte) : (m.writeN i l).wf = true := by
  induction l generalizing m i with
  | nil => exact h
  | cons b t ih => exact ih (Mem.write_wf h i b) (i + 1)

/-! ### Read after write -/

/-- An address below every listed one reads as zero. -/
theorem Mem.read_below {m : Mem} {a i : Nat} (h : Mem.wfFrom (some a) m = true) (hi : i ≤ a) : m.read i = 0 := by
  cases m with
  | nil => rfl
  | cons c t =>
    obtain ⟨k, b⟩ := c
    simp [Mem.wfFrom] at h
    have : k ≠ i := by omega
    simp [Mem.read, this, show i < k by omega]

/-- What a byte reads as after one byte has been written. -/
theorem Mem.read_writeFrom (m : Mem) (lo : Option Nat) (h : Mem.wfFrom lo m = true) (i j : Nat) (b : Byte) :
    (m.write i b).read j = if i = j then b else m.read j := by
  induction m generalizing lo with
  | nil =>
    unfold Mem.write
    by_cases hb : b = 0 <;> by_cases hij : i = j <;> simp_all [Mem.read]
  | cons c t ih =>
    obtain ⟨a, c⟩ := c
    simp only [Mem.wfFrom, Bool.and_eq_true] at h
    have ih := ih (some a) h.2
    unfold Mem.write
    by_cases h1 : i < a
    · by_cases hb : b = 0
      · simp only [h1, hb, if_true]
        by_cases hij : i = j
        · subst hij; simp [Mem.read, show a ≠ i by omega, h1]
        · simp [hij]
      · simp only [h1, hb, if_true, if_false]
        by_cases hij : i = j
        · simp [Mem.read, hij]
        · simp only [Mem.read, hij, if_false]
          by_cases hj : j < i
          · simp [hj, show a ≠ j by omega, show j < a by omega]
          · simp [hj]
    · by_cases h2 : i = a
      · subst h2
        by_cases hb : b = 0
        · simp only [h1, hb, if_false, if_true]
          by_cases hij : i = j
          · subst hij; simp [Mem.read_below h.2 (Nat.le_refl _)]
          · simp only [hij, if_false, Mem.read]
            by_cases hj : j < i
            · simp [hj, Mem.read_below h.2 (Nat.le_of_lt hj)]
            · simp [hj]
        · simp only [h1, hb, if_false, if_true]
          by_cases hij : i = j <;> simp [Mem.read, hij]
      · simp only [h1, h2, if_false, Mem.read]
        by_cases haj : a = j
        · subst haj; simp [show i ≠ a by omega]
        · by_cases hj : j < a
          · simp [haj, hj, show i ≠ j by omega]
          · simp [haj, hj, ih]

/-- Read after a write of one byte. -/
theorem Mem.read_write {m : Mem} (h : m.wf = true) (i j : Nat) (b : Byte) :
    (m.write i b).read j = if i = j then b else m.read j := Mem.read_writeFrom m none h i j b

/-- A write of bytes leaves every byte outside it alone. -/
theorem Mem.read_writeN_outside {m : Mem} (h : m.wf = true) (a : Nat) (l : List Byte) (j : Nat)
    (hj : j < a ∨ a + l.length ≤ j) : (m.writeN a l).read j = m.read j := by
  induction l generalizing m a with
  | nil => rfl
  | cons b t ih =>
    simp only [List.length_cons] at hj
    simp only [Mem.writeN]
    rw [ih (Mem.write_wf h a b) (a + 1) (by omega), Mem.read_write h, if_neg (by omega)]

/-- A byte written reads back. -/
theorem Mem.read_writeN_inside {m : Mem} (h : m.wf = true) (a : Nat) (l : List Byte) (k : Nat) (hk : k < l.length) :
    (m.writeN a l).read (a + k) = l[k] := by
  induction l generalizing m a k with
  | nil => simp at hk
  | cons b t ih =>
    simp only [Mem.writeN]
    cases k with
    | zero =>
      rw [Mem.read_writeN_outside (Mem.write_wf h a b) (a + 1) t (a + 0) (by omega), Mem.read_write h]
      simp
    | succ k =>
      rw [show a + (k + 1) = a + 1 + k by omega, ih (Mem.write_wf h a b) (a + 1) k (by simpa using hk)]
      simp

/-! ### Tables and lists -/

@[simp] theorem List.length_modifyAt {α : Type} (l : List α) (i : Nat) (f : α → α) :
    (List.modifyAt l i f).length = l.length := by
  unfold List.modifyAt
  split <;> simp

/-- Changing one element changes what it reads as, and no other. -/
theorem List.getD_modifyAt {α : Type} (l : List α) (i j : Nat) (f : α → α) (d : α) (hi : i < l.length) :
    (List.modifyAt l i f).getD j d = if i = j then f (l.getD i d) else l.getD j d := by
  have hl : l[i]? = some l[i] := List.getElem?_eq_getElem hi
  unfold List.modifyAt
  rw [hl]
  by_cases h : i = j
  · subst h; simp [List.getD, hi]
  · simp [List.getD, h]

/-- A key that has been set reads back; every other key reads as before. -/
@[simp] theorem Table.get?_set {α : Type} (t : Table α) (i j : Nat) (v : α) :
    Table.get? (Table.set t i v) j = if i = j then some v else Table.get? t j := by
  induction t with
  | nil => simp [Table.set, Table.get?]
  | cons c t ih =>
    obtain ⟨k, w⟩ := c
    unfold Table.set
    split
    · simp [Table.get?]
    · next h1 =>
      split
      · next h2 => subst h2; simp only [Table.get?]; split <;> rfl
      · next h2 =>
        simp only [Table.get?, ih]
        by_cases hk : k = j
        · simp [hk, show ¬ i = j by omega]
        · simp [hk]

/-- A key that has been removed reads as absent; every other key reads as before. -/
@[simp] theorem Table.get?_erase {α : Type} (t : Table α) (i j : Nat) :
    Table.get? (Table.erase t i) j = if i = j then none else Table.get? t j := by
  induction t with
  | nil => simp [Table.erase, Table.get?]
  | cons c t ih =>
    obtain ⟨k, w⟩ := c
    simp only [Table.erase, List.filter_cons] at ih ⊢
    by_cases hk : k = i
    · subst hk
      simp only [bne_self_eq_false, Bool.false_eq_true, if_false, ih]
      split
      · rfl
      · next h => simp [Table.get?, h]
    · simp only [bne_iff_ne, ne_eq, hk, not_false_eq_true, if_true, Table.get?, ih]
      split
      · next h => subst h; simp [Ne.symm hk]
      · rfl

/-- A changed value reads back changed. -/
@[simp] theorem Table.get?_modify {α : Type} (t : Table α) (i j : Nat) (f : α → α) :
    Table.get? (Table.modify t i f) j = if i = j then (Table.get? t j).map f else Table.get? t j := by
  unfold Table.modify
  split
  · next v hv =>
    rw [Table.get?_set]
    split
    · next h => subst h; simp [hv]
    · rfl
  · next hv =>
    split
    · next h => subst h; simp [hv]
    · rfl

/-! ### Fields of byte strings -/

@[simp] theorem length_toLe (n v : Nat) : (toLe n v).length = n := by
  induction n generalizing v with
  | zero => rfl
  | succ n ih => simp [toLe, ih]

@[simp] theorem length_zeros (n : Nat) : (zeros n).length = n := by simp [zeros]

@[simp] theorem length_slice (l : List Byte) (off n : Nat) : (slice l off n).length = n := by simp [slice]

/-- A whole byte string is its own first field. -/
theorem slice_all (l : List Byte) : slice l 0 l.length = l := by
  apply List.ext_getElem
  · simp
  · intro i h1 h2
    simp [slice, h2]

theorem slice_of_length {l : List Byte} {n : Nat} (h : l.length = n) : slice l 0 n = l := by subst h; exact slice_all l

@[simp] theorem slice_toLe (n v : Nat) : slice (toLe n v) 0 n = toLe n v := slice_of_length (length_toLe n v)

@[simp] theorem slice_zeros (n : Nat) : slice (zeros n) 0 n = zeros n := slice_of_length (length_zeros n)

/-- A field that lies in the first of two byte strings. -/
theorem slice_append_left {l r : List Byte} {off n : Nat} (h : off + n ≤ l.length) : slice (l ++ r) off n = slice l off n := by
  unfold slice
  refine List.map_congr_left fun i hi => ?_
  have : off + i < l.length := by have := List.mem_range.1 hi; omega
  simp [List.getElem?_append_left this]

/-- A field that lies in the second of two byte strings. -/
theorem slice_append_right {l r : List Byte} {off n : Nat} (h : l.length ≤ off) : slice (l ++ r) off n = slice r (off - l.length) n := by
  unfold slice
  refine List.map_congr_left fun i _ => ?_
  have : l.length ≤ off + i := by omega
  simp [List.getElem?_append_right this, Nat.sub_add_comm h]

end Sys2Proof
end

