-- ==== Sys2Proof/Laws/Mailbox.lean ====
section
/-! SUPPORT. Laws of the life of a mailbox command: what acceptance and completion change, and that a command that runs is its
own effect on the accepted state. -/

namespace Sys2Proof.Machine

/-! ### Mailboxes by name -/

theorem find_mapKey (l : List (Mbx × Mailbox)) (m : Mbx) (f : Mailbox → Mailbox) :
    (l.map fun x => if x.1 == m then (x.1, f x.2) else x).find? (fun x => x.1 == m) =
      (l.find? fun x => x.1 == m).map fun x => (x.1, f x.2) := by
  induction l with
  | nil => rfl
  | cons x t ih =>
    rw [List.map_cons, List.find?_cons, List.find?_cons]
    by_cases h : x.1 == m
    · rw [if_pos h]; simp only [h, Option.map_some]
    · rw [if_neg h]; simp only [h, ih]

theorem find_mapKey_ne (l : List (Mbx × Mailbox)) {m k : Mbx} (hne : k ≠ m) (f : Mailbox → Mailbox) :
    (l.map fun x => if x.1 == m then (x.1, f x.2) else x).find? (fun x => x.1 == k) = l.find? fun x => x.1 == k := by
  induction l with
  | nil => rfl
  | cons x t ih =>
    rw [List.map_cons, List.find?_cons, List.find?_cons]
    by_cases h : x.1 == m
    · have hk : (x.1 == k) = false := by
        have := beq_iff_eq.1 h
        subst this
        exact beq_eq_false_iff_ne.2 fun e => hne e.symm
      rw [if_pos h]; simp only [hk, ih]
    · rw [if_neg h, ih]

/-- A mailbox that exists is found. -/
theorem State.find_mbox {s : State} {m : Mbx} (h : s.umpire.mboxes.map (·.1) = allMbx) (hm : m ∈ allMbx) :
    ∃ x, s.umpire.mboxes.find? (fun x => x.1 == m) = some x := by
  rw [← h] at hm
  obtain ⟨x, hx, rfl⟩ := List.mem_map.1 hm
  exact Option.isSome_iff_exists.1 (List.find?_isSome.2 ⟨x, hx, by simp⟩)

/-- An update of a mailbox that exists. -/
theorem State.mbox_modMbox {s : State} {m : Mbx} (h : s.umpire.mboxes.map (·.1) = allMbx) (hm : m ∈ allMbx)
    (f : Mailbox → Mailbox) : (s.modMbox m f).mbox m = f (s.mbox m) := by
  obtain ⟨x, hx⟩ := State.find_mbox h hm
  simp only [State.mbox, State.modMbox, find_mapKey, hx, Option.map_some, Option.getD_some]

/-- An update of one mailbox leaves the others alone. -/
theorem State.mbox_modMbox_ne (s : State) {m k : Mbx} (hne : k ≠ m) (f : Mailbox → Mailbox) :
    (s.modMbox m f).mbox k = s.mbox k := by
  simp only [State.mbox, State.modMbox, find_mapKey_ne _ hne]

@[simp] theorem State.modMbox_keys (s : State) (m : Mbx) (f : Mailbox → Mailbox) :
    (s.modMbox m f).umpire.mboxes.map (·.1) = s.umpire.mboxes.map (·.1) := by
  simp only [State.modMbox, List.map_map]
  congr 1
  funext x
  simp only [Function.comp]
  split <;> rfl

/-- The mailboxes are all that a mailbox depends on. -/
theorem State.mbox_congr {s t : State} (h : t.umpire.mboxes = s.umpire.mboxes) (m : Mbx) : t.mbox m = s.mbox m := by
  simp only [State.mbox, h]

/-! ### Acceptance -/

theorem State.mbox_acceptMbx {s : State} {m : Mbx} (h : s.HasMbx m) :
    (s.acceptMbx m).mbox m = { s.mbox m with accepted := true, ctx := s.auditCtx m } := by
  unfold State.acceptMbx
  rw [State.mbox_modMbox (by exact h.1) h.2.1]
  rfl

theorem State.hasMbx_acceptMbx {s : State} {m : Mbx} (h : s.HasMbx m) : (s.acceptMbx m).HasMbx m := by
  refine ⟨?_, h.2.1, ?_⟩
  · unfold State.acceptMbx; rw [State.modMbox_keys]; exact h.1
  · rw [State.mbox_acceptMbx h]; exact h.2.2

@[simp] theorem State.acceptMbx_time (s : State) (m : Mbx) : (s.acceptMbx m).time = s.time := rfl
@[simp] theorem State.acceptMbx_tie (s : State) (m : Mbx) : (s.acceptMbx m).tie = s.tie := rfl
@[simp] theorem State.acceptMbx_exts (s : State) (m : Mbx) : (s.acceptMbx m).exts = s.exts := rfl
@[simp] theorem State.acceptMbx_ctxs (s : State) (m : Mbx) : (s.acceptMbx m).ctxs = s.ctxs := rfl
@[simp] theorem State.acceptMbx_leases (s : State) (m : Mbx) : (s.acceptMbx m).leases = s.leases := rfl
@[simp] theorem State.acceptMbx_pins (s : State) (m : Mbx) : (s.acceptMbx m).pins = s.pins := rfl
@[simp] theorem State.acceptMbx_tier (s : State) (m : Mbx) : (s.acceptMbx m).tier = s.tier := rfl
@[simp] theorem State.acceptMbx_nearMem (s : State) (m : Mbx) : (s.acceptMbx m).nearMem = s.nearMem := rfl
@[simp] theorem State.acceptMbx_farMem (s : State) (m : Mbx) : (s.acceptMbx m).farMem = s.farMem := rfl
@[simp] theorem State.acceptMbx_reqs (s : State) (m : Mbx) : (s.acceptMbx m).reqs = s.reqs := rfl
@[simp] theorem State.acceptMbx_nextReq (s : State) (m : Mbx) : (s.acceptMbx m).nextReq = s.nextReq := rfl
@[simp] theorem State.acceptMbx_slots (s : State) (m : Mbx) : (s.acceptMbx m).slots = s.slots := rfl
@[simp] theorem State.acceptMbx_engines (s : State) (m : Mbx) : (s.acceptMbx m).engines = s.engines := rfl
@[simp] theorem State.acceptMbx_loom (s : State) (m : Mbx) : (s.acceptMbx m).loom = s.loom := rfl
@[simp] theorem State.acceptMbx_fuses (s : State) (m : Mbx) : (s.acceptMbx m).fuses = s.fuses := rfl
@[simp] theorem State.acceptMbx_ras (s : State) (m : Mbx) : (s.acceptMbx m).ras = s.ras := rfl
@[simp] theorem State.acceptMbx_far (s : State) (m : Mbx) : (s.acceptMbx m).far = s.far := rfl
@[simp] theorem State.acceptMbx_power (s : State) (m : Mbx) : (s.acceptMbx m).power = s.power := rfl
@[simp] theorem State.acceptMbx_tel (s : State) (m : Mbx) : (s.acceptMbx m).tel = s.tel := rfl
@[simp] theorem State.acceptMbx_freeCount (s : State) (m : Mbx) : (s.acceptMbx m).freeCount = s.freeCount := rfl
@[simp] theorem State.acceptMbx_pending (s : State) (m : Mbx) : (s.acceptMbx m).pending = s.pending := rfl
@[simp] theorem State.acceptMbx_nor (s : State) (m : Mbx) : (s.acceptMbx m).nor = s.nor := rfl
@[simp] theorem State.acceptMbx_ports (s : State) (m : Mbx) : (s.acceptMbx m).ports = s.ports := rfl
@[simp] theorem State.acceptMbx_regs (s : State) (m : Mbx) : (s.acceptMbx m).regs = s.regs := rfl

/-- The fields of the request are what they were. -/
theorem State.rq_acceptMbx {s : State} {m : Mbx} (h : s.HasMbx m) (off n : Nat) : (s.acceptMbx m).rq m off n = s.rq m off n := by
  simp only [State.rq, State.mbox_acceptMbx h]

theorem State.rqBytes_acceptMbx {s : State} {m : Mbx} (h : s.HasMbx m) (off n : Nat) :
    (s.acceptMbx m).rqBytes m off n = s.rqBytes m off n := by
  simp only [State.rqBytes, State.mbox_acceptMbx h]

theorem State.opcode_acceptMbx {s : State} {m : Mbx} (h : s.HasMbx m) : (s.acceptMbx m).opcode m = s.opcode m := by
  simp only [State.opcode, State.mbox_acceptMbx h]

theorem State.flag_acceptMbx {s : State} {m : Mbx} (h : s.HasMbx m) (i : Nat) : (s.acceptMbx m).flag m i = s.flag m i := by
  simp only [State.flag, State.flags, State.mbox_acceptMbx h]

theorem State.seqOf_acceptMbx {s : State} {m : Mbx} (h : s.HasMbx m) : (s.acceptMbx m).seqOf m = s.seqOf m := by
  simp only [State.seqOf, State.mbox_acceptMbx h]

theorem State.keyId_acceptMbx {s : State} {m : Mbx} (h : s.HasMbx m) : (s.acceptMbx m).keyId m = s.keyId m := by
  simp only [State.keyId, State.mbox_acceptMbx h]

/-- A command that runs is its own effect on the state in which it has been accepted. -/
theorem State.runCommand_of_runs {s : State} {m : Mbx} {op : Nat} {form : Bool} (h : s.Runs m op form) (own : State → State) :
    s.runCommand m op form own = own (s.acceptMbx m) := by
  unfold State.runCommand
  rw [if_pos h.2.1]
  simp only [h.2.2]

/-! ### What completion leaves alone -/

@[simp] theorem State.auditAppend_time (s : State) (b : AuditBody) : (s.auditAppend b).time = s.time := by
  unfold State.auditAppend; dsimp only; split <;> (try split) <;> rfl

@[simp] theorem State.auditAppend_tie (s : State) (b : AuditBody) : (s.auditAppend b).tie = s.tie := by
  unfold State.auditAppend; dsimp only; split <;> (try split) <;> rfl

@[simp] theorem State.auditAppend_exts (s : State) (b : AuditBody) : (s.auditAppend b).exts = s.exts := by
  unfold State.auditAppend; dsimp only; split <;> (try split) <;> rfl

@[simp] theorem State.auditAppend_ctxs (s : State) (b : AuditBody) : (s.auditAppend b).ctxs = s.ctxs := by
  unfold State.auditAppend; dsimp only; split <;> (try split) <;> rfl

@[simp] theorem State.auditAppend_leases (s : State) (b : AuditBody) : (s.auditAppend b).leases = s.leases := by
  unfold State.auditAppend; dsimp only; split <;> (try split) <;> rfl

@[simp] theorem State.auditAppend_pins (s : State) (b : AuditBody) : (s.auditAppend b).pins = s.pins := by
  unfold State.auditAppend; dsimp only; split <;> (try split) <;> rfl

@[simp] theorem State.auditAppend_tier (s : State) (b : AuditBody) : (s.auditAppend b).tier = s.tier := by
  unfold State.auditAppend; dsimp only; split <;> (try split) <;> rfl

@[simp] theorem State.auditAppend_nearMem (s : State) (b : AuditBody) : (s.auditAppend b).nearMem = s.nearMem := by
  unfold State.auditAppend; dsimp only; split <;> (try split) <;> rfl

@[simp] theorem State.auditAppend_farMem (s : State) (b : AuditBody) : (s.auditAppend b).farMem = s.farMem := by
  unfold State.auditAppend; dsimp only; split <;> (try split) <;> rfl

@[simp] theorem State.auditAppend_reqs (s : State) (b : AuditBody) : (s.auditAppend b).reqs = s.reqs := by
  unfold State.auditAppend; dsimp only; split <;> (try split) <;> rfl

@[simp] theorem State.auditAppend_nextReq (s : State) (b : AuditBody) : (s.auditAppend b).nextReq = s.nextReq := by
  unfold State.auditAppend; dsimp only; split <;> (try split) <;> rfl

@[simp] theorem State.auditAppend_slots (s : State) (b : AuditBody) : (s.auditAppend b).slots = s.slots := by
  unfold State.auditAppend; dsimp only; split <;> (try split) <;> rfl

@[simp] theorem State.auditAppend_engines (s : State) (b : AuditBody) : (s.auditAppend b).engines = s.engines := by
  unfold State.auditAppend; dsimp only; split <;> (try split) <;> rfl

@[simp] theorem State.auditAppend_loom (s : State) (b : AuditBody) : (s.auditAppend b).loom = s.loom := by
  unfold State.auditAppend; dsimp only; split <;> (try split) <;> rfl

@[simp] theorem State.auditAppend_fuses (s : State) (b : AuditBody) : (s.auditAppend b).fuses = s.fuses := by
  unfold State.auditAppend; dsimp only; split <;> (try split) <;> rfl

@[simp] theorem State.auditAppend_ras (s : State) (b : AuditBody) : (s.auditAppend b).ras = s.ras := by
  unfold State.auditAppend; dsimp only; split <;> (try split) <;> rfl

@[simp] theorem State.auditAppend_far (s : State) (b : AuditBody) : (s.auditAppend b).far = s.far := by
  unfold State.auditAppend; dsimp only; split <;> (try split) <;> rfl

@[simp] theorem State.auditAppend_power (s : State) (b : AuditBody) : (s.auditAppend b).power = s.power := by
  unfold State.auditAppend; dsimp only; split <;> (try split) <;> rfl

@[simp] theorem State.auditAppend_tel (s : State) (b : AuditBody) : (s.auditAppend b).tel = s.tel := by
  unfold State.auditAppend; dsimp only; split <;> (try split) <;> rfl

@[simp] theorem State.auditAppend_freeCount (s : State) (b : AuditBody) : (s.auditAppend b).freeCount = s.freeCount := by
  unfold State.auditAppend; dsimp only; split <;> (try split) <;> rfl

@[simp] theorem State.auditAppend_pending (s : State) (b : AuditBody) : (s.auditAppend b).pending = s.pending := by
  unfold State.auditAppend; dsimp only; split <;> (try split) <;> rfl

theorem State.mboxes_auditAppend (s : State) (b : AuditBody) : (s.auditAppend b).umpire.mboxes = s.umpire.mboxes := by
  unfold State.auditAppend; dsimp only; split <;> (try split) <;> rfl

theorem State.mboxes_auditCommand (s : State) (m : Mbx) (st : Nat) (r : List Byte) :
    (s.auditCommand m st r).umpire.mboxes = s.umpire.mboxes := by
  unfold State.auditCommand
  split
  · exact State.mboxes_auditAppend ..
  · rfl

theorem State.mboxes_raise (s : State) (v : Nat) : (s.raise v).umpire.mboxes = s.umpire.mboxes := rfl

theorem State.mboxes_sendEvt (s : State) (p : Nat) (e : Evt) : (s.sendEvt p e).umpire.mboxes = s.umpire.mboxes := by
  unfold State.sendEvt; split <;> rfl

theorem State.mboxes_signalDone (s : State) (m : Mbx) (seq st : Nat) :
    (s.signalDone m seq st).umpire.mboxes = s.umpire.mboxes := by
  unfold State.signalDone
  split
  · exact State.mboxes_sendEvt ..
  · split <;> rfl

@[simp] theorem State.auditCommand_time (s : State) (m : Mbx) (st : Nat) (r : List Byte) : (s.auditCommand m st r).time = s.time := by
  unfold State.auditCommand; split <;> simp

@[simp] theorem State.signalDone_time (s : State) (m : Mbx) (seq st : Nat) : (s.signalDone m seq st).time = s.time := by
  unfold State.signalDone; split
  · unfold State.sendEvt; split <;> rfl
  · split <;> rfl

@[simp] theorem State.complete_time (s : State) (m : Mbx) (st : Nat) (b : List Byte) : (s.complete m st b).time = s.time := by
  unfold State.complete; dsimp only; split <;> split <;> simp [State.drewRandom]

@[simp] theorem State.auditCommand_tie (s : State) (m : Mbx) (st : Nat) (r : List Byte) : (s.auditCommand m st r).tie = s.tie := by
  unfold State.auditCommand; split <;> simp

@[simp] theorem State.signalDone_tie (s : State) (m : Mbx) (seq st : Nat) : (s.signalDone m seq st).tie = s.tie := by
  unfold State.signalDone; split
  · unfold State.sendEvt; split <;> rfl
  · split <;> rfl

@[simp] theorem State.complete_tie (s : State) (m : Mbx) (st : Nat) (b : List Byte) : (s.complete m st b).tie = s.tie := by
  unfold State.complete; dsimp only; split <;> split <;> simp [State.drewRandom]

@[simp] theorem State.auditCommand_exts (s : State) (m : Mbx) (st : Nat) (r : List Byte) : (s.auditCommand m st r).exts = s.exts := by
  unfold State.auditCommand; split <;> simp

@[simp] theorem State.signalDone_exts (s : State) (m : Mbx) (seq st : Nat) : (s.signalDone m seq st).exts = s.exts := by
  unfold State.signalDone; split
  · unfold State.sendEvt; split <;> rfl
  · split <;> rfl

@[simp] theorem State.complete_exts (s : State) (m : Mbx) (st : Nat) (b : List Byte) : (s.complete m st b).exts = s.exts := by
  unfold State.complete; dsimp only; split <;> split <;> simp [State.drewRandom]

@[simp] theorem State.auditCommand_ctxs (s : State) (m : Mbx) (st : Nat) (r : List Byte) : (s.auditCommand m st r).ctxs = s.ctxs := by
  unfold State.auditCommand; split <;> simp

@[simp] theorem State.signalDone_ctxs (s : State) (m : Mbx) (seq st : Nat) : (s.signalDone m seq st).ctxs = s.ctxs := by
  unfold State.signalDone; split
  · unfold State.sendEvt; split <;> rfl
  · split <;> rfl

@[simp] theorem State.complete_ctxs (s : State) (m : Mbx) (st : Nat) (b : List Byte) : (s.complete m st b).ctxs = s.ctxs := by
  unfold State.complete; dsimp only; split <;> split <;> simp [State.drewRandom]

@[simp] theorem State.auditCommand_leases (s : State) (m : Mbx) (st : Nat) (r : List Byte) : (s.auditCommand m st r).leases = s.leases := by
  unfold State.auditCommand; split <;> simp

@[simp] theorem State.signalDone_leases (s : State) (m : Mbx) (seq st : Nat) : (s.signalDone m seq st).leases = s.leases := by
  unfold State.signalDone; split
  · unfold State.sendEvt; split <;> rfl
  · split <;> rfl

@[simp] theorem State.complete_leases (s : State) (m : Mbx) (st : Nat) (b : List Byte) : (s.complete m st b).leases = s.leases := by
  unfold State.complete; dsimp only; split <;> split <;> simp [State.drewRandom]

@[simp] theorem State.auditCommand_pins (s : State) (m : Mbx) (st : Nat) (r : List Byte) : (s.auditCommand m st r).pins = s.pins := by
  unfold State.auditCommand; split <;> simp

@[simp] theorem State.signalDone_pins (s : State) (m : Mbx) (seq st : Nat) : (s.signalDone m seq st).pins = s.pins := by
  unfold State.signalDone; split
  · unfold State.sendEvt; split <;> rfl
  · split <;> rfl

@[simp] theorem State.complete_pins (s : State) (m : Mbx) (st : Nat) (b : List Byte) : (s.complete m st b).pins = s.pins := by
  unfold State.complete; dsimp only; split <;> split <;> simp [State.drewRandom]

@[simp] theorem State.auditCommand_tier (s : State) (m : Mbx) (st : Nat) (r : List Byte) : (s.auditCommand m st r).tier = s.tier := by
  unfold State.auditCommand; split <;> simp

@[simp] theorem State.signalDone_tier (s : State) (m : Mbx) (seq st : Nat) : (s.signalDone m seq st).tier = s.tier := by
  unfold State.signalDone; split
  · unfold State.sendEvt; split <;> rfl
  · split <;> rfl

@[simp] theorem State.complete_tier (s : State) (m : Mbx) (st : Nat) (b : List Byte) : (s.complete m st b).tier = s.tier := by
  unfold State.complete; dsimp only; split <;> split <;> simp [State.drewRandom]

@[simp] theorem State.auditCommand_nearMem (s : State) (m : Mbx) (st : Nat) (r : List Byte) : (s.auditCommand m st r).nearMem = s.nearMem := by
  unfold State.auditCommand; split <;> simp

@[simp] theorem State.signalDone_nearMem (s : State) (m : Mbx) (seq st : Nat) : (s.signalDone m seq st).nearMem = s.nearMem := by
  unfold State.signalDone; split
  · unfold State.sendEvt; split <;> rfl
  · split <;> rfl

@[simp] theorem State.complete_nearMem (s : State) (m : Mbx) (st : Nat) (b : List Byte) : (s.complete m st b).nearMem = s.nearMem := by
  unfold State.complete; dsimp only; split <;> split <;> simp [State.drewRandom]

@[simp] theorem State.auditCommand_farMem (s : State) (m : Mbx) (st : Nat) (r : List Byte) : (s.auditCommand m st r).farMem = s.farMem := by
  unfold State.auditCommand; split <;> simp

@[simp] theorem State.signalDone_farMem (s : State) (m : Mbx) (seq st : Nat) : (s.signalDone m seq st).farMem = s.farMem := by
  unfold State.signalDone; split
  · unfold State.sendEvt; split <;> rfl
  · split <;> rfl

@[simp] theorem State.complete_farMem (s : State) (m : Mbx) (st : Nat) (b : List Byte) : (s.complete m st b).farMem = s.farMem := by
  unfold State.complete; dsimp only; split <;> split <;> simp [State.drewRandom]

@[simp] theorem State.auditCommand_reqs (s : State) (m : Mbx) (st : Nat) (r : List Byte) : (s.auditCommand m st r).reqs = s.reqs := by
  unfold State.auditCommand; split <;> simp

@[simp] theorem State.signalDone_reqs (s : State) (m : Mbx) (seq st : Nat) : (s.signalDone m seq st).reqs = s.reqs := by
  unfold State.signalDone; split
  · unfold State.sendEvt; split <;> rfl
  · split <;> rfl

@[simp] theorem State.complete_reqs (s : State) (m : Mbx) (st : Nat) (b : List Byte) : (s.complete m st b).reqs = s.reqs := by
  unfold State.complete; dsimp only; split <;> split <;> simp [State.drewRandom]

@[simp] theorem State.auditCommand_nextReq (s : State) (m : Mbx) (st : Nat) (r : List Byte) : (s.auditCommand m st r).nextReq = s.nextReq := by
  unfold State.auditCommand; split <;> simp

@[simp] theorem State.signalDone_nextReq (s : State) (m : Mbx) (seq st : Nat) : (s.signalDone m seq st).nextReq = s.nextReq := by
  unfold State.signalDone; split
  · unfold State.sendEvt; split <;> rfl
  · split <;> rfl

@[simp] theorem State.complete_nextReq (s : State) (m : Mbx) (st : Nat) (b : List Byte) : (s.complete m st b).nextReq = s.nextReq := by
  unfold State.complete; dsimp only; split <;> split <;> simp [State.drewRandom]

@[simp] theorem State.auditCommand_slots (s : State) (m : Mbx) (st : Nat) (r : List Byte) : (s.auditCommand m st r).slots = s.slots := by
  unfold State.auditCommand; split <;> simp

@[simp] theorem State.signalDone_slots (s : State) (m : Mbx) (seq st : Nat) : (s.signalDone m seq st).slots = s.slots := by
  unfold State.signalDone; split
  · unfold State.sendEvt; split <;> rfl
  · split <;> rfl

@[simp] theorem State.complete_slots (s : State) (m : Mbx) (st : Nat) (b : List Byte) : (s.complete m st b).slots = s.slots := by
  unfold State.complete; dsimp only; split <;> split <;> simp [State.drewRandom]

@[simp] theorem State.auditCommand_engines (s : State) (m : Mbx) (st : Nat) (r : List Byte) : (s.auditCommand m st r).engines = s.engines := by
  unfold State.auditCommand; split <;> simp

@[simp] theorem State.signalDone_engines (s : State) (m : Mbx) (seq st : Nat) : (s.signalDone m seq st).engines = s.engines := by
  unfold State.signalDone; split
  · unfold State.sendEvt; split <;> rfl
  · split <;> rfl

@[simp] theorem State.complete_engines (s : State) (m : Mbx) (st : Nat) (b : List Byte) : (s.complete m st b).engines = s.engines := by
  unfold State.complete; dsimp only; split <;> split <;> simp [State.drewRandom]

@[simp] theorem State.auditCommand_loom (s : State) (m : Mbx) (st : Nat) (r : List Byte) : (s.auditCommand m st r).loom = s.loom := by
  unfold State.auditCommand; split <;> simp

@[simp] theorem State.signalDone_loom (s : State) (m : Mbx) (seq st : Nat) : (s.signalDone m seq st).loom = s.loom := by
  unfold State.signalDone; split
  · unfold State.sendEvt; split <;> rfl
  · split <;> rfl

@[simp] theorem State.complete_loom (s : State) (m : Mbx) (st : Nat) (b : List Byte) : (s.complete m st b).loom = s.loom := by
  unfold State.complete; dsimp only; split <;> split <;> simp [State.drewRandom]

@[simp] theorem State.auditCommand_fuses (s : State) (m : Mbx) (st : Nat) (r : List Byte) : (s.auditCommand m st r).fuses = s.fuses := by
  unfold State.auditCommand; split <;> simp

@[simp] theorem State.signalDone_fuses (s : State) (m : Mbx) (seq st : Nat) : (s.signalDone m seq st).fuses = s.fuses := by
  unfold State.signalDone; split
  · unfold State.sendEvt; split <;> rfl
  · split <;> rfl

@[simp] theorem State.complete_fuses (s : State) (m : Mbx) (st : Nat) (b : List Byte) : (s.complete m st b).fuses = s.fuses := by
  unfold State.complete; dsimp only; split <;> split <;> simp [State.drewRandom]

@[simp] theorem State.auditCommand_ras (s : State) (m : Mbx) (st : Nat) (r : List Byte) : (s.auditCommand m st r).ras = s.ras := by
  unfold State.auditCommand; split <;> simp

@[simp] theorem State.signalDone_ras (s : State) (m : Mbx) (seq st : Nat) : (s.signalDone m seq st).ras = s.ras := by
  unfold State.signalDone; split
  · unfold State.sendEvt; split <;> rfl
  · split <;> rfl

@[simp] theorem State.complete_ras (s : State) (m : Mbx) (st : Nat) (b : List Byte) : (s.complete m st b).ras = s.ras := by
  unfold State.complete; dsimp only; split <;> split <;> simp [State.drewRandom]

@[simp] theorem State.auditCommand_far (s : State) (m : Mbx) (st : Nat) (r : List Byte) : (s.auditCommand m st r).far = s.far := by
  unfold State.auditCommand; split <;> simp

@[simp] theorem State.signalDone_far (s : State) (m : Mbx) (seq st : Nat) : (s.signalDone m seq st).far = s.far := by
  unfold State.signalDone; split
  · unfold State.sendEvt; split <;> rfl
  · split <;> rfl

@[simp] theorem State.complete_far (s : State) (m : Mbx) (st : Nat) (b : List Byte) : (s.complete m st b).far = s.far := by
  unfold State.complete; dsimp only; split <;> split <;> simp [State.drewRandom]

@[simp] theorem State.auditCommand_power (s : State) (m : Mbx) (st : Nat) (r : List Byte) : (s.auditCommand m st r).power = s.power := by
  unfold State.auditCommand; split <;> simp

@[simp] theorem State.signalDone_power (s : State) (m : Mbx) (seq st : Nat) : (s.signalDone m seq st).power = s.power := by
  unfold State.signalDone; split
  · unfold State.sendEvt; split <;> rfl
  · split <;> rfl

@[simp] theorem State.complete_power (s : State) (m : Mbx) (st : Nat) (b : List Byte) : (s.complete m st b).power = s.power := by
  unfold State.complete; dsimp only; split <;> split <;> simp [State.drewRandom]

@[simp] theorem State.auditCommand_tel (s : State) (m : Mbx) (st : Nat) (r : List Byte) : (s.auditCommand m st r).tel = s.tel := by
  unfold State.auditCommand; split <;> simp

@[simp] theorem State.signalDone_tel (s : State) (m : Mbx) (seq st : Nat) : (s.signalDone m seq st).tel = s.tel := by
  unfold State.signalDone; split
  · unfold State.sendEvt; split <;> rfl
  · split <;> rfl

@[simp] theorem State.complete_tel (s : State) (m : Mbx) (st : Nat) (b : List Byte) : (s.complete m st b).tel = s.tel := by
  unfold State.complete; dsimp only; split <;> split <;> simp [State.drewRandom]

@[simp] theorem State.auditCommand_freeCount (s : State) (m : Mbx) (st : Nat) (r : List Byte) : (s.auditCommand m st r).freeCount = s.freeCount := by
  unfold State.auditCommand; split <;> simp

@[simp] theorem State.signalDone_freeCount (s : State) (m : Mbx) (seq st : Nat) : (s.signalDone m seq st).freeCount = s.freeCount := by
  unfold State.signalDone; split
  · unfold State.sendEvt; split <;> rfl
  · split <;> rfl

@[simp] theorem State.complete_freeCount (s : State) (m : Mbx) (st : Nat) (b : List Byte) : (s.complete m st b).freeCount = s.freeCount := by
  unfold State.complete; dsimp only; split <;> split <;> simp [State.drewRandom]

@[simp] theorem State.auditCommand_pending (s : State) (m : Mbx) (st : Nat) (r : List Byte) : (s.auditCommand m st r).pending = s.pending := by
  unfold State.auditCommand; split <;> simp

@[simp] theorem State.signalDone_pending (s : State) (m : Mbx) (seq st : Nat) : (s.signalDone m seq st).pending = s.pending := by
  unfold State.signalDone; split
  · unfold State.sendEvt; split <;> rfl
  · split <;> rfl

@[simp] theorem State.complete_pending (s : State) (m : Mbx) (st : Nat) (b : List Byte) : (s.complete m st b).pending = s.pending := by
  unfold State.complete; dsimp only; split <;> split <;> simp [State.drewRandom]

/-- What completion makes of the mailbox. -/
theorem State.mbox_complete {s : State} {m : Mbx} (h : s.HasMbx m) (st : Nat) (body : List Byte) :
    ∃ ch, (s.complete m st body).mbox m = { s.mbox m with
      image := ((s.mbox m).image.writeN 0x800 (zeros 2048)).writeN 0x800 (s.respHeader m st body.length ++ body)
      last := st, done := true, owner := false, accepted := false, wait := none, challenge := ch } := by
  have key : ∀ (t : State) (g : Mailbox → Mailbox), t.umpire.mboxes = s.umpire.mboxes → (t.modMbox m g).mbox m = g (s.mbox m) := by
    intro t g ht
    rw [State.mbox_modMbox (ht ▸ h.1) h.2.1, State.mbox_congr ht]
  have ht := State.mboxes_auditCommand s m st (s.respHeader m st body.length ++ body)
  unfold State.complete
  simp only [h.2.2, Bool.false_eq_true, if_false]
  by_cases hr : s.keyId m = 1 ∨ s.keyId m = 2
  · simp only [hr, if_true]
    split
    · rw [State.mbox_congr (State.mboxes_signalDone ..), key _ _ (by exact ht)]; exact ⟨_, by rw [h.2.2]⟩
    · rw [key _ _ (by exact ht)]; exact ⟨_, by rw [h.2.2]⟩
  · simp only [hr, if_false]
    split
    · rw [State.mbox_congr (State.mboxes_signalDone ..), key _ _ ht]; exact ⟨_, by rw [h.2.2]⟩
    · rw [key _ _ ht]; exact ⟨_, by rw [h.2.2]⟩

/-- Completion answers. -/
theorem State.complete_answered {s : State} {m : Mbx} (h : s.HasMbx m) (st : Nat) (body : List Byte) :
    s.Answered (s.complete m st body) m st body := by
  obtain ⟨ch, hc⟩ := State.mbox_complete h st body
  simp only [State.Answered, hc, and_self]

theorem State.SameOthers.refl (s : State) (m : Mbx) : s.SameOthers s m := ⟨fun _ _ => rfl, fun _ => rfl, rfl, rfl⟩

theorem State.SameOthers.trans {s t u : State} {m : Mbx} (h : s.SameOthers t m) (k : t.SameOthers u m) : s.SameOthers u m :=
  ⟨fun j hj => (k.1 j hj).trans (h.1 j hj), fun p => (k.2.1 p).trans (h.2.1 p), k.2.2.1.trans h.2.2.1,
    k.2.2.2.trans h.2.2.2⟩

theorem State.sameOthers_modMbox (s : State) (m : Mbx) (f : Mailbox → Mailbox) : s.SameOthers (s.modMbox m f) m :=
  ⟨fun _ hk => State.mbox_modMbox_ne s hk f, fun _ => rfl, rfl, rfl⟩

theorem State.sameOthers_acceptMbx (s : State) (m : Mbx) : s.SameOthers (s.acceptMbx m) m :=
  State.sameOthers_modMbox (s.modUmpire fun u => { u with queue := u.queue.drop 1 }) m _

theorem State.sameOthers_auditAppend (s : State) (b : AuditBody) (m : Mbx) : s.SameOthers (s.auditAppend b) m := by
  unfold State.auditAppend
  dsimp only
  split
  · exact .refl s m
  · split <;> exact ⟨fun _ _ => rfl, fun _ => rfl, rfl, rfl⟩

theorem State.sameOthers_raise (s : State) (v : Nat) (m : Mbx) : s.SameOthers (s.raise v) m := by
  refine ⟨fun _ _ => rfl, fun _ => rfl, rfl, ?_⟩
  unfold State.raise State.modRegs
  dsimp only
  split
  · rfl
  · split <;> rfl

theorem State.getD_modifyAt_port (l : List Port) (i j : Nat) (f : Port → Port) :
    (List.modifyAt l i f).getD j {} = if i = j ∧ i < l.length then f (l.getD j {}) else l.getD j {} := by
  unfold List.modifyAt
  split
  · next v hv =>
    have hi : i < l.length := (List.getElem?_eq_some_iff.1 hv).1
    by_cases h : i = j
    · subst h
      simp [hi, List.getD_eq_getElem?_getD, (List.getElem?_eq_some_iff.1 hv).2.symm]
    · simp [h, List.getD_eq_getElem?_getD]
  · next hn =>
    have hi : ¬ i < l.length := by simpa using hn
    simp [hi]

/-- A port after an update of a port. -/
theorem State.port_modPort (s : State) (p q : Nat) (f : Port → Port) :
    (s.modPort p f).port q = if p = q ∧ p < s.ports.length then f (s.port q) else s.port q :=
  State.getD_modifyAt_port s.ports p q f

theorem State.sameOthers_sendEvt (s : State) (p : Nat) (e : Evt) (he : e.isDamage = false) (m : Mbx) :
    s.SameOthers (s.sendEvt p e) m := by
  unfold State.sendEvt
  split
  · exact .refl s m
  · refine ⟨fun _ _ => rfl, fun q => ?_, rfl, rfl⟩
    rw [State.port_modPort]
    split
    · simp [he]
    · rfl

theorem State.sameOthers_signalDone (s : State) (m k : Mbx) (seq st : Nat) : s.SameOthers (s.signalDone m seq st) k := by
  unfold State.signalDone
  split
  · exact State.sameOthers_sendEvt s _ _ rfl k
  · split
    · exact State.sameOthers_raise ..
    · exact .refl s k

theorem State.sameOthers_auditCommand (s : State) (m k : Mbx) (st : Nat) (r : List Byte) :
    s.SameOthers (s.auditCommand m st r) k := by
  unfold State.auditCommand
  split
  · exact State.sameOthers_auditAppend ..
  · exact .refl s k

theorem State.sameOthers_complete (s : State) (m : Mbx) (st : Nat) (body : List Byte) : s.SameOthers (s.complete m st body) m := by
  have hd : ∀ t : State, t.SameOthers (t.drewRandom 32) m := fun t => ⟨fun _ _ => rfl, fun _ => rfl, rfl, rfl⟩
  have h1 := State.sameOthers_auditCommand s m m st (s.respHeader m st body.length ++ body)
  have h2 : s.SameOthers (if s.keyId m = 1 ∨ s.keyId m = 2
      then (s.auditCommand m st (s.respHeader m st body.length ++ body)).drewRandom 32
      else s.auditCommand m st (s.respHeader m st body.length ++ body)) m := by
    split
    · exact h1.trans (hd _)
    · exact h1
  unfold State.complete
  dsimp only
  split
  · exact (h2.trans (State.sameOthers_modMbox ..)).trans (State.sameOthers_signalDone ..)
  · exact h2.trans (State.sameOthers_modMbox ..)

@[simp] theorem State.complete_deferred (s : State) (m : Mbx) (st : Nat) (body : List Byte) :
    (s.complete m st body).umpire.deferred = s.umpire.deferred := by
  have ha : ∀ b : AuditBody, (s.auditAppend b).umpire.deferred = s.umpire.deferred := fun b => by
    unfold State.auditAppend; dsimp only; split <;> (try split) <;> rfl
  have hc : ∀ r, (s.auditCommand m st r).umpire.deferred = s.umpire.deferred := fun r => by
    unfold State.auditCommand; split
    · exact ha _
    · rfl
  have hs : ∀ (t : State) (k : Mbx) (q st : Nat), (t.signalDone k q st).umpire.deferred = t.umpire.deferred := fun t k q st => by
    unfold State.signalDone; split
    · unfold State.sendEvt; split <;> rfl
    · split <;> rfl
  unfold State.complete
  dsimp only
  split <;> split <;> (try rw [hs]) <;> exact hc _

/-- Completion leaves every stored byte, every object, every unit and every other mailbox alone. -/
theorem State.complete_sameBut (s : State) (m : Mbx) (st : Nat) (body : List Byte) : s.SameBut (s.complete m st body) m :=
  ⟨by simp [State.SameStored], by simp [State.SameObjects], by simp [State.SameUnits], State.sameOthers_complete .., State.complete_deferred ..⟩

/-! ### Commands that complete after their own effect -/

/-- Two states in which a mailbox and the clock are the same give the same response header. -/
theorem State.respHeader_congr {s t : State} {m : Mbx} (hi : (t.mbox m).image = (s.mbox m).image) (ht : t.time = s.time)
    (st len : Nat) : t.respHeader m st len = s.respHeader m st len := by
  unfold State.respHeader State.opcode State.seqOf State.beatNow State.beatValid
  rw [hi, ht]

/-- A command answers when it completes in any state that acceptance and its own effect lead to, if that effect leaves the
mailboxes and the clock alone. -/
theorem State.answered_from {s s1 : State} {m : Mbx} (h : s.HasMbx m) (hm : s1.umpire.mboxes = (s.acceptMbx m).umpire.mboxes)
    (ht : s1.time = s.time) (st : Nat) (body : List Byte) : s.Answered (s1.complete m st body) m st body := by
  have ha := State.hasMbx_acceptMbx h
  have hb : s1.mbox m = (s.acceptMbx m).mbox m := State.mbox_congr hm m
  have h1 : s1.HasMbx m := ⟨hm ▸ ha.1, h.2.1, by rw [hb]; exact ha.2.2⟩
  have hi : (s1.mbox m).image = (s.mbox m).image := by rw [hb, State.mbox_acceptMbx h]
  have := State.complete_answered h1 st body
  unfold State.Answered at this
  rwa [hi, State.respHeader_congr hi ht] at this

/-- A command that has been accepted and waits. -/
theorem State.waits_from {s s1 : State} {m : Mbx} (h : s.HasMbx m) (hm : s1.umpire.mboxes = (s.acceptMbx m).umpire.mboxes)
    (w : WaitFor) : s.Waits (s1.await m w) m w := by
  have ha := State.hasMbx_acceptMbx h
  unfold State.Waits State.await
  rw [State.mbox_modMbox (hm ▸ ha.1) h.2.1, State.mbox_congr hm, State.mbox_acceptMbx h]

/-- A command that waits. -/
theorem State.mbox_await {s : State} {m : Mbx} (h : s.HasMbx m) (w : WaitFor) :
    (s.await m w).mbox m = { s.mbox m with wait := some { what := w } } := State.mbox_modMbox h.1 h.2.1 _

end Sys2Proof.Machine
end

