-- ==== Sys2Proof/Laws/Command.lean ====
section
/-! SUPPORT. Laws that statements about commands rest on: which row of the table a mailbox command is, what its checks read, and
that nothing goes on in a still state. -/

namespace Sys2Proof.Machine

theorem bit_toNat (v : W32) (i : Nat) (hi : i < 32) : bit v.toNat i = v.getLsbD i := by
  simp only [bit, BitVec.getLsbD, Nat.testBit_eq_decide_div_mod_eq]
  rfl

theorem exec_mailboxRow (c : Instr) (s : State) (m : Mbx) (op : Nat) (form : Bool) (h : s.mailboxRow c = some (m, op, form)) :
    ∃ own, exec c s = .next (s.runCommand m op form own) := by
  cases c <;> simp only [State.mailboxRow, Option.some.injEq, Prod.mk.injEq, reduceCtorEq] at h <;>
    (obtain ⟨rfl, rfl, rfl⟩ := h; exact ⟨_, rfl⟩)

theorem State.runCommand_refused {s : State} {m : Mbx} {op : Nat} {form : Bool} (own) (h : s.HasMbx m) (ha : s.accepts m op form = true) {st}
    (hp : (s.acceptMbx m).precheck m = some st) : s.runCommand m op form own = (s.acceptMbx m).complete m st [] := by
  unfold State.runCommand
  rw [if_pos ha]
  simp only [hp, State.fail]

theorem State.sameBut_refused (s : State) (m : Mbx) (st b) : s.SameBut ((s.acceptMbx m).complete m st b) m := by
  have h := State.complete_sameBut (s.acceptMbx m) m st b
  refine ⟨h.1, h.2.1, h.2.2.1, (State.sameOthers_acceptMbx s m).trans h.2.2.2.1, h.2.2.2.2⟩

theorem State.mbox_enqueue (s : State) (m k : Mbx) : (s.modUmpire fun u => { u with queue := u.queue ++ [m] }).mbox k = s.mbox k := rfl

theorem State.sameOthers_enqueue (s : State) (m : Mbx) : s.SameOthers (s.modUmpire fun u => { u with queue := u.queue ++ [m] }) m :=
  ⟨fun _ _ => rfl, fun _ => rfl, rfl, rfl⟩

theorem State.foldl_same {α : Type} (l : List α) (f : State → α → State) (s : State) (h : ∀ x ∈ l, f s x = s) : l.foldl f s = s := by
  induction l with
  | nil => rfl
  | cons x t ih =>
    rw [List.foldl_cons, h x (List.mem_cons_self ..)]
    exact ih fun y hy => h y (List.mem_cons_of_mem _ hy)

theorem Table.get?_mem {α} {t : Table α} {k v} (h : Table.get? t k = some v) : (k, v) ∈ t := by
  induction t with
  | nil => cases h
  | cons x t ih =>
    unfold Table.get? at h
    split at h
    · next e => cases h; subst e; exact List.mem_cons_self ..
    · exact List.mem_cons_of_mem _ (ih h)

theorem State.settle_none {s : State} {e : Nat} (h : s.engine e = none) : s.settle e = s := by
  have h1 : s.endDesc e = s := by unfold State.endDesc; simp [h]
  unfold State.settle
  rw [h1]
  have h2 : s.abortIdle e = s := by unfold State.abortIdle; simp [h]
  rw [h2]
  unfold State.endJob; simp [h]

theorem State.carryOn_still {s : State} (h : s.Still) : s.carryOn = s := by
  obtain ⟨-, -, he, hp, hx, hq, hc⟩ := h
  unfold State.carryOn
  have h1 : s.settleAll = s := State.foldl_same _ _ _ fun e he' => State.settle_none (he e (List.mem_range.1 he'))
  have h2 : s.boltsGo = s := State.foldl_same _ _ _ fun e he' => by simp [he e (List.mem_range.1 he')]
  have h3 : s.pinsDone = s := State.foldl_same _ _ _ fun kv hk => by simp [hp kv hk]
  rw [h1, h2, h3]
  dsimp only
  rw [State.foldl_same _ _ s, State.foldl_same _ _ s, State.foldl_same _ _ s]
  · intro c _
    have : s.attachGo c = s := by
      unfold State.attachGo
      split
      · rfl
      · next x hx' => have e : x.attach = none := (hc _ (Table.get?_mem hx')).1; simp only [e]
    rw [this]
    unfold State.destroyGo
    split
    · rfl
    · next x hx' => have e : x.dying = none := (hc _ (Table.get?_mem hx')).2; simp only [e]
  · intro p hp'
    unfold State.switchGo
    simp [hq p (List.mem_range.1 hp')]
  · intro e _
    have : s.shareGo e = s := by
      unfold State.shareGo
      split
      · rfl
      · next x hx' => have e : x.sharing = false := (hx _ (Table.get?_mem hx')).1; simp only [e]
    rw [this]
    unfold State.sealGo
    split
    · rfl
    · next x hx' => have e : x.sealing = false := (hx _ (Table.get?_mem hx')).2; simp [e]

theorem State.standbyBlocks_acceptMbx {s : State} {m : Mbx} (h : s.HasMbx m) : (s.acceptMbx m).standbyBlocks m = s.standbyBlocks m := by
  simp only [State.standbyBlocks, State.acceptMbx_power, State.opcode_acceptMbx h, State.flags, State.mbox_acceptMbx h]

theorem State.wellFormed_acceptMbx {s : State} {m : Mbx} (h : s.HasMbx m) : (s.acceptMbx m).wellFormed m = s.wellFormed m := by
  unfold State.wellFormed State.lengthOf State.layoutLength State.flag State.flags
  rw [State.opcode_acceptMbx h, State.mbox_acceptMbx h, State.rq_acceptMbx h, State.rq_acceptMbx h, State.rq_acceptMbx h]

theorem State.keyIdOk_acceptMbx {s : State} {m : Mbx} (h : s.HasMbx m) : (s.acceptMbx m).keyIdOk m = s.keyIdOk m := by
  cases m <;> simp only [State.keyIdOk, State.keyId_acceptMbx h, State.opcode_acceptMbx h]

theorem State.commissioned_acceptMbx (s : State) (m : Mbx) : (s.acceptMbx m).commissioned = s.commissioned := rfl

theorem State.verifyKey_acceptMbx {s : State} {m : Mbx} (h : s.HasMbx m) : (s.acceptMbx m).verifyKey m = s.verifyKey m := by
  unfold State.verifyKey
  rw [State.keyId_acceptMbx h, State.opcode_acceptMbx h, State.rq_acceptMbx h, State.rqBytes_acceptMbx h, State.rqBytes_acceptMbx h]
  rfl

theorem State.signedDigest_acceptMbx {s : State} {m : Mbx} (h : s.HasMbx m) : (s.acceptMbx m).signedDigest m = s.signedDigest m := by
  simp only [State.signedDigest, State.header, State.request, State.lengthOf, State.mbox_acceptMbx h]

theorem State.signature_acceptMbx {s : State} {m : Mbx} (h : s.HasMbx m) : (s.acceptMbx m).signature m = s.signature m := by
  simp only [State.signature, State.lengthOf, State.mbox_acceptMbx h]

theorem State.sigOk_acceptMbx {s : State} {m : Mbx} (h : s.HasMbx m) : (s.acceptMbx m).sigOk m = s.sigOk m := by
  unfold State.sigOk
  rw [State.keyId_acceptMbx h, State.commissioned_acceptMbx, State.opcode_acceptMbx h, State.rq_acceptMbx h, State.verifyKey_acceptMbx h, State.signedDigest_acceptMbx h, State.signature_acceptMbx h]

theorem State.commissionOk_acceptMbx {s : State} {m : Mbx} (h : s.HasMbx m) : (s.acceptMbx m).commissionOk m = s.commissionOk m := by
  unfold State.commissionOk
  rw [State.commissioned_acceptMbx, State.opcode_acceptMbx h, State.rq_acceptMbx h]

theorem State.rightsOk_acceptMbx {s : State} {m : Mbx} (h : s.HasMbx m) : (s.acceptMbx m).rightsOk m = s.rightsOk m := by
  unfold State.rightsOk
  rw [State.commissioned_acceptMbx, State.opcode_acceptMbx h, State.keyId_acceptMbx h]
  rfl

/-- Where no SHUTTLE_ABORT waits for the command of an aborted job, a completion lets none go on. -/
theorem State.afterJob_none {s : State} (h : ∀ e, s.isWaiting (· == .aborted e) = false) (w : WaitFor) : s.afterJob w = s := by
  have hn : ∀ e, s.waiting (· == .aborted e) = [] := fun e => by simpa [State.isWaiting] using h e
  unfold State.afterJob
  split <;> simp [hn]

end Sys2Proof.Machine
end

