-- ==== Sys2Proof/Laws/Keeps.lean ====
section
/-! SUPPORT. What every operation of the model keeps.  `Holds s t`, of one state and the next: the queue of waiting commands,
the hardware's units, the canonical form of the tiers, the pins' agreement with their causes, and blown fuses.  `Keeps s t`
says besides that no pick boundary has passed and that SAFE, once entered, lasts with its cause; it holds of every
operation but the tick of a pick boundary and the resets of the logic die.  Both compose, so each operation has one lemma
and a proof about a larger operation cites those of its parts. -/

namespace Sys2Proof.Machine

/-- What any operation that turns `s` into `t` keeps. -/
structure Holds (s t : State) : Prop where
  pending : t.pending = s.pending
  shape   : s.Shape → t.Shape
  tiers   : s.TiersOk → t.TiersOk
  pins    : s.power.PinsOk → t.power.PinsOk
  fuses   : s.fuses.StillBlown t.fuses

/-- What an operation keeps that neither passes a pick boundary nor resets the logic die; `still` says that it writes no stored
byte of either tier. -/
structure Keeps (still : Bool) (s t : State) : Prop extends Holds s t where
  clock   : t.time.SamePick s.time
  safe    : s.power.SafeLasts t.power
  stored  : still = true → t.nearMem = s.nearMem ∧ t.farMem = s.farMem

theorem Fuses.StillBlown.refl (f : Fuses) : f.StillBlown f := fun h => ⟨h, fun _ => BitVec.and_self⟩

theorem Fuses.StillBlown.trans {f g h : Fuses} (a : f.StillBlown g) (b : g.StillBlown h) : f.StillBlown h := fun w =>
  ⟨(b (a w).1).1, fun i => by
    have h1 := (a w).2 i
    have h2 := (b (a w).1).2 i
    rw [← h1, BitVec.and_assoc, h2]⟩

theorem Holds.refl (s : State) : Holds s s := ⟨rfl, id, id, id, .refl _⟩

theorem Holds.trans {s t u : State} (h : Holds s t) (k : Holds t u) : Holds s u :=
  ⟨k.pending.trans h.pending, k.shape ∘ h.shape, k.tiers ∘ h.tiers, k.pins ∘ h.pins, h.fuses.trans k.fuses⟩

theorem Keeps.refl {still : Bool} (s : State) : Keeps still s s :=
  ⟨.refl s, ⟨rfl, rfl, rfl⟩, fun h => ⟨h, rfl⟩, fun _ => ⟨rfl, rfl⟩⟩

theorem Keeps.trans {still : Bool} {s t u : State} (h : Keeps still s t) (k : Keeps still t u) : Keeps still s u :=
  ⟨h.toHolds.trans k.toHolds, ⟨k.clock.1.trans h.clock.1, k.clock.2.1.trans h.clock.2.1, k.clock.2.2.trans h.clock.2.2⟩,
    fun hs => ⟨(k.safe (h.safe hs).1).1, (k.safe (h.safe hs).1).2.trans (h.safe hs).2⟩,
    fun hb => ⟨(k.stored hb).1.trans (h.stored hb).1, (k.stored hb).2.trans (h.stored hb).2⟩⟩

/-- What keeps the stored bytes keeps the rest. -/
theorem Keeps.weaken {still : Bool} {s t : State} (h : Keeps true s t) : Keeps still s t :=
  ⟨h.toHolds, h.clock, h.safe, fun _ => h.stored rfl⟩

/-- An operation that keeps the clock, the supply and, where it has to, the stored bytes. -/
theorem Keeps.of_holds {still : Bool} {s t : State} (h : Holds s t) (ht : t.time = s.time) (hw : t.power = s.power)
    (hm : still = true → t.nearMem = s.nearMem ∧ t.farMem = s.farMem := by exact fun _ => ⟨rfl, rfl⟩) : Keeps still s t :=
  ⟨h, ht ▸ ⟨rfl, rfl, rfl⟩, hw ▸ fun k => ⟨k, rfl⟩, hm⟩

/-- An operation that changes none of the fields in question. -/
theorem Keeps.of_eq {still : Bool} {s0 s t : State} (h : Keeps still s0 s) (hq : t.pending = s.pending) (hp : t.ports = s.ports)
    (hs : t.slots = s.slots) (he : t.engines = s.engines) (hu : t.umpire.mboxes = s.umpire.mboxes)
    (hn : t.nearMem = s.nearMem) (hf : t.farMem = s.farMem) (hw : t.power = s.power) (hx : t.fuses = s.fuses)
    (ht : t.time = s.time) : Keeps still s0 t := by
  refine h.trans (Keeps.of_holds ⟨hq, fun k => ?_, fun k => ?_, fun k => ?_, hx ▸ .refl _⟩ ht hw fun _ => ⟨hn, hf⟩)
  · simpa [State.Shape, hp, hs, he, hu] using k
  · simpa [State.TiersOk, hn, hf] using k
  · rw [hw]; exact k

/-- Either way of a choice. -/
theorem Keeps.ite {still : Bool} {s0 a b : State} {c : Prop} [Decidable c] (ha : Keeps still s0 a) (hb : Keeps still s0 b) :
    Keeps still s0 (if c then a else b) := by
  split <;> assumption

/-- A repeated operation. -/
theorem Keeps.foldl {still : Bool} {α : Type} {s0 : State} {f : State → α → State} (hf : ∀ s x, Keeps still s0 s → Keeps still s0 (f s x))
    (l : List α) {s : State} (h : Keeps still s0 s) : Keeps still s0 (l.foldl f s) := by
  induction l generalizing s with
  | nil => exact h
  | cons x t ih => exact ih (hf s x h)

/-- A repeated operation that carries more than the state. -/
theorem Keeps.foldl_fst {still : Bool} {α β : Type} {s0 : State} {f : State × β → α → State × β}
    (hf : ∀ a x, Keeps still s0 a.1 → Keeps still s0 (f a x).1) (l : List α) {a : State × β} (h : Keeps still s0 a.1) :
    Keeps still s0 (l.foldl f a).1 := by
  induction l generalizing a with
  | nil => exact h
  | cons x t ih => exact ih (hf a x h)

/-- A repeated operation on something that holds a state. -/
theorem Keeps.foldlOn {still : Bool} {σ α : Type} (p : σ → State) {s0 : State} {f : σ → α → σ}
    (hf : ∀ a x, Keeps still s0 (p a) → Keeps still s0 (p (f a x))) (l : List α) {a : σ} (h : Keeps still s0 (p a)) :
    Keeps still s0 (p (l.foldl f a)) := by
  induction l generalizing a with
  | nil => exact h
  | cons x t ih => exact ih (hf a x h)

/-- What goes on from a pair. -/
theorem Keeps.pair {still : Bool} {β : Type} {s0 : State} {p : State × β} {g : State → β → State} (hp : Keeps still s0 p.1)
    (hg : ∀ s b, Keeps still s0 s → Keeps still s0 (g s b)) : Keeps still s0 (match p with | (s, b) => g s b) := hg p.1 p.2 hp

/-- What goes on from a pair to a pair. -/
theorem Keeps.pair_fst {still : Bool} {β γ : Type} {s0 : State} {p : State × β} {g : State → β → State × γ} (hp : Keeps still s0 p.1)
    (hg : ∀ s b, Keeps still s0 s → Keeps still s0 (g s b).1) : Keeps still s0 (match p with | (s, b) => g s b).1 := hg p.1 p.2 hp

theorem Keeps.ite_fst {still : Bool} {β : Type} {s0 : State} {a b : State × β} {c : Prop} [Decidable c] (ha : Keeps still s0 a.1) (hb : Keeps still s0 b.1) :
    Keeps still s0 (if c then a else b).1 := by
  split <;> assumption

/-- The pins still agree where nothing they follow has changed but the rails. -/
theorem Power.PinsOk.rails {w v : Power} (h : w.PinsOk) (hn : v.safeN = w.safeN ∧ v.alertN = w.alertN ∧ v.thermtripN = w.thermtripN)
    (hs : v.safe = w.safe ∧ v.braced = w.braced ∧ v.hot = w.hot ∧ v.inputAlert = w.inputAlert ∧ v.thermTrip = w.thermTrip)
    (hr : v.pwrGood = v.railsGood) : v.PinsOk := by
  obtain ⟨h1, h2, h3⟩ := hn
  obtain ⟨k1, k2, k3, k4, k5⟩ := hs
  refine ⟨?_, ?_, ?_, hr⟩
  · rw [h1, k1]; exact h.1
  · rw [h2, k1, k2, k3, k4]; exact h.2.1
  · rw [h3, k5]; exact h.2.2.1

/-! ### Single fields -/

section
variable {still : Bool} {s0 s : State} (h : Keeps still s0 s)
include h

theorem Keeps.setExts (x : Table Extent) : Keeps still s0 (s.setExts x) := h.of_eq rfl rfl rfl rfl rfl rfl rfl rfl rfl rfl
theorem Keeps.setCtxs (x : Table Ctx) : Keeps still s0 (s.setCtxs x) := h.of_eq rfl rfl rfl rfl rfl rfl rfl rfl rfl rfl
theorem Keeps.setLeases (x : Table Lease) : Keeps still s0 (s.setLeases x) := h.of_eq rfl rfl rfl rfl rfl rfl rfl rfl rfl rfl
theorem Keeps.setPins (x : Table Pin) : Keeps still s0 (s.setPins x) := h.of_eq rfl rfl rfl rfl rfl rfl rfl rfl rfl rfl
theorem Keeps.setReqs (x : Table Req) : Keeps still s0 (s.setReqs x) := h.of_eq rfl rfl rfl rfl rfl rfl rfl rfl rfl rfl
theorem Keeps.setNextReq (x : Nat) : Keeps still s0 (s.setNextReq x) := h.of_eq rfl rfl rfl rfl rfl rfl rfl rfl rfl rfl
theorem Keeps.setFar (x : FarCtl) : Keeps still s0 (s.setFar x) := h.of_eq rfl rfl rfl rfl rfl rfl rfl rfl rfl rfl
theorem Keeps.setTel (x : Tel) : Keeps still s0 (s.setTel x) := h.of_eq rfl rfl rfl rfl rfl rfl rfl rfl rfl rfl
theorem Keeps.setFreeCount (x : Nat) : Keeps still s0 (s.setFreeCount x) := h.of_eq rfl rfl rfl rfl rfl rfl rfl rfl rfl rfl
theorem Keeps.setNor (x : Nor) : Keeps still s0 (s.setNor x) := h.of_eq rfl rfl rfl rfl rfl rfl rfl rfl rfl rfl
theorem Keeps.setTier (x : Tiering) : Keeps still s0 (s.setTier x) := h.of_eq rfl rfl rfl rfl rfl rfl rfl rfl rfl rfl
theorem Keeps.setLoom (x : Loom) : Keeps still s0 (s.setLoom x) := h.of_eq rfl rfl rfl rfl rfl rfl rfl rfl rfl rfl

theorem Keeps.setFuses {x : Fuses} (hx : s.fuses.StillBlown x) : Keeps still s0 (s.setFuses x) :=
  h.trans (.of_holds ⟨rfl, id, id, id, hx⟩ rfl rfl)

theorem Keeps.setPorts {x : List Port} (hx : x.length = s.ports.length) : Keeps still s0 (s.setPorts x) :=
  h.trans (.of_holds ⟨rfl, fun k => ⟨hx.trans k.1, k.2⟩, id, id, .refl _⟩ rfl rfl)

theorem Keeps.setSlots {x : List Slot} (hx : x.length = s.slots.length) : Keeps still s0 (s.setSlots x) :=
  h.trans (.of_holds ⟨rfl, fun k => ⟨k.1, hx.trans k.2.1, k.2.2⟩, id, id, .refl _⟩ rfl rfl)

/-- All eight engines at once. -/
theorem Keeps.setEngines {x : List (Option Job)} (hx : x.length = 8) : Keeps still s0 (s.setEngines x) :=
  h.trans (.of_holds ⟨rfl, fun k => ⟨k.1, k.2.1, hx, k.2.2.2⟩, id, id, .refl _⟩ rfl rfl)


/-! ### Named updates -/

theorem Keeps.modExt (e : Nat) (f : Extent → Extent) : Keeps still s0 (s.modExt e f) := h.of_eq rfl rfl rfl rfl rfl rfl rfl rfl rfl rfl
theorem Keeps.modCtx (c : Nat) (f : Ctx → Ctx) : Keeps still s0 (s.modCtx c f) := h.of_eq rfl rfl rfl rfl rfl rfl rfl rfl rfl rfl
theorem Keeps.modLease (n : Nat) (f : Lease → Lease) : Keeps still s0 (s.modLease n f) := h.of_eq rfl rfl rfl rfl rfl rfl rfl rfl rfl rfl
theorem Keeps.modReq (r : Nat) (f : Req → Req) : Keeps still s0 (s.modReq r f) := h.of_eq rfl rfl rfl rfl rfl rfl rfl rfl rfl rfl
theorem Keeps.modNor (f : Nor → Nor) : Keeps still s0 (s.modNor f) := h.of_eq rfl rfl rfl rfl rfl rfl rfl rfl rfl rfl
theorem Keeps.modRas (f : Ras → Ras) : Keeps still s0 (s.modRas f) := h.of_eq rfl rfl rfl rfl rfl rfl rfl rfl rfl rfl
theorem Keeps.modTier (f : Tiering → Tiering) : Keeps still s0 (s.modTier f) := h.of_eq rfl rfl rfl rfl rfl rfl rfl rfl rfl rfl
theorem Keeps.modTime {f : TimeBase → TimeBase} (hf : ∀ t, (f t).SamePick t) : Keeps still s0 (s.modTime f) :=
  h.trans ⟨⟨rfl, id, id, id, .refl _⟩, hf _, fun k => ⟨k, rfl⟩, fun _ => ⟨rfl, rfl⟩⟩
theorem Keeps.modTie (f : TieUp → TieUp) : Keeps still s0 (s.modTie f) := h.of_eq rfl rfl rfl rfl rfl rfl rfl rfl rfl rfl
theorem Keeps.modLoom (f : Loom → Loom) : Keeps still s0 (s.modLoom f) := h.of_eq rfl rfl rfl rfl rfl rfl rfl rfl rfl rfl
theorem Keeps.modRegs (f : Regs → Regs) : Keeps still s0 (s.modRegs f) := h.of_eq rfl rfl rfl rfl rfl rfl rfl rfl rfl rfl
theorem Keeps.modPort (p : Nat) (f : Port → Port) : Keeps still s0 (s.modPort p f) := 
  h.trans (.of_holds ⟨rfl, fun k => ⟨(List.length_modifyAt ..).trans k.1, k.2⟩, id, id, .refl _⟩ rfl rfl)
theorem Keeps.modSlot (p : Nat) (f : Slot → Slot) : Keeps still s0 (s.modSlot p f) := 
  h.trans (.of_holds ⟨rfl, fun k => ⟨k.1, (List.length_modifyAt ..).trans k.2.1, k.2.2⟩, id, id, .refl _⟩ rfl rfl)
theorem Keeps.modEngine (e : Nat) (f : Option Job → Option Job) : Keeps still s0 (s.modEngine e f) :=
  h.trans (.of_holds ⟨rfl, fun k => ⟨k.1, k.2.1, (List.length_modifyAt ..).trans k.2.2.1, k.2.2.2⟩, id, id, .refl _⟩ rfl rfl)
theorem Keeps.modJob (e : Nat) (f : Job → Job) : Keeps still s0 (s.modJob e f) := h.modEngine e _
theorem Keeps.modCur (e : Nat) (f : Cur → Cur) : Keeps still s0 (s.modCur e f) := h.modJob e _

/-- An update of the Umpire that leaves its mailboxes alone. -/
theorem Keeps.modUmpire {f : Umpire → Umpire} (hf : ∀ u, (f u).mboxes.map (·.1) = u.mboxes.map (·.1)) :
    Keeps still s0 (s.modUmpire f) :=
  h.trans (.of_holds ⟨rfl, fun k => ⟨k.1, k.2.1, k.2.2.1, (hf _).trans k.2.2.2⟩, id, id, .refl _⟩ rfl rfl)

theorem Keeps.modMbox (m : Mbx) (f : Mailbox → Mailbox) : Keeps still s0 (s.modMbox m f) := by
  refine h.trans (.of_holds ⟨rfl, fun k => ⟨k.1, k.2.1, k.2.2.1, Eq.trans ?_ k.2.2.2⟩, id, id, .refl _⟩ rfl rfl)
  simp only [State.modMbox, List.map_map]
  congr 1
  funext x
  simp only [Function.comp]
  split <;> rfl

/-- An update of the supply and the pins that keeps their agreement. -/
theorem Keeps.modPower {f : Power → Power} (hf : ∀ w, w.PinsOk → (f w).PinsOk) (hs : ∀ w : Power, w.SafeLasts (f w)) :
    Keeps still s0 (s.modPower f) :=
  h.trans ⟨⟨rfl, id, id, hf _, .refl _⟩, ⟨rfl, rfl, rfl⟩, hs _, fun _ => ⟨rfl, rfl⟩⟩

end

theorem Keeps.setNearMem {s0 s : State} (h : Keeps false s0 s) {x : Mem} (hx : Mem.wf s.nearMem = true → Mem.wf x = true) :
    Keeps false s0 (s.setNearMem x) :=
  h.trans (.of_holds ⟨rfl, id, fun k => ⟨hx k.1, k.2⟩, id, .refl _⟩ rfl rfl fun h => by cases h)

theorem Keeps.setFarMem {s0 s : State} (h : Keeps false s0 s) {x : Mem} (hx : Mem.wf s.farMem = true → Mem.wf x = true) :
    Keeps false s0 (s.setFarMem x) :=
  h.trans (.of_holds ⟨rfl, id, fun k => ⟨k.1, hx k.2⟩, id, .refl _⟩ rfl rfl fun h => by cases h)

end Sys2Proof.Machine
end

