-- ==== Sys2Proof/Laws/KeepOps.lean ====
section
/-! SUPPORT. Every operation of Machine/Ops.lean on the state keeps what `Keeps` names. -/

namespace Sys2Proof.Machine

theorem State.drewRandom_keeps {still : Bool} {base : State} {s : State} (n : Nat) (hk : Keeps still base s) :
    Keeps still base (State.drewRandom s n) := by
  unfold State.drewRandom
  try dsimp only
  repeat' first
    | with_reducible assumption | intro _ | with_reducible apply Keeps.modUmpire | exact rfl

theorem State.raise_keeps {still : Bool} {base : State} {s : State} (v : Nat) (hk : Keeps still base s) :
    Keeps still base (State.raise s v) := by
  unfold State.raise
  try dsimp only
  repeat' first
    | with_reducible assumption | intro _ | with_reducible apply Keeps.modRegs | with_reducible apply Keeps.ite

theorem State.setEvent_keeps {still : Bool} {base : State} {s : State} (i : Nat) (hk : Keeps still base s) :
    Keeps still base (State.setEvent s i) := by
  unfold State.setEvent
  try dsimp only
  repeat' first
    | with_reducible assumption | intro _ | with_reducible apply State.raise_keeps | with_reducible apply Keeps.modRegs
    | with_reducible apply Keeps.ite

theorem State.setRasEvent_keeps {still : Bool} {base : State} {s : State} (i : Nat) (hk : Keeps still base s) :
    Keeps still base (State.setRasEvent s i) := by
  unfold State.setRasEvent
  try dsimp only
  repeat' first
    | with_reducible assumption | intro _ | with_reducible apply State.raise_keeps | with_reducible apply Keeps.modRas
    | with_reducible apply Keeps.ite

theorem State.sendEvt_keeps {still : Bool} {base : State} {s : State} (p : Nat) (e : Evt) (hk : Keeps still base s) :
    Keeps still base (State.sendEvt s p e) := by
  unfold State.sendEvt
  try dsimp only
  repeat' first
    | with_reducible assumption | intro _ | with_reducible apply Keeps.modPort | with_reducible apply Keeps.ite

theorem State.sendEvts_keeps {still : Bool} {base : State} {s : State} (mask : BitVec 6) (e : Evt) (hk : Keeps still base s) :
    Keeps still base (State.sendEvts s mask e) := by
  unfold State.sendEvts
  try dsimp only
  repeat' first
    | with_reducible assumption | intro _ | with_reducible apply State.sendEvt_keeps | with_reducible apply Keeps.ite
    | with_reducible apply Keeps.foldl | with_reducible apply Keeps.foldl_fst

theorem State.sendEvtAll_keeps {still : Bool} {base : State} {s : State} (e : Evt) (hk : Keeps still base s) :
    Keeps still base (State.sendEvtAll s e) := by
  unfold State.sendEvtAll
  try dsimp only
  repeat' first
    | with_reducible assumption | intro _ | with_reducible apply State.sendEvts_keeps

theorem State.modPage_keeps {still : Bool} {base : State} {s : State} (e : Nat) (p : Nat) (f : Page → Page)
    (hk : Keeps still base s) :
    Keeps still base (State.modPage s e p f) := by
  unfold State.modPage
  try dsimp only
  repeat' first
    | with_reducible assumption | intro _ | with_reducible apply Keeps.modExt

end Sys2Proof.Machine
end

