-- ==== Sys2Proof/Laws/KeepOperands.lean ====
section
/-! SUPPORT. Every operation of Machine/Operands.lean on the state keeps what `Keeps` names. -/

namespace Sys2Proof.Machine

theorem State.submit_keeps {still : Bool} {base : State} {s : State} (m : Mbx) (hk : Keeps still base s) :
    Keeps still base (State.submit s m) := by
  unfold State.submit
  try dsimp only
  repeat' first
    | with_reducible assumption | intro _ | with_reducible apply Keeps.modMbox | with_reducible apply Keeps.modUmpire
    | with_reducible apply Keeps.ite | exact rfl

theorem State.writeCtl_keeps {still : Bool} {base : State} {s : State} (m : Mbx) (v : Nat) (hk : Keeps still base s) :
    Keeps still base (State.writeCtl s m v) := by
  unfold State.writeCtl
  try dsimp only
  repeat' first
    | with_reducible assumption | intro _ | with_reducible apply State.submit_keeps | with_reducible apply Keeps.modMbox
    | with_reducible apply Keeps.ite

theorem State.writeImage_keeps {still : Bool} {base : State} {s : State} (m : Mbx) (off : Nat) (data : List Byte)
    (hk : Keeps still base s) :
    Keeps still base (State.writeImage s m off data) := by
  unfold State.writeImage
  try dsimp only
  repeat' first
    | with_reducible assumption | intro _ | with_reducible apply State.writeCtl_keeps | with_reducible apply Keeps.modMbox
    | with_reducible apply Keeps.ite | with_reducible apply Keeps.foldl | with_reducible apply Keeps.foldl_fst

end Sys2Proof.Machine
end

