-- ==== Sys2Proof/Laws/KeepUnits.lean ====
section
/-! SUPPORT. Every operation of Machine/Units.lean on the state keeps what `Keeps` names. -/

namespace Sys2Proof.Machine

theorem State.setStored_keeps {base : State} {s : State} (l : Loc) (b : List Byte) (hk : Keeps false base s) :
    Keeps false base (State.setStored s l b) := by
  unfold State.setStored
  split
  · exact hk.setNearMem fun hw => Mem.writeN_wf hw _ _
  · exact hk.setFarMem fun hw => Mem.writeN_wf hw _ _

theorem State.writeUnit_keeps {base : State} {s : State} (l : Loc) (data : List Byte) (mark : Nat) (hk : Keeps false base s) :
    Keeps false base (State.writeUnit s l data mark) := by
  unfold State.writeUnit
  try dsimp only
  repeat' first
    | with_reducible assumption | intro _ | with_reducible apply State.setStored_keeps | with_reducible apply Keeps.ite

theorem State.snapReads_keeps {still : Bool} {base : State} {s : State} (l : Loc) (at_ : Nat × Nat) (hk : Keeps still base s) :
    Keeps still base (State.snapReads s l at_) := by
  unfold State.snapReads
  try dsimp only
  repeat' first
    | with_reducible assumption | intro _ | with_reducible apply Keeps.setLoom | with_reducible apply Keeps.ite

theorem State.commitItem_keeps {base : State} {s : State} (i : WItem) (at_ : Nat × Nat) (hk : Keeps false base s) :
    Keeps false base (State.commitItem s i at_) := by
  unfold State.commitItem
  try dsimp only
  repeat' first
    | with_reducible assumption | intro _ | with_reducible apply State.writeUnit_keeps
    | with_reducible apply State.snapReads_keeps | split

theorem State.commitItems_keeps {base : State} {s : State} (is : List WItem) (at_ : Nat × Nat) (hk : Keeps false base s) :
    Keeps false base (State.commitItems s is at_) := by
  unfold State.commitItems
  try dsimp only
  repeat' first
    | with_reducible assumption | intro _ | with_reducible apply State.commitItem_keeps | with_reducible apply Keeps.foldl
    | with_reducible apply Keeps.foldl_fst

theorem State.flipCells_keeps {base : State} {s : State} (locs : List Loc) (errs : List CellError) (hk : Keeps false base s) :
    Keeps false base (State.flipCells s locs errs) := by
  unfold State.flipCells
  try dsimp only
  repeat' first
    | with_reducible assumption | intro _ | with_reducible apply State.setStored_keeps | with_reducible apply Keeps.foldl
    | with_reducible apply Keeps.foldl_fst | split

theorem State.countCe_keeps {still : Bool} {base : State} {s : State} (l : Loc) (hk : Keeps still base s) :
    Keeps still base (State.countCe s l) := by
  unfold State.countCe
  try dsimp only
  repeat' first
    | with_reducible assumption | intro _ | with_reducible apply Keeps.modExt | with_reducible apply Keeps.ite | split

theorem State.recordCe_keeps {still : Bool} {base : State} {s : State} (l : Loc) (d : Decoded) (hk : Keeps still base s) :
    Keeps still base (State.recordCe s l d) := by
  unfold State.recordCe
  try dsimp only
  repeat' first
    | with_reducible assumption | intro _ | with_reducible apply State.countCe_keeps | with_reducible apply Keeps.modRas
    | with_reducible apply Keeps.ite | split

theorem State.undamage_keeps {still : Bool} {base : State} {s : State} (e : Nat) (b : Nat) (hk : Keeps still base s) :
    Keeps still base (State.undamage s e b) := by
  unfold State.undamage
  try dsimp only
  repeat' first
    | with_reducible assumption | intro _ | with_reducible apply Keeps.modExt | with_reducible apply Keeps.modRas
    | with_reducible apply Keeps.ite

theorem State.undamageKind_keeps {still : Bool} {base : State} {s : State} (e : Nat) (b : Nat) (diverge : Bool) (far : Bool)
    (hk : Keeps still base s) :
    Keeps still base (State.undamageKind s e b diverge far) := by
  unfold State.undamageKind
  try dsimp only
  repeat' first
    | with_reducible assumption | intro _ | with_reducible apply Keeps.modRas | with_reducible apply Keeps.ite

theorem State.undamageExt_keeps {still : Bool} {base : State} {s : State} (e : Nat) (hk : Keeps still base s) :
    Keeps still base (State.undamageExt s e) := by
  unfold State.undamageExt
  try dsimp only
  repeat' first
    | with_reducible assumption | intro _ | with_reducible apply Keeps.modExt | with_reducible apply Keeps.modRas

theorem State.damageBlock_keeps {still : Bool} {base : State} {s : State} (e : Nat) (b : Nat) (far : Bool) (quiet : Bool)
    (hk : Keeps still base s) :
    Keeps still base (State.damageBlock s e b far quiet) := by
  unfold State.damageBlock
  try dsimp only
  repeat' first
    | with_reducible assumption | intro _ | with_reducible apply State.setRasEvent_keeps
    | with_reducible apply State.sendEvts_keeps | with_reducible apply Keeps.modExt | with_reducible apply Keeps.modRas
    | with_reducible apply Keeps.ite | split

theorem State.queueRepair_keeps {still : Bool} {base : State} {s : State} (l : Loc) (hk : Keeps still base s) :
    Keeps still base (State.queueRepair s l) := by
  unfold State.queueRepair
  try dsimp only
  repeat' first
    | with_reducible assumption | intro _ | with_reducible apply Keeps.modRas | with_reducible apply Keeps.ite

theorem State.foundBad_keeps {still : Bool} {base : State} {s : State} (l : Loc) (hk : Keeps still base s) :
    Keeps still base (State.foundBad s l) := by
  unfold State.foundBad
  try dsimp only
  repeat' first
    | with_reducible assumption | intro _ | with_reducible apply State.damageBlock_keeps
    | with_reducible apply State.queueRepair_keeps | with_reducible apply Keeps.ite | with_reducible apply Keeps.foldl
    | with_reducible apply Keeps.foldl_fst

theorem State.deliver_keeps {still : Bool} {base : State} {s : State} (l : Loc) (b : List Byte) (hk : Keeps still base s) :
    Keeps still base (State.deliver s l b).1 := by
  unfold State.deliver
  try dsimp only
  repeat' first
    | with_reducible assumption | intro _ | with_reducible apply State.recordCe_keeps
    | with_reducible apply State.foundBad_keeps | with_reducible apply Keeps.ite | split | with_reducible apply Keeps.ite_fst

theorem State.readUnits_keeps {still : Bool} {base : State} {s : State} (ls : List Loc) (hk : Keeps still base s) :
    Keeps still base (State.readUnits s ls).1 := by
  unfold State.readUnits
  try dsimp only
  repeat' first
    | with_reducible assumption | intro _ | with_reducible apply State.deliver_keeps | with_reducible apply Keeps.foldl
    | with_reducible apply Keeps.foldl_fst | split | with_reducible apply Keeps.ite_fst

end Sys2Proof.Machine
end

