-- ==== Sys2Proof/Laws/KeepMbx.lean ====
section
/-! SUPPORT. Every operation of Machine/Mbx.lean on the state keeps what `Keeps` names. -/

namespace Sys2Proof.Machine

theorem State.auditAppend_keeps {still : Bool} {base : State} {s : State} (b : AuditBody) (hk : Keeps still base s) :
    Keeps still base (State.auditAppend s b) := by
  unfold State.auditAppend
  try dsimp only
  repeat' first
    | with_reducible assumption | intro _ | with_reducible apply State.drewRandom_keeps | with_reducible apply Keeps.modNor
    | with_reducible apply Keeps.modUmpire | with_reducible apply Keeps.ite | exact rfl

theorem State.acceptMbx_keeps {still : Bool} {base : State} {s : State} (m : Mbx) (hk : Keeps still base s) :
    Keeps still base (State.acceptMbx s m) := by
  unfold State.acceptMbx
  try dsimp only
  repeat' first
    | with_reducible assumption | intro _ | with_reducible apply Keeps.modMbox | with_reducible apply Keeps.modUmpire
    | exact rfl

theorem State.signalDone_keeps {still : Bool} {base : State} {s : State} (m : Mbx) (seq : Nat) (status : Nat)
    (hk : Keeps still base s) :
    Keeps still base (State.signalDone s m seq status) := by
  unfold State.signalDone
  try dsimp only
  repeat' first
    | with_reducible assumption | intro _ | with_reducible apply State.raise_keeps | with_reducible apply State.sendEvt_keeps
    | split

theorem State.auditCommand_keeps {still : Bool} {base : State} {s : State} (m : Mbx) (status : Nat) (resp : List Byte)
    (hk : Keeps still base s) :
    Keeps still base (State.auditCommand s m status resp) := by
  unfold State.auditCommand
  try dsimp only
  repeat' first
    | with_reducible assumption | intro _ | with_reducible apply State.auditAppend_keeps | with_reducible apply Keeps.ite

theorem State.complete_keeps {still : Bool} {base : State} {s : State} (m : Mbx) (status : Nat) (body : List Byte)
    (hk : Keeps still base s) :
    Keeps still base (State.complete s m status body) := by
  unfold State.complete
  try dsimp only
  repeat' first
    | with_reducible assumption | intro _ | with_reducible apply State.drewRandom_keeps
    | with_reducible apply State.signalDone_keeps | with_reducible apply State.auditCommand_keeps
    | with_reducible apply Keeps.modMbox | with_reducible apply Keeps.ite

theorem State.fail_keeps {still : Bool} {base : State} {s : State} (m : Mbx) (status : Nat) (hk : Keeps still base s) :
    Keeps still base (State.fail s m status) := by
  unfold State.fail
  try dsimp only
  repeat' first
    | with_reducible assumption | intro _ | with_reducible apply State.complete_keeps

theorem State.await_keeps {still : Bool} {base : State} {s : State} (m : Mbx) (w : WaitFor) (hk : Keeps still base s) :
    Keeps still base (State.await s m w) := by
  unfold State.await
  try dsimp only
  repeat' first
    | with_reducible assumption | intro _ | with_reducible apply Keeps.modMbox

theorem State.markReady_keeps {still : Bool} {base : State} {s : State} (m : Mbx) (status : Nat) (body : List Byte)
    (hk : Keeps still base s) :
    Keeps still base (State.markReady s m status body) := by
  unfold State.markReady
  try dsimp only
  repeat' first
    | with_reducible assumption | intro _ | with_reducible apply Keeps.modMbox | with_reducible apply Keeps.ite | split

theorem State.runCommand_keeps {still : Bool} {base : State} {s : State} (m : Mbx) (op : Nat) (form : Bool)
    (own : State → State) (hk : Keeps still base s) (hown : ∀ s, Keeps still base s → Keeps still base (own s)) :
    Keeps still base (State.runCommand s m op form own) := by
  unfold State.runCommand
  try dsimp only
  repeat' first
    | with_reducible assumption | intro _ | with_reducible apply hown | with_reducible apply State.acceptMbx_keeps
    | with_reducible apply State.fail_keeps | with_reducible apply Keeps.ite | split

theorem State.readyWaiter_keeps {still : Bool} {base : State} {s : State} (w : WaitFor) (status : Nat) (body : List Byte)
    (hk : Keeps still base s) :
    Keeps still base (State.readyWaiter s w status body) := by
  unfold State.readyWaiter
  try dsimp only
  repeat' first
    | with_reducible assumption | intro _ | with_reducible apply State.markReady_keeps | split

end Sys2Proof.Machine
end

