-- ==== Sys2Proof/Laws/KeepFuse.lean ====
section
/-! SUPPORT. Every operation of Machine/Fuse.lean on the state keeps what `Keeps` names. -/

namespace Sys2Proof.Machine

/-- Blowing fuses leaves blown fuses blown. -/
theorem Fuses.blow_stillBlown (f : Fuses) (i : Nat) : f.StillBlown (f.blow i) := by
  intro h
  refine ⟨Mem.write_wf h _ _, fun a => ?_⟩
  unfold Fuses.blow
  dsimp only
  rw [Mem.read_write h]
  split
  · next he => subst he; ext j hj; simp; intro ha; exact .inl ha
  · exact BitVec.and_self

theorem Fuses.blowList_stillBlown (l : List Nat) (f : Fuses) (stuck : Nat → Bool) : f.StillBlown (f.blowList stuck l).1 := by
  induction l generalizing f with
  | nil => exact .refl f
  | cons i t ih =>
    unfold Fuses.blowList
    split
    · exact .refl f
    · exact (f.blow_stillBlown i).trans (ih _)

theorem State.program_keeps {still : Bool} {base : State} {s : State} (j : FuseJob) (todo : List Nat) (status : Nat)
    (hk : Keeps still base s) :
    Keeps still base (State.program s j todo status) := by
  unfold State.program
  dsimp only
  apply State.markReady_keeps
  refine Keeps.modUmpire ?_ fun u => rfl
  exact (hk.setFuses (fun h => Fuses.blowList_stillBlown _ _ _ h)).setFreeCount _

theorem State.fuseRun_keeps {still : Bool} {base : State} {s : State} (hk : Keeps still base s) :
    Keeps still base (State.fuseRun s) := by
  unfold State.fuseRun
  try dsimp only
  repeat' first
    | with_reducible assumption | intro _ | with_reducible apply State.program_keeps | split

theorem State.fuseStop_keeps {still : Bool} {base : State} {s : State} (status : Nat) (hk : Keeps still base s) :
    Keeps still base (State.fuseStop s status) := by
  unfold State.fuseStop
  try dsimp only
  repeat' first
    | with_reducible assumption | intro _ | with_reducible apply State.program_keeps | with_reducible apply Keeps.setFreeCount
    | split

end Sys2Proof.Machine
end

