-- ==== Sys2Proof/Laws/KeepTier.lean ====
section
/-! SUPPORT. Every operation of Machine/Tier.lean on the state keeps what `Keeps` names. -/

namespace Sys2Proof.Machine

theorem State.touch_keeps {still : Bool} {base : State} {s : State} (e : Nat) (p : Nat) (hk : Keeps still base s) :
    Keeps still base (State.touch s e p) := by
  unfold State.touch
  try dsimp only
  repeat' first
    | with_reducible assumption | intro _ | with_reducible apply State.modPage_keeps | with_reducible apply Keeps.ite

theorem State.halve_keeps {still : Bool} {base : State} {s : State} (hk : Keeps still base s) :
    Keeps still base (State.halve s) := by
  unfold State.halve
  try dsimp only
  repeat' first
    | with_reducible assumption | intro _ | with_reducible apply Keeps.modTier | with_reducible apply Keeps.setExts
    | with_reducible apply Keeps.ite

theorem State.countAccess_keeps {still : Bool} {base : State} {s0 : State} (e : Nat) (p : Nat) (hk : Keeps still base s0) :
    Keeps still base (State.countAccess s0 e p) := by
  unfold State.countAccess
  try dsimp only
  repeat' first
    | with_reducible assumption | intro _ | with_reducible apply State.modPage_keeps | with_reducible apply State.touch_keeps
    | with_reducible apply State.halve_keeps | with_reducible apply Keeps.modExt | with_reducible apply Keeps.modTier
    | with_reducible apply Keeps.ite | split

theorem State.dropCopy_keeps {still : Bool} {base : State} {s : State} (c : Nat) (hk : Keeps still base s) :
    Keeps still base (State.dropCopy s c) := by
  unfold State.dropCopy
  try dsimp only
  repeat' first
    | with_reducible assumption | intro _ | with_reducible apply Keeps.modTier

theorem State.sweepMarks_keeps {still : Bool} {base : State} {s : State} (hk : Keeps still base s) :
    Keeps still base (State.sweepMarks s) := by
  unfold State.sweepMarks
  try dsimp only
  repeat' first
    | with_reducible assumption | intro _ | with_reducible apply Keeps.setExts | with_reducible apply Keeps.ite

theorem State.startFill_keeps {still : Bool} {base : State} {s : State} (e : Nat) (p : Nat) (hk : Keeps still base s) :
    Keeps still base (State.startFill s e p) := by
  unfold State.startFill
  try dsimp only
  repeat' first
    | with_reducible assumption | intro _ | with_reducible apply State.modPage_keeps | with_reducible apply Keeps.modTier
    | split

theorem State.endFill_keeps {still : Bool} {base : State} {s : State} (e : Nat) (p : Nat) (hk : Keeps still base s) :
    Keeps still base (State.endFill s e p) := by
  unfold State.endFill
  try dsimp only
  repeat' first
    | with_reducible assumption | intro _ | with_reducible apply State.modPage_keeps | with_reducible apply Keeps.modTier
    | with_reducible apply Keeps.ite | split

theorem State.unplan_keeps {still : Bool} {base : State} {s : State} (e : Nat) (p : Nat) (hk : Keeps still base s) :
    Keeps still base (State.unplan s e p) := by
  unfold State.unplan
  try dsimp only
  repeat' first
    | with_reducible assumption | intro _ | with_reducible apply Keeps.setReqs | with_reducible apply Keeps.ite

theorem State.dropWork_keeps {still : Bool} {base : State} {s : State} (e : Nat) (p : Nat) (hk : Keeps still base s) :
    Keeps still base (State.dropWork s e p) := by
  unfold State.dropWork
  try dsimp only
  repeat' first
    | with_reducible assumption | intro _ | with_reducible apply Keeps.modRas | with_reducible apply Keeps.ite | split

theorem State.zorPage_keeps {still : Bool} {base : State} {s : State} (e : Nat) (p : Nat) (clearing : Bool)
    (hk : Keeps still base s) :
    Keeps still base (State.zorPage s e p clearing) := by
  unfold State.zorPage
  try dsimp only
  repeat' first
    | with_reducible assumption | intro _ | with_reducible apply State.sweepMarks_keeps
    | with_reducible apply State.startFill_keeps | with_reducible apply State.unplan_keeps
    | with_reducible apply State.dropWork_keeps | with_reducible apply Keeps.modExt | with_reducible apply Keeps.modRas
    | with_reducible apply Keeps.modTier | with_reducible apply Keeps.setPins | with_reducible apply Keeps.ite | split

theorem State.zorPages_keeps {still : Bool} {base : State} {s : State} (e : Nat) (ps : List Nat) (clearing : Bool)
    (hk : Keeps still base s) :
    Keeps still base (State.zorPages s e ps clearing) := by
  unfold State.zorPages
  try dsimp only
  repeat' first
    | with_reducible assumption | intro _ | with_reducible apply State.zorPage_keeps | with_reducible apply Keeps.foldl
    | with_reducible apply Keeps.foldl_fst

end Sys2Proof.Machine
end

