-- ==== Sys2Proof/Laws/KeepServe.lean ====
section
/-! SUPPORT. Every operation of Machine/Serve.lean on the state keeps what `Keeps` names. -/

namespace Sys2Proof.Machine

theorem State.untear_keeps {still : Bool} {base : State} {s : State} (r : Req) (hk : Keeps still base s) :
    Keeps still base (State.untear s r) := by
  unfold State.untear
  try dsimp only
  repeat' first
    | with_reducible assumption | intro _ | with_reducible apply Keeps.modLease | with_reducible apply Keeps.setLeases
    | with_reducible apply Keeps.ite | split

theorem State.addReq_keeps {still : Bool} {base : State} {s : State} (r : Req) (hk : Keeps still base s) :
    Keeps still base (State.addReq s r) := by
  unfold State.addReq
  try dsimp only
  repeat' first
    | with_reducible assumption | intro _ | with_reducible apply Keeps.setNextReq | with_reducible apply Keeps.setReqs

theorem State.engineWrite_keeps {still : Bool} {base : State} {s : State} (e : Nat) (j : Nat) (addr : Nat) (data : List Byte)
    (hk : Keeps still base s) :
    Keeps still base (State.engineWrite s e j addr data) := by
  unfold State.engineWrite
  try dsimp only
  repeat' first
    | with_reducible assumption | intro _ | with_reducible apply State.countAccess_keeps
    | with_reducible apply State.addReq_keeps | with_reducible apply Keeps.modCur | with_reducible apply Keeps.ite | split

theorem State.engineDone_keeps {still : Bool} {base : State} {s : State} (e : Nat) (j : Nat) (r : Req) (st : Nat)
    (data : Option (List Byte)) (hk : Keeps still base s) :
    Keeps still base (State.engineDone s e j r st data) := by
  unfold State.engineDone
  try dsimp only
  repeat' first
    | with_reducible assumption | intro _ | with_reducible apply State.fail_keeps
    | with_reducible apply State.engineWrite_keeps | with_reducible apply Keeps.modCur | with_reducible apply Keeps.ite
    | split

theorem State.modBolt_keeps {still : Bool} {base : State} {s : State} (e : Nat) (f : BoltJob → BoltJob)
    (hk : Keeps still base s) :
    Keeps still base (State.modBolt s e f) := by
  unfold State.modBolt
  try dsimp only
  repeat' first
    | with_reducible assumption | intro _ | with_reducible apply Keeps.modJob

theorem State.boltFetched_keeps {still : Bool} {base : State} {s : State} (e : Nat) (n : Nat) (data : Option (List Byte))
    (hk : Keeps still base s) :
    Keeps still base (State.boltFetched s e n data) := by
  unfold State.boltFetched
  try dsimp only
  repeat' first
    | with_reducible assumption | intro _ | with_reducible apply State.modBolt_keeps

theorem State.boltWrote_keeps {still : Bool} {base : State} {s : State} (e : Nat) (n : Nat) (st : Nat)
    (hk : Keeps still base s) :
    Keeps still base (State.boltWrote s e n st) := by
  unfold State.boltWrote
  try dsimp only
  repeat' first
    | with_reducible assumption | intro _ | with_reducible apply State.modBolt_keeps | with_reducible apply Keeps.ite

theorem State.pushCpl_keeps {still : Bool} {base : State} {s : State} (p : Nat) (c : Cpl) (hk : Keeps still base s) :
    Keeps still base (State.pushCpl s p c) := by
  unfold State.pushCpl
  try dsimp only
  repeat' first
    | with_reducible assumption | intro _ | with_reducible apply Keeps.modPort

theorem State.leaveFill_keeps {still : Bool} {base : State} {s : State} (id : Nat) (r : Req) (hk : Keeps still base s) :
    Keeps still base (State.leaveFill s id r) := by
  unfold State.leaveFill
  try dsimp only
  repeat' first
    | with_reducible assumption | intro _ | with_reducible apply Keeps.modTier | with_reducible apply Keeps.ite | split

theorem State.finishReq_keeps {still : Bool} {base : State} {s : State} (id : Nat) (r : Req) (st : Nat) (data : Option
    (List Byte)) (hk : Keeps still base s) :
    Keeps still base (State.finishReq s id r st data) := by
  unfold State.finishReq
  try dsimp only
  repeat' first
    | with_reducible assumption | intro _ | with_reducible apply State.engineDone_keeps
    | with_reducible apply State.boltFetched_keeps | with_reducible apply State.boltWrote_keeps
    | with_reducible apply State.pushCpl_keeps | with_reducible apply State.leaveFill_keeps
    | with_reducible apply Keeps.modJob | with_reducible apply Keeps.setReqs | with_reducible apply Keeps.ite | split

theorem State.leaveClear_keeps {still : Bool} {base : State} {s : State} (e : Nat) (locs : List Loc) (hk : Keeps still base s) :
    Keeps still base (State.leaveClear s e locs) := by
  unfold State.leaveClear
  try dsimp only
  repeat' first
    | with_reducible assumption | intro _ | with_reducible apply Keeps.modExt

theorem State.writeMeetsCopy_keeps {base : State} {s : State} (r : Req) (at_ : Nat × Nat) (hk : Keeps false base s) :
    Keeps false base (State.writeMeetsCopy s r at_) := by
  unfold State.writeMeetsCopy
  try dsimp only
  repeat' first
    | with_reducible assumption | intro _ | with_reducible apply State.modPage_keeps
    | with_reducible apply State.commitItem_keeps | with_reducible apply State.dropCopy_keeps
    | with_reducible apply Keeps.modTier | with_reducible apply Keeps.ite | split

theorem State.repairedBy_keeps {still : Bool} {base : State} {s : State} (x : Extent) (r : Req) (hk : Keeps still base s) :
    Keeps still base (State.repairedBy s x r) := by
  unfold State.repairedBy
  try dsimp only
  repeat' first
    | with_reducible assumption | intro _ | with_reducible apply State.undamage_keeps | with_reducible apply Keeps.modRas
    | with_reducible apply Keeps.ite | split

theorem State.becomeVisible_keeps {base : State} {s : State} (id : Nat) (r : Req) (at_ : Nat × Nat) (hk : Keeps false base s) :
    Keeps false base (State.becomeVisible s id r at_) := by
  unfold State.becomeVisible
  try dsimp only
  repeat' first
    | with_reducible assumption | intro _ | with_reducible apply State.modPage_keeps
    | with_reducible apply State.endFill_keeps | with_reducible apply State.untear_keeps
    | with_reducible apply State.writeMeetsCopy_keeps | with_reducible apply State.repairedBy_keeps
    | with_reducible apply Keeps.modExt | with_reducible apply Keeps.modTier | with_reducible apply Keeps.ite | split

theorem State.malformedAt_keeps {still : Bool} {base : State} {s : State} (e : Nat) (b : Nat) (x : Extent) (near : Bool)
    (hk : Keeps still base s) :
    Keeps still base (State.malformedAt s e b x near) := by
  unfold State.malformedAt
  try dsimp only
  repeat' first
    | with_reducible assumption | intro _ | with_reducible apply State.damageBlock_keeps | with_reducible apply Keeps.modRas
    | with_reducible apply Keeps.ite | with_reducible apply Keeps.foldl | with_reducible apply Keeps.foldl_fst

theorem State.foundMalformed_keeps {still : Bool} {base : State} {s : State} (x : Extent) (r : Req) (hk : Keeps still base s) :
    Keeps still base (State.foundMalformed s x r) := by
  unfold State.foundMalformed
  try dsimp only
  repeat' first
    | with_reducible assumption | intro _ | with_reducible apply State.malformedAt_keeps

theorem State.endRead_keeps {still : Bool} {base : State} {s : State} (id : Nat) (r : Req) (x : Extent)
    (hk : Keeps still base s) :
    Keeps still base (State.endRead s id r x) := by
  unfold State.endRead
  try dsimp only
  repeat' first
    | with_reducible assumption | intro _ | with_reducible apply State.finishReq_keeps
    | with_reducible apply State.foundMalformed_keeps | with_reducible apply Keeps.ite | split

theorem State.advanceWrite_keeps {still : Bool} {base : State} {s : State} (id : Nat) (r : Req) (x : Extent)
    (hk : Keeps still base s) :
    Keeps still base (State.advanceWrite s id r x) := by
  unfold State.advanceWrite
  try dsimp only
  repeat' first
    | with_reducible assumption | intro _ | with_reducible apply State.finishReq_keeps
    | with_reducible apply State.foundMalformed_keeps | with_reducible apply Keeps.modReq | with_reducible apply Keeps.ite
    | split

theorem State.advance_keeps {still : Bool} {base : State} {s : State} (id : Nat) (hk : Keeps still base s) :
    Keeps still base (State.advance s id) := by
  unfold State.advance
  try dsimp only
  repeat' first
    | with_reducible assumption | intro _ | with_reducible apply State.finishReq_keeps
    | with_reducible apply State.endRead_keeps | with_reducible apply State.advanceWrite_keeps
    | with_reducible apply Keeps.ite | split

theorem State.serveMbx_keeps {still : Bool} {base : State} {s : State} (id : Nat) (r : Req) (hk : Keeps still base s) :
    Keeps still base (State.serveMbx s id r) := by
  unfold State.serveMbx
  try dsimp only
  repeat' first
    | with_reducible assumption | intro _ | with_reducible apply State.writeImage_keeps
    | with_reducible apply State.finishReq_keeps | with_reducible apply Keeps.ite | split

theorem State.takeFill_keeps {still : Bool} {base : State} {s : State} (id : Nat) (r : Req) (hk : Keeps still base s) :
    Keeps still base (State.takeFill s id r) := by
  unfold State.takeFill
  try dsimp only
  repeat' first
    | with_reducible assumption | intro _ | with_reducible apply Keeps.modTier | with_reducible apply Keeps.ite | split

theorem State.planWrite_keeps {still : Bool} {base : State} {s : State} (id : Nat) (r : Req) (hk : Keeps still base s) :
    Keeps still base (State.planWrite s id r) := by
  unfold State.planWrite
  try dsimp only
  repeat' first
    | with_reducible assumption | intro _ | with_reducible apply State.takeFill_keeps | with_reducible apply Keeps.modReq

theorem State.lostRead_keeps {still : Bool} {base : State} {s : State} (r : Req) (hk : Keeps still base s) :
    Keeps still base (State.lostRead s r) := by
  unfold State.lostRead
  try dsimp only
  repeat' first
    | with_reducible assumption | intro _ | with_reducible apply State.damageBlock_keeps | with_reducible apply Keeps.ite
    | split

theorem State.pumpOne_keeps {still : Bool} {base : State} {s : State} (id : Nat) (hk : Keeps still base s) :
    Keeps still base (State.pumpOne s id) := by
  unfold State.pumpOne
  try dsimp only
  repeat' first
    | with_reducible assumption | intro _ | with_reducible apply State.finishReq_keeps
    | with_reducible apply State.serveMbx_keeps | with_reducible apply State.planWrite_keeps
    | with_reducible apply State.lostRead_keeps | with_reducible apply Keeps.ite | split

theorem State.pump_keeps {still : Bool} {base : State} {s : State} (hk : Keeps still base s) :
    Keeps still base (State.pump s) := by
  unfold State.pump
  try dsimp only
  repeat' first
    | with_reducible assumption | intro _ | with_reducible apply State.pumpOne_keeps | with_reducible apply Keeps.foldl
    | with_reducible apply Keeps.foldl_fst

theorem State.useRanks_keeps {still : Bool} {base : State} {s : State} (ls : List Loc) (hk : Keeps still base s) :
    Keeps still base (State.useRanks s ls) := by
  unfold State.useRanks
  try dsimp only
  repeat' first
    | with_reducible assumption | intro _ | with_reducible apply Keeps.setFar | with_reducible apply Keeps.ite | split

theorem State.issueUnits_keeps {base : State} {s : State} (id : Nat) (r0 : Req) (ls : List Loc) (at_ : Bool × Nat × Nat)
    (hk : Keeps false base s) :
    Keeps false base (State.issueUnits s id r0 ls at_) := by
  unfold State.issueUnits
  try dsimp only
  repeat' first
    | with_reducible assumption | intro _ | with_reducible apply State.commitItems_keeps
    | with_reducible apply State.useRanks_keeps | with_reducible apply Keeps.modReq | with_reducible apply Keeps.ite | split

theorem State.issueOne_keeps {base : State} (q : Position) {acc : State × List Nat} (id : Nat) (hk : Keeps false base acc.1) :
    Keeps false base (State.issueOne q acc id).1 := by
  unfold State.issueOne
  try dsimp only
  repeat' first
    | with_reducible assumption | intro _ | with_reducible apply State.issueUnits_keeps | with_reducible apply Keeps.ite
    | split | with_reducible apply Keeps.ite_fst

theorem State.issueAt_keeps {base : State} {s : State} (q : Position) (code : Nat) (used : List Nat) (hk : Keeps false base s) :
    Keeps false base (State.issueAt s q code used).1 := by
  unfold State.issueAt
  try dsimp only
  repeat' first
    | with_reducible assumption | intro _ | with_reducible apply State.issueOne_keeps | with_reducible apply Keeps.foldl
    | with_reducible apply Keeps.foldl_fst | with_reducible apply Keeps.ite_fst

theorem State.deliverUnit_keeps {base : State} {s : State} (r : Req) (errs : List CellError) (n : Nat) (l : Loc)
    (hk : Keeps false base s) :
    Keeps false base (State.deliverUnit s r errs n l).1 := by
  unfold State.deliverUnit
  try dsimp only
  repeat' first
    | with_reducible assumption | intro _ | with_reducible apply State.setStored_keeps
    | with_reducible apply State.deliver_keeps | with_reducible apply Keeps.ite | with_reducible apply Keeps.ite_fst

theorem State.deliverRound_keeps {base : State} {s : State} (id : Nat) (r : Req) (errs : List CellError)
    (hk : Keeps false base s) :
    Keeps false base (State.deliverRound s id r errs) := by
  unfold State.deliverRound
  try dsimp only
  repeat' first
    | with_reducible assumption | intro _ | with_reducible apply State.advance_keeps
    | with_reducible apply State.deliverUnit_keeps | with_reducible apply Keeps.modReq | with_reducible apply Keeps.foldl
    | with_reducible apply Keeps.foldl_fst | split

theorem State.deliverGen_keeps {still : Bool} {base : State} {s : State} (id : Nat) (r : Req) (hk : Keeps still base s) :
    Keeps still base (State.deliverGen s id r) := by
  unfold State.deliverGen
  try dsimp only
  repeat' first
    | with_reducible assumption | intro _ | with_reducible apply State.finishReq_keeps | split

theorem State.countInGen_keeps {still : Bool} {base : State} {s : State} (w : Req) (hk : Keeps still base s) :
    Keeps still base (State.countInGen s w) := by
  unfold State.countInGen
  try dsimp only
  repeat' first
    | with_reducible assumption | intro _ | with_reducible apply Keeps.setReqs | with_reducible apply Keeps.ite | split

theorem State.commitRound_keeps {base : State} {s : State} (id : Nat) (r : Req) (hk : Keeps false base s) :
    Keeps false base (State.commitRound s id r) := by
  unfold State.commitRound
  try dsimp only
  repeat' first
    | with_reducible assumption | intro _ | with_reducible apply State.leaveClear_keeps
    | with_reducible apply State.becomeVisible_keeps | with_reducible apply State.advance_keeps
    | with_reducible apply State.countInGen_keeps | with_reducible apply Keeps.modReq | with_reducible apply Keeps.ite | split

theorem State.refuse_keeps {still : Bool} {base : State} {s : State} (p : Nat) (tag : Nat) (st : Nat) (fixed : Bool)
    (hk : Keeps still base s) :
    Keeps still base (State.refuse s p tag st fixed) := by
  unfold State.refuse
  try dsimp only
  repeat' first
    | with_reducible assumption | intro _ | with_reducible apply State.pushCpl_keeps

theorem State.protoErr_keeps {still : Bool} {base : State} {s : State} (p : Nat) (hk : Keeps still base s) :
    Keeps still base (State.protoErr s p) := by
  unfold State.protoErr
  try dsimp only
  repeat' first
    | with_reducible assumption | intro _ | with_reducible apply Keeps.modPort

theorem State.arriveReq_keeps {still : Bool} {base : State} {s : State} (p : Nat) (a : Arrival) (op : ReqOp)
    (hk : Keeps still base s) :
    Keeps still base (State.arriveReq s p a op) := by
  unfold State.arriveReq
  try dsimp only
  repeat' first
    | with_reducible assumption | intro _ | with_reducible apply State.countAccess_keeps
    | with_reducible apply State.addReq_keeps | with_reducible apply State.pump_keeps
    | with_reducible apply State.refuse_keeps | with_reducible apply State.protoErr_keeps | with_reducible apply Keeps.ite
    | split

theorem State.arriveMbx_keeps {still : Bool} {base : State} {s : State} (p : Nat) (a : Arrival) (write : Bool)
    (hk : Keeps still base s) :
    Keeps still base (State.arriveMbx s p a write) := by
  unfold State.arriveMbx
  try dsimp only
  repeat' first
    | with_reducible assumption | intro _ | with_reducible apply State.addReq_keeps | with_reducible apply State.pump_keeps
    | with_reducible apply State.refuse_keeps | with_reducible apply State.protoErr_keeps | with_reducible apply Keeps.ite

end Sys2Proof.Machine
end

