-- ==== Sys2Proof/Laws/KeepShuttle.lean ====
section
/-! SUPPORT. Every operation of Machine/Shuttle.lean on the state keeps what `Keeps` names. -/

namespace Sys2Proof.Machine

theorem State.readNow_keeps {still : Bool} {base : State} {s : State} (e : Nat) (b : Nat) (hk : Keeps still base s) :
    Keeps still base (State.readNow s e b).1 := by
  unfold State.readNow
  try dsimp only
  repeat' first
    | with_reducible assumption | intro _ | with_reducible apply State.readUnits_keeps
    | with_reducible apply State.useRanks_keeps | with_reducible apply Keeps.ite | split | with_reducible apply Keeps.ite_fst

theorem State.bytesNow_keeps {still : Bool} {base : State} {s : State} (e : Nat) (off : Nat) (len : Nat)
    (hk : Keeps still base s) :
    Keeps still base (State.bytesNow s e off len).1 := by
  unfold State.bytesNow
  try dsimp only
  repeat' first
    | with_reducible assumption | intro _ | with_reducible apply State.readNow_keeps | with_reducible apply Keeps.foldl
    | with_reducible apply Keeps.foldl_fst | split | with_reducible apply Keeps.ite_fst

theorem State.countBlocks_keeps {still : Bool} {base : State} {s : State} (e : Nat) (off : Nat) (len : Nat)
    (hk : Keeps still base s) :
    Keeps still base (State.countBlocks s e off len) := by
  unfold State.countBlocks
  try dsimp only
  repeat' first
    | with_reducible assumption | intro _ | with_reducible apply State.countAccess_keeps | with_reducible apply Keeps.foldl
    | with_reducible apply Keeps.foldl_fst

theorem State.dropReads_keeps {still : Bool} {base : State} {s : State} (e : Nat) (c : Cur) (hk : Keeps still base s) :
    Keeps still base (State.dropReads s e c) := by
  unfold State.dropReads
  try dsimp only
  repeat' first
    | with_reducible assumption | intro _ | with_reducible apply Keeps.modPort | with_reducible apply Keeps.foldl
    | with_reducible apply Keeps.foldl_fst

theorem State.endDesc_keeps {still : Bool} {base : State} {s : State} (e : Nat) (hk : Keeps still base s) :
    Keeps still base (State.endDesc s e) := by
  unfold State.endDesc
  try dsimp only
  repeat' first
    | with_reducible assumption | intro _ | with_reducible apply State.fail_keeps | with_reducible apply State.dropReads_keeps
    | with_reducible apply Keeps.modJob | with_reducible apply Keeps.ite | split

theorem State.abortIdle_keeps {still : Bool} {base : State} {s : State} (e : Nat) (hk : Keeps still base s) :
    Keeps still base (State.abortIdle s e) := by
  unfold State.abortIdle
  try dsimp only
  repeat' first
    | with_reducible assumption | intro _ | with_reducible apply Keeps.modJob | with_reducible apply Keeps.ite | split

theorem State.abortEnds_keeps {still : Bool} {base : State} {s : State} (e : Nat) (first : Bool) (m : Mbx)
    (hk : Keeps still base s) :
    Keeps still base (State.abortEnds s e first m) := by
  unfold State.abortEnds
  try dsimp only
  repeat' first
    | with_reducible assumption | intro _ | with_reducible apply State.markReady_keeps | with_reducible apply Keeps.modMbox
    | with_reducible apply Keeps.ite

theorem State.freeEngine_keeps {still : Bool} {base : State} {s : State} (e : Nat) (w : WaitFor) (st : Nat) (body : List Byte)
    (hk : Keeps still base s) :
    Keeps still base (State.freeEngine s e w st body) := by
  unfold State.freeEngine
  try dsimp only
  repeat' first
    | with_reducible assumption | intro _ | with_reducible apply State.readyWaiter_keeps
    | with_reducible apply State.abortEnds_keeps | with_reducible apply Keeps.modEngine | with_reducible apply Keeps.foldl
    | with_reducible apply Keeps.foldl_fst

theorem State.endJob_keeps {still : Bool} {base : State} {s : State} (e : Nat) (hk : Keeps still base s) :
    Keeps still base (State.endJob s e) := by
  unfold State.endJob
  try dsimp only
  repeat' first
    | with_reducible assumption | intro _ | with_reducible apply State.freeEngine_keeps | with_reducible apply Keeps.ite
    | split

theorem State.settle_keeps {still : Bool} {base : State} {s : State} (e : Nat) (hk : Keeps still base s) :
    Keeps still base (State.settle s e) := by
  unfold State.settle
  try dsimp only
  repeat' first
    | with_reducible assumption | intro _ | with_reducible apply State.endDesc_keeps
    | with_reducible apply State.abortIdle_keeps | with_reducible apply State.endJob_keeps

theorem State.settleAll_keeps {still : Bool} {base : State} {s : State} (hk : Keeps still base s) :
    Keeps still base (State.settleAll s) := by
  unfold State.settleAll
  try dsimp only
  repeat' first
    | with_reducible assumption | intro _ | with_reducible apply State.settle_keeps | with_reducible apply Keeps.foldl
    | with_reducible apply Keeps.foldl_fst

theorem State.stopDesc_keeps {still : Bool} {base : State} {s : State} (e : Nat) (st : Nat) (hk : Keeps still base s) :
    Keeps still base (State.stopDesc s e st) := by
  unfold State.stopDesc
  try dsimp only
  repeat' first
    | with_reducible assumption | intro _ | with_reducible apply Keeps.modCur | with_reducible apply Keeps.foldl
    | with_reducible apply Keeps.foldl_fst

theorem State.abortJob_keeps {still : Bool} {base : State} {s : State} (e : Nat) (hk : Keeps still base s) :
    Keeps still base (State.abortJob s e) := by
  unfold State.abortJob
  try dsimp only
  repeat' first
    | with_reducible assumption | intro _ | with_reducible apply State.settle_keeps
    | with_reducible apply State.stopDesc_keeps | with_reducible apply Keeps.modJob

theorem State.losePort_keeps {still : Bool} {base : State} {s : State} (p : Nat) (hk : Keeps still base s) :
    Keeps still base (State.losePort s p) := by
  unfold State.losePort
  try dsimp only
  repeat' first
    | with_reducible assumption | intro _ | with_reducible apply State.dropReads_keeps
    | with_reducible apply State.settle_keeps | with_reducible apply Keeps.modCur | with_reducible apply Keeps.ite
    | with_reducible apply Keeps.foldl | with_reducible apply Keeps.foldl_fst | split

theorem State.writePull_keeps {still : Bool} {base : State} {s : State} (e : Nat) (c : Cur) (js : List Nat)
    (hk : Keeps still base s) :
    Keeps still base (State.writePull s e c js) := by
  unfold State.writePull
  try dsimp only
  repeat' first
    | with_reducible assumption | intro _ | with_reducible apply State.engineWrite_keeps | with_reducible apply Keeps.foldl
    | with_reducible apply Keeps.foldl_fst

theorem State.verifySegment_keeps {still : Bool} {base : State} {s : State} (e : Nat) (g : Nat) (hk : Keeps still base s) :
    Keeps still base (State.verifySegment s e g) := by
  unfold State.verifySegment
  try dsimp only
  repeat' first
    | with_reducible assumption | intro _ | with_reducible apply State.writePull_keeps | with_reducible apply Keeps.modCur
    | with_reducible apply Keeps.modPort | with_reducible apply Keeps.ite | with_reducible apply Keeps.foldl
    | with_reducible apply Keeps.foldl_fst | split

theorem State.pullStore_keeps {still : Bool} {base : State} {s : State} (e : Nat) (n : Nat) (data : List Byte) (c : Cur)
    (hk : Keeps still base s) :
    Keeps still base (State.pullStore s e n data c) := by
  unfold State.pullStore
  try dsimp only
  repeat' first
    | with_reducible assumption | intro _ | with_reducible apply State.engineWrite_keeps
    | with_reducible apply State.verifySegment_keeps | with_reducible apply Keeps.modCur | with_reducible apply Keeps.ite

theorem State.pullData_keeps {still : Bool} {base : State} {s : State} (e : Nat) (n : Nat) (data : List Byte)
    (hk : Keeps still base s) :
    Keeps still base (State.pullData s e n data) := by
  unfold State.pullData
  try dsimp only
  repeat' first
    | with_reducible assumption | intro _ | with_reducible apply State.fail_keeps | with_reducible apply State.pullStore_keeps
    | with_reducible apply Keeps.modCur | with_reducible apply Keeps.ite | split

theorem State.pullDone_keeps {still : Bool} {base : State} {s : State} (p : Nat) (tag : Nat) (st : Nat) (data : List Byte)
    (hk : Keeps still base s) :
    Keeps still base (State.pullDone s p tag st data) := by
  unfold State.pullDone
  try dsimp only
  repeat' first
    | with_reducible assumption | intro _ | with_reducible apply State.settle_keeps
    | with_reducible apply State.pullData_keeps | with_reducible apply Keeps.modCur | with_reducible apply Keeps.modPort
    | with_reducible apply Keeps.ite | split

end Sys2Proof.Machine
end

