-- ==== Sys2Proof/Laws/KeepPorts.lean ====
section
/-! SUPPORT. Every operation of Machine/Ports.lean on the state keeps what `Keeps` names. -/

namespace Sys2Proof.Machine

theorem State.arriveCpl_keeps {still : Bool} {base : State} {s : State} (p : Nat) (a : Arrival) (withData : Bool)
    (hk : Keeps still base s) :
    Keeps still base (State.arriveCpl s p a withData) := by
  unfold State.arriveCpl
  try dsimp only
  repeat' first
    | with_reducible assumption | intro _ | with_reducible apply State.protoErr_keeps
    | with_reducible apply State.pullDone_keeps | with_reducible apply Keeps.ite | split

theorem State.takeRecord_keeps {still : Bool} {base : State} {s : State} (p : Nat) (a : Arrival) (hk : Keeps still base s) :
    Keeps still base (State.takeRecord s p a) := by
  unfold State.takeRecord
  try dsimp only
  repeat' first
    | with_reducible assumption | intro _ | with_reducible apply State.pump_keeps | with_reducible apply State.protoErr_keeps
    | with_reducible apply State.arriveReq_keeps | with_reducible apply State.arriveMbx_keeps
    | with_reducible apply State.arriveCpl_keeps | with_reducible apply Keeps.ite

theorem State.takeFront_keeps {still : Bool} {base : State} {s : State} (p : Nat) (want : W64 → Bool)
    (hk : Keeps still base s) :
    Keeps still base (State.takeFront s p want) := by
  unfold State.takeFront
  try dsimp only
  repeat' first
    | with_reducible assumption | intro _ | with_reducible apply State.takeRecord_keeps | with_reducible apply Keeps.modPort
    | with_reducible apply Keeps.ite | split

theorem State.takeAll_keeps {still : Bool} {base : State} {s : State} (p : Nat) (hk : Keeps still base s) :
    Keeps still base (State.takeAll s p) := by
  unfold State.takeAll
  try dsimp only
  repeat' first
    | with_reducible assumption | intro _ | with_reducible apply State.takeRecord_keeps | with_reducible apply Keeps.modPort
    | with_reducible apply Keeps.foldl | with_reducible apply Keeps.foldl_fst

theorem State.takeOld_keeps {still : Bool} {base : State} {s : State} (p : Nat) (hk : Keeps still base s) :
    Keeps still base (State.takeOld s p) := by
  unfold State.takeOld
  try dsimp only
  repeat' first
    | with_reducible assumption | intro _ | with_reducible apply State.takeRecord_keeps | with_reducible apply Keeps.modPort
    | with_reducible apply Keeps.foldl | with_reducible apply Keeps.foldl_fst

theorem State.setSts_keeps {still : Bool} {base : State} {s : State} (p : Nat) (i : Nat) (hk : Keeps still base s) :
    Keeps still base (State.setSts s p i) := by
  unfold State.setSts
  try dsimp only
  repeat' first
    | with_reducible assumption | intro _ | with_reducible apply State.raise_keeps | with_reducible apply Keeps.modSlot
    | with_reducible apply Keeps.ite

theorem State.setSlot_keeps {still : Bool} {base : State} {s : State} (p : Nat) (st : SlotSt) (hk : Keeps still base s) :
    Keeps still base (State.setSlot s p st) := by
  unfold State.setSlot
  try dsimp only
  repeat' first
    | with_reducible assumption | intro _ | with_reducible apply Keeps.modSlot

theorem State.cageOff_keeps {still : Bool} {base : State} {s : State} (p : Nat) (hk : Keeps still base s) :
    Keeps still base (State.cageOff s p) := by
  unfold State.cageOff
  try dsimp only
  repeat' first
    | with_reducible assumption | intro _ | with_reducible apply Keeps.modSlot

theorem State.cageOn_keeps {still : Bool} {base : State} {s : State} (p : Nat) (hk : Keeps still base s) :
    Keeps still base (State.cageOn s p) := by
  unfold State.cageOn
  try dsimp only
  repeat' first
    | with_reducible assumption | intro _ | with_reducible apply Keeps.modSlot

theorem State.tearLease_keeps {still : Bool} {base : State} {s : State} (n : Nat) (l : Lease) (hk : Keeps still base s) :
    Keeps still base (State.tearLease s n l) := by
  unfold State.tearLease
  try dsimp only
  repeat' first
    | with_reducible assumption | intro _ | with_reducible apply State.setRasEvent_keeps
    | with_reducible apply State.sendEvts_keeps | with_reducible apply Keeps.modLease | with_reducible apply Keeps.modRas
    | with_reducible apply Keeps.ite | split

theorem State.tearLeases_keeps {still : Bool} {base : State} {s : State} (p : Nat) (hk : Keeps still base s) :
    Keeps still base (State.tearLeases s p) := by
  unfold State.tearLeases
  try dsimp only
  repeat' first
    | with_reducible assumption | intro _ | with_reducible apply State.tearLease_keeps | with_reducible apply Keeps.modPort
    | with_reducible apply Keeps.ite | with_reducible apply Keeps.foldl | with_reducible apply Keeps.foldl_fst

theorem State.endLeases_keeps {still : Bool} {base : State} {s : State} (which : Lease → Bool) (hk : Keeps still base s) :
    Keeps still base (State.endLeases s which) := by
  unfold State.endLeases
  try dsimp only
  repeat' first
    | with_reducible assumption | intro _ | with_reducible apply State.readyWaiter_keeps
    | with_reducible apply Keeps.setLeases | with_reducible apply Keeps.foldl | with_reducible apply Keeps.foldl_fst

theorem State.loseMailbox_keeps {still : Bool} {base : State} {s : State} (p : Nat) (hk : Keeps still base s) :
    Keeps still base (State.loseMailbox s p) := by
  unfold State.loseMailbox
  try dsimp only
  repeat' first
    | with_reducible assumption | intro _ | with_reducible apply Keeps.modMbox | with_reducible apply Keeps.ite

theorem State.portReset_keeps {still : Bool} {base : State} {s : State} (p : Nat) (hk : Keeps still base s) :
    Keeps still base (State.portReset s p) := by
  unfold State.portReset
  try dsimp only
  repeat' first
    | with_reducible assumption | intro _ | with_reducible apply State.losePort_keeps
    | with_reducible apply State.takeAll_keeps | with_reducible apply State.setSts_keeps
    | with_reducible apply State.loseMailbox_keeps | with_reducible apply Keeps.modPort | with_reducible apply Keeps.modSlot
    | with_reducible apply Keeps.setReqs | with_reducible apply Keeps.ite

theorem State.endPowerOff_keeps {still : Bool} {base : State} {s : State} (p : Nat) (st : Nat) (hk : Keeps still base s) :
    Keeps still base (State.endPowerOff s p st) := by
  unfold State.endPowerOff
  try dsimp only
  repeat' first
    | with_reducible assumption | intro _ | with_reducible apply State.readyWaiter_keeps | with_reducible apply Keeps.ite

theorem State.slotEmptied_keeps {still : Bool} {base : State} {s : State} (p : Nat) (hk : Keeps still base s) :
    Keeps still base (State.slotEmptied s p) := by
  unfold State.slotEmptied
  try dsimp only
  repeat' first
    | with_reducible assumption | intro _ | with_reducible apply State.setSlot_keeps | with_reducible apply Keeps.modNor
    | with_reducible apply Keeps.modPort | with_reducible apply Keeps.ite

theorem State.surpriseLoss_keeps {still : Bool} {base : State} {s : State} (p : Nat) (hk : Keeps still base s) :
    Keeps still base (State.surpriseLoss s p) := by
  unfold State.surpriseLoss
  try dsimp only
  repeat' first
    | with_reducible assumption | intro _ | with_reducible apply State.setSts_keeps
    | with_reducible apply State.portReset_keeps | with_reducible apply Keeps.ite

theorem State.linkFailure_keeps {still : Bool} {base : State} {s : State} (p : Nat) (hk : Keeps still base s) :
    Keeps still base (State.linkFailure s p) := by
  unfold State.linkFailure
  try dsimp only
  repeat' first
    | with_reducible assumption | intro _ | with_reducible apply State.setSlot_keeps
    | with_reducible apply State.cageOff_keeps | with_reducible apply State.endPowerOff_keeps
    | with_reducible apply State.surpriseLoss_keeps | with_reducible apply Keeps.modPort | with_reducible apply Keeps.ite

end Sys2Proof.Machine
end

