-- ==== Sys2Proof/Laws/KeepSafe.lean ====
section
/-! SUPPORT. Every operation of Machine/Safe.lean on the state keeps what `Keeps` names. -/

namespace Sys2Proof.Machine

theorem State.setAlert_keeps {still : Bool} {base : State} {s : State} (hk : Keeps still base s) : Keeps still base
    (State.setAlert s) :=
  hk.modPower (fun _ hw => ⟨hw.1, rfl, hw.2.2⟩) fun _ h => ⟨h, rfl⟩

/-- A change of the supply and the pins that the alert line follows at once keeps their agreement. -/
theorem Keeps.modPower_setAlert {still : Bool} {base s : State} (hk : Keeps still base s) {f : Power → Power}
    (hf : ∀ w, w.PinsOk → (f w).safeN = !(f w).safe ∧ (f w).thermtripN = !(f w).thermTrip ∧
      (f w).pwrGood = (f w).railsGood)
    (hs : s.power.SafeLasts (f s.power)) : Keeps still base ((s.modPower f).setAlert) :=
  hk.trans ⟨⟨rfl, id, id, fun hw => ⟨(hf _ hw).1, rfl, (hf _ hw).2⟩, .refl _⟩, ⟨rfl, rfl, rfl⟩, hs, fun _ => ⟨rfl, rfl⟩⟩

theorem State.haltForSafe_keeps {still : Bool} {base : State} {s : State} (cause : Nat) (hk : Keeps still base s) :
    Keeps still base (State.haltForSafe s cause) := by
  unfold State.haltForSafe
  try dsimp only
  repeat' first
    | with_reducible assumption | intro _ | with_reducible apply Keeps.modLoom | with_reducible apply Keeps.ite | split

theorem State.enginesSafe_keeps {still : Bool} {base : State} {s : State} (hk : Keeps still base s) :
    Keeps still base (State.enginesSafe s) := by
  unfold State.enginesSafe
  try dsimp only
  repeat' first
    | with_reducible assumption | intro _ | with_reducible apply State.readyWaiter_keeps
    | with_reducible apply State.dropReads_keeps | with_reducible apply Keeps.modEngine | with_reducible apply Keeps.ite
    | with_reducible apply Keeps.foldl | with_reducible apply Keeps.foldl_fst | split

theorem State.waitersSafe_keeps {still : Bool} {base : State} {s : State} (hk : Keeps still base s) : Keeps still base
    (State.waitersSafe s) := by
  refine hk.modUmpire fun u => ?_
  simp only [List.map_map]
  congr 1
  funext x
  simp only [Function.comp]
  split <;> (try split) <;> rfl

theorem State.enterSafe_keeps {still : Bool} {base : State} {s : State} (cause : Nat) (hk : Keeps still base s) :
    Keeps still base (State.enterSafe s cause) := by
  unfold State.enterSafe
  split
  · exact State.auditAppend_keeps _ hk
  · have h0 := hk.modPower_setAlert
      (f := fun w => { w with safe := true, safeCause := cause, safeDue := true, safeN := false, braced := false, recoverDue := false })
      (fun w hw => ⟨rfl, hw.2.2⟩) fun h => absurd h ‹_›
    refine State.auditAppend_keeps _ (State.sendEvtAll_keeps _ ?_)
    refine State.waitersSafe_keeps (State.enginesSafe_keeps (State.haltForSafe_keeps _ (State.fuseStop_keeps _ ?_)))
    exact State.setEvent_keeps _ (Keeps.ite (h0.modTime fun _ => ⟨rfl, rfl, rfl⟩) h0)

theorem State.endForSafe_keeps {base : State} {s : State} (id : Nat) (r : Req) (hk : Keeps false base s) :
    Keeps false base (State.endForSafe s id r) := by
  unfold State.endForSafe
  try dsimp only
  repeat' first
    | with_reducible assumption | intro _ | with_reducible apply State.finishReq_keeps
    | with_reducible apply State.becomeVisible_keeps | with_reducible apply Keeps.ite | split

theorem State.safeBoundary_keeps {base : State} {s : State} (hk : Keeps false base s) :
    Keeps false base (State.safeBoundary s) := by
  unfold State.safeBoundary
  try dsimp only
  repeat' first
    | with_reducible assumption | intro _ | with_reducible apply State.endForSafe_keeps | with_reducible apply Keeps.modLoom
    | with_reducible apply Keeps.modPower | with_reducible apply Keeps.modRas | with_reducible apply Keeps.modTier
    | with_reducible apply Keeps.setExts | with_reducible apply Keeps.setPorts | with_reducible apply Keeps.ite
    | with_reducible apply Keeps.foldl | with_reducible apply Keeps.foldl_fst | split
    | simp only [List.length_map, List.length_replicate] | exact ‹Power.PinsOk _›
    | (rename_i h; exact Power.PinsOk.rails h ⟨rfl, rfl, rfl⟩ ⟨rfl, rfl, rfl, rfl, rfl⟩ rfl)
    | exact ⟨‹Power.safe _ = true›, rfl⟩ | exact ⟨‹Power.safe _ = true›, trivial⟩

end Sys2Proof.Machine
end

