-- ==== Sys2Proof/Laws/KeepMigration.lean ====
section
/-! SUPPORT. Every operation of Machine/Migration.lean on the state keeps what `Keeps` names. -/

namespace Sys2Proof.Machine

theorem State.useLanes_keeps {still : Bool} {base : State} {s : State} (q : Position) (used : List Nat)
    (hk : Keeps still base s) :
    Keeps still base (State.useLanes s q used) := by
  unfold State.useLanes
  try dsimp only
  repeat' first
    | with_reducible assumption | intro _ | with_reducible apply Keeps.modTie | split

theorem State.startCopy_keeps {still : Bool} {base : State} {s : State} (e : Nat) (p : Nat) (kind : CopyKind) (dest : Nat)
    (src : Nat) (hk : Keeps still base s) :
    Keeps still base (State.startCopy s e p kind dest src) := by
  unfold State.startCopy
  try dsimp only
  repeat' first
    | with_reducible assumption | intro _ | with_reducible apply Keeps.modTier

theorem State.markVictims_keeps {still : Bool} {base : State} {s : State} (v : VictimRun) (hk : Keeps still base s) :
    Keeps still base (State.markVictims s v) := by
  unfold State.markVictims
  try dsimp only
  repeat' first
    | with_reducible assumption | intro _ | with_reducible apply State.modPage_keeps | with_reducible apply Keeps.foldl
    | with_reducible apply Keeps.foldl_fst

theorem State.unqueue_keeps {still : Bool} {base : State} {s : State} (e : Nat) (p : Nat) (hk : Keeps still base s) :
    Keeps still base (State.unqueue s e p) := by
  unfold State.unqueue
  try dsimp only
  repeat' first
    | with_reducible assumption | intro _ | with_reducible apply State.sweepMarks_keeps | with_reducible apply Keeps.modTier
    | with_reducible apply Keeps.ite

theorem State.setWait_keeps {still : Bool} {base : State} {s : State} (e : Nat) (p : Nat) (run : Option Nat)
    (hk : Keeps still base s) :
    Keeps still base (State.setWait s e p run) := by
  unfold State.setWait
  try dsimp only
  repeat' first
    | with_reducible assumption | intro _ | with_reducible apply Keeps.modTier | with_reducible apply Keeps.ite

theorem State.startPromotion_keeps {still : Bool} {base : State} {s : State} (e : Nat) (p : Nat) (run : Nat) (kind : CopyKind)
    (hk : Keeps still base s) :
    Keeps still base (State.startPromotion s e p run kind) := by
  unfold State.startPromotion
  try dsimp only
  repeat' first
    | with_reducible assumption | intro _ | with_reducible apply State.modPage_keeps
    | with_reducible apply State.startCopy_keeps | with_reducible apply State.unqueue_keeps

theorem State.placePromo_keeps {still : Bool} {base : State} {s0 : State} (q : Promo) (hk : Keeps still base s0) :
    Keeps still base (State.placePromo s0 q) := by
  unfold State.placePromo
  try dsimp only
  repeat' first
    | with_reducible assumption | intro _ | with_reducible apply State.modPage_keeps
    | with_reducible apply State.sweepMarks_keeps | with_reducible apply State.markVictims_keeps
    | with_reducible apply State.unqueue_keeps | with_reducible apply State.setWait_keeps
    | with_reducible apply State.startPromotion_keeps | with_reducible apply Keeps.modTier | split

theorem State.releasePin_keeps {still : Bool} {base : State} {s : State} (n : Nat) (hk : Keeps still base s) :
    Keeps still base (State.releasePin s n) := by
  unfold State.releasePin
  try dsimp only
  repeat' first
    | with_reducible assumption | intro _ | with_reducible apply State.modPage_keeps
    | with_reducible apply State.sweepMarks_keeps | with_reducible apply Keeps.setPins | with_reducible apply Keeps.ite
    | with_reducible apply Keeps.foldl | with_reducible apply Keeps.foldl_fst | split

theorem State.endPin_keeps {still : Bool} {base : State} {s : State} (n : Nat) (st : Nat) (hk : Keeps still base s) :
    Keeps still base (State.endPin s n st) := by
  unfold State.endPin
  try dsimp only
  repeat' first
    | with_reducible assumption | intro _ | with_reducible apply State.readyWaiter_keeps
    | with_reducible apply State.releasePin_keeps

theorem State.modPin_keeps {still : Bool} {base : State} {s : State} (n : Nat) (f : Pin → Pin) (hk : Keeps still base s) :
    Keeps still base (State.modPin s n f) := by
  unfold State.modPin
  try dsimp only
  repeat' first
    | with_reducible assumption | intro _ | with_reducible apply Keeps.setPins

/-- What a pin step leaves keeps what the step began with kept. -/
def PinStep.Keeps (still : Bool) (base : State) : PinStep → Prop
  | .pass t => Machine.Keeps still base t
  | .hold t => Machine.Keeps still base t
  | .fail => True

theorem State.pinInto_keeps {still : Bool} {base : State} {s : State} (n : Nat) (pn : Pin) (p : Nat) (x : Extent)
    (go : Nat → State → State) (hk : Keeps still base s) (hgo : ∀ r t, Keeps still base t → Keeps still base (go r t)) :
    (State.pinInto s n pn p x go).Keeps still base := by
  unfold State.pinInto
  dsimp only
  have h0 := State.sweepMarks_keeps (State.modPin_keeps n (fun pn => { pn with wait := none }) hk)
  split
  · exact hk
  · split
    · exact hgo _ _ h0
    · split
      · exact hgo _ _ (State.sweepMarks_keeps (State.modPin_keeps n (fun pn => { pn with wait := none }) h0))
      · exact State.modPin_keeps _ _ (State.markVictims_keeps _ h0)
      · exact True.intro

theorem State.pinPage_keeps {still : Bool} {base : State} {s : State} (n : Nat) (pn : Pin) (p : Nat) (hk : Keeps still base s) :
    (State.pinPage s n pn p).Keeps still base := by
  unfold State.pinPage
  dsimp only
  repeat' first
    | (show True; exact True.intro)
    | with_reducible assumption
    | (refine State.pinInto_keeps _ _ _ _ _ ?_ fun r t ht => ?_)
    | with_reducible apply State.modPin_keeps
    | with_reducible apply State.startPromotion_keeps
    | with_reducible apply State.startCopy_keeps
    | with_reducible apply State.startFill_keeps
    | with_reducible apply State.modPage_keeps
    | split
    | (show Machine.Keeps _ _ _)

theorem State.pinRun_keeps {still : Bool} {base : State} (k : Nat) {s : State} (n : Nat) (hk : Keeps still base s) :
    Keeps still base (State.pinRun k s n) := by
  induction k generalizing s with
  | zero => exact hk
  | succ k ih =>
    unfold State.pinRun
    split
    · exact hk
    · next pn _ =>
      split
      · exact hk
      · next p rest _ =>
        have hp := State.pinPage_keeps (still := still) n pn p hk
        split
        · next h => rw [h] at hp; exact ih (State.modPin_keeps _ _ hp)
        · next h => rw [h] at hp; exact hp
        · exact State.endPin_keeps _ _ hk

theorem State.pinStops_keeps {still : Bool} {base : State} {s : State} (hk : Keeps still base s) :
    Keeps still base (State.pinStops s) := by
  unfold State.pinStops
  try dsimp only
  repeat' first
    | with_reducible assumption | intro _ | with_reducible apply State.modPage_keeps
    | with_reducible apply State.dropCopy_keeps | with_reducible apply Keeps.ite | with_reducible apply Keeps.foldl
    | with_reducible apply Keeps.foldl_fst | split

theorem State.pinDone_keeps {still : Bool} {base : State} {s : State} (n : Nat) (hk : Keeps still base s) :
    Keeps still base (State.pinDone s n) := by
  unfold State.pinDone
  try dsimp only
  repeat' first
    | with_reducible assumption | intro _ | with_reducible apply State.readyWaiter_keeps | with_reducible apply Keeps.setPins
    | with_reducible apply Keeps.ite | split

theorem State.refill_keeps {still : Bool} {base : State} {s : State} (hk : Keeps still base s) :
    Keeps still base (State.refill s) := by
  unfold State.refill
  try dsimp only
  repeat' first
    | with_reducible assumption | intro _ | with_reducible apply State.startFill_keeps | with_reducible apply Keeps.ite
    | with_reducible apply Keeps.foldl | with_reducible apply Keeps.foldl_fst

theorem State.pinsDone_keeps {still : Bool} {base : State} {s : State} (hk : Keeps still base s) :
    Keeps still base (State.pinsDone s) := by
  unfold State.pinsDone
  try dsimp only
  repeat' first
    | with_reducible assumption | intro _ | with_reducible apply State.pinDone_keeps | with_reducible apply Keeps.ite
    | with_reducible apply Keeps.foldl | with_reducible apply Keeps.foldl_fst

theorem State.pinsGo_keeps {still : Bool} {base : State} {s : State} (hk : Keeps still base s) :
    Keeps still base (State.pinsGo s) := by
  unfold State.pinsGo
  try dsimp only
  repeat' first
    | with_reducible assumption | intro _ | with_reducible apply State.pinRun_keeps
    | with_reducible apply State.pinStops_keeps | with_reducible apply State.pinsDone_keeps | with_reducible apply Keeps.ite
    | with_reducible apply Keeps.foldl | with_reducible apply Keeps.foldl_fst

theorem State.dropUnits_keeps {still : Bool} {base : State} {s : State} (gone : Loc → Bool) (hk : Keeps still base s) :
    Keeps still base (State.dropUnits s gone) := by
  unfold State.dropUnits
  try dsimp only
  repeat' first
    | with_reducible assumption | intro _ | with_reducible apply Keeps.modRas | split

theorem State.copyWrite_keeps {base : State} {s : State} (id : Nat) (c : Copy) (x : Extent) (bs : List Nat) (q : Position)
    (hk : Keeps false base s) :
    Keeps false base (State.copyWrite s id c x bs q) := by
  unfold State.copyWrite
  try dsimp only
  repeat' first
    | with_reducible assumption | intro _ | with_reducible apply State.commitItems_keeps
    | with_reducible apply State.damageBlock_keeps | with_reducible apply State.leaveClear_keeps
    | with_reducible apply State.dropUnits_keeps | with_reducible apply Keeps.modTier | with_reducible apply Keeps.ite
    | with_reducible apply Keeps.foldl | with_reducible apply Keeps.foldl_fst

theorem State.copyRead_keeps {base : State} {s : State} (id : Nat) (c : Copy) (x : Extent) (bs : List Nat) (ls : List Loc)
    (errs : List CellError) (hk : Keeps false base s) :
    Keeps false base (State.copyRead s id c x bs ls errs) := by
  unfold State.copyRead
  try dsimp only
  repeat' first
    | with_reducible assumption | intro _ | with_reducible apply State.flipCells_keeps
    | with_reducible apply State.readUnits_keeps | with_reducible apply Keeps.modTier | split

theorem State.filled_keeps {base : State} {s : State} (i : Nat) (f : Fill) (x : Extent) (parts : List (Nat × Nat))
    (items : List WItem) (q : Position) (hk : Keeps false base s) :
    Keeps false base (State.filled s i f x parts items q) := by
  unfold State.filled
  try dsimp only
  repeat' first
    | with_reducible assumption | intro _ | with_reducible apply State.commitItems_keeps
    | with_reducible apply State.undamage_keeps | with_reducible apply State.leaveClear_keeps
    | with_reducible apply State.useRanks_keeps | with_reducible apply State.settle_keeps | with_reducible apply Keeps.modTier
    | with_reducible apply Keeps.ite | with_reducible apply Keeps.foldl | with_reducible apply Keeps.foldl_fst

theorem State.fillOwed_keeps {base : State} {s : State} (i : Nat) (f : Fill) (x : Extent) (q : Position) (o : FillStripe)
    (hk : Keeps false base s) :
    Keeps false base (State.fillOwed s i f x q o) := by
  unfold State.fillOwed
  try dsimp only
  repeat' first
    | with_reducible assumption | intro _ | with_reducible apply State.readUnits_keeps
    | with_reducible apply State.useRanks_keeps | with_reducible apply State.filled_keeps | with_reducible apply Keeps.modTier
    | with_reducible apply Keeps.ite | split

theorem State.countMove_keeps {still : Bool} {base : State} {s : State} (e : Nat) (up : Bool) (hk : Keeps still base s) :
    Keeps still base (State.countMove s e up) := by
  unfold State.countMove
  try dsimp only
  repeat' first
    | with_reducible assumption | intro _ | with_reducible apply Keeps.modCtx | with_reducible apply Keeps.modTier
    | with_reducible apply Keeps.ite | split

theorem State.damageFell_keeps {still : Bool} {base : State} {s : State} (e : Nat) (p : Nat) (x : Extent)
    (hk : Keeps still base s) :
    Keeps still base (State.damageFell s e p x) := by
  unfold State.damageFell
  try dsimp only
  repeat' first
    | with_reducible assumption | intro _ | with_reducible apply State.undamage_keeps | with_reducible apply Keeps.modRas
    | with_reducible apply Keeps.ite | with_reducible apply Keeps.foldl | with_reducible apply Keeps.foldl_fst | split

theorem State.retarget_keeps {base : State} {s : State} (id : Nat) (r0 : Req) (x : Extent) (pg : Page)
    (hk : Keeps false base s) :
    Keeps false base (State.retarget s id r0 x pg) := by
  unfold State.retarget
  try dsimp only
  repeat' first
    | with_reducible assumption | intro _ | with_reducible apply State.commitItem_keeps | with_reducible apply Keeps.modReq
    | with_reducible apply Keeps.ite | split

theorem State.retargetPage_keeps {base : State} {s : State} (e : Nat) (p : Nat) (hk : Keeps false base s) :
    Keeps false base (State.retargetPage s e p) := by
  unfold State.retargetPage
  try dsimp only
  repeat' first
    | with_reducible assumption | intro _ | with_reducible apply State.retarget_keeps | with_reducible apply Keeps.ite
    | with_reducible apply Keeps.foldl | with_reducible apply Keeps.foldl_fst | split

theorem State.countPoison_keeps {still : Bool} {base : State} {s : State} (c : Copy) (hk : Keeps still base s) :
    Keeps still base (State.countPoison s c) := by
  unfold State.countPoison
  try dsimp only
  repeat' first
    | with_reducible assumption | intro _ | with_reducible apply Keeps.setPins | with_reducible apply Keeps.ite | split

theorem State.clearDone_keeps {still : Bool} {base : State} {s : State} (e : Nat) (hk : Keeps still base s) :
    Keeps still base (State.clearDone s e) := by
  unfold State.clearDone
  try dsimp only
  repeat' first
    | with_reducible assumption | intro _ | with_reducible apply State.undamageExt_keeps | with_reducible apply Keeps.setExts
    | with_reducible apply Keeps.ite | split

theorem State.zeroUnit_keeps {base : State} {s : State} (l : Loc) (at_ : Nat × Nat) (hk : Keeps false base s) :
    Keeps false base (State.zeroUnit s l at_) := by
  unfold State.zeroUnit
  try dsimp only
  repeat' first
    | with_reducible assumption | intro _ | with_reducible apply State.writeUnit_keeps
    | with_reducible apply State.snapReads_keeps | with_reducible apply State.useRanks_keeps

theorem State.clearFar_keeps {base : State} {s : State} (e : Nat) (x : Extent) (c : Clear) (q : Position) (used : List Nat)
    (hk : Keeps false base s) :
    Keeps false base (State.clearFar s e x c q used).1 := by
  unfold State.clearFar
  try dsimp only
  repeat' first
    | with_reducible assumption | intro _ | with_reducible apply State.zeroUnit_keeps | with_reducible apply Keeps.modExt
    | with_reducible apply Keeps.ite | with_reducible apply Keeps.foldl | with_reducible apply Keeps.foldl_fst | split
    | with_reducible apply Keeps.ite_fst

theorem State.clearFrames_keeps {base : State} {s : State} (frames : List (Nat × Nat)) (q : Position) (used : List Nat)
    (hk : Keeps false base s) :
    Keeps false base (State.clearFrames s frames q used).1 := by
  unfold State.clearFrames
  try dsimp only
  repeat' first
    | with_reducible assumption | intro _ | with_reducible apply State.zeroUnit_keeps | with_reducible apply Keeps.ite
    | with_reducible apply Keeps.foldl | with_reducible apply Keeps.foldl_fst | split | with_reducible apply Keeps.ite_fst

theorem State.clearExt_keeps {base : State} {s : State} (e : Nat) (q : Position) (used : List Nat) (hk : Keeps false base s) :
    Keeps false base (State.clearExt s e q used).1 := by
  unfold State.clearExt
  try dsimp only
  repeat' first
    | with_reducible assumption | intro _ | with_reducible apply State.clearDone_keeps
    | with_reducible apply State.clearFar_keeps | with_reducible apply State.clearFrames_keeps
    | with_reducible apply Keeps.modExt | split | with_reducible apply Keeps.ite_fst

theorem State.initFar_keeps {base : State} {s : State} (q : Position) (used : List Nat) (hk : Keeps false base s) :
    Keeps false base (State.initFar s q used).1 := by
  unfold State.initFar
  try dsimp only
  repeat' first
    | with_reducible assumption | intro _ | with_reducible apply State.zeroUnit_keeps | with_reducible apply Keeps.modRas
    | with_reducible apply Keeps.ite | with_reducible apply Keeps.foldl | with_reducible apply Keeps.foldl_fst | split
    | with_reducible apply Keeps.ite_fst

theorem State.lateOne_keeps {still : Bool} {base : State} {s : State} (id : Nat) (hk : Keeps still base s) :
    Keeps still base (State.lateOne s id) := by
  unfold State.lateOne
  try dsimp only
  repeat' first
    | with_reducible assumption | intro _ | with_reducible apply State.finishReq_keeps | with_reducible apply State.pump_keeps
    | with_reducible apply Keeps.modReq | with_reducible apply Keeps.ite | split

end Sys2Proof.Machine
end

