-- ==== Sys2Proof/Laws/KeepScrub.lean ====
section
/-! SUPPORT. Every operation of Machine/Scrub.lean on the state keeps what `Keeps` names. -/

namespace Sys2Proof.Machine

theorem State.putWork_keeps {still : Bool} {base : State} {s : State} (i : Nat) (ws : List RasWork) (hk : Keeps still base s) :
    Keeps still base (State.putWork s i ws) := by
  unfold State.putWork
  try dsimp only
  repeat' first
    | with_reducible assumption | intro _ | with_reducible apply Keeps.modRas

theorem State.workRead_keeps {base : State} {s : State} (i : Nat) (w : RasWork) (q : Position) (errs : List CellError)
    (hk : Keeps false base s) :
    Keeps false base (State.workRead s i w q errs) := by
  unfold State.workRead
  try dsimp only
  repeat' first
    | with_reducible assumption | intro _ | with_reducible apply State.flipCells_keeps
    | with_reducible apply State.readUnits_keeps | with_reducible apply State.useRanks_keeps
    | with_reducible apply State.putWork_keeps | with_reducible apply Keeps.ite | split

theorem State.workPass_keeps {still : Bool} {base : State} {s : State} (q : Position) (used : List Nat) (write : Bool)
    (serve : State → Nat → RasWork → State) (hk : Keeps still base s)
    (hserve : ∀ s i w, Keeps still base s → Keeps still base (serve s i w)) : Keeps still base (State.workPass s q used write serve).1 := by
  unfold State.workPass
  refine Keeps.foldlOn (fun a : State × List Nat × Nat => a.1) (fun a _ ha => ?_) _ hk
  dsimp only
  split
  · exact ha
  · split <;> split
    · exact hserve _ _ _ ha
    · exact ha
    · exact hserve _ _ _ ha
    · exact ha

theorem State.workWrite_keeps {base : State} {s : State} (i : Nat) (w : RasWork) (q : Position) (hk : Keeps false base s) :
    Keeps false base (State.workWrite s i w q) := by
  unfold State.workWrite
  try dsimp only
  repeat' first
    | with_reducible assumption | intro _ | with_reducible apply State.writeUnit_keeps
    | with_reducible apply State.snapReads_keeps | with_reducible apply State.commitItem_keeps
    | with_reducible apply State.undamage_keeps | with_reducible apply State.useRanks_keeps
    | with_reducible apply State.putWork_keeps | with_reducible apply Keeps.modUmpire | with_reducible apply Keeps.ite
    | with_reducible apply Keeps.foldl | with_reducible apply Keeps.foldl_fst | split | exact rfl

theorem State.repaired_keeps {still : Bool} {base : State} {s : State} (e : Nat) (b : Nat) (hk : Keeps still base s) :
    Keeps still base (State.repaired s e b) := by
  unfold State.repaired
  try dsimp only
  repeat' first
    | with_reducible assumption | intro _ | with_reducible apply State.undamageKind_keeps
    | with_reducible apply State.finishReq_keeps | with_reducible apply Keeps.modExt | with_reducible apply Keeps.ite
    | with_reducible apply Keeps.foldl | with_reducible apply Keeps.foldl_fst | split

theorem State.diverge_keeps {still : Bool} {base : State} {s : State} (e : Nat) (b : Nat) (hk : Keeps still base s) :
    Keeps still base (State.diverge s e b) := by
  unfold State.diverge
  try dsimp only
  repeat' first
    | with_reducible assumption | intro _ | with_reducible apply State.setRasEvent_keeps
    | with_reducible apply State.sendEvts_keeps | with_reducible apply State.damageBlock_keeps
    | with_reducible apply Keeps.modRas | with_reducible apply Keeps.ite | split

theorem State.compareTwin_keeps {still : Bool} {base : State} {s : State} (l : Loc) (t : Loc) (hk : Keeps still base s) :
    Keeps still base (State.compareTwin s l t) := by
  unfold State.compareTwin
  try dsimp only
  repeat' first
    | with_reducible assumption | intro _ | with_reducible apply State.diverge_keeps | with_reducible apply Keeps.ite
    | with_reducible apply Keeps.foldl | with_reducible apply Keeps.foldl_fst | split

theorem State.checkStripe_keeps {still : Bool} {base : State} {s : State} (l : Loc) (at_ : Bool × Nat × Nat)
    (hk : Keeps still base s) :
    Keeps still base (State.checkStripe s l at_) := by
  unfold State.checkStripe
  try dsimp only
  repeat' first
    | with_reducible assumption | intro _ | with_reducible apply State.setRasEvent_keeps | with_reducible apply Keeps.modRas
    | with_reducible apply Keeps.ite | with_reducible apply Keeps.foldl | with_reducible apply Keeps.foldl_fst | split

theorem State.setPatrol_keeps {still : Bool} {base : State} {s : State} (t : Tier) (u : Nat) (p : Patrol)
    (hk : Keeps still base s) :
    Keeps still base (State.setPatrol s t u p) := by
  unfold State.setPatrol
  try dsimp only
  repeat' first
    | with_reducible assumption | intro _ | with_reducible apply Keeps.modRas | split

theorem State.scrubUnit_keeps {still : Bool} {base : State} {s : State} (l : Loc) (at_ : Bool × Nat × Nat)
    (hk : Keeps still base s) :
    Keeps still base (State.scrubUnit s l at_) := by
  unfold State.scrubUnit
  try dsimp only
  repeat' first
    | with_reducible assumption | intro _ | with_reducible apply State.recordCe_keeps
    | with_reducible apply State.foundBad_keeps | with_reducible apply State.enterSafe_keeps
    | with_reducible apply Keeps.modRas | with_reducible apply Keeps.ite | split

theorem State.stepDone_keeps {still : Bool} {base : State} {s : State} (t : Tier) (u : Nat) (owed : List (Loc × Loc))
    (hk : Keeps still base s) :
    Keeps still base (State.stepDone s t u owed) := by
  unfold State.stepDone
  try dsimp only
  repeat' first
    | with_reducible assumption | intro _ | with_reducible apply State.setPatrol_keeps | with_reducible apply Keeps.modRas
    | with_reducible apply Keeps.ite

theorem State.startPatrols_keeps {still : Bool} {base : State} {s : State} (hk : Keeps still base s) :
    Keeps still base (State.startPatrols s) := by
  unfold State.startPatrols
  try dsimp only
  repeat' first
    | with_reducible assumption | intro _ | with_reducible apply Keeps.modRas | with_reducible apply Keeps.ite

theorem State.passes_keeps {still : Bool} {base : State} {s0 : State} (hk : Keeps still base s0) :
    Keeps still base (State.passes s0) := by
  unfold State.passes
  try dsimp only
  repeat' first
    | with_reducible assumption | intro _ | with_reducible apply State.startPatrols_keeps | with_reducible apply Keeps.modRas
    | with_reducible apply Keeps.ite

theorem State.channelsFail_keeps {still : Bool} {base : State} {s : State} (hk : Keeps still base s) :
    Keeps still base (State.channelsFail s) := by
  unfold State.channelsFail
  try dsimp only
  repeat' first
    | with_reducible assumption | intro _ | with_reducible apply State.setRasEvent_keeps | with_reducible apply Keeps.modNor
    | with_reducible apply Keeps.modRas | with_reducible apply Keeps.setFar | with_reducible apply Keeps.ite

theorem State.resolve_keeps {still : Bool} {base : State} {s : State} (m : Mbx) (action : Nat) (hk : Keeps still base s) :
    Keeps still base (State.resolve s m action) := by
  unfold State.resolve
  try dsimp only
  repeat' first
    | with_reducible assumption | intro _ | with_reducible apply State.fail_keeps | with_reducible apply State.await_keeps
    | with_reducible apply Keeps.modUmpire | with_reducible apply Keeps.ite | split | exact rfl

theorem State.resolveAt_keeps {still : Bool} {base : State} {s : State} (e : Nat) (b : Nat) (action : Nat) (m : Mbx)
    (hk : Keeps still base s) :
    Keeps still base (State.resolveAt s e b action m) := by
  unfold State.resolveAt
  try dsimp only
  repeat' first
    | with_reducible assumption | intro _ | with_reducible apply State.markReady_keeps | with_reducible apply Keeps.modRas
    | with_reducible apply Keeps.ite

theorem State.dropExtWork_keeps {still : Bool} {base : State} {s : State} (e : Nat) (hk : Keeps still base s) :
    Keeps still base (State.dropExtWork s e) := by
  unfold State.dropExtWork
  try dsimp only
  repeat' first
    | with_reducible assumption | intro _ | with_reducible apply State.markReady_keeps
    | with_reducible apply State.resolve_keeps | with_reducible apply Keeps.modRas | with_reducible apply Keeps.foldl
    | with_reducible apply Keeps.foldl_fst | split

theorem State.scrubSet_keeps {still : Bool} {base : State} {s : State} (m : Mbx) (hk : Keeps still base s) :
    Keeps still base (State.scrubSet s m) := by
  unfold State.scrubSet
  try dsimp only
  repeat' first
    | with_reducible assumption | intro _ | with_reducible apply State.markReady_keeps | with_reducible apply Keeps.modRas
    | with_reducible apply Keeps.setFar | with_reducible apply Keeps.ite

end Sys2Proof.Machine
end

