-- ==== Sys2Proof/Laws/KeepSlots.lean ====
section
/-! SUPPORT. Every operation of Machine/Slots.lean on the state keeps what `Keeps` names. -/

namespace Sys2Proof.Machine

theorem State.framesStart_keeps {still : Bool} {base : State} {s : State} (p : Nat) (width : Nat) (hk : Keeps still base s) :
    Keeps still base (State.framesStart s p width) := by
  unfold State.framesStart
  try dsimp only
  repeat' first
    | with_reducible assumption | intro _ | with_reducible apply State.setSts_keeps | with_reducible apply State.setSlot_keeps
    | with_reducible apply Keeps.modPort

theorem State.stopOnPort_keeps {still : Bool} {base : State} {s : State} (p : Nat) (hk : Keeps still base s) :
    Keeps still base (State.stopOnPort s p) := by
  unfold State.stopOnPort
  try dsimp only
  repeat' first
    | with_reducible assumption | intro _ | with_reducible apply State.settle_keeps
    | with_reducible apply State.stopDesc_keeps | with_reducible apply Keeps.ite | with_reducible apply Keeps.foldl
    | with_reducible apply Keeps.foldl_fst | split

theorem State.drainAt_keeps {still : Bool} {base : State} {s : State} (p : Nat) (hk : Keeps still base s) :
    Keeps still base (State.drainAt s p) := by
  unfold State.drainAt
  try dsimp only
  repeat' first
    | with_reducible assumption | intro _ | with_reducible apply State.stopOnPort_keeps | with_reducible apply Keeps.modPort
    | with_reducible apply Keeps.ite

theorem State.slotCtl_keeps {still : Bool} {base : State} {s : State} (m : Mbx) (own : Nat → State → State)
    (hk : Keeps still base s) (hown : ∀ p s, Keeps still base s → Keeps still base (own p s)) :
    Keeps still base (State.slotCtl s m own) := by
  unfold State.slotCtl
  try dsimp only
  repeat' first
    | with_reducible assumption | intro _ | with_reducible apply hown | with_reducible apply State.fail_keeps
    | with_reducible apply Keeps.ite

theorem State.slotOk_keeps {still : Bool} {base : State} {s : State} (m : Mbx) (p : Nat) (hk : Keeps still base s) :
    Keeps still base (State.slotOk s m p) := by
  unfold State.slotOk
  try dsimp only
  repeat' first
    | with_reducible assumption | intro _ | with_reducible apply State.complete_keeps

theorem State.policySet_keeps {still : Bool} {base : State} {s : State} (p : Nat) (auto : Bool) (btn : Bool) (clr : Bool)
    (m : Mbx) (hk : Keeps still base s) :
    Keeps still base (State.policySet s p auto btn clr m) := by
  unfold State.policySet
  try dsimp only
  repeat' first
    | with_reducible assumption | intro _ | with_reducible apply State.markReady_keeps | with_reducible apply Keeps.modNor
    | with_reducible apply Keeps.modSlot

end Sys2Proof.Machine
end

