-- ==== Sys2Proof/Laws/KeepContexts.lean ====
section
/-! SUPPORT. Every operation of Machine/Contexts.lean on the state keeps what `Keeps` names. -/

namespace Sys2Proof.Machine

theorem State.attachPorts_keeps {still : Bool} {base : State} {s : State} (c : Nat) (mask : BitVec 6)
    (hk : Keeps still base s) :
    Keeps still base (State.attachPorts s c mask) := by
  unfold State.attachPorts
  try dsimp only
  repeat' first
    | with_reducible assumption | intro _ | with_reducible apply Keeps.modPort | with_reducible apply Keeps.foldl
    | with_reducible apply Keeps.foldl_fst

theorem State.newCtx_keeps {still : Bool} {base : State} {s : State} (c : Nat) (mask : BitVec 6) (seed : W64)
    (hk : Keeps still base s) :
    Keeps still base (State.newCtx s c mask seed) := by
  unfold State.newCtx
  try dsimp only
  repeat' first
    | with_reducible assumption | intro _ | with_reducible apply State.drewRandom_keeps
    | with_reducible apply State.attachPorts_keeps | with_reducible apply Keeps.setCtxs

theorem State.dropLeasesOf_keeps {still : Bool} {base : State} {s : State} (exts : Nat → Bool) (ports : BitVec 6)
    (hk : Keeps still base s) :
    Keeps still base (State.dropLeasesOf s exts ports) := by
  unfold State.dropLeasesOf
  try dsimp only
  repeat' first
    | with_reducible assumption | intro _ | with_reducible apply Keeps.setLeases | with_reducible apply Keeps.ite

theorem State.attachAt_keeps {still : Bool} {base : State} {s : State} (c : Nat) (hk : Keeps still base s) :
    Keeps still base (State.attachAt s c) := by
  unfold State.attachAt
  try dsimp only
  repeat' first
    | with_reducible assumption | intro _ | with_reducible apply State.attachPorts_keeps
    | with_reducible apply State.dropLeasesOf_keeps | with_reducible apply Keeps.modCtx | with_reducible apply Keeps.modPort
    | with_reducible apply Keeps.setExts | with_reducible apply Keeps.ite | with_reducible apply Keeps.foldl
    | with_reducible apply Keeps.foldl_fst | split

theorem State.holdPort_keeps {still : Bool} {base : State} {s : State} (p : Nat) (ended : Bool) (hk : Keeps still base s) :
    Keeps still base (State.holdPort s p ended).1 := by
  unfold State.holdPort
  try dsimp only
  repeat' first
    | with_reducible assumption | intro _ | with_reducible apply Keeps.modPort | with_reducible apply Keeps.ite
    | with_reducible apply Keeps.ite_fst

theorem State.attachGo_keeps {still : Bool} {base : State} {s : State} (c : Nat) (hk : Keeps still base s) :
    Keeps still base (State.attachGo s c) := by
  unfold State.attachGo
  try dsimp only
  repeat' first
    | with_reducible assumption | intro _ | with_reducible apply State.readyWaiter_keeps
    | with_reducible apply State.holdPort_keeps | with_reducible apply Keeps.modCtx | with_reducible apply Keeps.ite
    | with_reducible apply Keeps.foldl | with_reducible apply Keeps.foldl_fst | split

theorem State.endPinsOf_keeps {still : Bool} {base : State} {s : State} (e : Nat) (hk : Keeps still base s) :
    Keeps still base (State.endPinsOf s e) := by
  unfold State.endPinsOf
  try dsimp only
  repeat' first
    | with_reducible assumption | intro _ | with_reducible apply State.releasePin_keeps
    | with_reducible apply State.endPin_keeps | with_reducible apply Keeps.ite | with_reducible apply Keeps.foldl
    | with_reducible apply Keeps.foldl_fst

theorem State.stopDrafts_keeps {still : Bool} {base : State} {s : State} (c : Nat) (bound : List Nat)
    (hk : Keeps still base s) :
    Keeps still base (State.stopDrafts s c bound) := by
  unfold State.stopDrafts
  try dsimp only
  repeat' first
    | with_reducible assumption | intro _ | with_reducible apply State.markReady_keeps | with_reducible apply Keeps.modLoom
    | with_reducible apply Keeps.ite | with_reducible apply Keeps.foldl | with_reducible apply Keeps.foldl_fst | split

theorem State.dropKeys_keeps {still : Bool} {base : State} {s : State} (c : Nat) (x : Ctx) (hk : Keeps still base s) :
    Keeps still base (State.dropKeys s c x) := by
  unfold State.dropKeys
  try dsimp only
  repeat' first
    | with_reducible assumption | intro _ | with_reducible apply Keeps.modCtx | with_reducible apply Keeps.modExt
    | with_reducible apply Keeps.modPort | with_reducible apply Keeps.modUmpire | with_reducible apply Keeps.foldl
    | with_reducible apply Keeps.foldl_fst | exact rfl

theorem State.destroyGo_keeps {still : Bool} {base : State} {s : State} (c : Nat) (hk : Keeps still base s) :
    Keeps still base (State.destroyGo s c) := by
  unfold State.destroyGo
  try dsimp only
  repeat' first
    | with_reducible assumption | intro _ | with_reducible apply State.holdPort_keeps
    | with_reducible apply State.dropKeys_keeps | with_reducible apply Keeps.ite | with_reducible apply Keeps.foldl
    | with_reducible apply Keeps.foldl_fst | split

end Sys2Proof.Machine
end

