-- ==== Sys2Proof/Laws/KeepExtents.lean ====
section
/-! SUPPORT. Every operation of Machine/Extents.lean on the state keeps what `Keeps` names. -/

namespace Sys2Proof.Machine

theorem State.extRemove_keeps {still : Bool} {base : State} {s : State} (m : Mbx) (hk : Keeps still base s) :
    Keeps still base (State.extRemove s m) := by
  unfold State.extRemove
  try dsimp only
  repeat' first
    | with_reducible assumption | intro _ | with_reducible apply State.undamageExt_keeps
    | with_reducible apply State.complete_keeps | with_reducible apply State.fail_keeps | with_reducible apply Keeps.setExts
    | with_reducible apply Keeps.ite | split

theorem State.grantAt_keeps {still : Bool} {base : State} {s : State} (e : Nat) (c : Nat) (share : BitVec 6) (key : Option
    (List Byte)) (m : Mbx) (hk : Keeps still base s) :
    Keeps still base (State.grantAt s e c share key m) := by
  unfold State.grantAt
  try dsimp only
  repeat' first
    | with_reducible assumption | intro _ | with_reducible apply State.markReady_keeps | with_reducible apply Keeps.modExt
    | with_reducible apply Keeps.ite | split

theorem State.shareAt_keeps {still : Bool} {base : State} {s : State} (e : Nat) (share : BitVec 6) (hk : Keeps still base s) :
    Keeps still base (State.shareAt s e share) := by
  unfold State.shareAt
  try dsimp only
  repeat' first
    | with_reducible assumption | intro _ | with_reducible apply State.dropLeasesOf_keeps | with_reducible apply Keeps.modExt
    | with_reducible apply Keeps.ite | with_reducible apply Keeps.foldl | with_reducible apply Keeps.foldl_fst | split

theorem State.shareGo_keeps {still : Bool} {base : State} {s : State} (e : Nat) (hk : Keeps still base s) :
    Keeps still base (State.shareGo s e) := by
  unfold State.shareGo
  try dsimp only
  repeat' first
    | with_reducible assumption | intro _ | with_reducible apply State.readyWaiter_keeps | with_reducible apply Keeps.modExt
    | with_reducible apply Keeps.ite | split

theorem State.enterClearing_keeps {still : Bool} {base : State} {s : State} (e : Nat) (hk : Keeps still base s) :
    Keeps still base (State.enterClearing s e) := by
  unfold State.enterClearing
  try dsimp only
  repeat' first
    | with_reducible assumption | intro _ | with_reducible apply State.zorPages_keeps
    | with_reducible apply State.readyWaiter_keeps | with_reducible apply State.endLeases_keeps
    | with_reducible apply State.dropExtWork_keeps | with_reducible apply State.endPinsOf_keeps
    | with_reducible apply Keeps.modExt | with_reducible apply Keeps.modRas | split

theorem State.dropList_keeps {still : Bool} {base : State} {s : State} (g : Nat) (hk : Keeps still base s) :
    Keeps still base (State.dropList s g) := by
  unfold State.dropList
  try dsimp only
  repeat' first
    | with_reducible assumption | intro _ | with_reducible apply State.abortJob_keeps | with_reducible apply Keeps.modJob
    | with_reducible apply Keeps.setReqs | with_reducible apply Keeps.ite | split

theorem State.stopOnExt_keeps {still : Bool} {base : State} {s : State} (e : Nat) (hk : Keeps still base s) :
    Keeps still base (State.stopOnExt s e) := by
  unfold State.stopOnExt
  try dsimp only
  repeat' first
    | with_reducible assumption | intro _ | with_reducible apply State.settle_keeps
    | with_reducible apply State.stopDesc_keeps | with_reducible apply State.abortJob_keeps
    | with_reducible apply State.dropList_keeps | with_reducible apply Keeps.ite | with_reducible apply Keeps.foldl
    | with_reducible apply Keeps.foldl_fst | split

theorem State.clearAt_keeps {still : Bool} {base : State} {s : State} (e : Nat) (m : Mbx) (hk : Keeps still base s) :
    Keeps still base (State.clearAt s e m) := by
  unfold State.clearAt
  try dsimp only
  repeat' first
    | with_reducible assumption | intro _ | with_reducible apply State.zorPages_keeps
    | with_reducible apply State.markReady_keeps | with_reducible apply Keeps.modExt | with_reducible apply Keeps.modRas
    | with_reducible apply Keeps.ite | split

theorem State.sealRefuse_keeps {still : Bool} {base : State} {s : State} (m : Mbx) (st : Nat) (n : Nat)
    (hk : Keeps still base s) :
    Keeps still base (State.sealRefuse s m st n) := by
  unfold State.sealRefuse
  try dsimp only
  repeat' first
    | with_reducible assumption | intro _ | with_reducible apply State.complete_keeps | with_reducible apply Keeps.ite

theorem State.sealGo_keeps {still : Bool} {base : State} {s : State} (e : Nat) (hk : Keeps still base s) :
    Keeps still base (State.sealGo s e) := by
  unfold State.sealGo
  try dsimp only
  repeat' first
    | with_reducible assumption | intro _ | with_reducible apply State.readyWaiter_keeps | with_reducible apply Keeps.modExt
    | with_reducible apply Keeps.modUmpire | with_reducible apply Keeps.ite | split | exact rfl

end Sys2Proof.Machine
end

