-- ==== Sys2Proof/Laws/KeepAccess.lean ====
section
/-! SUPPORT. Every operation of Machine/Access.lean on the state keeps what `Keeps` names. -/

namespace Sys2Proof.Machine

theorem State.aptCtl_keeps {still : Bool} {base : State} {s : State} (m : Mbx) (own : Nat → State → State)
    (hk : Keeps still base s) (hown : ∀ p s, Keeps still base s → Keeps still base (own p s)) :
    Keeps still base (State.aptCtl s m own) := by
  unfold State.aptCtl
  try dsimp only
  repeat' first
    | with_reducible assumption | intro _ | with_reducible apply hown | with_reducible apply State.fail_keeps
    | with_reducible apply Keeps.ite

theorem State.storeApts_keeps {still : Bool} {base : State} {s : State} (p : Nat) (hk : Keeps still base s) :
    Keeps still base (State.storeApts s p) := by
  unfold State.storeApts
  try dsimp only
  repeat' first
    | with_reducible assumption | intro _ | with_reducible apply Keeps.modNor

theorem State.switchGo_keeps {still : Bool} {base : State} {s : State} (p : Nat) (hk : Keeps still base s) :
    Keeps still base (State.switchGo s p) := by
  unfold State.switchGo
  try dsimp only
  repeat' first
    | with_reducible assumption | intro _ | with_reducible apply State.readyWaiter_keeps
    | with_reducible apply State.storeApts_keeps | with_reducible apply Keeps.modPort | with_reducible apply Keeps.ite | split

theorem State.leaseAtBoundary_keeps {still : Bool} {base : State} {s : State} (n : Nat) (m : Mbx) (hk : Keeps still base s) :
    Keeps still base (State.leaseAtBoundary s n m) := by
  unfold State.leaseAtBoundary
  try dsimp only
  repeat' first
    | with_reducible assumption | intro _ | with_reducible apply State.markReady_keeps

theorem State.dropsGo_keeps {still : Bool} {base : State} {s : State} (hk : Keeps still base s) :
    Keeps still base (State.dropsGo s) := by
  unfold State.dropsGo
  try dsimp only
  repeat' first
    | with_reducible assumption | intro _ | with_reducible apply State.readyWaiter_keeps
    | with_reducible apply Keeps.setLeases | with_reducible apply Keeps.ite | with_reducible apply Keeps.foldl
    | with_reducible apply Keeps.foldl_fst

theorem State.resolveLease_keeps {still : Bool} {base : State} {s : State} (n : Nat) (zero : Bool) (m : Mbx)
    (hk : Keeps still base s) :
    Keeps still base (State.resolveLease s n zero m) := by
  unfold State.resolveLease
  try dsimp only
  repeat' first
    | with_reducible assumption | intro _ | with_reducible apply State.zorPage_keeps
    | with_reducible apply State.markReady_keeps | with_reducible apply Keeps.modExt | with_reducible apply Keeps.setLeases
    | with_reducible apply Keeps.ite | with_reducible apply Keeps.foldl | with_reducible apply Keeps.foldl_fst | split

theorem State.unpinAt_keeps {still : Bool} {base : State} {s : State} (n : Nat) (m : Mbx) (hk : Keeps still base s) :
    Keeps still base (State.unpinAt s n m) := by
  unfold State.unpinAt
  try dsimp only
  repeat' first
    | with_reducible assumption | intro _ | with_reducible apply State.markReady_keeps
    | with_reducible apply State.releasePin_keeps | with_reducible apply State.endPin_keeps | with_reducible apply Keeps.ite
    | split

theorem State.policyBoundary_keeps {still : Bool} {base : State} {s : State} (hk : Keeps still base s) :
    Keeps still base (State.policyBoundary s) := by
  unfold State.policyBoundary
  try dsimp only
  repeat' first
    | with_reducible assumption | intro _ | with_reducible apply State.markReady_keeps | with_reducible apply Keeps.modNor
    | with_reducible apply Keeps.modTier | with_reducible apply Keeps.ite | with_reducible apply Keeps.foldl
    | with_reducible apply Keeps.foldl_fst | split

theorem State.promoteAt_keeps {still : Bool} {base : State} {s : State} (e : Nat) (en : Bool) (m : Mbx)
    (hk : Keeps still base s) :
    Keeps still base (State.promoteAt s e en m) := by
  unfold State.promoteAt
  try dsimp only
  repeat' first
    | with_reducible assumption | intro _ | with_reducible apply State.markReady_keeps | with_reducible apply Keeps.modExt
    | split

end Sys2Proof.Machine
end

