-- ==== Sys2Proof/Laws/KeepJobs.lean ====
section
/-! SUPPORT. Every operation of Machine/Jobs.lean on the state keeps what `Keeps` names. -/

namespace Sys2Proof.Machine

theorem State.issueRead_keeps {still : Bool} {base : State} {s : State} (e : Nat) (j : Nat) (addr : Nat)
    (hk : Keeps still base s) :
    Keeps still base (State.issueRead s e j addr) := by
  unfold State.issueRead
  try dsimp only
  repeat' first
    | with_reducible assumption | intro _ | with_reducible apply State.countAccess_keeps
    | with_reducible apply State.addReq_keeps | with_reducible apply State.pump_keeps | with_reducible apply Keeps.modCur
    | with_reducible apply Keeps.ite | split

theorem State.poolBytes_keeps {still : Bool} {base : State} {s : State} (addr : Nat) (len : Nat) (hk : Keeps still base s) :
    Keeps still base (State.poolBytes s addr len).1 := by
  unfold State.poolBytes
  try dsimp only
  repeat' first
    | with_reducible assumption | intro _ | with_reducible apply State.bytesNow_keeps
    | with_reducible apply State.countBlocks_keeps | split | with_reducible apply Keeps.ite_fst

theorem State.boltDone_keeps {still : Bool} {base : State} {s : State} (e : Nat) (b : BoltJob) (st : Nat) (step : Nat)
    (hk : Keeps still base s) :
    Keeps still base (State.boltDone s e b st step) := by
  unfold State.boltDone
  try dsimp only
  repeat' first
    | with_reducible assumption | intro _ | with_reducible apply State.freeEngine_keeps | with_reducible apply Keeps.modExt

theorem State.boltSpoiled_keeps {still : Bool} {base : State} {s : State} (b : BoltJob) (hk : Keeps still base s) :
    Keeps still base (State.boltSpoiled s b) := by
  unfold State.boltSpoiled
  try dsimp only
  repeat' first
    | with_reducible assumption | intro _ | with_reducible apply State.zorPages_keeps | with_reducible apply Keeps.modExt
    | with_reducible apply Keeps.modRas | with_reducible apply Keeps.ite | split

theorem State.boltAborted_keeps {still : Bool} {base : State} {s : State} (e : Nat) (b : BoltJob) (hk : Keeps still base s) :
    Keeps still base (State.boltAborted s e b) := by
  unfold State.boltAborted
  try dsimp only
  repeat' first
    | with_reducible assumption | intro _ | with_reducible apply State.boltDone_keeps
    | with_reducible apply State.boltSpoiled_keeps | with_reducible apply Keeps.ite

theorem State.boltFetch_keeps {still : Bool} {base : State} {s : State} (e : Nat) (n : Nat) (hk : Keeps still base s) :
    Keeps still base (State.boltFetch s e n) := by
  unfold State.boltFetch
  try dsimp only
  repeat' first
    | with_reducible assumption | intro _ | with_reducible apply State.countAccess_keeps
    | with_reducible apply State.addReq_keeps | with_reducible apply State.modBolt_keeps
    | with_reducible apply State.boltFetched_keeps | with_reducible apply Keeps.ite | split

theorem State.boltStore_keeps {still : Bool} {base : State} {s : State} (e : Nat) (ext : Nat) (n : Nat) (data : List Byte)
    (hk : Keeps still base s) :
    Keeps still base (State.boltStore s e ext n data) := by
  unfold State.boltStore
  try dsimp only
  repeat' first
    | with_reducible assumption | intro _ | with_reducible apply State.countAccess_keeps
    | with_reducible apply State.addReq_keeps | with_reducible apply State.modBolt_keeps
    | with_reducible apply State.boltWrote_keeps | with_reducible apply Keeps.ite | split

theorem State.boltOpen_keeps {still : Bool} {base : State} {s : State} (e : Nat) (b : BoltJob) (hk : Keeps still base s) :
    Keeps still base (State.boltOpen s e b) := by
  unfold State.boltOpen
  try dsimp only
  repeat' first
    | with_reducible assumption | intro _ | with_reducible apply State.modBolt_keeps
    | with_reducible apply State.boltDone_keeps | with_reducible apply Keeps.ite | split

theorem State.boltUnwrap_keeps {still : Bool} {base : State} {s : State} (e : Nat) (b : BoltJob) (hk : Keeps still base s) :
    Keeps still base (State.boltUnwrap s e b) := by
  unfold State.boltUnwrap
  try dsimp only
  repeat' first
    | with_reducible assumption | intro _ | with_reducible apply State.modBolt_keeps
    | with_reducible apply State.boltDone_keeps | split

theorem State.boltOpenChunk_keeps {still : Bool} {base : State} {s : State} (e : Nat) (b : BoltJob) (hk : Keeps still base s) :
    Keeps still base (State.boltOpenChunk s e b) := by
  unfold State.boltOpenChunk
  try dsimp only
  repeat' first
    | with_reducible assumption | intro _ | with_reducible apply State.modBolt_keeps
    | with_reducible apply State.boltDone_keeps | with_reducible apply State.boltSpoiled_keeps
    | with_reducible apply Keeps.ite | split

theorem State.boltVerify_keeps {still : Bool} {base : State} {s : State} (e : Nat) (b : BoltJob) (hk : Keeps still base s) :
    Keeps still base (State.boltVerify s e b) := by
  unfold State.boltVerify
  try dsimp only
  repeat' first
    | with_reducible assumption | intro _ | with_reducible apply State.boltDone_keeps
    | with_reducible apply State.boltSpoiled_keeps | with_reducible apply Keeps.modExt | with_reducible apply Keeps.ite
    | split

theorem State.boltAct_keeps {still : Bool} {base : State} {s : State} (e : Nat) (b : BoltJob) (hk : Keeps still base s) :
    Keeps still base (State.boltAct s e b) := by
  unfold State.boltAct
  try dsimp only
  repeat' first
    | with_reducible assumption | intro _ | with_reducible apply State.boltOpen_keeps
    | with_reducible apply State.boltUnwrap_keeps | with_reducible apply State.boltOpenChunk_keeps
    | with_reducible apply State.boltVerify_keeps | with_reducible apply Keeps.ite

theorem State.boltTurn_keeps {still : Bool} {base : State} {s : State} (e : Nat) (b : BoltJob) (hk : Keeps still base s) :
    Keeps still base (State.boltTurn s e b) := by
  unfold State.boltTurn
  try dsimp only
  repeat' first
    | with_reducible assumption | intro _ | with_reducible apply State.pump_keeps | with_reducible apply State.boltDone_keeps
    | with_reducible apply State.boltSpoiled_keeps | with_reducible apply State.boltFetch_keeps
    | with_reducible apply State.boltStore_keeps | with_reducible apply State.boltAct_keeps | with_reducible apply Keeps.ite
    | with_reducible apply Keeps.foldl | with_reducible apply Keeps.foldl_fst | split

theorem State.boltsGo_keeps {still : Bool} {base : State} {s : State} (hk : Keeps still base s) :
    Keeps still base (State.boltsGo s) := by
  unfold State.boltsGo
  try dsimp only
  repeat' first
    | with_reducible assumption | intro _ | with_reducible apply State.boltAborted_keeps | with_reducible apply Keeps.ite
    | with_reducible apply Keeps.foldl | with_reducible apply Keeps.foldl_fst | split

end Sys2Proof.Machine
end

