-- ==== Sys2Proof/Laws/KeepLoomRun.lean ====
section
/-! SUPPORT. Every operation of Machine/LoomRun.lean on the state keeps what `Keeps` names. -/

namespace Sys2Proof.Machine

theorem State.modDraft_keeps {still : Bool} {base : State} {s : State} (h : Nat) (f : Draft → Draft) (hk : Keeps still base s) :
    Keeps still base (State.modDraft s h f) := by
  unfold State.modDraft
  try dsimp only
  repeat' first
    | with_reducible assumption | intro _ | with_reducible apply Keeps.modLoom

theorem State.readyStop_keeps {still : Bool} {base : State} {s : State} (h : Nat) (hk : Keeps still base s) :
    Keeps still base (State.readyStop s h) := by
  unfold State.readyStop
  try dsimp only
  repeat' first
    | with_reducible assumption | intro _ | with_reducible apply State.markReady_keeps | with_reducible apply Keeps.foldl
    | with_reducible apply Keeps.foldl_fst | split

theorem State.cancelStart_keeps {still : Bool} {base : State} {s : State} (h : Nat) (hk : Keeps still base s) :
    Keeps still base (State.cancelStart s h) := by
  unfold State.cancelStart
  try dsimp only
  repeat' first
    | with_reducible assumption | intro _ | with_reducible apply State.markReady_keeps
    | with_reducible apply State.modDraft_keeps | with_reducible apply Keeps.ite | split

theorem State.haltDraft_keeps {still : Bool} {base : State} {s : State} (h : Nat) (cause : HaltCause)
    (hk : Keeps still base s) :
    Keeps still base (State.haltDraft s h cause) := by
  unfold State.haltDraft
  try dsimp only
  repeat' first
    | with_reducible assumption | intro _ | with_reducible apply State.modDraft_keeps
    | with_reducible apply State.readyStop_keeps

theorem State.overrunNow_keeps {still : Bool} {base : State} {s : State} (cause : Nat) (hk : Keeps still base s) :
    Keeps still base (State.overrunNow s cause) := by
  unfold State.overrunNow
  try dsimp only
  repeat' first
    | with_reducible assumption | intro _ | with_reducible apply Keeps.modLoom | with_reducible apply Keeps.ite | split

theorem State.rebase_keeps {still : Bool} {base : State} {s : State} (l : Loc) (hk : Keeps still base s) :
    Keeps still base (State.rebase s l) := by
  unfold State.rebase
  try dsimp only
  repeat' first
    | with_reducible assumption | intro _ | with_reducible apply State.advance_keeps | with_reducible apply Keeps.modReq
    | with_reducible apply Keeps.ite | with_reducible apply Keeps.foldl | with_reducible apply Keeps.foldl_fst | split

theorem State.dropUnit_keeps {still : Bool} {base : State} {s : State} (l : Loc) (hk : Keeps still base s) :
    Keeps still base (State.dropUnit s l) := by
  unfold State.dropUnit
  try dsimp only
  repeat' first
    | with_reducible assumption | intro _ | with_reducible apply Keeps.modRas

theorem State.loomWrite_keeps {base : State} {s : State} (a : LoomAcc) (hk : Keeps false base s) :
    Keeps false base (State.loomWrite s a) := by
  unfold State.loomWrite
  try dsimp only
  repeat' first
    | with_reducible assumption | intro _ | with_reducible apply State.modPage_keeps
    | with_reducible apply State.commitItem_keeps | with_reducible apply State.touch_keeps
    | with_reducible apply State.endFill_keeps | with_reducible apply State.becomeVisible_keeps
    | with_reducible apply State.rebase_keeps | with_reducible apply State.dropUnit_keeps | with_reducible apply Keeps.modExt
    | with_reducible apply Keeps.modLoom | with_reducible apply Keeps.modTier | with_reducible apply Keeps.ite
    | with_reducible apply Keeps.foldl | with_reducible apply Keeps.foldl_fst | split

theorem State.loomRead_keeps {still : Bool} {base : State} {s : State} (a : LoomAcc) (hk : Keeps still base s) :
    Keeps still base (State.loomRead s a) := by
  unfold State.loomRead
  try dsimp only
  repeat' first
    | with_reducible assumption | intro _ | with_reducible apply State.deliver_keeps | with_reducible apply State.touch_keeps
    | with_reducible apply State.malformedAt_keeps | with_reducible apply State.overrunNow_keeps
    | with_reducible apply Keeps.modLoom | with_reducible apply Keeps.ite | with_reducible apply Keeps.foldl
    | with_reducible apply Keeps.foldl_fst | split

theorem State.loomPosition_keeps {base : State} {s : State} (sec : Nat) (pos : Nat) (hk : Keeps false base s) :
    Keeps false base (State.loomPosition s sec pos) := by
  unfold State.loomPosition
  try dsimp only
  repeat' first
    | with_reducible assumption | intro _ | with_reducible apply State.loomWrite_keeps | with_reducible apply Keeps.modLoom
    | with_reducible apply Keeps.ite | with_reducible apply Keeps.foldl | with_reducible apply Keeps.foldl_fst | split

theorem State.loomFlush_keeps {base : State} {s : State} (hk : Keeps false base s) :
    Keeps false base (State.loomFlush s) := by
  unfold State.loomFlush
  try dsimp only
  repeat' first
    | with_reducible assumption | intro _ | with_reducible apply State.loomRead_keeps
    | with_reducible apply State.loomPosition_keeps | with_reducible apply Keeps.modLoom | with_reducible apply Keeps.foldl
    | with_reducible apply Keeps.foldl_fst

theorem State.sealPush_keeps {still : Bool} {base : State} {s : State} (x : LoomPush) (hk : Keeps still base s) :
    Keeps still base (State.sealPush s x).1 := by
  unfold State.sealPush
  try dsimp only
  repeat' first
    | with_reducible assumption | intro _ | with_reducible apply Keeps.modPort | with_reducible apply Keeps.ite | split
    | with_reducible apply Keeps.ite_fst

theorem State.pushesDepart_keeps {still : Bool} {base : State} {s : State} (hk : Keeps still base s) :
    Keeps still base (State.pushesDepart s) := by
  unfold State.pushesDepart
  try dsimp only
  repeat' first
    | with_reducible assumption | intro _ | with_reducible apply State.overrunNow_keeps
    | with_reducible apply State.sealPush_keeps | with_reducible apply Keeps.modLoom | with_reducible apply Keeps.ite
    | with_reducible apply Keeps.foldl | with_reducible apply Keeps.foldl_fst | split

theorem IssueAcc.sin_keeps {still : Bool} {base : State} (d : Draft) (b : Nat) (gated : Bool) {i : IssueAcc} (c : StreamCmd)
    (hk : Keeps still base i.s) :
    Keeps still base (IssueAcc.sin d b gated i c).s := by
  unfold IssueAcc.sin
  try dsimp only
  repeat' first
    | with_reducible assumption | intro _ | with_reducible apply Keeps.ite

theorem IssueAcc.sout_keeps {still : Bool} {base : State} (d : Draft) (b : Nat) (bobbin : Mem) (gated : Bool) (poison : Bool)
    {i : IssueAcc} (c : StreamCmd) (hk : Keeps still base i.s) :
    Keeps still base (IssueAcc.sout d b bobbin gated poison i c).s := by
  unfold IssueAcc.sout
  try dsimp only
  repeat' first
    | with_reducible assumption | intro _ | with_reducible apply Keeps.ite

theorem IssueAcc.push_keeps {still : Bool} {base : State} (d : Draft) (bobbin : Mem) (gated : Bool) {i : IssueAcc}
    (c : PushCmd) (hk : Keeps still base i.s) :
    Keeps still base (IssueAcc.push d bobbin gated i c).s := by
  unfold IssueAcc.push
  try dsimp only
  repeat' first
    | with_reducible assumption | intro _ | with_reducible apply Keeps.ite

theorem IssueAcc.bay_keeps {still : Bool} {base : State} (d : Draft) (h : Nat) (seed : W64) (n : W64) {i : IssueAcc} (b : Nat)
    (hk : Keeps still base i.s) : Keeps still base (IssueAcc.bay d h seed n i b).s := by
  unfold IssueAcc.bay
  dsimp only
  have hin := fun (l : List StreamCmd) g (a : IssueAcc) (ha : Keeps still base a.s) =>
    Keeps.foldlOn IssueAcc.s (f := IssueAcc.sin d b g) (fun a x ha => IssueAcc.sin_keeps d b g x ha) l ha
  have hout := fun (l : List StreamCmd) m g p (a : IssueAcc) (ha : Keeps still base a.s) =>
    Keeps.foldlOn IssueAcc.s (f := IssueAcc.sout d b m g p) (fun a x ha => IssueAcc.sout_keeps d b m g p x ha) l ha
  split
  · exact IssueAcc.push_keeps _ _ _ _ (hout _ _ _ _ _ (hin _ _ _
      (State.modDraft_keeps _ _ (((hk.setFreeCount _).modRas _).modLoom _))))
  · exact hout _ _ _ _ _ (hin _ _ _ (State.modDraft_keeps _ _ (((hk.setFreeCount _).modRas _).modLoom _)))

theorem IssueAcc.replay_keeps {still : Bool} {base : State} (d : Draft) (n : W64) {i : IssueAcc} (b : Nat)
    (hk : Keeps still base i.s) :
    Keeps still base (IssueAcc.replay d n i b).s := by
  unfold IssueAcc.replay
  exact Keeps.foldlOn IssueAcc.s (fun a x ha => IssueAcc.sout_keeps d b _ _ _ x ha) _
    (Keeps.foldlOn IssueAcc.s (fun a x ha => IssueAcc.sin_keeps d b _ x ha) _ hk)

theorem State.issueWord_keeps {still : Bool} {base : State} {s : State} (h : Nat) (d : Draft) (hk : Keeps still base s) :
    Keeps still base (State.issueWord s h d) := by
  unfold State.issueWord
  dsimp only
  have hf := fun seed (a : IssueAcc) (ha : Keeps still base a.s) => Keeps.foldlOn IssueAcc.s
    (f := IssueAcc.bay d h seed s.time.beat) (fun a x ha => IssueAcc.bay_keeps d h seed s.time.beat x ha) d.bayList ha
  have h1 := fun seed => hf seed { s := s, taken := d.pos.taken, progress := d.pos.progress } hk
  apply Keeps.modLoom
  apply State.modDraft_keeps
  repeat' first
    | with_reducible exact h1 _
    | with_reducible apply State.overrunNow_keeps
    | with_reducible apply Keeps.ite

theorem State.replayWord_keeps {still : Bool} {base : State} {s : State} (h : Nat) (d : Draft) (hk : Keeps still base s) :
    Keeps still base (State.replayWord s h d) := by
  unfold State.replayWord
  try dsimp only
  repeat' first
    | with_reducible assumption | intro _ | with_reducible apply State.advance_keeps
    | with_reducible apply State.modDraft_keeps | with_reducible apply IssueAcc.replay_keeps
    | with_reducible apply Keeps.modLoom | with_reducible apply Keeps.foldl | with_reducible apply Keeps.foldl_fst

theorem State.engineResetNow_keeps {still : Bool} {base : State} {s : State} (hk : Keeps still base s) :
    Keeps still base (State.engineResetNow s) := by
  unfold State.engineResetNow
  try dsimp only
  repeat' first
    | with_reducible assumption | intro _ | with_reducible apply State.modDraft_keeps
    | with_reducible apply State.cancelStart_keeps | with_reducible apply State.haltDraft_keeps
    | with_reducible apply State.overrunNow_keeps | with_reducible apply Keeps.modLoom | with_reducible apply Keeps.ite
    | with_reducible apply Keeps.foldl | with_reducible apply Keeps.foldl_fst | split

theorem State.braceLoom_keeps {still : Bool} {base : State} {s : State} (hk : Keeps still base s) :
    Keeps still base (State.braceLoom s) := by
  unfold State.braceLoom
  try dsimp only
  repeat' first
    | with_reducible assumption | intro _ | with_reducible apply State.modDraft_keeps
    | with_reducible apply State.haltDraft_keeps | with_reducible apply State.overrunNow_keeps
    | with_reducible apply Keeps.modLoom | with_reducible apply Keeps.ite | with_reducible apply Keeps.foldl
    | with_reducible apply Keeps.foldl_fst

theorem State.loomStart_keeps {still : Bool} {base : State} {s : State} (hk : Keeps still base s) :
    Keeps still base (State.loomStart s) := by
  unfold State.loomStart
  try dsimp only
  repeat' first
    | with_reducible assumption | intro _ | with_reducible apply State.pushesDepart_keeps
    | with_reducible apply State.issueWord_keeps | with_reducible apply State.replayWord_keeps
    | with_reducible apply State.engineResetNow_keeps | with_reducible apply State.braceLoom_keeps
    | with_reducible apply Keeps.modLoom | with_reducible apply Keeps.ite | split

theorem State.loomEnd_keeps {base : State} {s : State} (hk : Keeps false base s) :
    Keeps false base (State.loomEnd s) := by
  unfold State.loomEnd
  try dsimp only
  repeat' first
    | with_reducible assumption | intro _ | with_reducible apply State.modDraft_keeps
    | with_reducible apply State.readyStop_keeps | with_reducible apply State.loomFlush_keeps
    | with_reducible apply Keeps.modLoom | with_reducible apply Keeps.ite | split

theorem State.endRecovery_keeps {still : Bool} {base : State} {s : State} (h : Nat) (hk : Keeps still base s) :
    Keeps still base (State.endRecovery s h) := by
  unfold State.endRecovery
  try dsimp only
  repeat' first
    | with_reducible assumption | intro _ | with_reducible apply State.sendEvts_keeps
    | with_reducible apply State.haltDraft_keeps | with_reducible apply Keeps.ite | split

theorem State.loomBeatEnds_keeps {still : Bool} {base : State} {s : State} (hk : Keeps still base s) :
    Keeps still base (State.loomBeatEnds s) := by
  unfold State.loomBeatEnds
  try dsimp only
  repeat' first
    | with_reducible assumption | intro _ | with_reducible apply State.haltDraft_keeps
    | with_reducible apply State.endRecovery_keeps | with_reducible apply Keeps.modLoom | with_reducible apply Keeps.ite
    | with_reducible apply Keeps.foldl | with_reducible apply Keeps.foldl_fst | split

theorem State.startDraft_keeps {still : Bool} {base : State} {s : State} (h : Nat) (n : W64) (hk : Keeps still base s) :
    Keeps still base (State.startDraft s h n) := by
  unfold State.startDraft
  try dsimp only
  repeat' first
    | with_reducible assumption | intro _ | with_reducible apply State.markReady_keeps
    | with_reducible apply State.modDraft_keeps | with_reducible apply Keeps.ite | split

theorem State.loomBeat_keeps {still : Bool} {base : State} {s : State} (hk : Keeps still base s) :
    Keeps still base (State.loomBeat s) := by
  unfold State.loomBeat
  try dsimp only
  repeat' first
    | with_reducible assumption | intro _ | with_reducible apply State.modDraft_keeps
    | with_reducible apply State.loomBeatEnds_keeps | with_reducible apply State.startDraft_keeps
    | with_reducible apply Keeps.modLoom | with_reducible apply Keeps.ite | with_reducible apply Keeps.foldl
    | with_reducible apply Keeps.foldl_fst | split

end Sys2Proof.Machine
end

