-- ==== Sys2Proof/Laws/KeepSync.lean ====
section
/-! SUPPORT. Every operation of Machine/Sync.lean on the state keeps what `Keeps` names. -/

namespace Sys2Proof.Machine

theorem State.countMiss_keeps {still : Bool} {base : State} {s : State} (sy : Option (Sym × Bool)) (hk : Keeps still base s) :
    Keeps still base (State.countMiss s sy) := by
  unfold State.countMiss
  try dsimp only
  repeat' first
    | with_reducible assumption | intro _ | with_reducible apply Keeps.modTime | with_reducible apply Keeps.ite | split
    | exact ⟨rfl, rfl, rfl⟩

theorem State.enterFree_keeps {still : Bool} {base : State} {s : State} (hk : Keeps still base s) :
    Keeps still base (State.enterFree s) := by
  unfold State.enterFree
  try dsimp only
  repeat' first
    | with_reducible assumption | intro _ | with_reducible apply Keeps.modTime | exact ⟨rfl, rfl, rfl⟩

theorem State.startAcquiring_keeps {still : Bool} {base : State} {s : State} (cycle : Nat) (hk : Keeps still base s) :
    Keeps still base (State.startAcquiring s cycle) := by
  unfold State.startAcquiring
  try dsimp only
  repeat' first
    | with_reducible assumption | intro _ | with_reducible apply Keeps.modTime | exact ⟨rfl, rfl, rfl⟩

theorem State.acquire_keeps {still : Bool} {base : State} {s : State} (cycle : Nat) (sy : Option (Sym × Bool))
    (hk : Keeps still base s) :
    Keeps still base (State.acquire s cycle sy) := by
  unfold State.acquire
  try dsimp only
  repeat' first
    | with_reducible assumption | intro _ | with_reducible apply State.enterFree_keeps
    | with_reducible apply State.startAcquiring_keeps | with_reducible apply Keeps.modTime | with_reducible apply Keeps.ite
    | split | exact ⟨rfl, rfl, rfl⟩

theorem State.markerFail_keeps {still : Bool} {base : State} {s : State} (hk : Keeps still base s) :
    Keeps still base (State.markerFail s) := by
  unfold State.markerFail
  try dsimp only
  repeat' first
    | with_reducible assumption | intro _ | with_reducible apply Keeps.modTime | with_reducible apply Keeps.ite
    | exact ⟨rfl, rfl, rfl⟩

theorem State.markerPass_keeps {still : Bool} {base : State} {s : State} (hk : Keeps still base s) :
    Keeps still base (State.markerPass s) := by
  unfold State.markerPass
  try dsimp only
  repeat' first
    | with_reducible assumption | intro _ | with_reducible apply Keeps.modTime | exact ⟨rfl, rfl, rfl⟩

theorem State.syncNotice_keeps {still : Bool} {base : State} {s : State} (old : State) (hk : Keeps still base s) :
    Keeps still base (State.syncNotice s old) := by
  unfold State.syncNotice
  try dsimp only
  repeat' first
    | with_reducible assumption | intro _ | with_reducible apply State.setEvent_keeps | with_reducible apply Keeps.ite

theorem State.setMode_keeps {still : Bool} {base : State} {s : State} (master : Bool) (hk : Keeps still base s) :
    Keeps still base (State.setMode s master) := by
  unfold State.setMode
  try dsimp only
  repeat' first
    | with_reducible assumption | intro _ | with_reducible apply State.enterFree_keeps | with_reducible apply Keeps.modTime
    | with_reducible apply Keeps.ite | exact ⟨rfl, rfl, rfl⟩

theorem State.beatCfgBoundary_keeps {still : Bool} {base : State} {s : State} (loaded : Bool) (hk : Keeps still base s) :
    Keeps still base (State.beatCfgBoundary s loaded) := by
  unfold State.beatCfgBoundary
  try dsimp only
  repeat' first
    | with_reducible assumption | intro _ | with_reducible apply State.markReady_keeps
    | with_reducible apply State.syncNotice_keeps | with_reducible apply State.setMode_keeps
    | with_reducible apply Keeps.modNor | with_reducible apply Keeps.modTime | with_reducible apply Keeps.ite | split
    | exact ⟨rfl, rfl, rfl⟩

theorem State.planBoundary_keeps {still : Bool} {base : State} {s : State} (loaded : Bool) (recovery : Bool)
    (hk : Keeps still base s) :
    Keeps still base (State.planBoundary s loaded recovery) := by
  unfold State.planBoundary
  try dsimp only
  repeat' first
    | with_reducible assumption | intro _ | with_reducible apply State.markReady_keeps | with_reducible apply Keeps.modNor
    | with_reducible apply Keeps.modTie | with_reducible apply Keeps.ite | split

theorem State.beatOutPulse_keeps {still : Bool} {base : State} {s : State} (hk : Keeps still base s) :
    Keeps still base (State.beatOutPulse s) := by
  unfold State.beatOutPulse
  try dsimp only
  repeat' first
    | with_reducible assumption | intro _ | with_reducible apply Keeps.modTime | with_reducible apply Keeps.ite
    | exact ⟨rfl, rfl, rfl⟩

theorem State.countBeat_keeps {still : Bool} {base : State} {s : State} (hk : Keeps still base s) :
    Keeps still base (State.countBeat s).1 := by
  unfold State.countBeat
  try dsimp only
  repeat' first
    | with_reducible assumption | intro _ | with_reducible apply Keeps.modTime | with_reducible apply Keeps.ite | split
    | with_reducible apply Keeps.ite_fst | exact ⟨rfl, rfl, rfl⟩

end Sys2Proof.Machine
end

