-- ==== Sys2Proof/Laws/KeepDrafts.lean ====
section
/-! SUPPORT. Every operation of Machine/Drafts.lean on the state keeps what `Keeps` names. -/

namespace Sys2Proof.Machine

theorem State.loadFail_keeps {still : Bool} {base : State} {s : State} (m : Mbx) (f : LoadFail) (hk : Keeps still base s) :
    Keeps still base (State.loadFail s m f) := by
  unfold State.loadFail
  try dsimp only
  repeat' first
    | with_reducible assumption | intro _ | with_reducible apply State.complete_keeps

theorem State.containerBytes_keeps {still : Bool} {base : State} {s : State} (e : Nat) (off : Nat) (len : Nat)
    (hk : Keeps still base s) :
    Keeps still base (State.containerBytes s e off len).1 := by
  unfold State.containerBytes
  try dsimp only
  repeat' first
    | with_reducible assumption | intro _ | with_reducible apply State.bytesNow_keeps | with_reducible apply Keeps.ite | split
    | with_reducible apply Keeps.ite_fst

theorem State.loadDraft_keeps {still : Bool} {base : State} {s : State} (d : Draft) (hk : Keeps still base s) :
    Keeps still base (State.loadDraft s d).1 := by
  unfold State.loadDraft
  try dsimp only
  repeat' first
    | with_reducible assumption | intro _ | with_reducible apply Keeps.modLoom | with_reducible apply Keeps.ite_fst

end Sys2Proof.Machine
end

