-- ==== Sys2Proof/Laws/KeepSpdm.lean ====
section
/-! SUPPORT. Every operation of Machine/Spdm.lean on the state keeps what `Keeps` names. -/

namespace Sys2Proof.Machine

theorem State.afterReply_keeps {still : Bool} {base : State} {s : State} (r : SpdmReply) (hk : Keeps still base s) :
    Keeps still base (State.afterReply s r) := by
  unfold State.afterReply
  try dsimp only
  repeat' first
    | with_reducible assumption | intro _ | with_reducible apply State.drewRandom_keeps
    | with_reducible apply Keeps.setFreeCount

end Sys2Proof.Machine
end

