-- ==== Sys2Proof/Laws/KeepFirmware.lean ====
section
/-! SUPPORT. Every operation of Machine/Firmware.lean on the state keeps what `Keeps` names. -/

namespace Sys2Proof.Machine

theorem State.stageChunk_keeps {still : Bool} {base : State} {s : State} (m : Mbx) (off : Nat) (chunk : List Byte)
    (hk : Keeps still base s) :
    Keeps still base (State.stageChunk s m off chunk) := by
  unfold State.stageChunk
  try dsimp only
  repeat' first
    | with_reducible assumption | intro _ | with_reducible apply Keeps.modNor | with_reducible apply Keeps.modUmpire
    | with_reducible apply Keeps.ite | exact rfl

theorem State.fuseEnd_keeps {still : Bool} {base : State} {s : State} (m : Mbx) (status : Nat) (hk : Keeps still base s) :
    Keeps still base (State.fuseEnd s m status) := by
  unfold State.fuseEnd
  try dsimp only
  repeat' first
    | with_reducible assumption | intro _ | with_reducible apply State.complete_keeps

theorem State.fuseStart_keeps {still : Bool} {base : State} {s : State} (m : Mbx) (todo : List Nat) (hk : Keeps still base s) :
    Keeps still base (State.fuseStart s m todo) := by
  unfold State.fuseStart
  try dsimp only
  repeat' first
    | with_reducible assumption | intro _ | with_reducible apply State.await_keeps | with_reducible apply Keeps.modUmpire
    | exact rfl

theorem State.zeroKeys_keeps {still : Bool} {base : State} {s : State} (hk : Keeps still base s) :
    Keeps still base (State.zeroKeys s) := by
  unfold State.zeroKeys
  try dsimp only
  repeat' first
    | with_reducible assumption | intro _ | with_reducible apply Keeps.modUmpire | with_reducible apply Keeps.setExts
    | with_reducible apply Keeps.setPorts | split | simp only [List.length_map, List.length_replicate] | exact rfl

end Sys2Proof.Machine
end

