-- ==== Sys2Proof/Laws/KeepLink.lean ====
section
/-! SUPPORT. Every operation of Machine/Link.lean on the state keeps what `Keeps` names. -/

namespace Sys2Proof.Machine

theorem State.takeFrame_keeps {still : Bool} {base : State} {s : State} (p : Nat) (f : RxFrame) (hk : Keeps still base s) :
    Keeps still base (State.takeFrame s p f) := by
  unfold State.takeFrame
  try dsimp only
  repeat' first
    | with_reducible assumption | intro _ | with_reducible apply State.protoErr_keeps
    | with_reducible apply State.linkFailure_keeps | with_reducible apply Keeps.modPort | with_reducible apply Keeps.ite
    | split

theorem State.countLeft_keeps {still : Bool} {base : State} {s : State} (p : Nat) (c : Cpl) (hk : Keeps still base s) :
    Keeps still base (State.countLeft s p c) := by
  unfold State.countLeft
  try dsimp only
  repeat' first
    | with_reducible assumption | intro _ | with_reducible apply Keeps.modCtx | with_reducible apply Keeps.modPort
    | with_reducible apply Keeps.setFreeCount | with_reducible apply Keeps.ite | split

theorem Build.putCpl_keeps {still : Bool} {base : State} {b c : Build} (p : Nat) (x : Cpl) (hk : Keeps still base b.s)
    (h : Build.putCpl b p x = some c) : Keeps still base c.s := by
  have hd : ∀ (st : Nat) (z : Option Build), z = (match b.tailFrom p 0 (b.s.port p).tailRecords with
      | some t => some { b with tail := b.tail ++ [(t, cplRecord x opcCpl st)], s := b.s.countLeft p { x with status := st, rdBytes := 0 } }
      | none => (b.ownSlot p).map fun i =>
        { b with slots := b.slots ++ [(i, cplRecord x opcCpl st, [])], s := b.s.countLeft p { x with status := st, rdBytes := 0 } }) →
      z = some c → Keeps still base c.s := by
    intro st z hz h
    rw [hz] at h
    split at h
    · cases h; exact State.countLeft_keeps _ _ hk
    · cases ho : b.ownSlot p with
      | none => rw [ho] at h; cases h
      | some i => rw [ho] at h; cases h; exact State.countLeft_keeps _ _ hk
  unfold Build.putCpl at h
  dsimp only at h
  split at h
  · exact hd _ _ rfl h
  · split at h
    · cases h; exact State.countLeft_keeps _ _ hk
    · split at h
      · exact hd _ _ rfl h
      · cases h

theorem Build.cpls_keeps {still : Bool} {base : State} {b : Build} (p : Nat) (hk : Keeps still base b.s) : Keeps still base
    (Build.cpls b p).s := by
  unfold Build.cpls
  dsimp only
  refine Keeps.modPort ?_ _ _
  refine Keeps.foldlOn (fun a : Build × List Cpl => a.1.s) (fun a x ha => ?_) _ hk
  split
  · next h => exact Build.putCpl_keeps p x ha h
  · exact ha

theorem Build.evts_keeps {still : Bool} {base : State} {b : Build} (p : Nat) (hk : Keeps still base b.s) :
    Keeps still base (Build.evts b p).s := by
  unfold Build.evts
  try dsimp only
  repeat' first
    | with_reducible assumption | intro _ | with_reducible apply Keeps.modPort | split

theorem Build.engineSlot_keeps {still : Bool} {base : State} {b : Build} (p : Nat) (i : Nat) (e : Nat)
    (hk : Keeps still base b.s) :
    Keeps still base (Build.engineSlot b p i e).s := by
  unfold Build.engineSlot
  try dsimp only
  repeat' first
    | with_reducible assumption | intro _ | with_reducible apply State.settle_keeps | with_reducible apply Keeps.modCur
    | with_reducible apply Keeps.modPort | with_reducible apply Keeps.ite | split

theorem Build.others_keeps {still : Bool} {base : State} {b : Build} (p : Nat) (hk : Keeps still base b.s) : Keeps still base
    (Build.others b p).s := by
  unfold Build.others
  refine Keeps.foldlOn Build.s (fun a x ha => ?_) _ hk
  dsimp only
  split
  · exact Build.engineSlot_keeps _ _ _ ha
  · exact ha

theorem State.sendFrame_keeps {still : Bool} {base : State} {s : State} (p : Nat) (hk : Keeps still base s) :
    Keeps still base (State.sendFrame s p) := by
  unfold State.sendFrame
  try dsimp only
  repeat' first
    | with_reducible assumption | intro _ | with_reducible apply Build.cpls_keeps | with_reducible apply Build.evts_keeps
    | with_reducible apply Build.others_keeps | with_reducible apply Keeps.modPort | with_reducible apply Keeps.ite | split

end Sys2Proof.Machine
end

