-- ==== Sys2Proof/Laws/KeepResets.lean ====
section
/-! SUPPORT. Every operation of Machine/Resets.lean on the state keeps what `Keeps` names. -/

namespace Sys2Proof.Machine

theorem State.checkRecords_keeps {still : Bool} {base : State} {s : State} (hk : Keeps still base s) :
    Keeps still base (State.checkRecords s) := by
  unfold State.checkRecords
  try dsimp only
  repeat' first
    | with_reducible assumption | intro _ | with_reducible apply Keeps.modUmpire | with_reducible apply Keeps.ite | exact rfl

theorem State.beginBoot_keeps {still : Bool} {base : State} {s : State} (hk : Keeps still base s) :
    Keeps still base (State.beginBoot s) := by
  exact (hk.modNor _).modUmpire fun u => by split <;> rfl

theorem State.romService_keeps {still : Bool} {base : State} {s : State} (hk : Keeps still base s) :
    Keeps still base (State.romService s) := by
  unfold State.romService
  try dsimp only
  repeat' first
    | with_reducible assumption | intro _ | with_reducible apply State.drewRandom_keeps
    | with_reducible apply State.enterSafe_keeps | with_reducible apply State.checkRecords_keeps
    | with_reducible apply Keeps.modMbox | with_reducible apply Keeps.modUmpire | with_reducible apply Keeps.setSlots
    | with_reducible apply Keeps.ite | split | simp only [List.length_map, List.length_replicate] | exact rfl

theorem State.startFirmware_keeps {still : Bool} {base : State} {s : State} (hk : Keeps still base s) :
    Keeps still base (State.startFirmware s) := by
  unfold State.startFirmware
  try dsimp only
  repeat' first
    | with_reducible assumption | intro _ | with_reducible apply State.romService_keeps | with_reducible apply Keeps.modUmpire
    | with_reducible apply Keeps.setNor | with_reducible apply Keeps.ite | split | exact rfl

theorem State.clearExtents_keeps {still : Bool} {base : State} {s : State} (all : Bool) (hk : Keeps still base s) :
    Keeps still base (State.clearExtents s all) := by
  unfold State.clearExtents
  try dsimp only
  repeat' first
    | with_reducible assumption | intro _ | with_reducible apply State.enterClearing_keeps | with_reducible apply Keeps.modExt
    | with_reducible apply Keeps.ite | with_reducible apply Keeps.foldl | with_reducible apply Keeps.foldl_fst

theorem State.dropContexts_keeps {still : Bool} {base : State} {s : State} (hk : Keeps still base s) :
    Keeps still base (State.dropContexts s) := by
  unfold State.dropContexts
  try dsimp only
  repeat' first
    | with_reducible assumption | intro _ | with_reducible apply Keeps.setCtxs | with_reducible apply Keeps.setEngines
    | with_reducible apply Keeps.setLeases | with_reducible apply Keeps.setPins | with_reducible apply Keeps.setReqs
    | with_reducible apply Keeps.setTier | simp only [List.length_map, List.length_replicate]

theorem State.restartPort_keeps {still : Bool} {base : State} {s : State} (p : Nat) (hk : Keeps still base s) :
    Keeps still base (State.restartPort s p) := by
  unfold State.restartPort
  try dsimp only
  repeat' first
    | with_reducible assumption | intro _ | with_reducible apply State.setSlot_keeps
    | with_reducible apply State.portReset_keeps | with_reducible apply Keeps.modPort | with_reducible apply Keeps.ite

theorem State.unloadStore_keeps {still : Bool} {base : State} {s : State} (hk : Keeps still base s) :
    Keeps still base (State.unloadStore s) := by
  unfold State.unloadStore
  try dsimp only
  repeat' first
    | with_reducible assumption | intro _ | with_reducible apply Keeps.modSlot | with_reducible apply Keeps.setFar
    | with_reducible apply Keeps.foldl | with_reducible apply Keeps.foldl_fst

theorem State.umpireRestart_keeps {still : Bool} {base : State} {s : State} (hk : Keeps still base s) :
    Keeps still base (State.umpireRestart s) := by
  unfold State.umpireRestart
  apply State.syncNotice_keeps
  apply State.startFirmware_keeps
  apply State.beginBoot_keeps
  have hu : ∀ t : State, Keeps still base t → Keeps still base (t.modUmpire fun u => u.restarted t.time.pick) := fun t ht =>
    ht.trans (.of_holds ⟨rfl, fun k => ⟨k.1, k.2.1, k.2.2.1, rfl⟩, id, id, .refl _⟩ rfl rfl)
  refine hu _ (State.unloadStore_keeps (Keeps.modPower ?_ (fun w hw => hw) fun w h => ⟨h, rfl⟩))
  refine Keeps.modTime (State.enterFree_keeps (Keeps.modTie (Keeps.modRas (Keeps.modLoom (State.dropContexts_keeps ?_) _) _) _))
    fun t => ⟨rfl, rfl, rfl⟩
  refine Keeps.foldl (fun s p hs => State.restartPort_keeps p hs) _ (Keeps.setLeases ?_ _)
  exact State.clearExtents_keeps _ (State.overrunNow_keeps _ (State.fuseStop_keeps _ hk))

theorem State.dieReset_holds (s : State) : Holds s (State.dieReset s) :=
  ⟨rfl, fun _ => ⟨rfl, rfl, rfl, rfl⟩, id, fun h => ⟨rfl, rfl, rfl, h.2.2.2⟩, fun h => ⟨h, fun _ => BitVec.and_self⟩⟩

theorem State.senseFuses_keeps {still : Bool} {base : State} {s : State} (hk : Keeps still base s) : Keeps still base
    (State.senseFuses s) :=
  hk.setFuses fun h => ⟨h, fun _ => BitVec.and_self⟩

theorem State.bootRelease_keeps {still : Bool} {base : State} {s : State} (hk : Keeps still base s) :
    Keeps still base (State.bootRelease s) := by
  unfold State.bootRelease
  try dsimp only
  repeat' first
    | with_reducible assumption | intro _ | with_reducible apply State.enterSafe_keeps
    | with_reducible apply State.beginBoot_keeps | with_reducible apply State.startFirmware_keeps
    | with_reducible apply Keeps.modPower | with_reducible apply Keeps.ite | exact ‹Power.PinsOk _›
    | (rename_i h; exact Power.PinsOk.rails h ⟨rfl, rfl, rfl⟩ ⟨rfl, rfl, rfl, rfl, rfl⟩ rfl)
    | exact ⟨‹Power.safe _ = true›, rfl⟩ | exact ⟨‹Power.safe _ = true›, trivial⟩

theorem State.powerSteps_keeps {still : Bool} {base : State} {s : State} (hk : Keeps still base s) :
    Keeps still base (State.powerSteps s) := by
  unfold State.powerSteps
  try dsimp only
  repeat' first
    | with_reducible assumption | intro _ | with_reducible apply State.senseFuses_keeps
    | with_reducible apply State.bootRelease_keeps | with_reducible apply Keeps.modPower | with_reducible apply Keeps.ite
    | exact ‹Power.PinsOk _› | (rename_i h; exact Power.PinsOk.rails h ⟨rfl, rfl, rfl⟩ ⟨rfl, rfl, rfl, rfl, rfl⟩ rfl)
    | exact ⟨‹Power.safe _ = true›, rfl⟩ | exact ⟨‹Power.safe _ = true›, trivial⟩

theorem State.powerLost_holds (s : State) : Holds s (State.powerLost s) := by
  have after : ∀ t : State, Holds s t → Holds s (((((t.setExts (Table.mapV t.exts fun _ x => x.contentsLost)).setNearMem
      []).setFarMem []).modRas fun r => { r with
      initCursor := t.farLost, initOrder := r.clearOrder, patrols := false }).modPower fun w => { w with
        pllHeld := false, railsGood := false, pwrGood := false }) := fun t ht =>
    ht.trans ⟨rfl, id, fun _ => ⟨rfl, rfl⟩, fun h => ⟨h.1, h.2.1, h.2.2.1, rfl⟩, .refl _⟩
  unfold State.powerLost
  dsimp only
  refine after _ (Holds.trans (Keeps.toHolds (still := false) ?_) (State.dieReset_holds _))
  exact State.clearExtents_keeps _ (State.fuseStop_keeps _ (Keeps.ite ((Keeps.refl s).modNor _) (.refl s)))

theorem State.loadStore_keeps {still : Bool} {base : State} {s : State} (hk : Keeps still base s) :
    Keeps still base (State.loadStore s) := by
  unfold State.loadStore
  try dsimp only
  repeat' first
    | with_reducible assumption | intro _ | with_reducible apply State.enterFree_keeps | with_reducible apply Keeps.modPort
    | with_reducible apply Keeps.modRas | with_reducible apply Keeps.modSlot | with_reducible apply Keeps.modTie
    | with_reducible apply Keeps.modTier | with_reducible apply Keeps.modTime | with_reducible apply Keeps.setFar
    | with_reducible apply Keeps.ite | with_reducible apply Keeps.foldl | with_reducible apply Keeps.foldl_fst
    | exact ⟨rfl, rfl, rfl⟩

theorem State.bootRecords_keeps {still : Bool} {base : State} {s : State} (hk : Keeps still base s) :
    Keeps still base (State.bootRecords s) := by
  unfold State.bootRecords
  try dsimp only
  repeat' first
    | with_reducible assumption | intro _ | with_reducible apply State.auditAppend_keeps | with_reducible apply Keeps.modNor
    | split

theorem State.openMailboxes_keeps {still : Bool} {base : State} {s : State} (hk : Keeps still base s) :
    Keeps still base (State.openMailboxes s) := by
  unfold State.openMailboxes
  try dsimp only
  repeat' first
    | with_reducible assumption | intro _ | with_reducible apply State.drewRandom_keeps | with_reducible apply Keeps.modMbox
    | with_reducible apply Keeps.ite | with_reducible apply Keeps.foldl | with_reducible apply Keeps.foldl_fst

theorem State.powerWaiting_keeps {still : Bool} {base : State} {s : State} (hk : Keeps still base s) :
    Keeps still base (State.powerWaiting s) := by
  unfold State.powerWaiting
  try dsimp only
  repeat' first
    | with_reducible assumption | intro _ | with_reducible apply State.cageOn_keeps | with_reducible apply Keeps.modSlot
    | with_reducible apply Keeps.ite | with_reducible apply Keeps.foldl | with_reducible apply Keeps.foldl_fst

theorem State.requestEngineReset_keeps {still : Bool} {base : State} {s : State} (hk : Keeps still base s) :
    Keeps still base (State.requestEngineReset s) := by
  unfold State.requestEngineReset
  try dsimp only
  repeat' first
    | with_reducible assumption | intro _ | with_reducible apply Keeps.modLoom | with_reducible apply Keeps.ite

end Sys2Proof.Machine
end

