-- ==== Sys2Proof/Laws/KeepPower.lean ====
section
/-! SUPPORT. Every operation of Machine/Power.lean on the state keeps what `Keeps` names. -/

namespace Sys2Proof.Machine

theorem State.whenOn_keeps {still : Bool} {base : State} {s : State} (f : State → State) (hk : Keeps still base s)
    (hf : ∀ s, Keeps still base s → Keeps still base (f s)) :
    Keeps still base (State.whenOn s f) := by
  unfold State.whenOn
  try dsimp only
  repeat' first
    | with_reducible assumption | intro _ | with_reducible apply hf | with_reducible apply Keeps.ite

theorem State.restartCopies_keeps {still : Bool} {base : State} {s : State} (hk : Keeps still base s) :
    Keeps still base (State.restartCopies s) := by
  unfold State.restartCopies
  try dsimp only
  repeat' first
    | with_reducible assumption | intro _ | with_reducible apply Keeps.modTier | with_reducible apply Keeps.ite

theorem State.standbyBegin_keeps {still : Bool} {base : State} {s : State} (hk : Keeps still base s) :
    Keeps still base (State.standbyBegin s) := by
  unfold State.standbyBegin
  try dsimp only
  repeat' first
    | with_reducible assumption | intro _ | with_reducible apply State.modDraft_keeps
    | with_reducible apply State.cancelStart_keeps | with_reducible apply State.restartCopies_keeps
    | with_reducible apply Keeps.modPower | with_reducible apply Keeps.ite | with_reducible apply Keeps.foldl
    | with_reducible apply Keeps.foldl_fst | split | exact ‹Power.PinsOk _›
    | (rename_i h; exact Power.PinsOk.rails h ⟨rfl, rfl, rfl⟩ ⟨rfl, rfl, rfl, rfl, rfl⟩ rfl)
    | exact ⟨‹Power.safe _ = true›, rfl⟩ | exact ⟨‹Power.safe _ = true›, trivial⟩

theorem State.setStandby_keeps {still : Bool} {base : State} {s : State} (hk : Keeps still base s) :
    Keeps still base (State.setStandby s) := by
  unfold State.setStandby
  try dsimp only
  repeat' first
    | with_reducible assumption | intro _ | with_reducible apply State.standbyBegin_keeps
    | with_reducible apply Keeps.modPower | with_reducible apply Keeps.ite | exact ‹Power.PinsOk _›
    | (rename_i h; exact Power.PinsOk.rails h ⟨rfl, rfl, rfl⟩ ⟨rfl, rfl, rfl, rfl, rfl⟩ rfl)
    | exact ⟨‹Power.safe _ = true›, rfl⟩ | exact ⟨‹Power.safe _ = true›, trivial⟩

theorem State.clearStandby_keeps {still : Bool} {base : State} {s : State} (hk : Keeps still base s) :
    Keeps still base (State.clearStandby s) := by
  unfold State.clearStandby
  try dsimp only
  repeat' first
    | with_reducible assumption | intro _ | with_reducible apply Keeps.modPower | with_reducible apply Keeps.ite
    | exact ‹Power.PinsOk _› | (rename_i h; exact Power.PinsOk.rails h ⟨rfl, rfl, rfl⟩ ⟨rfl, rfl, rfl, rfl, rfl⟩ rfl)
    | exact ⟨‹Power.safe _ = true›, rfl⟩ | exact ⟨‹Power.safe _ = true›, trivial⟩

theorem State.standbyBeat_keeps {still : Bool} {base : State} {s : State} (hk : Keeps still base s) :
    Keeps still base (State.standbyBeat s) := by
  unfold State.standbyBeat
  try dsimp only
  repeat' first
    | with_reducible assumption | intro _ | with_reducible apply Keeps.modLoom | with_reducible apply Keeps.modPower
    | with_reducible apply Keeps.ite | exact ‹Power.PinsOk _›
    | (rename_i h; exact Power.PinsOk.rails h ⟨rfl, rfl, rfl⟩ ⟨rfl, rfl, rfl, rfl, rfl⟩ rfl)
    | exact ⟨‹Power.safe _ = true›, rfl⟩ | exact ⟨‹Power.safe _ = true›, trivial⟩

theorem State.braceBeat_keeps {still : Bool} {base : State} {s : State} (hk : Keeps still base s) : Keeps still base
    (State.braceBeat s) := by
  unfold State.braceBeat
  dsimp only
  have h0 := State.setEvent_keeps 2 (hk.modPower_setAlert
      (f := fun w => { w with braced := false, recoverDue := false }) (fun w hw => ⟨hw.1, hw.2.2⟩) fun h => ⟨h, rfl⟩)
  apply Keeps.ite hk
  apply Keeps.ite
  · exact State.standbyBegin_keeps (Keeps.modLoom (State.sendEvtAll_keeps _ h0) _)
  · exact Keeps.modLoom (State.sendEvtAll_keeps _ h0) _

theorem State.setDormant_keeps {still : Bool} {base : State} {s : State} (v : BitVec 6) (hk : Keeps still base s) :
    Keeps still base (State.setDormant s v) := by
  unfold State.setDormant
  try dsimp only
  repeat' first
    | with_reducible assumption | intro _ | with_reducible apply Keeps.modPower | with_reducible apply Keeps.modSlot
    | with_reducible apply Keeps.ite | with_reducible apply Keeps.foldl | with_reducible apply Keeps.foldl_fst
    | exact ‹Power.PinsOk _› | (rename_i h; exact Power.PinsOk.rails h ⟨rfl, rfl, rfl⟩ ⟨rfl, rfl, rfl, rfl, rfl⟩ rfl)
    | exact ⟨‹Power.safe _ = true›, rfl⟩ | exact ⟨‹Power.safe _ = true›, trivial⟩

theorem State.writePwrCtl_keeps {still : Bool} {base : State} {s : State} (v : Nat) (hk : Keeps still base s) :
    Keeps still base (State.writePwrCtl s v) := by
  unfold State.writePwrCtl
  try dsimp only
  repeat' first
    | with_reducible assumption | intro _ | with_reducible apply State.requestEngineReset_keeps
    | with_reducible apply State.setStandby_keeps | with_reducible apply State.clearStandby_keeps
    | with_reducible apply State.setDormant_keeps | with_reducible apply Keeps.ite

end Sys2Proof.Machine
end

