-- ==== Sys2Proof/Laws/KeepRegisters.lean ====
section
/-! SUPPORT. Every operation of Machine/Registers.lean on the state keeps what `Keeps` names. -/

namespace Sys2Proof.Machine

theorem State.writeMsix_keeps {still : Bool} {base : State} {s : State} (off : Nat) (v : Nat) (hk : Keeps still base s) :
    Keeps still base (State.writeMsix s off v) := by
  unfold State.writeMsix
  try dsimp only
  repeat' first
    | with_reducible assumption | intro _ | with_reducible apply State.raise_keeps | with_reducible apply Keeps.modRegs
    | with_reducible apply Keeps.ite

theorem State.writeReg_keeps {still : Bool} {base : State} {s : State} (off : Nat) (v : Nat) (hk : Keeps still base s) :
    Keeps still base (State.writeReg s off v) := by
  unfold State.writeReg
  try dsimp only
  repeat' first
    | with_reducible assumption | intro _ | with_reducible apply State.writePwrCtl_keeps
    | with_reducible apply State.writeMsix_keeps | with_reducible apply Keeps.modRas | with_reducible apply Keeps.modRegs
    | with_reducible apply Keeps.modSlot | with_reducible apply Keeps.ite | split

theorem State.writeBulk_keeps {still : Bool} {base : State} {s : State} (m : Mbx) (off : Nat) (data : List Byte)
    (hk : Keeps still base s) :
    Keeps still base (State.writeBulk s m off data) := by
  unfold State.writeBulk
  try dsimp only
  repeat' first
    | with_reducible assumption | intro _ | with_reducible apply Keeps.modMbox | with_reducible apply Keeps.ite

theorem State.refuseAccess_keeps {still : Bool} {base : State} {s : State} (hk : Keeps still base s) :
    Keeps still base (State.refuseAccess s) := by
  unfold State.refuseAccess
  try dsimp only
  repeat' first
    | with_reducible assumption | intro _ | with_reducible apply Keeps.modRegs

end Sys2Proof.Machine
end

