-- ==== Sys2Proof/Laws/KeepTime.lean ====
section
/-! SUPPORT. Every operation of Machine/Time.lean on the state keeps what `Keeps` names. -/

namespace Sys2Proof.Machine

theorem State.carryOn_keeps {still : Bool} {base : State} {s : State} (hk : Keeps still base s) :
    Keeps still base (State.carryOn s) := by
  unfold State.carryOn
  try dsimp only
  repeat' first
    | with_reducible assumption | intro _ | with_reducible apply State.settleAll_keeps
    | with_reducible apply State.pinsDone_keeps | with_reducible apply State.attachGo_keeps
    | with_reducible apply State.destroyGo_keeps | with_reducible apply State.shareGo_keeps
    | with_reducible apply State.sealGo_keeps | with_reducible apply State.switchGo_keeps
    | with_reducible apply State.boltsGo_keeps | with_reducible apply Keeps.foldl | with_reducible apply Keeps.foldl_fst

theorem State.fuseGo_keeps {still : Bool} {base : State} {s : State} (m : Mbx) (hk : Keeps still base s) :
    Keeps still base (State.fuseGo s m) := by
  unfold State.fuseGo
  try dsimp only
  repeat' first
    | with_reducible assumption | intro _ | with_reducible apply State.fuseRun_keeps | with_reducible apply Keeps.ite | split

theorem State.afterJob_keeps {still : Bool} {base : State} {s : State} (w : WaitFor) (hk : Keeps still base s) :
    Keeps still base (State.afterJob s w) := by
  unfold State.afterJob
  try dsimp only
  repeat' first
    | with_reducible assumption | intro _ | with_reducible apply State.markReady_keeps | with_reducible apply Keeps.foldl
    | with_reducible apply Keeps.foldl_fst | split

theorem State.completeReady_keeps {still : Bool} {base : State} {s : State} (m : Mbx) (hk : Keeps still base s) :
    Keeps still base (State.completeReady s m) := by
  unfold State.completeReady
  try dsimp only
  repeat' first
    | with_reducible assumption | intro _ | with_reducible apply State.complete_keeps
    | with_reducible apply State.afterJob_keeps | with_reducible apply Keeps.ite | split

theorem State.removeCtx_keeps {still : Bool} {base : State} {s : State} (c : Nat) (hk : Keeps still base s) :
    Keeps still base (State.removeCtx s c) := by
  unfold State.removeCtx
  try dsimp only
  repeat' first
    | with_reducible assumption | intro _ | with_reducible apply State.readyWaiter_keeps
    | with_reducible apply State.enterClearing_keeps | with_reducible apply Keeps.modLoom | with_reducible apply Keeps.modPort
    | with_reducible apply Keeps.setCtxs | with_reducible apply Keeps.foldl | with_reducible apply Keeps.foldl_fst | split

theorem State.runDeferred_keeps {still : Bool} {base : State} {s : State} (d : Deferred) (hk : Keeps still base s) :
    Keeps still base (State.runDeferred s d) := by
  unfold State.runDeferred
  try dsimp only
  repeat' first
    | with_reducible assumption | intro _ | with_reducible apply State.undamage_keeps
    | with_reducible apply State.clearExt_keeps | with_reducible apply State.repaired_keeps
    | with_reducible apply State.resolveAt_keeps | with_reducible apply State.scrubSet_keeps
    | with_reducible apply State.policySet_keeps | with_reducible apply State.attachAt_keeps
    | with_reducible apply State.grantAt_keeps | with_reducible apply State.shareAt_keeps
    | with_reducible apply State.clearAt_keeps | with_reducible apply State.leaseAtBoundary_keeps
    | with_reducible apply State.resolveLease_keeps | with_reducible apply State.unpinAt_keeps
    | with_reducible apply State.promoteAt_keeps | with_reducible apply State.removeCtx_keeps
    | with_reducible apply Keeps.modExt | with_reducible apply Keeps.modUmpire | with_reducible apply Keeps.ite | split
    | exact rfl

theorem State.runAllDeferred_keeps {still : Bool} {base : State} {s : State} (hk : Keeps still base s) :
    Keeps still base (State.runAllDeferred s) := by
  unfold State.runAllDeferred
  try dsimp only
  repeat' first
    | with_reducible assumption | intro _ | with_reducible apply State.runDeferred_keeps
    | with_reducible apply Keeps.modUmpire | with_reducible apply Keeps.ite | with_reducible apply Keeps.foldl
    | with_reducible apply Keeps.foldl_fst | exact rfl

theorem State.endPick_keeps {base : State} {s : State} (hk : Keeps false base s) :
    Keeps false base (State.endPick s) := by
  unfold State.endPick
  try dsimp only
  repeat' first
    | with_reducible assumption | intro _ | with_reducible apply State.halve_keeps | with_reducible apply State.takeOld_keeps
    | with_reducible apply State.loomEnd_keeps | with_reducible apply Keeps.foldl | with_reducible apply Keeps.foldl_fst

theorem State.tick_holds (s : State) : Holds s (State.tick s) := ⟨rfl, id, id, id, .refl _⟩

theorem State.freshPick_keeps {still : Bool} {base : State} {s : State} (hk : Keeps still base s) :
    Keeps still base (State.freshPick s) := by
  unfold State.freshPick
  try dsimp only
  repeat' first
    | with_reducible assumption | intro _ | with_reducible apply State.channelsFail_keeps | with_reducible apply Keeps.modRegs
    | with_reducible apply Keeps.modTie | with_reducible apply Keeps.setFar | with_reducible apply Keeps.ite
    | with_reducible apply Keeps.foldl | with_reducible apply Keeps.foldl_fst

theorem State.lates_keeps {still : Bool} {base : State} {s : State} (hk : Keeps still base s) :
    Keeps still base (State.lates s) := by
  unfold State.lates
  try dsimp only
  repeat' first
    | with_reducible assumption | intro _ | with_reducible apply State.lateOne_keeps | with_reducible apply Keeps.ite
    | with_reducible apply Keeps.foldl | with_reducible apply Keeps.foldl_fst

theorem State.startPick_keeps {base : State} {s : State} (hk : Keeps false base s) :
    Keeps false base (State.startPick s) := by
  unfold State.startPick
  try dsimp only
  repeat' first
    | with_reducible assumption | intro _ | with_reducible apply State.pump_keeps
    | with_reducible apply State.safeBoundary_keeps | with_reducible apply State.refill_keeps
    | with_reducible apply State.pinsGo_keeps | with_reducible apply State.passes_keeps
    | with_reducible apply State.drainAt_keeps | with_reducible apply State.dropsGo_keeps
    | with_reducible apply State.loomStart_keeps | with_reducible apply State.sendFrame_keeps
    | with_reducible apply State.carryOn_keeps | with_reducible apply State.runAllDeferred_keeps
    | with_reducible apply State.lates_keeps | with_reducible apply Keeps.ite | with_reducible apply Keeps.foldl
    | with_reducible apply Keeps.foldl_fst

theorem State.beatCount_keeps {still : Bool} {base : State} {s : State} (hk : Keeps still base s) :
    Keeps still base (State.beatCount s) := by
  unfold State.beatCount
  try dsimp only
  repeat' first
    | with_reducible assumption | intro _ | with_reducible apply State.syncNotice_keeps
    | with_reducible apply State.beatCfgBoundary_keeps | with_reducible apply State.planBoundary_keeps
    | with_reducible apply State.countBeat_keeps | with_reducible apply Keeps.ite

end Sys2Proof.Machine
end

