-- ==== Sys2Proof/WellFormed.lean ====
section
/-! DEFINITION. Which commands are well formed: every port, slot, engine, channel, device, section, group and tie-up
position an operand names exists on the largest variant (spec/00_scope.md R2, spec/02_beats_and_tieup.md R52), and every
byte count of a frame is a whole number of flit times (spec/10_host_link.md R266).

Well-formedness is about the command alone.  A well-formed command may still find no event in the state it meets. -/

namespace Sys2Proof

/-- A port or its slot: 0 to 5. -/
def portOk (p : Nat) : Bool := p < 6

/-- A Shuttle engine: 0 to 7. -/
def engineOk (e : Nat) : Bool := e < 8

/-- A mailbox: the four management mailboxes and the six port mailboxes. -/
def mbxOk : Mbx → Bool
  | .port p => portOk p
  | _ => true

/-- A position: 32 near positions of 16 sections, 96 far positions of 4 groups. -/
def positionOk (q : Position) : Bool :=
  match q.tier with
  | .near => q.unit < 16 && q.pos < 32
  | .far => q.unit < 4 && q.pos < 96

/-- A rank of a far channel: 24 channels of two subchannels of two ranks. -/
def rankOk (ch sub rank : Nat) : Bool := ch < 24 && sub < 2 && rank < 2

/-- A unit of a tier: 16 near sections, 4 far groups. -/
def unitOk : Tier → Nat → Bool
  | .near, u => u < 16
  | .far, u => u < 4

/-- An error lies in one of the 272 bytes of a near codeword, the longest stored unit. -/
def errorOk (e : CellError) : Bool := e.off < 272

/-- A frame is a whole number of flit times of 256 B, 470 at most, and its damaged flit times are among them. -/
def frameOk (f : RxFrame) : Bool :=
  f.bytes.length % 256 == 0 && f.bytes.length ≤ 470 * 256 && f.badFlits.all fun k => k < f.bytes.length / 256

/-- The operands of a command are in range. -/
def Instr.wf : Instr → Bool
  | .pickBoundary | .beatBoundary | .ageHalving => true
  | .rekey p | .confStart p => portOk p
  | .ingressFrame p f => portOk p && frameOk f
  | .rd64 p | .rd256 p | .wr64 p | .wr256 p | .wrp p | .fence p | .mbxRead p | .mbxWrite p | .hostCplD p
  | .hostCpl p => portOk p
  | .tierAccessIssue q => positionOk q
  | .writeCommit _ => true
  | .readDataDelivered _ errs => errs.all errorOk
  | .lateCeiling _ => true
  | .zfillStep q => positionOk q
  | .promotionPlace g pos => g < 4 && pos < 96
  | .evictionStart _ _ q => positionOk q
  | .pageCopyStep q errs => positionOk q && errs.all errorOk
  | .residenceSwitch _ => true
  | .rankPowerDown c j r => rankOk c j r
  | .mr4Read hot => hot.all fun h => rankOk h.1 h.2.1 h.2.2
  | .clearOverwriteStep q => positionOk q
  | .scrubStepDue t u => unitOk t u
  | .scrubStep q errs | .rebuildRead q errs => positionOk q && errs.all errorOk
  | .rebuildWrite q => positionOk q
  | .deviceMark c j r d => rankOk c j r && d < 10
  | .channelFail c _ => c < 24
  | .beatInMarker _ _ | .markerWindowClose _ | .holdoverExceeded => true
  | .mbxSubmit m _ | .mbxComplete m | .getCaps m | .getStatus m | .ctxCreate m | .ctxAttach m | .ctxDestroy m => mbxOk m
  | .destroyBoundary c => c < 64
  | .keyHoldEnd p => portOk p
  | .extCreate m | .extRemove m | .extGrant m | .extRevoke m => mbxOk m
  | .revocationBoundary _ | .revokeDrainEnd _ => true
  | .extClear m | .extSeal m | .extQuery m | .aptStage m | .aptStageDiscard m | .aptCommit m => mbxOk m
  | .aptSwitch p => portOk p
  | .leaseTake m | .leaseDrop m | .leaseResolve m => mbxOk m
  | .leaseTorn p => portOk p
  | .pin m | .unpin m | .migPolicyGlobal m | .migPolicyExtent m | .migPolicyRead m | .draftLoad m | .draftUnload m
  | .draftStart m | .draftStop m | .draftQuery m | .tieupSet m | .tieupSetRead m | .beatConfig m
  | .beatConfigRead m | .shuttleRun m => mbxOk m
  | .shuttleListRead e | .descriptorStart e | .shuttleBlockIssue e => engineOk e
  | .pullTimeout e tag => engineOk e && tag < 4096
  | .descriptorWriteBack e => engineOk e
  | .shuttleAbort m | .boltLoad m => mbxOk m
  | .boltChunk e => engineOk e
  | .boltIssuersAdd m | .boltIssuersRemove m | .boltIssuersList m | .spdmMsg m => mbxOk m
  | .mctpSpdmMessage _ => true
  | .keyAgree m | .bounceAdd m | .bounceRemove m | .bounceList m | .rasQuerySummary m | .rasQueryList m
  | .ceTableRead m | .copyLow m | .copyHigh m | .rewrite m | .scrubConfig m | .fwStage m | .fwStageDiscard m
  | .fwActivate m | .fuseProgramInstaller m | .restoreKey m | .fuseProgramRollback m | .fuseProgramDebugDisable m
  | .auditRead m | .slotPowerOn m | .slotPowerOff m | .slotCancel m | .slotPortReset m | .setAttn m | .setPolicy m
  | .telemetryRead m | .makerUnlock m => mbxOk m
  | .presenceGained p | .presenceLost p | .buttonPress p | .powerFault p | .trainingStart p => portOk p
  | .linkTrained p w => portOk p && (w == 16 || w == 8)
  | .trainingRetry p | .holdTimeout p | .drainStart p | .drainEnd p | .linkFailure p => portOk p
  | .powerOnReset | .deviceReset | .resetNRelease | .umpireRestart | .engineReset => true
  | .fwReady _ _ => true
  | .watchdogExpiry | .perstN => true
  | .registerWrite _ d => decide (0 < d.length)
  | .badAccess _ len => decide (0 < len)
  | .portDormantEnter p => portOk p
  | .portDormantWake p w => portOk p && (w == 16 || w == 8)
  | .standbyEntry | .standbyExit | .brace | .braceRecovery | .braceTimeout | .brownOut | .supplyHigh
  | .inputRangeAlert | .thermalAlert | .thermalAlertEnd | .thermtrip | .forceSafe | .entropyFail | .refclkLoss
  | .inputRangeAlertEnd | .refclkReturn | .perstNRelease => true
  | .lowerHalfRead _ => true
  | .telemetryWindowEnd t => t.temps.length == 16
  | .thermalResetHoldEnd | .railLeavesRegulation => true

end Sys2Proof
end

