-- ==== Sys2Proof/Laws/PerInstr.lean ====
section
/-! SUPPORT. The family of statements made constructor by constructor: the ports a well-formed command names exist. -/

set_option Elab.async false

namespace Sys2Proof

/-- The port whose mailbox it is, if it is a port's. -/
def Mbx.ports : Mbx → List Nat
  | .port p => [p]
  | _ => []

/-- The ports a command names. -/
def Instr.ports : Instr → List Nat
  | .rekey p | .confStart p | .ingressFrame p _ | .rd64 p | .rd256 p | .wr64 p | .wr256 p | .wrp p | .fence p
  | .mbxRead p | .mbxWrite p | .hostCplD p | .hostCpl p | .keyHoldEnd p | .aptSwitch p | .leaseTorn p
  | .presenceGained p | .presenceLost p | .buttonPress p | .powerFault p | .trainingStart p | .linkTrained p _
  | .trainingRetry p | .holdTimeout p | .drainStart p | .drainEnd p | .linkFailure p | .portDormantEnter p
  | .portDormantWake p _ => [p]
  | .mbxSubmit m _ | .mbxComplete m | .getCaps m | .getStatus m | .ctxCreate m | .ctxAttach m | .ctxDestroy m
  | .extCreate m | .extRemove m | .extGrant m | .extRevoke m | .extClear m | .extSeal m | .extQuery m | .aptStage m
  | .aptStageDiscard m | .aptCommit m | .leaseTake m | .leaseDrop m | .leaseResolve m | .pin m | .unpin m
  | .migPolicyGlobal m | .migPolicyExtent m | .migPolicyRead m | .draftLoad m | .draftUnload m | .draftStart m
  | .draftStop m | .draftQuery m | .tieupSet m | .tieupSetRead m | .beatConfig m | .beatConfigRead m | .shuttleRun m
  | .shuttleAbort m | .boltLoad m | .boltIssuersAdd m | .boltIssuersRemove m | .boltIssuersList m | .spdmMsg m
  | .keyAgree m | .bounceAdd m | .bounceRemove m | .bounceList m | .rasQuerySummary m | .rasQueryList m
  | .ceTableRead m | .copyLow m | .copyHigh m | .rewrite m | .scrubConfig m | .fwStage m | .fwStageDiscard m
  | .fwActivate m | .fuseProgramInstaller m | .restoreKey m | .fuseProgramRollback m | .fuseProgramDebugDisable m
  | .auditRead m | .slotPowerOn m | .slotPowerOff m | .slotCancel m | .slotPortReset m | .setAttn m | .setPolicy m
  | .telemetryRead m | .makerUnlock m => m.ports
  | .pickBoundary | .beatBoundary | .ageHalving | .tierAccessIssue _ | .writeCommit _ | .readDataDelivered _ _
  | .lateCeiling _ | .zfillStep _ | .promotionPlace _ _ | .evictionStart _ _ _ | .pageCopyStep _ _
  | .residenceSwitch _ | .rankPowerDown _ _ _ | .mr4Read _ | .clearOverwriteStep _ | .scrubStepDue _ _
  | .scrubStep _ _ | .rebuildRead _ _ | .rebuildWrite _ | .deviceMark _ _ _ _ | .channelFail _ _ | .beatInMarker _ _
  | .markerWindowClose _ | .holdoverExceeded | .destroyBoundary _ | .revocationBoundary _ | .revokeDrainEnd _
  | .shuttleListRead _ | .descriptorStart _ | .shuttleBlockIssue _ | .pullTimeout _ _ | .descriptorWriteBack _
  | .boltChunk _ | .mctpSpdmMessage _ | .powerOnReset | .deviceReset | .resetNRelease | .umpireRestart | .engineReset
  | .fwReady _ _ | .watchdogExpiry | .perstN | .registerWrite _ _ | .badAccess _ _ | .standbyEntry | .standbyExit
  | .brace | .braceRecovery | .braceTimeout | .brownOut | .supplyHigh | .inputRangeAlert | .thermalAlert
  | .thermalAlertEnd | .thermtrip | .forceSafe | .entropyFail | .refclkLoss | .inputRangeAlertEnd | .refclkReturn
  | .perstNRelease | .lowerHalfRead _ | .telemetryWindowEnd _ | .thermalResetHoldEnd | .railLeavesRegulation => []

/-- A well-formed command names only ports 0 to 5 (spec/00_scope.md R2). -/
def Laws.PortsExist.Statement (i : Instr) : Prop := i.wf = true → ∀ p ∈ i.ports, p < 6

theorem mbxOk_ports {m : Mbx} (h : mbxOk m = true) : ∀ p ∈ m.ports, p < 6 := by
  cases m <;> simp_all [Mbx.ports, mbxOk, portOk]

namespace Laws.PortsExist

theorem pickBoundary : Statement .pickBoundary := fun _ _ h => nomatch h
theorem beatBoundary : Statement .beatBoundary := fun _ _ h => nomatch h
theorem ageHalving : Statement .ageHalving := fun _ _ h => nomatch h
theorem rekey (p : Nat) : Statement (.rekey p) := by simp_all [Statement, Instr.ports, Instr.wf, portOk]
theorem confStart (p : Nat) : Statement (.confStart p) := by simp_all [Statement, Instr.ports, Instr.wf, portOk]
theorem ingressFrame (p : Nat) (f : RxFrame) :
    Statement (.ingressFrame p f) := by simp_all [Statement, Instr.ports, Instr.wf, portOk]
theorem rd64 (p : Nat) : Statement (.rd64 p) := by simp_all [Statement, Instr.ports, Instr.wf, portOk]
theorem rd256 (p : Nat) : Statement (.rd256 p) := by simp_all [Statement, Instr.ports, Instr.wf, portOk]
theorem wr64 (p : Nat) : Statement (.wr64 p) := by simp_all [Statement, Instr.ports, Instr.wf, portOk]
theorem wr256 (p : Nat) : Statement (.wr256 p) := by simp_all [Statement, Instr.ports, Instr.wf, portOk]
theorem wrp (p : Nat) : Statement (.wrp p) := by simp_all [Statement, Instr.ports, Instr.wf, portOk]
theorem fence (p : Nat) : Statement (.fence p) := by simp_all [Statement, Instr.ports, Instr.wf, portOk]
theorem mbxRead (p : Nat) : Statement (.mbxRead p) := by simp_all [Statement, Instr.ports, Instr.wf, portOk]
theorem mbxWrite (p : Nat) : Statement (.mbxWrite p) := by simp_all [Statement, Instr.ports, Instr.wf, portOk]
theorem hostCplD (p : Nat) : Statement (.hostCplD p) := by simp_all [Statement, Instr.ports, Instr.wf, portOk]
theorem hostCpl (p : Nat) : Statement (.hostCpl p) := by simp_all [Statement, Instr.ports, Instr.wf, portOk]
theorem tierAccessIssue (at_ : Position) : Statement (.tierAccessIssue at_) := fun _ _ h => nomatch h
theorem writeCommit (req : Nat) : Statement (.writeCommit req) := fun _ _ h => nomatch h
theorem readDataDelivered (req : Nat) (errs : List CellError) : Statement (.readDataDelivered req errs) := fun _ _ h => nomatch h
theorem lateCeiling (req : Nat) : Statement (.lateCeiling req) := fun _ _ h => nomatch h
theorem zfillStep (at_ : Position) : Statement (.zfillStep at_) := fun _ _ h => nomatch h
theorem promotionPlace (group pos : Nat) : Statement (.promotionPlace group pos) := fun _ _ h => nomatch h
theorem evictionStart (ext page : Nat) (at_ : Position) : Statement (.evictionStart ext page at_) := fun _ _ h => nomatch h
theorem pageCopyStep (at_ : Position) (errs : List CellError) : Statement (.pageCopyStep at_ errs) := fun _ _ h => nomatch h
theorem residenceSwitch (copy : Nat) : Statement (.residenceSwitch copy) := fun _ _ h => nomatch h
theorem rankPowerDown (ch sub rank : Nat) : Statement (.rankPowerDown ch sub rank) := fun _ _ h => nomatch h
theorem mr4Read (hot : List (Nat × Nat × Nat)) : Statement (.mr4Read hot) := fun _ _ h => nomatch h
theorem clearOverwriteStep (at_ : Position) : Statement (.clearOverwriteStep at_) := fun _ _ h => nomatch h
theorem scrubStepDue (tier : Tier) (unit : Nat) : Statement (.scrubStepDue tier unit) := fun _ _ h => nomatch h
theorem scrubStep (at_ : Position) (errs : List CellError) : Statement (.scrubStep at_ errs) := fun _ _ h => nomatch h
theorem rebuildRead (at_ : Position) (errs : List CellError) : Statement (.rebuildRead at_ errs) := fun _ _ h => nomatch h
theorem rebuildWrite (at_ : Position) : Statement (.rebuildWrite at_) := fun _ _ h => nomatch h
theorem deviceMark (ch sub rank dev : Nat) : Statement (.deviceMark ch sub rank dev) := fun _ _ h => nomatch h
theorem channelFail (ch : Nat) (alert : Bool) : Statement (.channelFail ch alert) := fun _ _ h => nomatch h
theorem beatInMarker (cycle high : Nat) : Statement (.beatInMarker cycle high) := fun _ _ h => nomatch h
theorem markerWindowClose (cycle : Nat) : Statement (.markerWindowClose cycle) := fun _ _ h => nomatch h
theorem holdoverExceeded : Statement .holdoverExceeded := fun _ _ h => nomatch h
theorem mbxSubmit (m : Mbx) (ctl : W32) : Statement (.mbxSubmit m ctl) := fun h => mbxOk_ports (by simp_all [Instr.wf])
theorem mbxComplete (m : Mbx) : Statement (.mbxComplete m) := fun h => mbxOk_ports (by simpa [Instr.wf] using h)
theorem getCaps (m : Mbx) : Statement (.getCaps m) := fun h => mbxOk_ports (by simpa [Instr.wf] using h)
theorem getStatus (m : Mbx) : Statement (.getStatus m) := fun h => mbxOk_ports (by simpa [Instr.wf] using h)
theorem ctxCreate (m : Mbx) : Statement (.ctxCreate m) := fun h => mbxOk_ports (by simpa [Instr.wf] using h)
theorem ctxAttach (m : Mbx) : Statement (.ctxAttach m) := fun h => mbxOk_ports (by simpa [Instr.wf] using h)
theorem ctxDestroy (m : Mbx) : Statement (.ctxDestroy m) := fun h => mbxOk_ports (by simpa [Instr.wf] using h)
theorem destroyBoundary (ctx : Nat) : Statement (.destroyBoundary ctx) := fun _ _ h => nomatch h
theorem keyHoldEnd (p : Nat) : Statement (.keyHoldEnd p) := by simp_all [Statement, Instr.ports, Instr.wf, portOk]
theorem extCreate (m : Mbx) : Statement (.extCreate m) := fun h => mbxOk_ports (by simpa [Instr.wf] using h)
theorem extRemove (m : Mbx) : Statement (.extRemove m) := fun h => mbxOk_ports (by simpa [Instr.wf] using h)
theorem extGrant (m : Mbx) : Statement (.extGrant m) := fun h => mbxOk_ports (by simpa [Instr.wf] using h)
theorem extRevoke (m : Mbx) : Statement (.extRevoke m) := fun h => mbxOk_ports (by simpa [Instr.wf] using h)
theorem revocationBoundary (ext : Nat) : Statement (.revocationBoundary ext) := fun _ _ h => nomatch h
theorem revokeDrainEnd (ext : Nat) : Statement (.revokeDrainEnd ext) := fun _ _ h => nomatch h
theorem extClear (m : Mbx) : Statement (.extClear m) := fun h => mbxOk_ports (by simpa [Instr.wf] using h)
theorem extSeal (m : Mbx) : Statement (.extSeal m) := fun h => mbxOk_ports (by simpa [Instr.wf] using h)
theorem extQuery (m : Mbx) : Statement (.extQuery m) := fun h => mbxOk_ports (by simpa [Instr.wf] using h)
theorem aptStage (m : Mbx) : Statement (.aptStage m) := fun h => mbxOk_ports (by simpa [Instr.wf] using h)
theorem aptStageDiscard (m : Mbx) : Statement (.aptStageDiscard m) := fun h => mbxOk_ports (by simpa [Instr.wf] using h)
theorem aptCommit (m : Mbx) : Statement (.aptCommit m) := fun h => mbxOk_ports (by simpa [Instr.wf] using h)
theorem aptSwitch (p : Nat) : Statement (.aptSwitch p) := by simp_all [Statement, Instr.ports, Instr.wf, portOk]
theorem leaseTake (m : Mbx) : Statement (.leaseTake m) := fun h => mbxOk_ports (by simpa [Instr.wf] using h)
theorem leaseDrop (m : Mbx) : Statement (.leaseDrop m) := fun h => mbxOk_ports (by simpa [Instr.wf] using h)
theorem leaseResolve (m : Mbx) : Statement (.leaseResolve m) := fun h => mbxOk_ports (by simpa [Instr.wf] using h)
theorem leaseTorn (p : Nat) : Statement (.leaseTorn p) := by simp_all [Statement, Instr.ports, Instr.wf, portOk]
theorem pin (m : Mbx) : Statement (.pin m) := fun h => mbxOk_ports (by simpa [Instr.wf] using h)
theorem unpin (m : Mbx) : Statement (.unpin m) := fun h => mbxOk_ports (by simpa [Instr.wf] using h)
theorem migPolicyGlobal (m : Mbx) : Statement (.migPolicyGlobal m) := fun h => mbxOk_ports (by simpa [Instr.wf] using h)
theorem migPolicyExtent (m : Mbx) : Statement (.migPolicyExtent m) := fun h => mbxOk_ports (by simpa [Instr.wf] using h)
theorem migPolicyRead (m : Mbx) : Statement (.migPolicyRead m) := fun h => mbxOk_ports (by simpa [Instr.wf] using h)
theorem draftLoad (m : Mbx) : Statement (.draftLoad m) := fun h => mbxOk_ports (by simpa [Instr.wf] using h)
theorem draftUnload (m : Mbx) : Statement (.draftUnload m) := fun h => mbxOk_ports (by simpa [Instr.wf] using h)
theorem draftStart (m : Mbx) : Statement (.draftStart m) := fun h => mbxOk_ports (by simpa [Instr.wf] using h)
theorem draftStop (m : Mbx) : Statement (.draftStop m) := fun h => mbxOk_ports (by simpa [Instr.wf] using h)
theorem draftQuery (m : Mbx) : Statement (.draftQuery m) := fun h => mbxOk_ports (by simpa [Instr.wf] using h)
theorem tieupSet (m : Mbx) : Statement (.tieupSet m) := fun h => mbxOk_ports (by simpa [Instr.wf] using h)
theorem tieupSetRead (m : Mbx) : Statement (.tieupSetRead m) := fun h => mbxOk_ports (by simpa [Instr.wf] using h)
theorem beatConfig (m : Mbx) : Statement (.beatConfig m) := fun h => mbxOk_ports (by simpa [Instr.wf] using h)
theorem beatConfigRead (m : Mbx) : Statement (.beatConfigRead m) := fun h => mbxOk_ports (by simpa [Instr.wf] using h)
theorem shuttleRun (m : Mbx) : Statement (.shuttleRun m) := fun h => mbxOk_ports (by simpa [Instr.wf] using h)
theorem shuttleListRead (e : Nat) : Statement (.shuttleListRead e) := fun _ _ h => nomatch h
theorem descriptorStart (e : Nat) : Statement (.descriptorStart e) := fun _ _ h => nomatch h
theorem shuttleBlockIssue (e : Nat) : Statement (.shuttleBlockIssue e) := fun _ _ h => nomatch h
theorem pullTimeout (e tag : Nat) : Statement (.pullTimeout e tag) := fun _ _ h => nomatch h
theorem descriptorWriteBack (e : Nat) : Statement (.descriptorWriteBack e) := fun _ _ h => nomatch h
theorem shuttleAbort (m : Mbx) : Statement (.shuttleAbort m) := fun h => mbxOk_ports (by simpa [Instr.wf] using h)
theorem boltLoad (m : Mbx) : Statement (.boltLoad m) := fun h => mbxOk_ports (by simpa [Instr.wf] using h)
theorem boltChunk (e : Nat) : Statement (.boltChunk e) := fun _ _ h => nomatch h
theorem boltIssuersAdd (m : Mbx) : Statement (.boltIssuersAdd m) := fun h => mbxOk_ports (by simpa [Instr.wf] using h)
theorem boltIssuersRemove (m : Mbx) : Statement (.boltIssuersRemove m) := fun h => mbxOk_ports (by simpa [Instr.wf] using h)
theorem boltIssuersList (m : Mbx) : Statement (.boltIssuersList m) := fun h => mbxOk_ports (by simpa [Instr.wf] using h)
theorem spdmMsg (m : Mbx) : Statement (.spdmMsg m) := fun h => mbxOk_ports (by simpa [Instr.wf] using h)
theorem mctpSpdmMessage (msg : List Byte) : Statement (.mctpSpdmMessage msg) := fun _ _ h => nomatch h
theorem keyAgree (m : Mbx) : Statement (.keyAgree m) := fun h => mbxOk_ports (by simpa [Instr.wf] using h)
theorem bounceAdd (m : Mbx) : Statement (.bounceAdd m) := fun h => mbxOk_ports (by simpa [Instr.wf] using h)
theorem bounceRemove (m : Mbx) : Statement (.bounceRemove m) := fun h => mbxOk_ports (by simpa [Instr.wf] using h)
theorem bounceList (m : Mbx) : Statement (.bounceList m) := fun h => mbxOk_ports (by simpa [Instr.wf] using h)
theorem rasQuerySummary (m : Mbx) : Statement (.rasQuerySummary m) := fun h => mbxOk_ports (by simpa [Instr.wf] using h)
theorem rasQueryList (m : Mbx) : Statement (.rasQueryList m) := fun h => mbxOk_ports (by simpa [Instr.wf] using h)
theorem ceTableRead (m : Mbx) : Statement (.ceTableRead m) := fun h => mbxOk_ports (by simpa [Instr.wf] using h)
theorem copyLow (m : Mbx) : Statement (.copyLow m) := fun h => mbxOk_ports (by simpa [Instr.wf] using h)
theorem copyHigh (m : Mbx) : Statement (.copyHigh m) := fun h => mbxOk_ports (by simpa [Instr.wf] using h)
theorem rewrite (m : Mbx) : Statement (.rewrite m) := fun h => mbxOk_ports (by simpa [Instr.wf] using h)
theorem scrubConfig (m : Mbx) : Statement (.scrubConfig m) := fun h => mbxOk_ports (by simpa [Instr.wf] using h)
theorem fwStage (m : Mbx) : Statement (.fwStage m) := fun h => mbxOk_ports (by simpa [Instr.wf] using h)
theorem fwStageDiscard (m : Mbx) : Statement (.fwStageDiscard m) := fun h => mbxOk_ports (by simpa [Instr.wf] using h)
theorem fwActivate (m : Mbx) : Statement (.fwActivate m) := fun h => mbxOk_ports (by simpa [Instr.wf] using h)
theorem fuseProgramInstaller (m : Mbx) : Statement (.fuseProgramInstaller m) := fun h => mbxOk_ports (by simpa [Instr.wf] using h)
theorem restoreKey (m : Mbx) : Statement (.restoreKey m) := fun h => mbxOk_ports (by simpa [Instr.wf] using h)
theorem fuseProgramRollback (m : Mbx) : Statement (.fuseProgramRollback m) := fun h => mbxOk_ports (by simpa [Instr.wf] using h)
theorem fuseProgramDebugDisable (m : Mbx) :
    Statement (.fuseProgramDebugDisable m) := fun h => mbxOk_ports (by simpa [Instr.wf] using h)
theorem auditRead (m : Mbx) : Statement (.auditRead m) := fun h => mbxOk_ports (by simpa [Instr.wf] using h)
theorem slotPowerOn (m : Mbx) : Statement (.slotPowerOn m) := fun h => mbxOk_ports (by simpa [Instr.wf] using h)
theorem slotPowerOff (m : Mbx) : Statement (.slotPowerOff m) := fun h => mbxOk_ports (by simpa [Instr.wf] using h)
theorem slotCancel (m : Mbx) : Statement (.slotCancel m) := fun h => mbxOk_ports (by simpa [Instr.wf] using h)
theorem slotPortReset (m : Mbx) : Statement (.slotPortReset m) := fun h => mbxOk_ports (by simpa [Instr.wf] using h)
theorem setAttn (m : Mbx) : Statement (.setAttn m) := fun h => mbxOk_ports (by simpa [Instr.wf] using h)
theorem setPolicy (m : Mbx) : Statement (.setPolicy m) := fun h => mbxOk_ports (by simpa [Instr.wf] using h)
theorem telemetryRead (m : Mbx) : Statement (.telemetryRead m) := fun h => mbxOk_ports (by simpa [Instr.wf] using h)
theorem makerUnlock (m : Mbx) : Statement (.makerUnlock m) := fun h => mbxOk_ports (by simpa [Instr.wf] using h)
theorem presenceGained (p : Nat) : Statement (.presenceGained p) := by simp_all [Statement, Instr.ports, Instr.wf, portOk]
theorem presenceLost (p : Nat) : Statement (.presenceLost p) := by simp_all [Statement, Instr.ports, Instr.wf, portOk]
theorem buttonPress (p : Nat) : Statement (.buttonPress p) := by simp_all [Statement, Instr.ports, Instr.wf, portOk]
theorem powerFault (p : Nat) : Statement (.powerFault p) := by simp_all [Statement, Instr.ports, Instr.wf, portOk]
theorem trainingStart (p : Nat) : Statement (.trainingStart p) := by simp_all [Statement, Instr.ports, Instr.wf, portOk]
theorem linkTrained (p width : Nat) : Statement (.linkTrained p width) := by simp_all [Statement, Instr.ports, Instr.wf, portOk]
theorem trainingRetry (p : Nat) : Statement (.trainingRetry p) := by simp_all [Statement, Instr.ports, Instr.wf, portOk]
theorem holdTimeout (p : Nat) : Statement (.holdTimeout p) := by simp_all [Statement, Instr.ports, Instr.wf, portOk]
theorem drainStart (p : Nat) : Statement (.drainStart p) := by simp_all [Statement, Instr.ports, Instr.wf, portOk]
theorem drainEnd (p : Nat) : Statement (.drainEnd p) := by simp_all [Statement, Instr.ports, Instr.wf, portOk]
theorem linkFailure (p : Nat) : Statement (.linkFailure p) := by simp_all [Statement, Instr.ports, Instr.wf, portOk]
theorem powerOnReset : Statement .powerOnReset := fun _ _ h => nomatch h
theorem deviceReset : Statement .deviceReset := fun _ _ h => nomatch h
theorem resetNRelease : Statement .resetNRelease := fun _ _ h => nomatch h
theorem umpireRestart : Statement .umpireRestart := fun _ _ h => nomatch h
theorem engineReset : Statement .engineReset := fun _ _ h => nomatch h
theorem fwReady (forceSafeLow : Bool) (inputMv : Nat) : Statement (.fwReady forceSafeLow inputMv) := fun _ _ h => nomatch h
theorem watchdogExpiry : Statement .watchdogExpiry := fun _ _ h => nomatch h
theorem perstN : Statement .perstN := fun _ _ h => nomatch h
theorem registerWrite (off : Nat) (data : List Byte) : Statement (.registerWrite off data) := fun _ _ h => nomatch h
theorem badAccess (off len : Nat) : Statement (.badAccess off len) := fun _ _ h => nomatch h
theorem portDormantEnter (p : Nat) : Statement (.portDormantEnter p) := by simp_all [Statement, Instr.ports, Instr.wf, portOk]
theorem portDormantWake (p width : Nat) :
    Statement (.portDormantWake p width) := by simp_all [Statement, Instr.ports, Instr.wf, portOk]
theorem standbyEntry : Statement .standbyEntry := fun _ _ h => nomatch h
theorem standbyExit : Statement .standbyExit := fun _ _ h => nomatch h
theorem brace : Statement .brace := fun _ _ h => nomatch h
theorem braceRecovery : Statement .braceRecovery := fun _ _ h => nomatch h
theorem braceTimeout : Statement .braceTimeout := fun _ _ h => nomatch h
theorem brownOut : Statement .brownOut := fun _ _ h => nomatch h
theorem supplyHigh : Statement .supplyHigh := fun _ _ h => nomatch h
theorem inputRangeAlert : Statement .inputRangeAlert := fun _ _ h => nomatch h
theorem thermalAlert : Statement .thermalAlert := fun _ _ h => nomatch h
theorem thermalAlertEnd : Statement .thermalAlertEnd := fun _ _ h => nomatch h
theorem thermtrip : Statement .thermtrip := fun _ _ h => nomatch h
theorem forceSafe : Statement .forceSafe := fun _ _ h => nomatch h
theorem entropyFail : Statement .entropyFail := fun _ _ h => nomatch h
theorem refclkLoss : Statement .refclkLoss := fun _ _ h => nomatch h
theorem inputRangeAlertEnd : Statement .inputRangeAlertEnd := fun _ _ h => nomatch h
theorem refclkReturn : Statement .refclkReturn := fun _ _ h => nomatch h
theorem perstNRelease : Statement .perstNRelease := fun _ _ h => nomatch h
theorem lowerHalfRead (off : Nat) : Statement (.lowerHalfRead off) := fun _ _ h => nomatch h
theorem telemetryWindowEnd (sample : TelSample) : Statement (.telemetryWindowEnd sample) := fun _ _ h => nomatch h
theorem thermalResetHoldEnd : Statement .thermalResetHoldEnd := fun _ _ h => nomatch h
theorem railLeavesRegulation : Statement .railLeavesRegulation := fun _ _ h => nomatch h

end Laws.PortsExist

end Sys2Proof
end

