-- ==== Sys2Proof/Laws/Waiter.lean ====
section
/-! SUPPORT. What the operations that ready a waiting command, set slot bits and end leases leave alone, and when nothing waits
for a thing. -/

namespace Sys2Proof.Machine

theorem State.markReady_eq (s : State) (m : Mbx) (st : Nat) (b : List Byte) :
    ∃ f, s.markReady m st b = s.modMbox m f := ⟨_, rfl⟩

@[simp] theorem State.markReady_time (s : State) (m : Mbx) (st : Nat) (b : List Byte) : (s.markReady m st b).time = s.time := rfl
@[simp] theorem State.markReady_tie (s : State) (m : Mbx) (st : Nat) (b : List Byte) : (s.markReady m st b).tie = s.tie := rfl
@[simp] theorem State.markReady_exts (s : State) (m : Mbx) (st : Nat) (b : List Byte) : (s.markReady m st b).exts = s.exts := rfl
@[simp] theorem State.markReady_ctxs (s : State) (m : Mbx) (st : Nat) (b : List Byte) : (s.markReady m st b).ctxs = s.ctxs := rfl
@[simp] theorem State.markReady_leases (s : State) (m : Mbx) (st : Nat) (b : List Byte) : (s.markReady m st b).leases = s.leases := rfl
@[simp] theorem State.markReady_pins (s : State) (m : Mbx) (st : Nat) (b : List Byte) : (s.markReady m st b).pins = s.pins := rfl
@[simp] theorem State.markReady_tier (s : State) (m : Mbx) (st : Nat) (b : List Byte) : (s.markReady m st b).tier = s.tier := rfl
@[simp] theorem State.markReady_nearMem (s : State) (m : Mbx) (st : Nat) (b : List Byte) : (s.markReady m st b).nearMem = s.nearMem := rfl
@[simp] theorem State.markReady_farMem (s : State) (m : Mbx) (st : Nat) (b : List Byte) : (s.markReady m st b).farMem = s.farMem := rfl
@[simp] theorem State.markReady_reqs (s : State) (m : Mbx) (st : Nat) (b : List Byte) : (s.markReady m st b).reqs = s.reqs := rfl
@[simp] theorem State.markReady_nextReq (s : State) (m : Mbx) (st : Nat) (b : List Byte) : (s.markReady m st b).nextReq = s.nextReq := rfl
@[simp] theorem State.markReady_ports (s : State) (m : Mbx) (st : Nat) (b : List Byte) : (s.markReady m st b).ports = s.ports := rfl
@[simp] theorem State.markReady_slots (s : State) (m : Mbx) (st : Nat) (b : List Byte) : (s.markReady m st b).slots = s.slots := rfl
@[simp] theorem State.markReady_engines (s : State) (m : Mbx) (st : Nat) (b : List Byte) : (s.markReady m st b).engines = s.engines := rfl
@[simp] theorem State.markReady_loom (s : State) (m : Mbx) (st : Nat) (b : List Byte) : (s.markReady m st b).loom = s.loom := rfl
@[simp] theorem State.markReady_nor (s : State) (m : Mbx) (st : Nat) (b : List Byte) : (s.markReady m st b).nor = s.nor := rfl
@[simp] theorem State.markReady_fuses (s : State) (m : Mbx) (st : Nat) (b : List Byte) : (s.markReady m st b).fuses = s.fuses := rfl
@[simp] theorem State.markReady_ras (s : State) (m : Mbx) (st : Nat) (b : List Byte) : (s.markReady m st b).ras = s.ras := rfl
@[simp] theorem State.markReady_far (s : State) (m : Mbx) (st : Nat) (b : List Byte) : (s.markReady m st b).far = s.far := rfl
@[simp] theorem State.markReady_power (s : State) (m : Mbx) (st : Nat) (b : List Byte) : (s.markReady m st b).power = s.power := rfl
@[simp] theorem State.markReady_tel (s : State) (m : Mbx) (st : Nat) (b : List Byte) : (s.markReady m st b).tel = s.tel := rfl
@[simp] theorem State.markReady_regs (s : State) (m : Mbx) (st : Nat) (b : List Byte) : (s.markReady m st b).regs = s.regs := rfl
@[simp] theorem State.markReady_freeCount (s : State) (m : Mbx) (st : Nat) (b : List Byte) : (s.markReady m st b).freeCount = s.freeCount := rfl
@[simp] theorem State.markReady_pending (s : State) (m : Mbx) (st : Nat) (b : List Byte) : (s.markReady m st b).pending = s.pending := rfl

@[simp] theorem State.readyWaiter_time (s : State) (w : WaitFor) (st : Nat) (b : List Byte) :
    (s.readyWaiter w st b).time = s.time := by
  unfold State.readyWaiter; split <;> rfl

@[simp] theorem State.readyWaiter_tie (s : State) (w : WaitFor) (st : Nat) (b : List Byte) :
    (s.readyWaiter w st b).tie = s.tie := by
  unfold State.readyWaiter; split <;> rfl

@[simp] theorem State.readyWaiter_exts (s : State) (w : WaitFor) (st : Nat) (b : List Byte) :
    (s.readyWaiter w st b).exts = s.exts := by
  unfold State.readyWaiter; split <;> rfl

@[simp] theorem State.readyWaiter_ctxs (s : State) (w : WaitFor) (st : Nat) (b : List Byte) :
    (s.readyWaiter w st b).ctxs = s.ctxs := by
  unfold State.readyWaiter; split <;> rfl

@[simp] theorem State.readyWaiter_leases (s : State) (w : WaitFor) (st : Nat) (b : List Byte) :
    (s.readyWaiter w st b).leases = s.leases := by
  unfold State.readyWaiter; split <;> rfl

@[simp] theorem State.readyWaiter_pins (s : State) (w : WaitFor) (st : Nat) (b : List Byte) :
    (s.readyWaiter w st b).pins = s.pins := by
  unfold State.readyWaiter; split <;> rfl

@[simp] theorem State.readyWaiter_tier (s : State) (w : WaitFor) (st : Nat) (b : List Byte) :
    (s.readyWaiter w st b).tier = s.tier := by
  unfold State.readyWaiter; split <;> rfl

@[simp] theorem State.readyWaiter_nearMem (s : State) (w : WaitFor) (st : Nat) (b : List Byte) :
    (s.readyWaiter w st b).nearMem = s.nearMem := by
  unfold State.readyWaiter; split <;> rfl

@[simp] theorem State.readyWaiter_farMem (s : State) (w : WaitFor) (st : Nat) (b : List Byte) :
    (s.readyWaiter w st b).farMem = s.farMem := by
  unfold State.readyWaiter; split <;> rfl

@[simp] theorem State.readyWaiter_reqs (s : State) (w : WaitFor) (st : Nat) (b : List Byte) :
    (s.readyWaiter w st b).reqs = s.reqs := by
  unfold State.readyWaiter; split <;> rfl

@[simp] theorem State.readyWaiter_nextReq (s : State) (w : WaitFor) (st : Nat) (b : List Byte) :
    (s.readyWaiter w st b).nextReq = s.nextReq := by
  unfold State.readyWaiter; split <;> rfl

@[simp] theorem State.readyWaiter_ports (s : State) (w : WaitFor) (st : Nat) (b : List Byte) :
    (s.readyWaiter w st b).ports = s.ports := by
  unfold State.readyWaiter; split <;> rfl

@[simp] theorem State.readyWaiter_slots (s : State) (w : WaitFor) (st : Nat) (b : List Byte) :
    (s.readyWaiter w st b).slots = s.slots := by
  unfold State.readyWaiter; split <;> rfl

@[simp] theorem State.readyWaiter_engines (s : State) (w : WaitFor) (st : Nat) (b : List Byte) :
    (s.readyWaiter w st b).engines = s.engines := by
  unfold State.readyWaiter; split <;> rfl

@[simp] theorem State.readyWaiter_loom (s : State) (w : WaitFor) (st : Nat) (b : List Byte) :
    (s.readyWaiter w st b).loom = s.loom := by
  unfold State.readyWaiter; split <;> rfl

@[simp] theorem State.readyWaiter_nor (s : State) (w : WaitFor) (st : Nat) (b : List Byte) :
    (s.readyWaiter w st b).nor = s.nor := by
  unfold State.readyWaiter; split <;> rfl

@[simp] theorem State.readyWaiter_fuses (s : State) (w : WaitFor) (st : Nat) (b : List Byte) :
    (s.readyWaiter w st b).fuses = s.fuses := by
  unfold State.readyWaiter; split <;> rfl

@[simp] theorem State.readyWaiter_ras (s : State) (w : WaitFor) (st : Nat) (b : List Byte) :
    (s.readyWaiter w st b).ras = s.ras := by
  unfold State.readyWaiter; split <;> rfl

@[simp] theorem State.readyWaiter_far (s : State) (w : WaitFor) (st : Nat) (b : List Byte) :
    (s.readyWaiter w st b).far = s.far := by
  unfold State.readyWaiter; split <;> rfl

@[simp] theorem State.readyWaiter_power (s : State) (w : WaitFor) (st : Nat) (b : List Byte) :
    (s.readyWaiter w st b).power = s.power := by
  unfold State.readyWaiter; split <;> rfl

@[simp] theorem State.readyWaiter_tel (s : State) (w : WaitFor) (st : Nat) (b : List Byte) :
    (s.readyWaiter w st b).tel = s.tel := by
  unfold State.readyWaiter; split <;> rfl

@[simp] theorem State.readyWaiter_regs (s : State) (w : WaitFor) (st : Nat) (b : List Byte) :
    (s.readyWaiter w st b).regs = s.regs := by
  unfold State.readyWaiter; split <;> rfl

@[simp] theorem State.readyWaiter_freeCount (s : State) (w : WaitFor) (st : Nat) (b : List Byte) :
    (s.readyWaiter w st b).freeCount = s.freeCount := by
  unfold State.readyWaiter; split <;> rfl

@[simp] theorem State.readyWaiter_pending (s : State) (w : WaitFor) (st : Nat) (b : List Byte) :
    (s.readyWaiter w st b).pending = s.pending := by
  unfold State.readyWaiter; split <;> rfl

@[simp] theorem State.readyWaiter_deferred (s : State) (w : WaitFor) (st : Nat) (b : List Byte) :
    (s.readyWaiter w st b).umpire.deferred = s.umpire.deferred := by
  unfold State.readyWaiter; split <;> rfl

@[simp] theorem State.readyWaiter_keys (s : State) (w : WaitFor) (st : Nat) (b : List Byte) :
    (s.readyWaiter w st b).umpire.mboxes.map (·.1) = s.umpire.mboxes.map (·.1) := by
  unfold State.readyWaiter; split
  · exact State.modMbox_keys ..
  · rfl

/-- The commands that wait for leases apart, ending leases removes them and nothing else. -/
theorem State.foldl_fields {α β : Type} (p : State → β) (f : State → α → State) (hf : ∀ s x, p (f s x) = p s) (l : List α) (s : State) :
    p (l.foldl f s) = p s := by
  induction l generalizing s with
  | nil => rfl
  | cons x t ih => rw [List.foldl_cons, ih, hf]

@[simp] theorem State.endLeases_time (s : State) (w : Lease → Bool) : (s.endLeases w).time = s.time := by
  unfold State.endLeases; dsimp only; rw [State.foldl_fields State.time _ (fun s x => by simp)]; rfl

@[simp] theorem State.endLeases_tie (s : State) (w : Lease → Bool) : (s.endLeases w).tie = s.tie := by
  unfold State.endLeases; dsimp only; rw [State.foldl_fields State.tie _ (fun s x => by simp)]; rfl

@[simp] theorem State.endLeases_exts (s : State) (w : Lease → Bool) : (s.endLeases w).exts = s.exts := by
  unfold State.endLeases; dsimp only; rw [State.foldl_fields State.exts _ (fun s x => by simp)]; rfl

@[simp] theorem State.endLeases_ctxs (s : State) (w : Lease → Bool) : (s.endLeases w).ctxs = s.ctxs := by
  unfold State.endLeases; dsimp only; rw [State.foldl_fields State.ctxs _ (fun s x => by simp)]; rfl

@[simp] theorem State.endLeases_leases (s : State) (w : Lease → Bool) :
    (s.endLeases w).leases = s.leases.filter fun kv => !w kv.2 := by
  unfold State.endLeases; dsimp only; rw [State.foldl_fields State.leases _ (fun s x => by simp)]; rfl

@[simp] theorem State.endLeases_pins (s : State) (w : Lease → Bool) : (s.endLeases w).pins = s.pins := by
  unfold State.endLeases; dsimp only; rw [State.foldl_fields State.pins _ (fun s x => by simp)]; rfl

@[simp] theorem State.endLeases_tier (s : State) (w : Lease → Bool) : (s.endLeases w).tier = s.tier := by
  unfold State.endLeases; dsimp only; rw [State.foldl_fields State.tier _ (fun s x => by simp)]; rfl

@[simp] theorem State.endLeases_nearMem (s : State) (w : Lease → Bool) : (s.endLeases w).nearMem = s.nearMem := by
  unfold State.endLeases; dsimp only; rw [State.foldl_fields State.nearMem _ (fun s x => by simp)]; rfl

@[simp] theorem State.endLeases_farMem (s : State) (w : Lease → Bool) : (s.endLeases w).farMem = s.farMem := by
  unfold State.endLeases; dsimp only; rw [State.foldl_fields State.farMem _ (fun s x => by simp)]; rfl

@[simp] theorem State.endLeases_reqs (s : State) (w : Lease → Bool) : (s.endLeases w).reqs = s.reqs := by
  unfold State.endLeases; dsimp only; rw [State.foldl_fields State.reqs _ (fun s x => by simp)]; rfl

@[simp] theorem State.endLeases_nextReq (s : State) (w : Lease → Bool) : (s.endLeases w).nextReq = s.nextReq := by
  unfold State.endLeases; dsimp only; rw [State.foldl_fields State.nextReq _ (fun s x => by simp)]; rfl

@[simp] theorem State.endLeases_ports (s : State) (w : Lease → Bool) : (s.endLeases w).ports = s.ports := by
  unfold State.endLeases; dsimp only; rw [State.foldl_fields State.ports _ (fun s x => by simp)]; rfl

@[simp] theorem State.endLeases_slots (s : State) (w : Lease → Bool) : (s.endLeases w).slots = s.slots := by
  unfold State.endLeases; dsimp only; rw [State.foldl_fields State.slots _ (fun s x => by simp)]; rfl

@[simp] theorem State.endLeases_engines (s : State) (w : Lease → Bool) : (s.endLeases w).engines = s.engines := by
  unfold State.endLeases; dsimp only; rw [State.foldl_fields State.engines _ (fun s x => by simp)]; rfl

@[simp] theorem State.endLeases_loom (s : State) (w : Lease → Bool) : (s.endLeases w).loom = s.loom := by
  unfold State.endLeases; dsimp only; rw [State.foldl_fields State.loom _ (fun s x => by simp)]; rfl

@[simp] theorem State.endLeases_nor (s : State) (w : Lease → Bool) : (s.endLeases w).nor = s.nor := by
  unfold State.endLeases; dsimp only; rw [State.foldl_fields State.nor _ (fun s x => by simp)]; rfl

@[simp] theorem State.endLeases_fuses (s : State) (w : Lease → Bool) : (s.endLeases w).fuses = s.fuses := by
  unfold State.endLeases; dsimp only; rw [State.foldl_fields State.fuses _ (fun s x => by simp)]; rfl

@[simp] theorem State.endLeases_ras (s : State) (w : Lease → Bool) : (s.endLeases w).ras = s.ras := by
  unfold State.endLeases; dsimp only; rw [State.foldl_fields State.ras _ (fun s x => by simp)]; rfl

@[simp] theorem State.endLeases_far (s : State) (w : Lease → Bool) : (s.endLeases w).far = s.far := by
  unfold State.endLeases; dsimp only; rw [State.foldl_fields State.far _ (fun s x => by simp)]; rfl

@[simp] theorem State.endLeases_power (s : State) (w : Lease → Bool) : (s.endLeases w).power = s.power := by
  unfold State.endLeases; dsimp only; rw [State.foldl_fields State.power _ (fun s x => by simp)]; rfl

@[simp] theorem State.endLeases_tel (s : State) (w : Lease → Bool) : (s.endLeases w).tel = s.tel := by
  unfold State.endLeases; dsimp only; rw [State.foldl_fields State.tel _ (fun s x => by simp)]; rfl

@[simp] theorem State.endLeases_regs (s : State) (w : Lease → Bool) : (s.endLeases w).regs = s.regs := by
  unfold State.endLeases; dsimp only; rw [State.foldl_fields State.regs _ (fun s x => by simp)]; rfl

@[simp] theorem State.endLeases_freeCount (s : State) (w : Lease → Bool) : (s.endLeases w).freeCount = s.freeCount := by
  unfold State.endLeases; dsimp only; rw [State.foldl_fields State.freeCount _ (fun s x => by simp)]; rfl

@[simp] theorem State.endLeases_pending (s : State) (w : Lease → Bool) : (s.endLeases w).pending = s.pending := by
  unfold State.endLeases; dsimp only; rw [State.foldl_fields State.pending _ (fun s x => by simp)]; rfl

@[simp] theorem State.endLeases_deferred (s : State) (w : Lease → Bool) : (s.endLeases w).umpire.deferred = s.umpire.deferred := by
  unfold State.endLeases; dsimp only
  rw [State.foldl_fields (fun t : State => t.umpire.deferred) _ (fun s x => by simp)]; rfl

@[simp] theorem State.setSts_time (s : State) (p i : Nat) : (s.setSts p i).time = s.time := by
  unfold State.setSts; dsimp only; split <;> rfl

@[simp] theorem State.setSts_tie (s : State) (p i : Nat) : (s.setSts p i).tie = s.tie := by
  unfold State.setSts; dsimp only; split <;> rfl

@[simp] theorem State.setSts_exts (s : State) (p i : Nat) : (s.setSts p i).exts = s.exts := by
  unfold State.setSts; dsimp only; split <;> rfl

@[simp] theorem State.setSts_ctxs (s : State) (p i : Nat) : (s.setSts p i).ctxs = s.ctxs := by
  unfold State.setSts; dsimp only; split <;> rfl

@[simp] theorem State.setSts_leases (s : State) (p i : Nat) : (s.setSts p i).leases = s.leases := by
  unfold State.setSts; dsimp only; split <;> rfl

@[simp] theorem State.setSts_pins (s : State) (p i : Nat) : (s.setSts p i).pins = s.pins := by
  unfold State.setSts; dsimp only; split <;> rfl

@[simp] theorem State.setSts_tier (s : State) (p i : Nat) : (s.setSts p i).tier = s.tier := by
  unfold State.setSts; dsimp only; split <;> rfl

@[simp] theorem State.setSts_nearMem (s : State) (p i : Nat) : (s.setSts p i).nearMem = s.nearMem := by
  unfold State.setSts; dsimp only; split <;> rfl

@[simp] theorem State.setSts_farMem (s : State) (p i : Nat) : (s.setSts p i).farMem = s.farMem := by
  unfold State.setSts; dsimp only; split <;> rfl

@[simp] theorem State.setSts_reqs (s : State) (p i : Nat) : (s.setSts p i).reqs = s.reqs := by
  unfold State.setSts; dsimp only; split <;> rfl

@[simp] theorem State.setSts_nextReq (s : State) (p i : Nat) : (s.setSts p i).nextReq = s.nextReq := by
  unfold State.setSts; dsimp only; split <;> rfl

@[simp] theorem State.setSts_ports (s : State) (p i : Nat) : (s.setSts p i).ports = s.ports := by
  unfold State.setSts; dsimp only; split <;> rfl

@[simp] theorem State.setSts_engines (s : State) (p i : Nat) : (s.setSts p i).engines = s.engines := by
  unfold State.setSts; dsimp only; split <;> rfl

@[simp] theorem State.setSts_loom (s : State) (p i : Nat) : (s.setSts p i).loom = s.loom := by
  unfold State.setSts; dsimp only; split <;> rfl

@[simp] theorem State.setSts_nor (s : State) (p i : Nat) : (s.setSts p i).nor = s.nor := by
  unfold State.setSts; dsimp only; split <;> rfl

@[simp] theorem State.setSts_fuses (s : State) (p i : Nat) : (s.setSts p i).fuses = s.fuses := by
  unfold State.setSts; dsimp only; split <;> rfl

@[simp] theorem State.setSts_ras (s : State) (p i : Nat) : (s.setSts p i).ras = s.ras := by
  unfold State.setSts; dsimp only; split <;> rfl

@[simp] theorem State.setSts_far (s : State) (p i : Nat) : (s.setSts p i).far = s.far := by
  unfold State.setSts; dsimp only; split <;> rfl

@[simp] theorem State.setSts_power (s : State) (p i : Nat) : (s.setSts p i).power = s.power := by
  unfold State.setSts; dsimp only; split <;> rfl

@[simp] theorem State.setSts_tel (s : State) (p i : Nat) : (s.setSts p i).tel = s.tel := by
  unfold State.setSts; dsimp only; split <;> rfl

@[simp] theorem State.setSts_freeCount (s : State) (p i : Nat) : (s.setSts p i).freeCount = s.freeCount := by
  unfold State.setSts; dsimp only; split <;> rfl

@[simp] theorem State.setSts_pending (s : State) (p i : Nat) : (s.setSts p i).pending = s.pending := by
  unfold State.setSts; dsimp only; split <;> rfl

@[simp] theorem State.setSts_umpire (s : State) (p i : Nat) : (s.setSts p i).umpire = s.umpire := by
  unfold State.setSts; dsimp only; split <;> rfl

@[simp] theorem State.setSts_slots (s : State) (p i : Nat) :
    (s.setSts p i).slots = List.modifyAt s.slots p fun t => { t with sts := t.sts ||| BitVec.ofNat 5 (2 ^ i) } := by
  unfold State.setSts; dsimp only; split <;> rfl

/-! ### Which commands wait -/

/-- Nothing waits for `p` exactly where no mailbox holds a command that waits, not yet ready, for it. -/
theorem State.isWaiting_false {s : State} {p : WaitFor → Bool} :
    s.isWaiting p = false ↔ ∀ x ∈ s.umpire.mboxes, ∀ w, x.2.wait = some w → w.ready = false → p w.what = false := by
  have hp : ∀ x : Mbx × Mailbox, (match x.2.wait with | some w => p w.what && !w.ready | none => false) = false ↔
      ∀ w, x.2.wait = some w → w.ready = false → p w.what = false := by
    intro x
    cases h : x.2.wait with
    | none => simp
    | some w => cases hr : w.ready <;> simp [hr]
  simp only [State.isWaiting, State.waiting, Bool.not_eq_false', List.isEmpty_iff, List.map_eq_nil_iff, List.filter_eq_nil_iff,
    Bool.not_eq_true]
  exact forall_congr' fun x => imp_congr_right fun _ => hp x

/-- A mailbox that loses its waiting command, or keeps it as it is, gives nothing new to wait for. -/
theorem State.isWaiting_modMbox {s : State} {p : WaitFor → Bool} (h : s.isWaiting p = false) (m : Mbx) (f : Mailbox → Mailbox)
    (hf : ∀ b, (f b).wait = none ∨ (f b).wait = b.wait) : (s.modMbox m f).isWaiting p = false := by
  rw [State.isWaiting_false] at h ⊢
  intro x hx w hw hr
  obtain ⟨y, hy, rfl⟩ := List.mem_map.1 hx
  split at hw
  · rcases hf y.2 with he | he <;> rw [he] at hw
    · cases hw
    · exact h y hy w hw hr
  · exact h y hy w hw hr

theorem State.isWaiting_congr {s t : State} (h : t.umpire.mboxes = s.umpire.mboxes) (p : WaitFor → Bool) :
    t.isWaiting p = s.isWaiting p := by
  unfold State.isWaiting State.waiting; rw [h]

/-- A command that completes waits no longer, and no other begins to. -/
theorem State.isWaiting_complete {s : State} {p : WaitFor → Bool} (h : s.isWaiting p = false) (m : Mbx) (st : Nat)
    (body : List Byte) : (s.complete m st body).isWaiting p = false := by
  have ha := State.isWaiting_congr (State.mboxes_auditCommand s m st (s.respHeader m st body.length ++ body)) p
  unfold State.complete
  dsimp only
  rw [apply_ite (State.isWaiting · p)]
  split
  · rw [State.isWaiting_congr (State.mboxes_signalDone ..)]
    refine State.isWaiting_modMbox ?_ m _ fun b => .inl ?_
    · split <;> exact ha.trans h
    · split <;> rfl
  · refine State.isWaiting_modMbox ?_ m _ fun b => .inl ?_
    · split <;> exact ha.trans h
    · split <;> rfl

end Sys2Proof.Machine
end

