-- ==== Sys2Proof/Tests/Slice0.lean ====
section
/-! SUPPORT. Tests: worked examples of the spec, an ill-formed command for each check of `Instr.wf`, and for each statement with
hypotheses a named theorem that shows a state and operands that meet them, clause by clause. -/

open Sys2Proof Sys2Proof.Machine

namespace Sys2Proof.Tests

set_option Elab.async false
set_option maxRecDepth 100000

/-! ### Small states -/

/-- The generator of P-256 as public key of the private key 1. -/
def pubOne : List Byte := pointBytes (some p256G)

/-- An expander that serves commands, not commissioned: every mailbox is free. -/
def fresh : State :=
  { State.reset with
    umpire := { mboxes := allMbx.map (fun m => (m, { owner := false })), ready := true, starting := false, makerKey := pubOne }
    ras := {}
    nor := { installerKey := pubOne } }

/-- The same, commissioned, with every right granted. -/
def live : State :=
  { fresh with fuses := { shadow := (Mem.writeN Boot0.factoryFuses 0xA0 (List.replicate 24 0xFF#8)).write 0xFC 0x0F#8 } }

/-- A request: its mailbox, opcode, flags, body, KEY_ID, and the second half of its signature, made with the private key 1 and
the nonce 1 (spec/14_identity_roles.md R369). -/
structure Rq where
  m     : Mbx
  op    : Nat
  flags : Nat := 0
  body  : List Byte := []
  key   : Nat := 0
  sig   : Nat := 0

/-- The image of a request. -/
def Rq.image (q : Rq) : Mem :=
  Mem.writeN [] 0x100 (toLe 2 q.op ++ toLe 2 q.flags ++ toLe 4 7 ++ toLe 4 q.body.length ++ toLe 4 q.key ++ zeros 16 ++ q.body ++
    (if q.key = 0 then [] else toBe 32 p256G.1 ++ toBe 32 q.sig))

/-- A state whose next command is this request. -/
def Rq.on (q : Rq) (s : State) : State :=
  (s.modMbox q.m fun b => { b with owner := true, image := q.image }).modUmpire fun u => { u with queue := [q.m] }

/-- An operator's request, and one of the host on port 0. -/
def opq (op : Nat) (flags : Nat := 0) (body : List Byte := []) : Rq := { m := .operator, op := op, flags := flags, body := body }
def pq (op : Nat) (flags : Nat := 0) (body : List Byte := []) : Rq := { m := .port 0, op := op, flags := flags, body := body }

/-- What the check of a signature looks at. -/
theorem sig_look {a b : State} {m : Mbx} (hi : (a.mbox m).image = (b.mbox m).image) (hc : (a.mbox m).challenge = (b.mbox m).challenge)
    (hk : a.umpire.makerKey = b.umpire.makerKey) (hb : a.umpire.keyBad = b.umpire.keyBad)
    (hn : a.nor.installerKey = b.nor.installerKey) (hf : a.commissioned = b.commissioned) : a.sigOk m = b.sigOk m := by
  simp only [State.sigOk, State.keyId, State.opcode, State.rq, State.verifyKey, State.rqBytes, State.signedDigest, State.header,
    State.request, State.lengthOf, State.signature, hi, hc, hk, hb, hn, hf]
  rfl

/-- Taking a command leaves the image and the CHALLENGE of its mailbox. -/
theorem accept_keeps (s : State) (m : Mbx) :
    ((s.acceptMbx m).mbox m).image = (s.mbox m).image ∧ ((s.acceptMbx m).mbox m).challenge = (s.mbox m).challenge := by
  have h : ∀ f : Mailbox → Mailbox, (s.modMbox m f).mbox m = ((s.umpire.mboxes.find? fun x => x.1 == m).map fun x => f x.2).getD {} := by
    intro f
    simp only [State.mbox, State.modMbox, find_mapKey, Option.map_map]
    rfl
  rw [show (s.acceptMbx m).mbox m = (s.modMbox m fun b => { b with accepted := true, ctx := s.auditCtx m }).mbox m from rfl, h, State.mbox]
  cases s.umpire.mboxes.find? fun x => x.1 == m <;> exact ⟨rfl, rfl⟩

/-- The check of the signature of a request looks at its mailbox and the keys alone. -/
theorem sig_on (q : Rq) (s : State) (hm : s.umpire.mboxes = live.umpire.mboxes) (hk : s.umpire.makerKey = live.umpire.makerKey)
    (hb : s.umpire.keyBad = live.umpire.keyBad) (hi : s.nor.installerKey = live.nor.installerKey) (hf : s.fuses = live.fuses) :
    ((q.on s).acceptMbx q.m).sigOk q.m = ((q.on live).acceptMbx q.m).sigOk q.m := by
  have e : (q.on s).mbox q.m = (q.on live).mbox q.m := by
    simp only [Rq.on, State.mbox, State.modMbox, State.modUmpire, hm]
  refine sig_look ?_ ?_ hk hb hi (congrArg (fun f : Fuses => ({ live with fuses := f } : State).commissioned) hf)
  · rw [(accept_keeps _ _).1, (accept_keeps _ _).1, e]
  · rw [(accept_keeps _ _).2, (accept_keeps _ _).2, e]

/-- A command that passes every check. -/
theorem runs_of {s : State} {m : Mbx} {op : Nat} {form : Bool} (hs : (s.acceptMbx m).sigOk m = true)
    (h : s.HasMbx m ∧ s.accepts m op form = true ∧ (s.acceptMbx m).safeBlocks m = false ∧ (s.acceptMbx m).standbyBlocks m = false ∧
      (s.acceptMbx m).wellFormed m = true ∧ (s.acceptMbx m).keyIdOk m = true ∧ (s.acceptMbx m).commissionOk m = true ∧
      (s.acceptMbx m).rightsOk m = true ∧ (s.acceptMbx m).auditBlocks m = false) : s.Runs m op form := by
  obtain ⟨h0, h1, h2, h3, h4, h5, h6, h7, h8⟩ := h
  exact ⟨h0, h1, by simp [State.precheck, h2, h3, h4, h5, h6, h7, h8, hs]⟩

/-- What holds of the value of an option holds of every value it has. -/
theorem of_value {α : Type} {o : Option α} {v : α} {P : α → Prop} (h : o = some v) (hp : P v) : ∀ x, o = some x → P x := by
  intro x hx
  rw [h] at hx
  cases hx
  exact hp

/-- What holds of every listed extent holds of every extent. -/
theorem of_exts {s : State} {P : Nat → Extent → Prop} (h : ∀ kv ∈ s.exts, P kv.1 kv.2) : ∀ e y, s.ext? e = some y → P e y := by
  intro e y hy
  refine h (e, y) ?_
  have go : ∀ t : Table Extent, Table.get? t e = some y → (e, y) ∈ t := by
    intro t
    induction t with
    | nil => intro h; cases h
    | cons kv t ih =>
      intro h
      unfold Table.get? at h
      split at h
      · rename_i hk
        cases h
        rw [← hk]
        exact List.mem_cons_self
      · exact List.mem_cons_of_mem _ (ih h)
  exact go s.exts hy

/-- A PLAIN extent of one granule in group 0. -/
def ext0 : Extent := { base := 0, granules := 1, cls := .plain, src := .raw, groups := 1#4, ports := 0b111111#6, runs := [(0, 0)] }

/-- The same, granted to context 1 and shared with port 0. -/
def ext1 : Extent := { ext0 with st := .granted, owner := 1, share := 1#6 }

/-- A commissioned expander with a granted extent 0 of context 1, to which port 0 is attached, and a free extent 1. -/
def pool : State :=
  { live with
    exts := [(0, ext1), (1, { ext0 with base := 2 ^ 21, runs := [(0, 128)] })]
    ctxs := [(1, { ports := 1#6, seed := 0, memKey := zeros 64 })]
    ports := [{ ctx := some 1 }, {}, {}, {}, {}, {}] }

/-- A signed command that passes every check. -/
theorem Rq.runs (q : Rq) (s : State) (sig : ((q.on live).acceptMbx q.m).sigOk q.m = true) {op : Nat} {form : Bool}
    (h : (q.on s).HasMbx q.m ∧ (q.on s).accepts q.m op form = true ∧ ((q.on s).acceptMbx q.m).safeBlocks q.m = false ∧
      ((q.on s).acceptMbx q.m).standbyBlocks q.m = false ∧ ((q.on s).acceptMbx q.m).wellFormed q.m = true ∧
      ((q.on s).acceptMbx q.m).keyIdOk q.m = true ∧ ((q.on s).acceptMbx q.m).commissionOk q.m = true ∧
      ((q.on s).acceptMbx q.m).rightsOk q.m = true ∧ ((q.on s).acceptMbx q.m).auditBlocks q.m = false)
    (hm : s.umpire.mboxes = live.umpire.mboxes := by rfl) (hk : s.umpire.makerKey = live.umpire.makerKey := by rfl)
    (hb : s.umpire.keyBad = live.umpire.keyBad := by rfl) (hi : s.nor.installerKey = live.nor.installerKey := by rfl)
    (hf : s.fuses = live.fuses := by rfl) : (q.on s).Runs q.m op form :=
  runs_of ((sig_on q s hm hk hb hi hf).trans sig) h

/-- A signed command that passes every check, whatever else its state holds. -/
theorem Rq.runs_from (q : Rq) (b s : State) (sig : ((q.on b).acceptMbx q.m).sigOk q.m = true) {op : Nat} {form : Bool}
    (look : ((s.acceptMbx q.m).mbox q.m).image = (((q.on b).acceptMbx q.m).mbox q.m).image ∧
      ((s.acceptMbx q.m).mbox q.m).challenge = (((q.on b).acceptMbx q.m).mbox q.m).challenge ∧
      s.umpire.makerKey = b.umpire.makerKey ∧ s.umpire.keyBad = b.umpire.keyBad ∧ s.nor.installerKey = b.nor.installerKey ∧
      s.commissioned = b.commissioned)
    (h : s.HasMbx q.m ∧ s.accepts q.m op form = true ∧ (s.acceptMbx q.m).safeBlocks q.m = false ∧
      (s.acceptMbx q.m).standbyBlocks q.m = false ∧ (s.acceptMbx q.m).wellFormed q.m = true ∧
      (s.acceptMbx q.m).keyIdOk q.m = true ∧ (s.acceptMbx q.m).commissionOk q.m = true ∧
      (s.acceptMbx q.m).rightsOk q.m = true ∧ (s.acceptMbx q.m).auditBlocks q.m = false) : s.Runs q.m op form :=
  runs_of ((sig_look look.1 look.2.1 look.2.2.1 look.2.2.2.1 look.2.2.2.2.1 look.2.2.2.2.2).trans sig) h

/-- No unit of an expander without failed channels is lost. -/
theorem noneFailed {s : State} (h : s.nor.failedCh = 0) (l : Loc) : s.locFailed l = false := by
  cases l <;> simp [State.locFailed, State.chFailed, h]

/-! ### Witnesses: the machine as a whole, and mailboxes -/

theorem test_witness_StepRunsFrontCommand : State.reset.pending = [] := by decide +kernel

theorem test_witness_StepKeepsSound :
    ∃ s t : State, s.Sound ∧ s.pending = [.pickBoundary] ∧ step s = .next t :=
  ⟨{ State.reset with pending := [.pickBoundary] }, _, by decide +kernel, rfl, rfl⟩

theorem test_witness_MemoryReadsWhatWasWritten : Mem.wf Boot0.factoryFuses = true := by decide +kernel

theorem test_witness_BlownFusesStayBlown :
    ∃ t, Mem.wf State.reset.fuses.array = true ∧ exec .brownOut State.reset = .next t := ⟨_, by decide +kernel, rfl⟩

theorem test_witness_SafeLastsUntilReset :
    ∃ s t : State, s.power.safe = true ∧ exec .pickBoundary s = .next t ∧
      Instr.pickBoundary ≠ .powerOnReset ∧ Instr.pickBoundary ≠ .deviceReset ∧ Instr.pickBoundary ≠ .brownOut :=
  ⟨{ live with power := { safe := true, safeCause := 5, safeN := false, alertN := false } }, _, rfl, rfl, by decide +kernel⟩

theorem test_witness_OnlyDataMovesWriteTiers : ∃ t, exec (.rekey 0) live = .next t := ⟨_, rfl⟩

theorem test_witness_PicksPassAtBoundaries :
    (∃ t, exec (.rekey 0) live = .next t) ∧ (live.power.stage = 7 ∧ live.time.beatDue = false) ∧
      ({ live with power := { stage := 2 } } : State).power.stage ≠ 7 ∧ ({ live with time := { beatDue := true } } : State).time.beatDue = true :=
  ⟨⟨_, rfl⟩, by decide +kernel⟩

theorem test_witness_MailboxSubmitAndComplete :
    -- submitted; stored only; not served; a port in SAFE
    (live.HasMbx .operator ∧ live.served .operator = true ∧ live.power.safe = false ∧ (0x81#32).getLsbD 0 = true ∧
      (live.mbox .operator).owner = false) ∧
    (((opq 1).on live).HasMbx .operator ∧ ((opq 1).on live).served .operator = true ∧ (((opq 1).on live).mbox .operator).owner = true) ∧
    (State.reset.HasMbx (.port 5) ∧ State.reset.served (.port 5) = false) ∧
    (let s : State := { live with power := { safe := true } }
     s.HasMbx (.port 5) ∧ s.power.safe = true ∧ isManaged (.port 5) = false) ∧
    -- an opcode of no command; a command that waits, ready and not
    (((opq 0x7777).on live).HasMbx .operator ∧ ((opq 0x7777).on live).isNext .operator = true ∧
      cmdInfo (((opq 0x7777).on live).opcode .operator) = none ∧ ((opq 0x7777).on live).power.safe = false ∧
      ((opq 0x7777).on live).power.standbyBit = false) ∧
    (∀ r : Bool, let w : Wait := { what := .policy, ready := r }
      let s := live.modMbox .installer fun b => { b with owner := true, accepted := true, wait := some w }
      s.HasMbx .installer ∧ s.Still ∧ (s.mbox .installer).accepted = true ∧ (s.mbox .installer).wait = some w ∧ w.what ≠ .fuse) := by
  refine ⟨by decide +kernel, by decide +kernel, by decide +kernel, by decide +kernel, by decide +kernel, ?_⟩
  intro r w s
  refine ⟨?_, ⟨?_, fun e => ?_, ?_, ?_, ?_, ?_, ?_⟩, ?_, ?_, ?_⟩
  case refine_3 => cases r <;> rfl
  all_goals revert r; decide +kernel

theorem test_witness_AcceptanceChecks :
    -- not accepted next; a check that refuses
    (live.mailboxRow (.getCaps .operator) = some (.operator, 1, true) ∧ live.accepts .operator 1 true = false) ∧
    (let s := (opq 1 0 (zeros 8)).on live
     s.HasMbx .operator ∧ s.accepts .operator 1 true = true ∧ (s.acceptMbx .operator).precheck .operator = some mBadArg ∧
      -- an ill-formed header
      s.power.safe = false ∧ s.standbyBlocks .operator = false ∧ s.wellFormed .operator = false) ∧
    -- SAFE
    (let s := (opq 1).on { live with power := { safe := true } }
     s.HasMbx .operator ∧ s.accepts .operator 1 true = true ∧ s.power.safe = true ∧ Mbx.operator ≠ .service) ∧
    -- STANDBY
    (let s := (opq 0x0011 0 (zeros 8)).on { live with power := { standbyBit := true } }
     s.HasMbx .operator ∧ s.accepts .operator 0x0011 true = true ∧ s.power.safe = false ∧ s.standbyBlocks .operator = true) ∧
    -- a KEY_ID that does not fit
    (let s := ({ opq 1 with key := 1 } : Rq).on live
     s.HasMbx .operator ∧ s.accepts .operator 1 true = true ∧ s.standbyBlocks .operator = false ∧ s.wellFormed .operator = true ∧
      s.keyIdOk .operator = false) ∧
    -- a command that the commissioning state does not permit
    (let s := (opq 0x0011 0 (zeros 8)).on fresh
     s.HasMbx .operator ∧ s.accepts .operator 0x0011 true = true ∧ s.standbyBlocks .operator = false ∧ s.wellFormed .operator = true ∧
      s.keyIdOk .operator = true ∧ s.sigOk .operator = true ∧ s.commissionOk .operator = false) ∧
    -- a command that RIGHTS does not permit
    (let s := (opq 0x0071 1 (zeros 24)).on live
     s.HasMbx .operator ∧ s.accepts .operator 0x0071 (s.flag .operator 0) = true ∧ s.standbyBlocks .operator = false ∧
      s.wellFormed .operator = true ∧ s.keyIdOk .operator = true ∧ s.sigOk .operator = true ∧ s.commissionOk .operator = true ∧
      s.rightsOk .operator = false) := by
  refine ⟨?_, ?_, ?_, ?_, ?_, ?_, ?_⟩ <;> decide +kernel

theorem test_witness_AcceptanceChecks_signature :
    let s := ({ m := .installer, op := 0x0011, body := zeros 8, key := 1 } : Rq).on live
    (s.HasMbx .installer ∧ s.accepts .installer 0x0011 true = true ∧ s.power.safe = false ∧ s.standbyBlocks .installer = false ∧
      s.wellFormed .installer = true ∧ s.keyIdOk .installer = true ∧ s.keyId .installer = 1 ∧ s.commissioned = true) ∧
    ¬ ∃ k, s.verifyKey .installer = some k ∧ ecdsaVerify k (s.signedDigest .installer) (s.signature .installer) = true := by
  refine ⟨by decide +kernel, ?_⟩
  rintro ⟨k, hk, h⟩
  have e : (({ m := .installer, op := 0x0011, body := zeros 8, key := 1 } : Rq).on live).verifyKey .installer = some pubOne := by
    decide +kernel
  have n : ecdsaVerify pubOne ((({ m := .installer, op := 0x0011, body := zeros 8, key := 1 } : Rq).on live).signedDigest .installer)
    ((({ m := .installer, op := 0x0011, body := zeros 8, key := 1 } : Rq).on live).signature .installer) = false := by decide +kernel
  rw [e] at hk
  cases hk
  rw [n] at h
  cases h

theorem test_witness_DiscoveryAnswers :
    ((opq 1).on live).Runs .operator 0x0001 true ∧ ((pq 2).on pool).Runs (.port 0) 0x0002 true := by decide +kernel

theorem test_witness_Contexts :
    -- CTX_CREATE of context 2; of 64 and 254; with a failed entropy source
    (let s := (opq 0x0010 0 ([2, 2] ++ zeros 14)).on pool
     s.Shape ∧ s.Runs .operator 0x0010 (!s.flag .operator 0) ∧ s.ctx? 2 = none ∧ s.rq .operator 0 1 = 2 ∧
      (∀ p ∈ maskPorts (s.rqPorts .operator 1), s.hasPort p = true ∧ (s.port p).ctx = none) ∧ s.umpire.entropyFail = false ∧
      s.umpire.debugUnlocked = false ∧ s.ctxs.length < s.qContexts) ∧
    (let s := (opq 0x0010 0 ([0xFF, 0] ++ zeros 14)).on pool
     s.Runs .operator 0x0010 (!s.flag .operator 0) ∧ s.ctx? 0 = none ∧ s.rq .operator 0 1 = 0xFF) ∧
    (∀ n ∈ [64#8, 254#8], let s := (opq 0x0010 0 ([n, 2] ++ zeros 14)).on pool
      s.Runs .operator 0x0010 (!s.flag .operator 0) ∧ 64 ≤ s.rq .operator 0 1 ∧ s.rq .operator 0 1 ≤ 254) ∧
    (let s := (opq 0x0010 0 ([63, 2] ++ zeros 14)).on { pool with umpire := { pool.umpire with entropyFail := true } }
     s.Runs .operator 0x0010 (!s.flag .operator 0) ∧ s.rq .operator 0 1 < 64 ∧ s.ctx? (s.rq .operator 0 1) = none ∧
      (∀ p ∈ maskPorts (s.rqPorts .operator 1), s.hasPort p = true ∧ (s.port p).ctx = none) ∧ s.umpire.entropyFail = true) ∧
    -- an attachment change: port 1 in, port 0 out
    (let s := (opq 0x0010 1 ([1, 2] ++ zeros 14)).on pool
     ∃ c, s.Runs .operator 0x0010 (s.flag .operator 0) ∧ s.ctx? (s.rq .operator 0 1) = some c ∧ c.dying = none ∧ c.attach = none ∧
      (∀ p ∈ maskPorts (s.rqPorts .operator 1), s.hasPort p = true) ∧
      (∀ p ∈ maskPorts (c.ports &&& ~~~s.rqPorts .operator 1), s.pushesTo p = false) ∧
      ∀ p ∈ maskPorts (s.rqPorts .operator 1 &&& ~~~c.ports), (s.port p).ctx = none) ∧
    -- CTX_DESTROY of a live context, of a DESTROYING one, of none
    (∀ d ∈ [none, some Mbx.operator],
      let s := (opq 0x0011 0 ([1] ++ zeros 7)).on { pool with ctxs := [(1, { ports := 1#6, seed := 0, memKey := [], dying := d })] }
      s.Runs .operator 0x0011 true ∧ (s.ctx? (s.rq .operator 0 1)).map (·.dying) = some d) ∧
    (let s := (opq 0x0011 0 ([0] ++ zeros 7)).on pool
     s.Runs .operator 0x0011 true ∧ s.ctx? (s.rq .operator 0 1) = none) ∧
    -- the boundary of a destroy; the end of a key hold
    (∃ x : Ctx, let s : State := { pool with ctxs := [(1, x)] }
     s.ctx? 1 = some x ∧ x.dying.isSome = true ∧ x.q = none ∧ s.power.safe = false ∧ s.atBoundary = true ∧
      (∀ e y, s.ext? e = some y → y.revoking = false) ∧ s.pins = [] ∧ (∀ e, e < 8 → s.engine e = none) ∧ s.loom.drafts = []) ∧
    (let s : State := { live with ports := [{}, {}, {}, {}, {}, { hold := some 0 }] }
     s.Shape ∧ (s.port 5).hold = some 0 ∧ (s.port 5).arrivals = [] ∧ ∀ e, e < 8 → s.engine e = none) := by
  refine ⟨?_, ?_, ?_, ?_, ⟨{ ports := 1#6, seed := 0, memKey := zeros 64 }, ?_⟩, ?_, ?_,
    ⟨{ ports := 1#6, seed := 0, memKey := [], dying := some .operator }, ?_, ?_, ?_, ?_, ?_, of_exts ?_, ?_, ?_, ?_⟩, ?_⟩ <;> decide +kernel

/-- EXT_CREATE of one granule at 2 MiB, and of extent 0 with REMOVE. -/
def rqCreate : Rq := { m := .installer, op := 0x0020, key := 1, body := toLe 8 (2 ^ 21) ++ toLe 4 1 ++ [0, 0, 0, 0, 0, 1, 1] ++ zeros 5
                       sig := 0xAB73A2D8479C734871CF812BB56273EBCE4BBD116BD569C12DF271224D782455 }
def rqRemove : Rq := { m := .installer, op := 0x0020, flags := 1, key := 1, body := zeros 24
                       sig := 0xF9F7F203A677E940F7249A57FD81FDA78A6B3AFCEFA302104837DF3EE7FC130D }

theorem sig_create : ((rqCreate.on live).acceptMbx .installer).sigOk .installer = true := by decide +kernel
theorem sig_remove : ((rqRemove.on live).acceptMbx .installer).sigOk .installer = true := by decide +kernel

theorem test_witness_ExtentCreate :
    -- refused for an overlap; created
    (let s := rqCreate.on pool
     s.Runs .installer 0x0020 (!s.flag .installer 0) ∧ s.rq .installer 8 4 ≠ 0 ∧
      ∃ kv ∈ s.exts, s.rq .installer 0 8 < kv.2.base + kv.2.granules * 2 ^ 21 ∧
        kv.2.base < s.rq .installer 0 8 + s.rq .installer 8 4 * 2 ^ 21) ∧
    (let s := rqCreate.on { pool with exts := [(0, ext1)] }
     s.Runs .installer 0x0020 (!s.flag .installer 0) ∧
      (s.rq .installer 0 8 = 2 ^ 21 ∧ s.rq .installer 8 4 = 1 ∧ s.rq .installer 0x0C 1 = 0 ∧ s.rq .installer 0x0D 1 = 0 ∧
        s.rq .installer 0x10 1 = 0 ∧ s.rq .installer 0x0E 1 = 0 ∧ s.rq .installer 0x0F 1 = 0 ∧
        groupsOf (BitVec.ofNat 4 (s.rq .installer 0x11 1)) = [0] ∧ s.hasGroup 0 = true ∧ maskPorts (s.rqPorts .installer 0x12) = [0] ∧
        s.hasPort 0 = true) ∧
      (¬ ∃ kv ∈ s.exts, s.rq .installer 0 8 < kv.2.base + kv.2.granules * 2 ^ 21 ∧
        kv.2.base < s.rq .installer 0 8 + s.rq .installer 8 4 * 2 ^ 21) ∧
      Table.free s.exts 1024 = some 1 ∧ ∀ x, s.extOf .installer = some x → (s.allocate x).isSome = true ∧ x.metaBytes ≤ s.metaFree) ∧
    -- REMOVE of no extent, of a granted one, of an UNGRANTED one
    (let s := rqRemove.on live
     s.Runs .installer 0x0020 (s.flag .installer 0) ∧ s.ext? (s.rq .installer 0x14 2) = none) ∧
    (let s := rqRemove.on pool
     s.Runs .installer 0x0020 (s.flag .installer 0) ∧ (s.ext? (s.rq .installer 0x14 2)).map (·.st) = some .granted) ∧
    (let s := rqRemove.on { live with exts := [(0, ext0)] }
     s.Runs .installer 0x0020 (s.flag .installer 0) ∧ s.ext? (s.rq .installer 0x14 2) = some ext0 ∧ ext0.st = .ungranted ∧
      s.mapped (s.rq .installer 0x14 2) = false ∧ s.isWaiting (fun w => w == .grant (s.rq .installer 0x14 2)) = false) := by
  refine ⟨⟨Rq.runs rqCreate pool sig_create ?_, ?_⟩,
    ⟨Rq.runs rqCreate { pool with exts := [(0, ext1)] } sig_create ?_, ?_, ?_, ?_,
      of_value (v := { ext0 with base := 2 ^ 21, ports := 1#6, runs := [] }) ?_ ?_⟩,
    ⟨Rq.runs rqRemove live sig_remove ?_, ?_⟩, ⟨Rq.runs rqRemove pool sig_remove ?_, ?_⟩,
    ⟨Rq.runs rqRemove { live with exts := [(0, ext0)] } sig_remove ?_, ?_⟩⟩ <;> decide +kernel

/-- EXT_GRANT of an extent to context 1 with a share. -/
def grantOf (flags : Nat) (e share : Byte) : Rq := opq 0x0021 flags ([e, 0, 1, share] ++ zeros 4)

theorem test_witness_ExtentGrant :
    -- a new grant, plain and BOUND; a share change
    (∀ f ∈ [0, 1], let s := (grantOf f 1 1).on pool
      s.Runs .operator 0x0021 true ∧ (s.ext? (s.rq .operator 0 2)).map (·.st) = some .ungranted ∧
      s.commandCtx .operator (s.rq .operator 2 1) = .inl 1 ∧ s.rqPorts .operator 3 &&& ~~~ext0.ports = 0 ∧
      (∀ p ∈ maskPorts (s.rqPorts .operator 3), s.attachedTo p = some 1) ∧ s.isWaiting (fun w => w == .grant 1) = false ∧
      s.grantsOf 1 false < s.qExtents ∧ s.hasCipher = true ∧ s.grantsOf 1 true < s.qBound ∧ s.boundKeys < 64 ∧ s.umpire.entropyFail = false) ∧
    (∀ f ∈ [0, 1], let s := (grantOf f 0 0).on pool
      -- with BOUND: another BOUND than the grant's
      s.Runs .operator 0x0021 true ∧ s.ext? (s.rq .operator 0 2) = some ext1 ∧ s.commandCtx .operator (s.rq .operator 2 1) = .inl 1 ∧
      ext1.st = .granted ∧ ext1.owner = 1 ∧ (ext1.bound = s.flag .operator 0 ↔ f = 0) ∧ s.rqPorts .operator 3 &&& ~~~ext1.ports = 0 ∧
      maskPorts (s.rqPorts .operator 3) = [] ∧ ext1.revoking = false ∧ ext1.sharing = false ∧
      s.isWaiting (fun w => w == .grant 0) = false) ∧
    -- another owner; CLEARING
    (∀ x ∈ [{ ext1 with owner := 2 }, { ext0 with st := .clearing }], let s := (grantOf 0 0 1).on { pool with exts := [(0, x)] }
      s.Runs .operator 0x0021 true ∧ s.ext? (s.rq .operator 0 2) = some x ∧ s.commandCtx .operator (s.rq .operator 2 1) = .inl 1 ∧
      (x.st = .granted ∧ x.owner ≠ 1 ∨ x.st = .clearing)) ∧
    -- a port that is not attached; no cipher; busy
    (let s := (grantOf 0 0 2).on pool
     s.Runs .operator 0x0021 true ∧ s.ext? (s.rq .operator 0 2) = some ext1 ∧ s.commandCtx .operator (s.rq .operator 2 1) = .inl 1 ∧
      ¬ ∀ p ∈ maskPorts (s.rqPorts .operator 3), s.attachedTo p = some 1) ∧
    (let s := (grantOf 1 1 1).on { pool with fuses := { shadow := Mem.write live.fuses.shadow 9 0x08#8 } }
     s.Runs .operator 0x0021 true ∧ (s.ext? (s.rq .operator 0 2)).map (·.st) = some .ungranted ∧
      s.commandCtx .operator (s.rq .operator 2 1) = .inl 1 ∧ s.flag .operator 0 = true ∧ s.hasCipher = false ∧
      ∀ p ∈ maskPorts (s.rqPorts .operator 3), s.attachedTo p = some 1) ∧
    (let s := (grantOf 0 0 1).on { pool with exts := [(0, { ext1 with revoking := true })] }
     s.Runs .operator 0x0021 true ∧ s.commandCtx .operator (s.rq .operator 2 1) = .inl 1 ∧
      (∀ p ∈ maskPorts (s.rqPorts .operator 3), s.attachedTo p = some 1) ∧ (s.ext? 0).map (·.revoking) = some true) ∧
    -- the boundaries
    (let s : State := { pool with exts := [(0, { ext0 with owner := 1 })] }
     (s.ext? 0).map (·.st) = some .ungranted ∧ s.ctxLive 1 = true ∧ s.power.safe = false) ∧
    (pool.ext? 0 = some ext1 ∧ ext1.st = .granted ∧ ext1.ending = false) := by
  refine ⟨?_, ?_, ?_, ?_, ?_, ?_, ?_, ?_⟩ <;> decide +kernel

/-- A granted, empty SATIN extent. -/
def satin1 : Extent := { ext1 with cls := .satin, budget := 1, ovfPct := 1 }

theorem test_witness_ExtentRevokeClearSeal :
    -- EXT_REVOKE and EXT_CLEAR: of an extent that is not GRANTED, of one that is, of one that is busy or BOUND
    (∀ op ∈ [0x0022, 0x0023], ∀ x ∈ [ext0, ext1, { ext1 with sharing := true, bound := true }],
      let s := (opq op 0 (zeros 8)).on { pool with exts := [(0, x)] }
      s.Runs .operator op true ∧ s.ext? (s.rq .operator 0 2) = some x ∧ s.extRefusal .operator x = none ∧
      s.streams none 0 = false ∧ s.streams (some x.owner) 0 = false ∧ s.isWaiting (fun w => w == .grant 0) = false) ∧
    -- streamed by a running draft
    (∀ op ∈ [0x0022, 0x0023],
      let d : Draft := { ctx := 1, st := .running, bayMask := 1, wordCount := 1, picks := 448, patterns := 1, energy := 0, execPicks := 1
                         cid := 0, bays := [], pushes := [], declNear := [], declPort := [], portSlots := 0, stores := []
                         streamed := [(false, 0, 0, 0)] }
      let s := (opq op 0 (zeros 8)).on { pool with loom := { drafts := [(0, d)] } }
      s.Runs .operator op true ∧ s.ext? (s.rq .operator 0 2) = some ext1 ∧ s.extRefusal .operator ext1 = none ∧
      s.streams (some 1) 0 = true) ∧
    -- EXT_SEAL: of a PLAIN extent, of an ungranted, a sealed and an unsealed SATIN one
    (∀ x ∈ [ext1, { satin1 with st := .ungranted }, { satin1 with sealed := true }, satin1],
      let s := (opq 0x0024 0 (zeros 8)).on { pool with exts := [(0, x)] }
      s.Runs .operator 0x0024 true ∧ s.ext? (s.rq .operator 0 2) = some x ∧ s.extRefusal .operator x = none ∧
      s.isWaiting (fun w => w == .seal 0) = false) ∧
    -- the boundary of EXT_CLEAR
    (let s := pool.modMbox .operator fun b => { b with wait := some { what := .clear 0 } }
     s.ext? 0 = some ext1 ∧ ext1.st = .granted ∧ s.power.safe = false ∧ s.HasMbx .operator ∧
      (s.mbox .operator).wait = some { what := .clear 0 }) := by
  refine ⟨?_, ?_, ?_, ?_⟩ <;> decide +kernel

theorem test_witness_RevocationDrains :
    (let s : State := { pool with exts := [(0, { ext1 with revoking := true })] }
     (s.ext? 0).map (fun x => (x.revoking, x.q)) = some (true, none) ∧ s.atBoundary = true ∧ s.power.safe = false ∧ s.pins = [] ∧
      (∀ g, g < 8 → s.engine g = none) ∧ s.ports.length = 6) ∧
    (let q : Stamp := { beat := 0, idx := 0, pick := 0 }
     let s := ({ pool with exts := [(0, { ext1 with revoking := true, ending := true, q := some q })] } : State).modMbox .operator
       fun b => { b with wait := some { what := .revoke 0 } }
     (s.ext? 0).map (fun x => (x.revoking, x.q)) = some (true, some q) ∧ s.pendingHost q.pick (List.range 6) (some 0) = 0 ∧
      s.writesOf 0 = false ∧ s.engineOn 0 = false ∧ (∀ g, g < 8 → s.engine g = none) ∧ s.pins = [] ∧ s.power.safe = false ∧
      s.HasMbx .operator ∧ s.waiter (.revoke 0) = some .operator) := by decide +kernel

theorem test_witness_ExtentQuery :
    -- the region; no extent; an extent; a page range outside it; one inside it
    (let s := (opq 0x0025 0 ([0xFF, 0xFF] ++ zeros 6)).on pool
     s.Runs .operator 0x0025 true ∧ s.rq .operator 0 2 = 0xFFFF ∧ s.portRefusal .operator = none) ∧
    (let s := (pq 0x0025 0 ([0xFF, 0xFF] ++ zeros 6)).on pool
     s.Runs (.port 0) 0x0025 true ∧ s.rq (.port 0) 0 2 = 0xFFFF ∧ s.portRefusal (.port 0) = none) ∧
    (∀ x ∈ [[0xFF#8, 0xFF], [2, 0]],
      let s := (pq 0x0025 0 (x ++ zeros 6)).on
        { pool with ctxs := [(1, { ports := 1#6, seed := 0, memKey := zeros 64, dying := some .operator })] }
      s.Runs (.port 0) 0x0025 true ∧ s.portRefusal (.port 0) = some mState ∧ (s.rq (.port 0) 0 2 = 0xFFFF ∨ s.ext? (s.rq (.port 0) 0 2) = none)) ∧
    (let s := (opq 0x0025 0 ([2] ++ zeros 7)).on pool
     s.Runs .operator 0x0025 true ∧ s.rq .operator 0 2 ≠ 0xFFFF ∧ s.ext? (s.rq .operator 0 2) = none) ∧
    (let s := (pq 0x0025 0 (zeros 8)).on pool
     s.Runs (.port 0) 0x0025 true ∧ s.ext? (s.rq (.port 0) 0 2) = some ext1 ∧ s.extRefusal (.port 0) ext1 = none ∧
      s.flag (.port 0) 0 = false) ∧
    (let s := (opq 0x0025 1 (zeros 8 ++ toLe 8 31 ++ toLe 2 2 ++ zeros 6)).on pool
     s.Runs .operator 0x0025 true ∧ s.ext? (s.rq .operator 0 2) = some ext1 ∧ s.flag .operator 0 = true ∧
      ext1.pageCount < s.rq .operator 8 8 + s.rq .operator 0x10 2) ∧
    (let s := (opq 0x0025 1 (zeros 8 ++ toLe 8 31 ++ toLe 2 1 ++ zeros 6)).on pool
     s.Runs .operator 0x0025 true ∧ s.ext? (s.rq .operator 0 2) = some ext1 ∧ s.flag .operator 0 = true ∧
      1 ≤ s.rq .operator 0x10 2 ∧ s.rq .operator 0x10 2 ≤ 256 ∧ s.rq .operator 8 8 + s.rq .operator 0x10 2 ≤ ext1.pageCount) := by
  refine ⟨?_, ?_, ?_, ?_, ?_, ?_, ?_⟩ <;> decide +kernel

/-- APT_STAGE of one entry that maps nothing; a commit; an aperture set that names no extent. -/
def stageOne (p : Byte) : Rq := opq 0x0030 0 ([p, 1] ++ zeros 6 ++ zeros 24)
def badApt : Apt := { link := 0, map := BitVec.ofNat 64 (2 ^ 63 + 9 * 2 ^ 46) }
def portZero (q : Port) : State := { pool with ports := [q, {}, {}, {}, {}, {}] }

theorem test_witness_Apertures :
    -- a port above 5; an absent port
    ((stageOne 6).on pool).Runs .operator 0x0030 (((stageOne 6).on pool).flag .operator 0 == !true) ∧
    (let s := (stageOne 5).on { pool with fuses := { shadow := Mem.write live.fuses.shadow 8 0x20#8 } }
     s.Runs .operator 0x0030 (s.flag .operator 0 == !true) ∧ s.rq .operator 0 1 = 5 ∧ s.hasPort 5 = false) ∧
    -- one entry, with the set free and with another mailbox's hold; no entry; DISCARD with and without entries
    (∀ r ∈ [none, some Mbx.installer], let s := (stageOne 0).on (portZero { reserve := r })
      s.Shape ∧ s.Runs .operator 0x0030 (s.flag .operator 0 == !true) ∧ s.hasPort (s.rq .operator 0 1) = true ∧
      s.aptItems .operator ≠ [] ∧ (s.aptItems .operator).length ≤ 64 ∧ (∀ i ∈ (s.aptItems .operator).map (·.1), i ≤ 63) ∧
      ((s.aptItems .operator).map (·.1)).Nodup ∧ (∀ it ∈ s.aptItems .operator, s.aptOk it.2 = true) ∧
      aptsApart ((s.aptItems .operator).foldl (fun t it => Table.set t it.1 it.2) (s.port 0).staged)
        ((s.aptItems .operator).map (·.1)) = true ∧ (s.port 0).reserve = r) ∧
    (let s := (opq 0x0030 0 (zeros 8)).on pool
     s.Shape ∧ s.Runs .operator 0x0030 (s.flag .operator 0 == !true) ∧ s.hasPort (s.rq .operator 0 1) = true ∧ s.aptItems .operator = []) ∧
    (∀ n ∈ [0, 1], let s := (opq 0x0030 1 ([0, BitVec.ofNat 8 n] ++ zeros 6 ++ zeros (24 * n))).on pool
      s.Shape ∧ s.Runs .operator 0x0030 (s.flag .operator 0 == !false) ∧ s.hasPort (s.rq .operator 0 1) = true ∧
      s.rq .operator 1 1 = n ∧ (s.port 0).reserve = none) ∧
    -- APT_COMMIT of a sound set, free and held by another; of one that breaks a rule
    (∀ r ∈ [none, some Mbx.installer], let s := (opq 0x0031 0 (zeros 8)).on (portZero { reserve := r })
      s.Shape ∧ s.Runs .operator 0x0031 true ∧ s.hasPort (s.rq .operator 0 1) = true ∧
      (∀ it ∈ (s.port 0).staged, s.aptOk it.2 = true) ∧ aptsApart (s.port 0).staged ((s.port 0).staged.map (·.1)) = true ∧
      (s.port 0).reserve = r) ∧
    (let s := (opq 0x0031 0 (zeros 8)).on (portZero { staged := [(63, badApt)] })
     s.Shape ∧ s.Runs .operator 0x0031 true ∧ s.hasPort (s.rq .operator 0 1) = true ∧
      ¬ ∀ it ∈ (s.port 0).staged, s.aptOk it.2 = true) ∧
    -- the switch
    (let s := portZero { switchDue := true }
     s.Shape ∧ (s.port 0).switchDue = true ∧ s.atBoundary = true ∧ s.power.safe = false) := by
  refine ⟨?_, ?_, ?_, ?_, ?_, ?_, ?_, ?_⟩ <;> decide +kernel

/-- A range request: LEASE_TAKE (holder 0) or PIN (mask 1) of extent 0. -/
def rangeOf (op : Nat) (x off len : Nat) : Rq := opq op 0 (toLe 2 0 ++ toLe 2 x ++ zeros 4 ++ toLe 8 off ++ toLe 8 len)

theorem test_witness_Leases :
    -- not GRANTED; a holder outside the share
    (let s := (rangeOf 0x0040 0 0 65536).on { pool with exts := [(0, ext0)] }
     s.Runs .operator 0x0040 true ∧ s.ext? (s.rq .operator 0 2) = some ext0 ∧ s.extRefusal .operator ext0 = none ∧ ext0.st ≠ .granted) ∧
    (let s := (rangeOf 0x0040 1 0 65536).on pool
     s.Runs .operator 0x0040 true ∧ s.ext? (s.rq .operator 0 2) = some ext1 ∧ s.extRefusal .operator ext1 = none ∧
      s.rq .operator 2 1 = 1 ∧ maskHas ext1.share 1 = false) ∧
    -- a range of no page; the last page, free and leased
    (let s := (rangeOf 0x0040 0 0 0).on pool
     s.Runs .operator 0x0040 true ∧ s.ext? (s.rq .operator 0 2) = some ext1 ∧ s.extRefusal .operator ext1 = none ∧
      s.rq .operator 2 1 = 0 ∧ maskHas ext1.share 0 = true ∧ ¬ 0 < s.rq .operator 0x10 8) ∧
    (∀ ls ∈ [([] : Table Lease), [(0, { ext := 0, first := 31, pages := 1, holder := 0, from_ := 0 })]],
      let s := (rangeOf 0x0040 0 (31 * 65536) 65536).on { pool with leases := ls }
      s.Runs .operator 0x0040 true ∧ s.ext? (s.rq .operator 0 2) = some ext1 ∧ s.extRefusal .operator ext1 = none ∧
      s.rq .operator 2 1 = 0 ∧ s.rq .operator 8 8 % 65536 = 0 ∧ s.rq .operator 0x10 8 % 65536 = 0 ∧ 0 < s.rq .operator 0x10 8 ∧
      s.rq .operator 8 8 + s.rq .operator 0x10 8 ≤ 65536 * ext1.pageCount ∧
      ((∃ kv ∈ s.leases, kv.2.ext = 0 ∧ kv.2.first * 65536 < s.rq .operator 8 8 + s.rq .operator 0x10 8 ∧
        s.rq .operator 8 8 < (kv.2.first + kv.2.pages) * 65536) ↔ ls ≠ []) ∧
      Table.free s.leases 4096 = some (if ls = [] then 0 else 1) ∧ s.leasesOf 1 < s.qLeases) ∧
    -- LEASE_DROP and LEASE_RESOLVE, of a TORN lease and of one that is not
    (∀ op ∈ [0x0041, 0x0042], ∀ torn ∈ [true, false], let l : Lease := { ext := 0, first := 0, pages := 1, holder := 0, torn := torn, from_ := 0 }
      let s := (opq op 0 (zeros 8)).on { pool with leases := [(0, l)] }
      s.Runs .operator op true ∧ Table.get? s.leases (s.rq .operator 0 2) = some l ∧ s.ext? l.ext = some ext1 ∧
      s.extRefusal .operator ext1 = none ∧ s.leaseBusy (s.rq .operator 0 2) = false ∧ isManaged .operator = true ∧ s.rq .operator 2 1 ≤ 1 ∧
      s.power.safe = false) := by
  refine ⟨?_, ?_, ?_, ?_, ?_⟩ <;> decide +kernel

/-- Extent 0 with its first page near and filled, at the first frames of section 0. -/
def nearExt : Extent := { ext1 with pages := [(0, { zor := false, near := true })] }

/-- MIG_POLICY: the largest values, one threshold too small, and the global settings read. -/
def rqPolicy : Rq := { m := .installer, op := 0x0052, key := 1, body := toLe 4 255 ++ toLe 4 1048576 ++ toLe 4 1 ++ toLe 4 0
                       sig := 0x467CD3C36DC9A9D10389C7F872750E8C763DA1F8720D2FC4143259654AB47E6F }
def rqPolicyBad : Rq := { m := .installer, op := 0x0052, key := 1, body := zeros 16
                          sig := 0xB0FAF965145B6D0453CCD2A384AFF9D24A3D0432C1816D9DA8E612C3D042CFE6 }
def rqPolicyRead : Rq := { m := .installer, op := 0x0052, flags := 2, key := 1, body := zeros 8
                           sig := 0xBBC6901EFAB5D6D57EF96ABECDED66F6CB38B4444874830311E8B072F7534F83 }
theorem sig_policy : ((rqPolicy.on live).acceptMbx .installer).sigOk .installer = true := by decide +kernel
theorem sig_policyBad : ((rqPolicyBad.on live).acceptMbx .installer).sigOk .installer = true := by decide +kernel
theorem sig_policyRead : ((rqPolicyRead.on live).acceptMbx .installer).sigOk .installer = true := by decide +kernel

theorem test_witness_PinsAndPolicy :
    -- PIN: not GRANTED; an empty range and mask 0; a range that meets a pin
    (let s := (rangeOf 0x0050 1 0 65536).on { pool with exts := [(0, ext0)] }
     s.Runs .operator 0x0050 true ∧ s.ext? (s.rq .operator 0 2) = some ext0 ∧ s.extRefusal .operator ext0 = none ∧ ext0.st ≠ .granted) ∧
    (∀ k ∈ [0, 1], let s := (rangeOf 0x0050 k 0 (65536 * (1 - k))).on pool
      s.Runs .operator 0x0050 true ∧ s.ext? (s.rq .operator 0 2) = some ext1 ∧ s.extRefusal .operator ext1 = none ∧
      (¬ 0 < s.rq .operator 0x10 8 ∨ BitVec.ofNat 16 (s.rq .operator 2 2) = 0)) ∧
    (∀ ps ∈ [([] : Table Pin), [(0, { ext := 0, first := 0, pages := 1, mask := 1#16, ctx := 1, todo := [], done := true })]],
      let s := (rangeOf 0x0050 1 0 65536).on { pool with exts := [(0, nearExt)], pins := ps }
      s.Runs .operator 0x0050 true ∧ s.ext? (s.rq .operator 0 2) = some nearExt ∧ s.extRefusal .operator nearExt = none ∧
      s.rq .operator 8 8 % 65536 = 0 ∧ s.rq .operator 0x10 8 = 65536 ∧
      s.rq .operator 8 8 + s.rq .operator 0x10 8 ≤ 65536 * nearExt.pageCount ∧ BitVec.ofNat 16 (s.rq .operator 2 2) = 1#16 ∧
      ((∃ kv ∈ s.pins, kv.2.ext = 0 ∧ kv.2.first * 65536 < s.rq .operator 8 8 + s.rq .operator 0x10 8 ∧
        s.rq .operator 8 8 < (kv.2.first + kv.2.pages) * 65536) ↔ ps ≠ []) ∧
      -- pinned: a pin number, room and quota
      Table.free s.pins 4096 = some (if ps = [] then 0 else 1) ∧ nearExt.pinNeeds 0 1 1#16 ≤ s.pinRoom 1#16 ∧ s.pinsOf 1 < s.qPins ∧
      (∀ kv ∈ s.pins, kv.2.done = true)) ∧
    -- a pin whose pages are all in place
    (let pn : Pin := { ext := 0, first := 0, pages := 1, mask := 1#16, ctx := 1, todo := [] }
     let s := ({ pool with exts := [(0, nearExt)], pins := [(0, pn)] } : State).modMbox .operator fun b => { b with wait := some { what := .pin 0 } }
     Table.get? s.pins 0 = some pn ∧ pn.done = false ∧ s.HasMbx .operator ∧ s.waiter (.pin 0) = some .operator ∧
      ∀ i, i < pn.pages → (s.page pn.ext (pn.first + i)).placed pn.mask = true) ∧
    -- UNPIN, streamed and not; its boundary
    (∀ ds ∈ [([] : Table Draft), [(0, { ctx := 1, st := .running, bayMask := 1, wordCount := 1, picks := 32, patterns := 1, energy := 0
                                        execPicks := 1, cid := 0, bays := [], pushes := [], declNear := [], declPort := [], portSlots := 0
                                        stores := [], streamed := [(false, 0, 0, 0)] })]],
      let pn : Pin := { ext := 0, first := 0, pages := 1, mask := 1#16, ctx := 1, todo := [], done := true }
      let s := (opq 0x0051 0 (zeros 8)).on { pool with exts := [(0, nearExt)], pins := [(0, pn)], loom := { drafts := ds } }
      s.Runs .operator 0x0051 true ∧ Table.get? s.pins (s.rq .operator 0 2) = some pn ∧ s.ext? pn.ext = some nearExt ∧
      s.extRefusal .operator nearExt = none ∧ (s.streamsRange 1 0 0 1 = true ↔ ds ≠ []) ∧ s.power.safe = false ∧ pn.done = true ∧
      pn.pages = 1 ∧ (nearExt.page pn.first).near = true) ∧
    -- MIG_POLICY: set, out of range, below what is pinned, read
    (let s := rqPolicy.on pool
     s.Runs .installer 0x0052 (!s.flag .installer 0 && !s.flag .installer 1) ∧ s.rq .installer 0 1 = 255 ∧
      s.rq .installer 4 4 = 1048576 ∧ s.rq .installer 8 4 = 1 ∧ s.rq .installer 12 4 = 0 ∧
      ∀ sec, sec < 16 → s.pinnedFrames sec ≤ s.rq .installer 12 4) ∧
    (let s := rqPolicyBad.on pool
     s.Runs .installer 0x0052 (!s.flag .installer 0 && !s.flag .installer 1) ∧ ¬ 1 ≤ s.rq .installer 0 1) ∧
    (let s := rqPolicy.on { pool with exts := [(0, { ext1 with pages := [(0, { zor := false, near := true, pin := true })] })] }
     s.Runs .installer 0x0052 (!s.flag .installer 0 && !s.flag .installer 1) ∧ s.rq .installer 12 4 < s.pinnedFrames 0) ∧
    (let s := rqPolicyRead.on pool
     s.Runs .installer 0x0052 (s.flag .installer 1) ∧ s.flag .installer 0 = false) ∧
    -- of an extent
    (∀ x ∈ [ext0, ext1], let s := (opq 0x0052 1 (toLe 2 0 ++ [1] ++ zeros 5)).on { pool with exts := [(0, x)] }
      s.Runs .operator 0x0052 (s.flag .operator 0 && !s.flag .operator 1) ∧ s.ext? (s.rq .operator 0 2) = some x ∧
      s.extRefusal .operator x = none ∧ s.rq .operator 2 1 ≤ 1 ∧ s.power.safe = false) ∧
    (let s := (opq 0x0052 3 (zeros 8)).on pool
     s.Runs .operator 0x0052 (s.flag .operator 1) ∧ s.flag .operator 0 = true ∧ s.ext? (s.rq .operator 0 2) = some ext1 ∧
      s.extRefusal .operator ext1 = none ∧ ext1.st = .granted) := by
  refine ⟨?_, ?_, ?_, ?_, ?_, ⟨Rq.runs rqPolicy pool sig_policy ?_, ?_⟩, ⟨Rq.runs rqPolicyBad pool sig_policyBad ?_, ?_⟩,
    ⟨Rq.runs rqPolicy _ sig_policy ?_, ?_⟩, ⟨Rq.runs rqPolicyRead pool sig_policyRead ?_, ?_⟩, ?_, ?_⟩ <;> decide +kernel

/-- The first block of a draft container of one bay and one word that ends the draft: header, directory, word, DECL
(spec/08_drafts.md R214, R215, R238); the rest of its 632 bytes is zero. -/
def containerHead : List Byte :=
  [80, 77, 75, 68, 1, 0, 2, 0, 120, 2, 0, 0, 1, 0, 0, 0, 1, 0, 32, 0, 1, 0, 0, 0,
    220, 5, 0, 0, 0, 0, 0, 0, 1, 0, 0, 0, 0, 0, 0, 0, 0, 0, 0, 0, 0, 0, 0, 0,
    0, 0, 0, 0, 0, 0, 0, 0, 0, 0, 0, 0, 0, 0, 0, 0, 1, 0, 0, 0, 96, 0, 0, 0,
    128, 0, 0, 0, 0, 0, 0, 0, 6, 0, 255, 0, 224, 0, 0, 0, 152, 1, 0, 0, 0, 0, 0, 0,
    1, 0, 0, 0, 0, 0, 0, 0, 0, 0, 0, 0, 0, 0, 0, 0, 0, 0, 0, 0, 0, 0, 0, 0,
    0, 0, 0, 0, 0, 0, 0, 0, 0, 0, 0, 0, 0, 0, 0, 0, 0, 0, 0, 0, 0, 0, 0, 0,
    0, 0, 0, 0, 0, 0, 0, 0, 0, 0, 0, 0, 0, 0, 0, 0, 0, 0, 0, 0, 0, 0, 0, 0,
    0, 0, 0, 0, 0, 0, 0, 0, 0, 0, 0, 0, 0, 0, 0, 0, 0, 0, 0, 0, 0, 0, 0, 0,
    0, 0, 0, 0, 0, 0, 0, 0, 0, 0, 0, 0, 0, 0, 0, 0, 0, 0, 0, 0, 0, 0, 0, 0,
    0, 0, 0, 0, 0, 0, 0, 0, 192, 1, 0, 0, 0, 0, 0, 0, 0, 0, 0, 0, 0, 0, 0, 0,
    0, 0, 0, 0, 0, 0, 0, 0, 0, 0, 0, 0, 0, 0, 0, 0]

def container : List Byte := containerHead ++ zeros 376

/-- Stored bytes of burst 0 of block 0, encrypted under a key of zeros, with its check bytes. -/
def burst0 : List Byte :=
  [226, 190, 95, 177, 127, 112, 26, 201, 118, 181, 110, 20, 210, 177, 89, 15, 181, 89,
    131, 137, 85, 114, 103, 80, 78, 106, 25, 154, 55, 171, 147, 54, 121, 211, 130, 242,
    63, 9, 198, 244, 169, 46, 234, 240, 21, 61, 182, 182, 127, 177, 216, 46, 216, 111,
    112, 65, 20, 120, 113, 17, 221, 73, 115, 91, 38, 63, 31, 125, 46, 54, 72, 229,
    214, 145, 79, 235, 165, 78, 82, 46]

/-- Stored bytes of burst 1 of block 0, encrypted under a key of zeros, with its check bytes. -/
def burst1 : List Byte :=
  [195, 102, 86, 61, 110, 255, 159, 82, 39, 89, 219, 128, 34, 102, 217, 129, 119, 167,
    3, 118, 96, 36, 205, 24, 128, 141, 231, 190, 17, 175, 209, 186, 97, 208, 138, 249,
    193, 191, 108, 95, 26, 238, 224, 220, 234, 240, 73, 207, 218, 33, 127, 81, 203, 57,
    61, 85, 15, 203, 129, 237, 78, 202, 87, 106, 54, 164, 195, 20, 214, 89, 43, 170,
    188, 34, 84, 0, 183, 143, 110, 76]

/-- Stored bytes of burst 2 of block 0, encrypted under a key of zeros, with its check bytes. -/
def burst2 : List Byte :=
  [176, 84, 187, 243, 168, 215, 88, 77, 243, 228, 4, 99, 48, 114, 3, 197, 209, 4,
    195, 25, 248, 166, 103, 123, 241, 79, 30, 138, 25, 208, 135, 146, 228, 15, 39, 89,
    26, 217, 222, 221, 150, 180, 241, 191, 22, 76, 18, 193, 236, 232, 162, 169, 190, 102,
    240, 75, 124, 78, 176, 92, 185, 226, 213, 246, 127, 185, 237, 42, 179, 220, 162, 186,
    170, 102, 195, 217, 157, 194, 199, 52]

/-- Stored bytes of burst 3 of block 0, encrypted under a key of zeros, with its check bytes. -/
def burst3 : List Byte :=
  [245, 18, 194, 52, 177, 66, 33, 56, 55, 148, 170, 189, 215, 203, 162, 129, 175, 252,
    147, 187, 99, 123, 182, 75, 177, 88, 141, 138, 187, 138, 172, 93, 164, 191, 35, 56,
    130, 122, 202, 15, 113, 73, 123, 241, 79, 32, 238, 230, 94, 137, 86, 21, 103, 118,
    89, 253, 114, 72, 144, 59, 215, 248, 251, 171, 125, 61, 128, 79, 88, 228, 72, 136,
    154, 122, 78, 87, 27, 246, 169, 33]

/-- The pool with the container in the first page of extent 0, whose other blocks are still to be filled; the ranks that hold it
have been used in this pick. -/
def holding : State :=
  { pool with
    exts := [(0, { ext1 with pages := [(0, { zor := false, st := .zfill })] })]
    farMem := Mem.writeN (Mem.writeN (Mem.writeN (Mem.writeN [] (Loc.far 0 0 0).addr burst0) (Loc.far 0 1 0).addr burst1)
      (Loc.far 0 2 0).addr burst2) (Loc.far 0 3 0).addr burst3
    tier := { fills := [(0, { ext := 0, page := 0, bits := 1, order := 0 })] }
    far := { used := [0, 2, 4, 6] } }





/-- Units that decode without a correction are delivered as they decode, and nothing changes. -/
theorem readUnits_clean (s : State) : ∀ (ls : List Loc) (ds : List Decoded), ls.map s.readUnit = ds.map some → (∀ d ∈ ds, d.fixed = 0) →
    s.readUnits ls = (s, (ls.zip ds).map fun x => { loc := x.1, bytes := x.2.data, marks := markBits x.1 x.2.mark, ue := false }) := by
  have go : ∀ (ls : List Loc) (ds : List Decoded) (acc : List RItem), ls.map s.readUnit = ds.map some → (∀ d ∈ ds, d.fixed = 0) →
      ls.foldl (fun (acc : State × List RItem) l => let (s', i) := acc.1.deliver l (acc.1.stored l); (s', acc.2 ++ [i])) (s, acc) =
        (s, acc ++ (ls.zip ds).map fun x => { loc := x.1, bytes := x.2.data, marks := markBits x.1 x.2.mark, ue := false }) := by
    intro ls
    induction ls with
    | nil => intro ds acc _ _; simp
    | cons l ls ih =>
      intro ds acc h hf
      cases ds with
      | nil => simp at h
      | cons d ds =>
        simp only [List.map_cons, List.cons.injEq] at h
        have hd : s.decodeUnit l (s.stored l) = some d := h.1
        have h0 : d.fixed = 0 := hf d List.mem_cons_self
        have hl : s.deliver l (s.stored l) = (s, { loc := l, bytes := d.data, marks := markBits l d.mark, ue := false }) := by
          simp only [State.deliver, hd, State.recordCe, h0, if_true]
        rw [List.foldl_cons]
        dsimp only
        rw [hl]
        dsimp only
        rw [ih ds _ h.2 fun d hd => hf d (List.mem_cons_of_mem _ hd)]
        simp
  intro ls ds h hf
  exact go ls ds [] h hf

/-- The units of block 0 of extent 0, and what they decode to. -/
def holdingLocs : List Loc := [.far 0 0 0, .far 0 1 0, .far 0 2 0, .far 0 3 0]
def holdingStored : List (List Byte) := [burst0, burst1, burst2, burst3]
def holdingUnits : List Decoded := holdingStored.map fun b => { data := b.take 64, mark := 0, fixed := 0 }

theorem readN_inside {m : Mem} (h : m.wf = true) (a : Nat) (l : List Byte) (n : Nat) (hn : l.length = n) :
    (m.writeN a l).readN a n = l := by
  subst hn
  refine List.ext_getElem (by simp [Mem.readN]) fun i h1 h2 => ?_
  simp only [Mem.readN, List.getElem_map, List.getElem_range]
  exact Mem.read_writeN_inside h a l i h2

theorem readN_outside {m : Mem} (h : m.wf = true) (a : Nat) (l : List Byte) (b n : Nat) (hj : b + n ≤ a ∨ a + l.length ≤ b) :
    (m.writeN a l).readN b n = m.readN b n := by
  refine List.map_congr_left fun i hi => Mem.read_writeN_outside h a l (b + i) ?_
  have := List.mem_range.1 hi
  omega

theorem holding_stored : holdingLocs.map holding.stored = holdingStored := by
  have w0 : Mem.wf [] = true := rfl
  have w1 := Mem.writeN_wf w0 (Loc.far 0 0 0).addr burst0
  have w2 := Mem.writeN_wf w1 (Loc.far 0 1 0).addr burst1
  have w3 := Mem.writeN_wf w2 (Loc.far 0 2 0).addr burst2
  simp only [holdingLocs, holdingStored, List.map_cons, List.map_nil, List.cons.injEq, and_true, State.stored]
  refine ⟨?_, ?_, ?_, ?_⟩
  · refine (readN_outside w3 _ _ _ _ (by decide +kernel)).trans ((readN_outside w2 _ _ _ _ (by decide +kernel)).trans
      ((readN_outside w1 _ _ _ _ (by decide +kernel)).trans (readN_inside w0 _ _ _ (by decide +kernel))))
  · refine (readN_outside w3 _ _ _ _ (by decide +kernel)).trans ((readN_outside w2 _ _ _ _ (by decide +kernel)).trans
      (readN_inside w1 _ _ _ (by decide +kernel)))
  · exact (readN_outside w3 _ _ _ _ (by decide +kernel)).trans (readN_inside w2 _ _ _ (by decide +kernel))
  · exact readN_inside w3 _ _ _ (by decide +kernel)

theorem holding_far : holdingStored.map (fun b => farDecode b none) = holdingUnits.map some := by decide +kernel

theorem holding_decodes : holdingLocs.map holding.readUnit = holdingUnits.map some := by
  have h : ∀ g j k, holding.readUnit (.far g j k) = farDecode (holding.stored (.far g j k)) none := by
    intro g j k
    have d : holding.devMark (.far g j k) = none := rfl
    have f : holding.locDead (.far g j k) = false := by
      unfold State.locDead State.locFailed State.chFailed
      dsimp only
      rw [show holding.nor.failedCh = 0 from rfl, show holding.ras.failing = 0 from rfl]
      simp
    unfold State.readUnit State.decodeUnit
    dsimp only
    rw [d, f, if_neg Bool.false_ne_true]
  rw [← holding_far, ← holding_stored]
  simp only [holdingLocs, List.map_cons, List.map_nil, h]

/-- The request that READ of a block now stands for, and the units it reads. -/
def nowOf (s : State) (e b : Nat) : Req :=
  { origin := .shuttle 8 0, op := .rd256, code := 0, ext := e, block := b, quarter := 0, data := [], mask := 0
    ro := true, arrival := s.time.pick, near := (s.page e (b / 256)).near, slot := (s.page e (b / 256)).slot, gen := false }
def nowReq (s : State) (e b : Nat) (x : Extent) : Req := { nowOf s e b with phases := s.readPhases x (nowOf s e b) }
def nowLocs (s : State) (e b : Nat) (x : Extent) : List Loc := (readUnitsOf (nowReq s e b x).phases).eraseDups

theorem readNow_clean {s : State} {e b : Nat} {x : Extent} {ds : List Decoded} (hx : s.ext? e = some x) (hz : s.zeroBlock e b = false)
    (hl : (s.divergent e b || s.blockLost x (nowOf s e b)) = false) (ho : s.followEntry x (nowReq s e b x) = nowReq s e b x)
    (hu : s.useRanks (nowLocs s e b x) = s)
    (hd : (nowLocs s e b x).map s.readUnit = ds.map some) (hf : ∀ d ∈ ds, d.fixed = 0) :
    s.readNow e b = (s, (s.blockGot e x (nowReq s e b x) (((nowLocs s e b x).zip ds).map fun y =>
      { loc := y.1, bytes := y.2.data, marks := markBits y.1 y.2.mark, ue := false })).1) := by
  have h := readUnits_clean s _ ds hd hf
  unfold State.readNow
  rw [hx]
  dsimp only
  rw [hz, if_neg Bool.false_ne_true]
  show (if (s.divergent e b || s.blockLost x (nowOf s e b)) = true then (s, none)
    else
      let r := s.followEntry x (nowReq s e b x)
      let locs := (readUnitsOf r.phases).eraseDups
      let (t, got) := (s.useRanks locs).readUnits locs
      (t, (t.blockGot e x r got).1)) = _
  rw [hl, if_neg Bool.false_ne_true, ho]
  show (let (t, got) := (s.useRanks (nowLocs s e b x)).readUnits (nowLocs s e b x); (t, (t.blockGot e x (nowReq s e b x) got).1)) = _
  rw [hu, h]

/-- The entry of extent 0 there. -/
def holdingExt : Extent := { ext1 with pages := [(0, { zor := false, st := .zfill })] }

theorem holding_locs : nowLocs holding 0 0 holdingExt = holdingLocs := by decide +kernel

theorem holding_got :
    (holding.blockGot 0 holdingExt (nowReq holding 0 0 holdingExt) ((holdingLocs.zip holdingUnits).map fun y =>
      { loc := y.1, bytes := y.2.data, marks := markBits y.1 y.2.mark, ue := false })).1 = some containerHead := by decide +kernel

/-- A range of 632 bytes from the start of an extent, whose three blocks read now. -/
theorem containerBytes_three {s : State} {e : Nat} {b0 b1 b2 : List Byte} (h0 : s.readNow e 0 = (s, some b0))
    (h1 : s.readNow e 1 = (s, some b1)) (h2 : s.readNow e 2 = (s, some b2)) (ht : ∀ i, i < 3 → s.tornBlock e i = false) :
    s.containerBytes e 0 632 = (s, some ((b0 ++ (b1 ++ b2)).take 632)) := by
  have hr : List.range 3 = [0, 1, 2] := by decide +kernel
  have hb : s.bytesNow e 0 632 = (s, ((b0 ++ (b1 ++ b2)).take 632).map some) := by
    unfold State.bytesNow
    simp [hr, h0, h1, h2, List.map_take]
  have hn : ∀ l : List Byte, (l.map some).any Option.isNone = false := by
    intro l
    induction l with
    | nil => rfl
    | cons b l ih => exact ih
  have hm : ∀ l : List Byte, (l.map some).map (fun b => b.getD 0) = l := by
    intro l
    induction l with
    | nil => rfl
    | cons b l ih => exact congrArg (b :: ·) ih
  have ht3 : ([0, 1, 2].any fun i => s.tornBlock e (0 / 256 + i)) = false := by simp [ht]
  unfold State.containerBytes
  rw [hb, show List.range ((0 + 632 + 255) / 256 - 0 / 256) = [0, 1, 2] from hr, ht3]
  dsimp only
  rw [hn, hm]
  simp

theorem container_take : (containerHead ++ (zeros 256 ++ zeros 256)).take 632 = container := by
  rw [List.take_append, show containerHead.length = 256 by decide +kernel, List.take_of_length_le (by decide +kernel)]
  simp [container, zeros, List.take_append]

/-- A plan of one pattern under which context 1 has an allowance. -/
def plan1 : Plan := { patterns := 1, near := [], far := [], egress := [], ingress := [], rota := [1], allowances := [0, 480] }

theorem container_checks :
    headerOk container 632 = true ∧ sectionsOk container 632 = true := by decide +kernel

/-- The draft of the container. -/
def containerDraft : Draft :=
  { ctx := 1, bayMask := 1#16, wordCount := 1, picks := 32, patterns := 1, energy := 1500, execPicks := 1, cid := 0
    bays := [(0, { words := [1#1024] })], pushes := [], declNear := [List.replicate 16 0], declPort := [List.replicate 6 0]
    portSlots := 448, stores := [] }

theorem container_draft : draftOf container 1 = containerDraft := by decide +kernel


/-- DRAFT_LOAD of 632 bytes for context 1. -/
def loadDraft (ctx : Byte := 1) (len : Nat := 632) : Rq := opq 0x0060 0 ([ctx] ++ zeros 15 ++ toLe 8 len)

/-- What the container rests on, whatever waits and whatever the plan is. -/
def held (p : Option Plan) : State := loadDraft.on { holding with tie := { plan := p } }

theorem on_got (s : State) (q : TieUp) (x : Extent) (r : Req) (got : List RItem) :
    ((loadDraft.on { s with tie := q }).blockGot 0 x r got).1 = (s.blockGot 0 x r got).1 := rfl
theorem on_locs (s : State) (q : TieUp) (x : Extent) : nowLocs (loadDraft.on { s with tie := q }) 0 0 x = nowLocs s 0 0 x := rfl
theorem on_req (s : State) (q : TieUp) (x : Extent) : nowReq (loadDraft.on { s with tie := q }) 0 0 x = nowReq s 0 0 x := rfl
theorem on_unit (s : State) (q : TieUp) (l : Loc) : (loadDraft.on { s with tie := q }).readUnit l = s.readUnit l := rfl
theorem on_zero (s : State) (q : TieUp) (b : Nat) : (loadDraft.on { s with tie := q }).zeroBlock 0 b = s.zeroBlock 0 b := rfl
theorem on_torn (s : State) (q : TieUp) (b : Nat) : (loadDraft.on { s with tie := q }).tornBlock 0 b = s.tornBlock 0 b := by exact rfl
theorem on_lost (s : State) (q : TieUp) (x : Extent) : let t := loadDraft.on { s with tie := q }
    (t.divergent 0 0 || t.blockLost x (nowOf t 0 0)) = (s.divergent 0 0 || s.blockLost x (nowOf s 0 0)) := by exact rfl
theorem on_follow (s : State) (q : TieUp) (x : Extent) (r : Req) : (loadDraft.on { s with tie := q }).followEntry x r = s.followEntry x r :=
  by exact rfl
theorem on_ranks (s : State) (q : TieUp) (ls : List Loc) (h : (s.useRanks ls).far = s.far) :
    (loadDraft.on { s with tie := q }).useRanks ls = loadDraft.on { s with tie := q } :=
  congrArg (fun f => (loadDraft.on { s with tie := q }).setFar f) (show _ = s.far from h)
theorem held_block0 (p : Option Plan) : (held p).readNow 0 0 = (held p, some containerHead) := by
  have h := readNow_clean (s := held p) (e := 0) (b := 0) (x := holdingExt) (ds := holdingUnits) rfl
    (by rw [held, on_zero]; decide +kernel) ((on_lost holding _ _).trans (by decide +kernel))
    (by rw [held, on_req, on_follow]; decide +kernel)
    (by rw [held, on_locs, holding_locs]; exact on_ranks holding _ _ (by decide +kernel))
    (by rw [held, on_locs, funext (on_unit holding _), holding_locs]; exact holding_decodes) (by decide +kernel)
  rw [h]
  unfold held
  rw [on_got, on_locs, on_req, holding_locs, holding_got]

theorem held_zero (p : Option Plan) (b : Nat) (h : holding.zeroBlock 0 b = true) :
    (held p).readNow 0 b = (held p, some (zeros 256)) := by
  have hx : (held p).ext? 0 = some holdingExt := rfl
  have hz : (held p).zeroBlock 0 b = true := (on_zero holding _ b).trans h
  unfold State.readNow
  rw [hx]
  dsimp only
  rw [hz, if_pos rfl]

theorem held_container (p : Option Plan) : (held p).containerBytes 0 0 632 = (held p, some container) := by
  rw [← container_take]
  exact containerBytes_three (held_block0 p) (held_zero p 1 (by decide +kernel)) (held_zero p 2 (by decide +kernel))
    fun i hi => (on_torn holding _ i).trans ((by decide +kernel : ∀ i, i < 3 → holding.tornBlock 0 i = false) i hi)

theorem container_fails : (held none).loadChecks containerDraft = some { status := mState, check := 20 } := by decide +kernel
theorem container_loads : (held (some plan1)).loadChecks containerDraft = none := by decide +kernel

theorem test_witness_DraftLoad :
    -- no Loom
    (let s := loadDraft.on { pool with fuses := { shadow := Mem.write live.fuses.shadow 9 4#8 } }
     s.Runs .operator 0x0060 (!s.flag .operator 0) ∧ s.hasLoom = false) ∧
    -- in no extent; not GRANTED; of another class
    (let s := loadDraft.on { pool with exts := [] }
     s.Runs .operator 0x0060 (!s.flag .operator 0) ∧ s.hasLoom = true ∧ s.commandCtx .operator (s.rq .operator 0 1) = .inl 1 ∧
      s.extentAt (s.rq .operator 8 8) = none) ∧
    (∀ x ∈ [ext0, { ext1 with cls := .satin }], let s := loadDraft.on { pool with exts := [(0, x)] }
     s.Runs .operator 0x0060 (!s.flag .operator 0) ∧ s.hasLoom = true ∧ s.commandCtx .operator (s.rq .operator 0 1) = .inl 1 ∧
      s.extentAt (s.rq .operator 8 8) = some (0, x, 0) ∧ 0 < s.rq .operator 0x10 8 ∧
      s.rq .operator 0x10 8 ≤ x.granules * 2 ^ 21 ∧ (x.st ≠ .granted ∨ x.st = .granted ∧ x.ending = false ∧ x.owner = 1 ∧
        x.bound = false ∧ x.cls ≠ .plain)) ∧
    -- a container whose checks fail at check 20, and the same where the plan bears it
    (∀ p : Option Plan, p = none ∨ p = some plan1 → let s := held p
      (s.Runs .operator 0x0060 (!s.flag .operator 0) ∧ s.hasLoom = true ∧ s.commandCtx .operator (s.rq .operator 0 1) = .inl 1 ∧
        s.extentAt (s.rq .operator 8 8) = some (0, holdingExt, 0) ∧ s.rq .operator 0x10 8 = 632 ∧ holdingExt.st = .granted ∧
        holdingExt.ending = false ∧ holdingExt.owner = 1 ∧ holdingExt.bound = false ∧ holdingExt.cls = .plain) ∧
      (s.containerBytes 0 0 (s.rq .operator 0x10 8)).2 = some container ∧ headerOk container 632 = true ∧ sectionsOk container 632 = true ∧
      (s.containerBytes 0 0 632).1.loadChecks (draftOf container 1) =
        (if p = none then some { status := mState, check := 20 } else none) ∧ Table.free s.loom.drafts 256 = some 0) := by
  refine ⟨?_, ?_, ?_, ?_⟩
  · decide +kernel
  · decide +kernel
  · decide +kernel
  · intro p hp s
    have hr : (s.Runs .operator 0x0060 (!s.flag .operator 0) ∧ s.hasLoom = true ∧ s.commandCtx .operator (s.rq .operator 0 1) = .inl 1 ∧
        s.extentAt (s.rq .operator 8 8) = some (0, holdingExt, 0) ∧ s.rq .operator 0x10 8 = 632 ∧ holdingExt.st = .granted ∧
        holdingExt.ending = false ∧ holdingExt.owner = 1 ∧ holdingExt.bound = false ∧ holdingExt.cls = .plain) := by
      obtain rfl | rfl := hp <;> decide +kernel
    refine ⟨hr, ?_, container_checks.1, container_checks.2, ?_, ?_⟩
    · rw [hr.2.2.2.2.1]
      exact congrArg Prod.snd (held_container p)
    · rw [held_container, container_draft]
      obtain rfl | rfl := hp
      · rw [if_pos rfl]
        exact container_fails
      · rw [if_neg (Option.some_ne_none _)]
        exact container_loads
    · obtain rfl | rfl := hp <;> rfl

/-- A plan image of one pattern (spec/15_mailboxes.md R417): each port has one near position of each section and four far ones of each
group. -/
def planImage : List Byte :=
  [1, 1] ++ zeros 6 ++ [0xFF] ++ zeros 63 ++ [0xE0, 1] ++ zeros 126 ++ (List.replicate 16 ([1, 2, 3, 4, 5, 6] ++ zeros 25 ++ [0x12])).flatten ++
    (List.replicate 4 ([1, 1, 1, 1, 2, 2, 2, 2, 3, 3, 3, 3, 4, 4, 4, 4, 5, 5, 5, 5, 6, 6, 6, 6] ++ zeros 71 ++ [0x12])).flatten ++
    zeros 5376

/-- The plan of the image. -/
def planOne : Plan :=
  { patterns := 1
    near := [List.replicate 16 ([1, 2, 3, 4, 5, 6] ++ List.replicate 25 0 ++ [0x12])]
    far := [List.replicate 4 ([1, 1, 1, 1, 2, 2, 2, 2, 3, 3, 3, 3, 4, 4, 4, 4, 5, 5, 5, 5, 6, 6, 6, 6] ++ List.replicate 71 0 ++ [0x12])]
    egress := [List.replicate 6 (List.replicate 448 0)]
    ingress := [List.replicate 6 (List.replicate 448 0)]
    rota := [0xFF]
    allowances := 480 :: List.replicate 63 0 }

/-- Its digest, and that of 200 bytes of zero. -/
def planDigest : List Byte :=
  [152, 109, 48, 8, 129, 7, 127, 185, 3, 102, 15, 98, 135, 245, 148, 108, 107, 107, 90, 84, 100, 72, 86, 10, 70, 36, 60, 62, 98, 117, 167, 52]
def zeroDigest : List Byte :=
  [109, 156, 84, 222, 229, 102, 12, 70, 136, 111, 50, 216, 14, 87, 233, 221, 15, 250, 87, 238, 12, 210, 167, 98, 176, 54, 217, 200, 224, 195, 163, 58]

def emptyDigest : List Byte :=
  [227, 176, 196, 66, 152, 252, 28, 20, 154, 251, 244, 200, 153, 111, 185, 36, 39, 174, 65, 228, 100, 155, 147, 76, 164, 149, 153, 27, 120, 82, 184, 85]

theorem empty_digest : sha256 [] = emptyDigest := by decide +kernel
theorem plan_digest : sha256 planImage = planDigest := by decide +kernel
theorem zero_digest : sha256 (zeros 200) = zeroDigest := by decide +kernel

/-- A run of bytes read one by one, and at once. -/
theorem cut_map (b : List Byte) (f : Byte → Nat) (off n : Nat) (h : off + n ≤ b.length) :
    (List.range n).map (fun k => f (b.getD (off + k) 0)) = ((b.drop off).take n).map f := by
  refine List.ext_getElem (by simp; omega) fun i h1 h2 => ?_
  simp at h1 h2 ⊢
  rw [List.getElem?_eq_getElem (by omega)]
  rfl

/-- The plan of an image, its runs read at once. -/
def planCut (b : List Byte) : Plan :=
  let vec := fun (off units per : Nat) => (List.range units).map fun u => ((b.drop (off + per * u)).take per).map fun c => c.toNat % 64
  let port := fun (off : Nat) => (List.range 6).map fun q => ((b.drop (off + 896 * q)).take 448).map fun c => c.toNat % 64
  { patterns := 1, near := [vec 200 16 32], far := [vec 712 4 96], egress := [port 1096], ingress := [port 1544]
    rota := (List.range (b.getD 1 0).toNat).map fun i => (b.getD (8 + i) 0).toNat
    allowances := (List.range 64).map fun i => le (slice b (72 + 2 * i) 2) }

theorem plan_cut (b : List Byte) (h1 : (b.getD 0 0).toNat = 1) (hl : b.length = 6472) : planOfImage b = planCut b := by
  have r1 : List.range 1 = [0] := rfl
  unfold planOfImage planCut
  simp only [h1, r1, List.map_cons, List.map_nil, Nat.mul_zero, Nat.add_zero, Plan.mk.injEq, List.cons.injEq, and_true, true_and]
  refine ⟨?_, ?_, ?_, ?_⟩ <;> refine List.map_congr_left fun u hu => ?_ <;> have hu := List.mem_range.1 hu <;>
    exact cut_map b (fun c => c.toNat % 64) _ _ (by omega)

theorem plan_image : planOfImage planImage = planOne := by
  rw [plan_cut _ (by decide +kernel) (by decide +kernel)]
  decide +kernel

theorem vecAt_zero (u k n m j i : Nat) : vecAt [List.replicate n (List.replicate m 0)] j u k = 0 := by
  unfold vecAt
  cases j with
  | zero =>
    by_cases hu : u < n <;> by_cases hk : k < m <;> simp [List.getD, hu, hk, ownIdle]
  | succ j => simp [ownIdle]

theorem plan_ok : live.planOk planOne = true := by
  have h : ∀ j u k, vecAt planOne.egress j u k = 0 ∧ vecAt planOne.ingress j u k = 0 :=
    fun j u k => ⟨vecAt_zero u k 6 448 j 0, vecAt_zero u k 6 448 j 0⟩
  have z : ∀ q e, live.slotCodeOk q e 0 = true := fun q e => by simp [State.slotCodeOk]
  unfold State.planOk
  simp only [h, z, Bool.and_self, List.all_eq_true, Bool.and_eq_true, and_assoc]
  refine ⟨by decide +kernel, by decide +kernel, by decide +kernel, by decide +kernel, fun _ _ _ _ _ _ => trivial, ?_⟩
  decide +kernel
/-- TIEUP_SET: of the image at once and at a beat, of 200 bytes of zero at once and at a beat, of no bytes, with a wrong digest. -/
def rqTieNow : Rq := { m := .installer, op := 0x0070, key := 1, body := toLe 4 6472 ++ zeros 12 ++ planDigest
                       sig := 0xCAFB2485450B76AD5A4BD7CD0C4251711DBB9DCB78EBCED9A8AE3BD12881FD2F }
def rqTieAt : Rq := { m := .installer, op := 0x0070, key := 1, body := toLe 4 6472 ++ zeros 4 ++ toLe 8 4 ++ planDigest
                      sig := 0xEBB2664618A8B2AE6AEE4EAA0CE32D14957843162FC713748110198BCA9F46D6 }
def rqTieZero : Rq := { m := .installer, op := 0x0070, key := 1, body := toLe 4 200 ++ zeros 4 ++ toLe 8 3 ++ zeroDigest
                        sig := 0x595AECD63F0A54CE0B88F4BD06BAE476094A9730B89AB0DA925CEE194A9B7443 }
def rqTieNone : Rq := { m := .installer, op := 0x0070, key := 1, body := zeros 16 ++ emptyDigest
                        sig := 0x00F81203514CC849DB4F1C8879AACF921D26614AF3FB674432A1D61226C29175 }
def rqTieWrong : Rq := { m := .installer, op := 0x0070, key := 1, body := zeros 48
                         sig := 0x1DC8DCB1F4BD53D55D9D8BF3206F32896E7810435CECDD5BDF7494763EAB459E }
def rqTieRead : Rq := { m := .installer, op := 0x0070, flags := 1, key := 1, body := zeros 48
                        sig := 0xE6C7C5512F504CC5166758B64499C7E7D74F1FD7E4DC2F73AC699C12DC810AA2 }
theorem sig_tieNow : ((rqTieNow.on live).acceptMbx .installer).sigOk .installer = true := by decide +kernel
theorem sig_tieAt : ((rqTieAt.on live).acceptMbx .installer).sigOk .installer = true := by decide +kernel
theorem sig_tieZero : ((rqTieZero.on live).acceptMbx .installer).sigOk .installer = true := by decide +kernel
theorem sig_tieNone : ((rqTieNone.on live).acceptMbx .installer).sigOk .installer = true := by decide +kernel
theorem sig_tieWrong : ((rqTieWrong.on live).acceptMbx .installer).sigOk .installer = true := by decide +kernel
theorem sig_tieRead : ((rqTieRead.on live).acceptMbx .installer).sigOk .installer = true := by decide +kernel

/-- A state whose next command is a request and whose bulk window holds bytes. -/
def Rq.bulked (q : Rq) (s : State) (l : List Byte) : State :=
  (q.on s).modMbox q.m fun b => { b with bulk := Mem.writeN [] 0 l }

theorem bulk_reads (s : State) (t : List Byte) (n : Nat) (hn : t.length = n)
    (h : (s.mbox .installer).bulk = Mem.writeN [] 0 t) : (s.mbox .installer).bulk.readN 0 n = t := by
  rw [h]
  exact readN_inside rfl 0 t n hn

/-- A locked pool with the plan of pattern `p`, drafts and a plan in the shadow. -/
def planned (ds : Table Draft) (sh : Option Plan) (f : Fuses) : State :=
  { pool with
    time := { sync := .locked, beat := 0 }, loom := { drafts := ds }, tie := { plan := some plan1, shadow := sh }, fuses := f }

theorem plan_ok_any (ds : Table Draft) (sh : Option Plan) : (planned ds sh live.fuses).planOk planOne = true :=
  Eq.trans (show _ = live.planOk planOne from rfl) plan_ok

/-- The image in the window, with a plan that breaks no rule on the commissioned expander. -/
def tieCase (q : Rq) (s0 : State) (pool : Nat) (hits : Bool) : Prop :=
  let s := q.bulked s0 planImage
  s.Runs .installer 0x0070 (!s.flag .installer 0) ∧ s.rq .installer 0 4 = 6472 ∧
    (s.mbox .installer).bulk.readN 0 6472 = planImage ∧ sha256 planImage = s.rqBytes .installer 0x10 32 ∧
    6472 = 200 + 6272 * (planImage.getD 0 0).toNat ∧ (planOfImage planImage).allowances.sum = 480 ∧
    (s.rq .installer 8 8 = 0 ∨ s.rq .installer 8 8 = 4 ∧ s.beatValid = true ∧ ((4 : W64) - s.time.beat).toNat = 4) ∧
    s.loomPool = pool ∧ s.planHitsDraft (planOfImage planImage) = hits ∧ s.tie.shadow = s0.tie.shadow

theorem tie_case (q : Rq) (s0 : State) (p : Nat) (hits : Bool)
    (hq : q.m = .installer) (hk : (q.on s0).umpire.mboxes.map (·.1) = allMbx)
    (hr : (q.bulked s0 planImage).Runs .installer 0x0070 (!(q.bulked s0 planImage).flag .installer 0))
    (h : let s := q.bulked s0 planImage
      s.rq .installer 0 4 = 6472 ∧ planDigest = s.rqBytes .installer 0x10 32 ∧
      (s.rq .installer 8 8 = 0 ∨ s.rq .installer 8 8 = 4 ∧ s.beatValid = true ∧ ((4 : W64) - s.time.beat).toNat = 4) ∧
      s.loomPool = p ∧ s.planHitsDraft planOne = hits) : tieCase q s0 p hits := by
  obtain ⟨h1, h2, h3, h4, h5⟩ := h
  have hb : ((q.bulked s0 planImage).mbox .installer).bulk = Mem.writeN [] 0 planImage := by
    rw [Rq.bulked, hq, State.mbox_modMbox hk (by decide)]
  exact ⟨hr, h1, bulk_reads _ _ _ (by decide +kernel) hb, plan_digest.trans h2, by decide +kernel, plan_image ▸ by decide +kernel, h3, h4,
    plan_image ▸ h5, rfl⟩

theorem test_witness_TieUpSet :
    -- a wrong digest of no bytes; no bytes; a plan that breaks a rule, with a beat less than four ahead
    (let s := rqTieWrong.on pool
     s.Runs .installer 0x0070 (!s.flag .installer 0) ∧ s.rq .installer 0 4 = 0 ∧
      sha256 ((s.mbox .installer).bulk.readN 0 0) ≠ s.rqBytes .installer 0x10 32) ∧
    (let s := rqTieNone.on pool
     s.Runs .installer 0x0070 (!s.flag .installer 0) ∧ s.rq .installer 0 4 = 0 ∧
      sha256 ((s.mbox .installer).bulk.readN 0 0) = s.rqBytes .installer 0x10 32) ∧
    (let s := rqTieZero.on { pool with time := { sync := .locked, beat := 0 } }
     s.Runs .installer 0x0070 (!s.flag .installer 0) ∧ s.rq .installer 0 4 = 200 ∧ s.beatValid = true ∧
      (s.mbox .installer).bulk.readN 0 200 = zeros 200 ∧ sha256 (zeros 200) = s.rqBytes .installer 0x10 32 ∧
      200 = 200 + 6272 * ((zeros 200).getD 0 0).toNat ∧ s.planOk (planOfImage (zeros 200)) = false ∧ s.rq .installer 8 8 = 3 ∧
      ((3 : W64) - s.time.beat).toNat < 4) ∧
    -- the image: taken at once, and at the fourth beat; with another plan pending; against a running draft; above the pool
    tieCase rqTieNow (planned [] none live.fuses) 480 false ∧ tieCase rqTieAt (planned [] none live.fuses) 480 false ∧
    tieCase rqTieNow (planned [] (some plan1) live.fuses) 480 false ∧
    tieCase rqTieNow (planned [(0, { containerDraft with st := .running })] none live.fuses) 480 true ∧
    tieCase rqTieNow (planned [] none { shadow := Mem.write live.fuses.shadow 9 4#8 }) 0 false ∧
    (∀ ds sh, (planned ds sh live.fuses).planOk (planOfImage planImage) = true) ∧
    -- READ
    (let s := rqTieRead.on pool
     s.Runs .installer 0x0070 (s.flag .installer 0)) := by
  refine ⟨⟨Rq.runs rqTieWrong pool sig_tieWrong ?_, ?_⟩, ⟨Rq.runs rqTieNone pool sig_tieNone ?_, ?_, ?_⟩,
    ⟨Rq.runs rqTieZero _ sig_tieZero ?_, ?_, ?_, ?_, ?_, ?_⟩, ?_, ?_, ?_, ?_, ?_, ?_, Rq.runs rqTieRead pool sig_tieRead ?_⟩
  · decide +kernel
  · decide +kernel
  · decide +kernel
  · decide +kernel
  · exact empty_digest.trans (by decide +kernel)
  · decide +kernel
  · decide +kernel
  · decide +kernel
  · decide +kernel
  · exact zero_digest.trans (by decide +kernel)
  · decide +kernel
  · exact tie_case _ _ _ _ rfl (by decide +kernel) (Rq.runs_from rqTieNow live _ sig_tieNow (by decide +kernel) (by decide +kernel)) (by decide +kernel)
  · exact tie_case _ _ _ _ rfl (by decide +kernel) (Rq.runs_from rqTieAt live _ sig_tieAt (by decide +kernel) (by decide +kernel)) (by decide +kernel)
  · exact tie_case _ _ _ _ rfl (by decide +kernel) (Rq.runs_from rqTieNow live _ sig_tieNow (by decide +kernel) (by decide +kernel)) (by decide +kernel)
  · exact tie_case _ _ _ _ rfl (by decide +kernel) (Rq.runs_from rqTieNow live _ sig_tieNow (by decide +kernel) (by decide +kernel)) (by decide +kernel)
  · exact tie_case _ _ _ _ rfl (by decide +kernel) (Rq.runs_from rqTieNow live _ sig_tieNow (by decide +kernel) (by decide +kernel)) (by decide +kernel)
  · intro ds sh
    rw [plan_image]
    exact plan_ok_any ds sh
  · decide +kernel

/-- A locked pool under the plan of one pattern, with a draft 0 in a given state. -/
def drafted (d : Draft) : State :=
  { pool with time := { sync := .locked }, tie := { plan := some plan1 }, loom := { drafts := [(0, d)] } }
def draftIn (st : DraftSt) : Draft := { containerDraft with st := st }

/-- Unload, start (at a beat), stop and query of draft 0 of context 1. -/
def rqUnload : Rq := opq 0x0060 1 ([1] ++ zeros 23)
def rqStart (beat : Nat) : Rq := opq 0x0061 0 ([1] ++ zeros 7 ++ toLe 8 beat)
def rqDraft (op : Nat) : Rq := opq op 0 ([1] ++ zeros 7)

theorem test_witness_DraftCommands :
    (∀ st ∈ [DraftSt.pending, .running, .loaded, .done, .halted], let s := rqUnload.on (drafted (draftIn st))
      s.hasLoom = true ∧ s.commandCtx .operator (s.rq .operator 0 1) = .inl 1 ∧
      Table.get? s.loom.drafts (s.rq .operator 1 1) = some (draftIn st) ∧ s.Runs .operator 0x0060 (s.flag .operator 0)) ∧
    -- no rule refuses the start at once and at the fourth beat; the third beat is too near; the context has a draft that runs
    (∀ b ∈ [0, 3, 4], let s := (rqStart b).on (drafted containerDraft)
      s.hasLoom = true ∧ s.commandCtx .operator (s.rq .operator 0 1) = .inl 1 ∧
      Table.get? s.loom.drafts (s.rq .operator 1 1) = some containerDraft ∧ s.Runs .operator 0x0061 true ∧
      s.startRefusalOf 1 containerDraft (BitVec.ofNat 64 (s.rq .operator 8 8)) = (if b = 3 then some mBadArg else none)) ∧
    (let s := (rqStart 0).on (drafted (draftIn .running))
     Table.get? s.loom.drafts (s.rq .operator 1 1) = some (draftIn .running) ∧ s.Runs .operator 0x0061 true ∧
      s.startRefusalOf 1 (draftIn .running) 0 = some mState) ∧
    -- stop and query: not running, pending, running, running with a stop that waits
    (∀ op ∈ [0x0062, 0x0063], ∀ d ∈ [draftIn .loaded, { draftIn .pending with starter := some .maker }, draftIn .running,
        { draftIn .running with stopDue := some .stop }], let s := (rqDraft op).on (drafted d)
      s.hasLoom = true ∧ s.commandCtx .operator (s.rq .operator 0 1) = .inl 1 ∧
      Table.get? s.loom.drafts (s.rq .operator 1 1) = some d ∧ d.ctx = 1 ∧ d.starter ≠ some .operator ∧ s.Runs .operator op true) := by
  refine ⟨?_, ?_, ?_, ?_⟩ <;> decide +kernel

/-- BEAT_CONFIG: the largest values at once and at beat 128, PICKS_PER_BEAT 3, and READ. -/
def rqBeat : Rq := { m := .installer, op := 0x0071, key := 1, body := [0, 3] ++ toLe 2 4096 ++ toLe 2 1024 ++ toLe 2 1023 ++ zeros 16
                     sig := 0x502B67FC9FED9A5DF87FD0881E0030D2DDD40F190A2E8B1A67F9BD147F759819 }
def rqBeatAt : Rq := { m := .installer, op := 0x0071, key := 1, body := [1, 0] ++ toLe 2 4 ++ toLe 2 1 ++ zeros 10 ++ toLe 8 128
                       sig := 0x7C35F15E97B648FF3BBD3FDBAA9E2DB248FFAAE0C2B7AECB9D4AA787BE00889B }
def rqBeatBad : Rq := { m := .installer, op := 0x0071, key := 1, body := [1, 0] ++ toLe 2 3 ++ toLe 2 1 ++ zeros 18
                        sig := 0xF7A6D91B52141D3AF4700CCDE71A9FD62BFFCF819582B976C43BA55EBAB6E311 }
def rqBeatRead : Rq := { m := .installer, op := 0x0071, flags := 1, key := 1, body := zeros 24
                         sig := 0x0D6D0A6D89F56C92AD9834068A74E1556873A2B43B76F14E69F5ED7D06A53683 }
theorem sig_beat : ((rqBeat.on live).acceptMbx .installer).sigOk .installer = true := by decide +kernel
theorem sig_beatAt : ((rqBeatAt.on live).acceptMbx .installer).sigOk .installer = true := by decide +kernel
theorem sig_beatBad : ((rqBeatBad.on live).acceptMbx .installer).sigOk .installer = true := by decide +kernel
theorem sig_beatRead : ((rqBeatRead.on live).acceptMbx .installer).sigOk .installer = true := by decide +kernel

/-- Settings that wait. -/
def beatWaits : BeatPending := { cfg := {}, activation := 0, early := false, mbx := .installer }

theorem test_witness_BeatConfig :
    -- out of range
    (let s := rqBeatBad.on pool
     s.Runs .installer 0x0071 (!s.flag .installer 0) ∧ s.rq .installer 2 2 = 3) ∧
    -- with a draft that runs
    (let s := rqBeat.on (drafted (draftIn .running))
     s.Runs .installer 0x0071 (!s.flag .installer 0) ∧ s.draftRuns = true ∧ s.rq .installer 2 2 ≠ s.time.cfg.picks) ∧
    -- in range, free and with another that waits; an invalid counter and a valid one
    (∀ p ∈ [none, some beatWaits], let s := rqBeat.on { pool with time := { pendingCfg := p } }
     s.Runs .installer 0x0071 (!s.flag .installer 0) ∧ s.rq .installer 0 1 = 0 ∧ s.rq .installer 2 2 = 4096 ∧ s.rq .installer 4 2 = 1024 ∧
      s.rq .installer 6 2 = 1023 ∧ s.rq .installer 0x10 8 = 0 ∧ s.draftRuns = false ∧ s.time.pendingCfg = p) ∧
    (let s := rqBeatAt.on { pool with time := { sync := .master, beat := 124 } }
     s.Runs .installer 0x0071 (!s.flag .installer 0) ∧ s.rq .installer 0 1 = 1 ∧ s.rq .installer 2 2 = 4 ∧ s.rq .installer 4 2 = 1 ∧
      s.rq .installer 6 2 = 0 ∧ s.rq .installer 0x10 8 = 128 ∧ s.beatValid = true ∧
      (BitVec.ofNat 64 128 - s.time.beat).toNat = 4 ∧ s.draftRuns = false ∧ s.time.pendingCfg = none) ∧
    -- READ
    (let s := rqBeatRead.on pool
     s.Runs .installer 0x0071 (s.flag .installer 0)) ∧
    -- the boundary with an invalid counter
    (let s := ({ live with time := { pendingCfg := some beatWaits } } : State).modMbox .installer fun b => { b with wait := some { what := .beatCfg } }
     s.time.pendingCfg = some beatWaits ∧ s.beatValid = false ∧ beatWaits.cfg.master = false ∧ s.time.cfg.master = false ∧
      s.standbyHolds = false ∧
      s.HasMbx .installer ∧ (s.mbox .installer).wait = some { what := .beatCfg }) := by
  refine ⟨⟨Rq.runs rqBeatBad pool sig_beatBad ?_, ?_⟩, ⟨Rq.runs rqBeat _ sig_beat ?_, ?_⟩, ?_,
    ⟨Rq.runs rqBeatAt _ sig_beatAt ?_, ?_⟩, Rq.runs rqBeatRead pool sig_beatRead ?_, ?_⟩
  · decide +kernel
  · decide +kernel
  · decide +kernel
  · decide +kernel
  · intro p _
    refine ⟨Rq.runs rqBeat _ sig_beat ?_, ?_⟩ <;> (simp only [List.mem_cons, List.not_mem_nil, or_false] at *)
    all_goals rename_i h; obtain rfl | rfl := h <;> decide +kernel
  · decide +kernel
  · decide +kernel
  · decide +kernel
  · decide +kernel

theorem test_witness_BeatBoundary :
    -- a valid counter, an acquisition that loads, a first MASTER boundary, SAFE of another cause
    (let s : State := { live with time := { beatDue := true, sync := .locked, beat := 0xFFFFFFFFFFFFFFFF } }
     s.power.stage = 7 ∧ s.time.beatDue = true ∧ s.time.pendingCfg = none ∧ s.time.acqLoad = none ∧ s.time.masterDue = false ∧
      s.beatValid = true ∧ s.power.safe = false) ∧
    (let s : State := { live with time := { beatDue := true, sync := .acquiring, acqLoad := some (10, 201), cycle := 10 } }
     s.power.stage = 7 ∧ s.time.beatDue = true ∧ s.time.pendingCfg = none ∧ s.time.masterDue = false ∧
      s.time.acqLoad = some (10, 201) ∧ 10 ≤ s.time.cycle) ∧
    (∀ l ∈ [none, some (10, 201)], let s : State :=
        { live with time := { beatDue := true, masterDue := true, acqLoad := l, cfg := { master := true } } }
      s.power.stage = 7 ∧ s.time.beatDue = true ∧ s.time.pendingCfg = none ∧ s.time.acqLoad = l ∧ s.time.masterDue = true) ∧
    (let s : State := { live with time := { beatDue := true } }
     s.power.stage = 7 ∧ s.time.beatDue = true ∧ s.time.pendingCfg = none ∧ s.time.acqLoad = none ∧ s.time.masterDue = false ∧
      s.beatValid = false) ∧
    -- a halving
    (let x : Extent := { ext0 with counters := [(0, 255), (5, 1)] }
     let s : State := { pool with exts := [(0, x)], tier := { ageDue := true } }
     s.tier.ageDue = true ∧ s.ext? 0 = some x ∧ (x.counters.map (·.1)).Nodup) ∧
    pool.tier.ageDue = false := by
  refine ⟨?_, ?_, ?_, ?_, ?_, ?_⟩ <;> decide +kernel

/-- In LOCKED or HOLDOVER at beat 5, whose next marker, that of beat 6, is a ZERO or a ONE symbol. -/
def following (y : Sync) (n : Nat := 0) : State :=
  { live with time := { sync := y, beat := 5, markBeat := 6, holdCount := n } }

theorem test_witness_BeatMarkers :
    -- the widths at the ends of their ranges
    (Sym.start.driven true ≤ 553 + 42 ∧ 637 ≤ Sym.start.driven true + 42) ∧
    -- START in FREE
    symbolOf 255 = some (.start, false) ∧ (42 < 255 ∧ live.time.cfg.master = false ∧ live.time.sync = .free) ∧
    -- a marker four cycles early and late: the expected one and another
    (∀ y ∈ [Sync.locked, .holdover], ∀ d ∈ [(0 : Int), 4, -4], let s := following y
      s.time.cfg.master = false ∧ s.time.sync = y ∧ (s.markerDue + d).toNat - s.markerDue ≤ 4 ∧ s.markerDue - (s.markerDue + d).toNat ≤ 4 ∧
      42 < (symbolAt s.time.markBeat).driven false ∧
      symbolOf ((symbolAt s.time.markBeat).driven false) = some (symbolAt s.time.markBeat, false) ∧
      42 < 350 ∧ symbolOf 350 = none) ∧
    -- a window that closes
    (let s : State := { live with time := { sync := .acquiring, acqEdge := 10 } }
     s.time.cfg.master = false ∧ s.time.sync = .acquiring ∧ s.time.acqLoad = none ∧
      s.time.acqEdge + s.beatCycles + 4 ≤ 10 + s.beatCycles + 4) ∧
    (∀ y ∈ [Sync.locked, .holdover], let s := following y
      s.time.cfg.master = false ∧ s.time.sync = y ∧ s.markerDue + 4 ≤ ((s.markerDue + 4).toNat : Int)) ∧
    -- one failure more than HOLDOVER, and as many
    ((following .holdover 65).time.cfg.holdover < (following .holdover 65).time.holdCount ∧
      (following .holdover 65).power.safe = false ∧
      (following .holdover 64).time.holdCount ≤ (following .holdover 64).time.cfg.holdover) ∧
    -- in SAFE of another cause
    (let s : State := { following .holdover 65 with power := { live.power with safe := true, safeCause := 0x08 } }
     s.time.cfg.holdover < s.time.holdCount ∧ s.power.safe = true ∧ s.power.safeCause ≠ 0x06) := by
  refine ⟨?_, ?_, ?_, ?_, ?_, ?_, ?_, ?_⟩ <;> decide +kernel

/-- A plan under which every near and far position of section 0 and group 0 is of engine 0, or of no one. -/
def engineAt (c : Nat) : TieUp := { plan := some { patterns := 1, near := [[[c]]], far := [[[c]]], egress := [], ingress := [], rota := [0xFF], allowances := [] } }

/-- Engine 0 runs this job; the other engines are idle, or all run it. -/
def engines (j : Option Job) (rest : Option Job := none) : List (Option Job) := j :: List.replicate 7 rest

/-- A list of two entries for context 1, at the start of extent 0. -/
def job : Job := { ctx := 1, mbx := .operator, list := 0, count := 2, timeout := 64, listExt := 0 }

/-- SHUTTLE_RUN: engine, timeout, count, address. -/
def runJob (n tmo cnt addr : Nat) : Rq := opq 0x0080 0 ([1, BitVec.ofNat 8 n] ++ toLe 2 tmo ++ toLe 2 cnt ++ zeros 2 ++ toLe 8 addr)

theorem test_witness_ShuttleJobs :
    -- a busy engine, all busy; PULL_TIMEOUT 47 and LIST_COUNT 0 and 4,097; engine 8
    (∀ n ∈ [7, 0xFF], let s := (runJob n 0 1 0).on { pool with engines := engines (some job) (some job) }
      s.Runs .operator 0x0080 true ∧ s.commandCtx .operator (s.rq .operator 0 1) = .inl 1 ∧ s.engines.length = 8 ∧
      (s.rq .operator 1 1 < 8 → s.engine (s.rq .operator 1 1) ≠ none) ∧ ∀ k, k < 8 → s.engine k ≠ none) ∧
    (∀ v ∈ [(47, 1), (4097, 1), (0, 0), (0, 4097)], let s := (runJob 0xFF v.1 v.2 0).on { pool with engines := engines (some job) }
      s.Runs .operator 0x0080 true ∧ s.commandCtx .operator (s.rq .operator 0 1) = .inl 1 ∧ s.engines.length = 8 ∧
      s.rq .operator 1 1 = 0xFF ∧ (∀ k, k < 1 → s.engine k ≠ none) ∧ s.engine 1 = none ∧ s.rq .operator 2 2 = v.1 ∧
      s.rq .operator 4 2 = v.2) ∧
    (let s := (runJob 8 0 1 0).on pool
     s.Runs .operator 0x0080 true ∧ 7 < s.rq .operator 1 1 ∧ s.rq .operator 1 1 ≠ 0xFF) ∧
    -- no extent; a list that leaves its extent, in a SATIN extent, not aligned
    (∀ v ∈ [(0, 1), (48, 4096)], let s := (runJob 0 v.1 v.2 0).on { pool with exts := [] }
      s.Runs .operator 0x0080 true ∧ s.engine 0 = none ∧ s.extentAt (s.rq .operator 8 8) = none) ∧
    (∀ v ∈ [(2 ^ 21 - 32, 2, ext1), (0, 1, { ext1 with cls := .satin }), (16, 1, ext1)],
      let s := (runJob 0 4096 v.2.1 v.1).on { pool with exts := [(0, v.2.2)] }
      s.Runs .operator 0x0080 true ∧ s.engine 0 = none ∧ s.extentAt (s.rq .operator 8 8) = some (0, v.2.2, v.1) ∧
      ¬ (v.1 + 32 * v.2.1 ≤ v.2.2.granules * 2 ^ 21 ∧ v.2.2.cls = .plain ∧ s.rq .operator 8 8 % 32 = 0)) ∧
    -- at the end of the extent: SEALED; without a position; taken
    (∀ v ∈ [({ ext1 with sealed := true }, 8), (ext1, 9), (ext1, 8)],
      let s := (runJob 0 4096 2 (2 ^ 21 - 64)).on { pool with exts := [(0, v.1)], tie := engineAt v.2 }
      s.Runs .operator 0x0080 true ∧ s.engine 0 = none ∧ s.extentAt (s.rq .operator 8 8) = some (0, v.1, 2 ^ 21 - 64) ∧
      v.1.granules = 1 ∧ v.1.cls = .plain ∧ (v.1.sealed = true ∨ v.1.st = .granted ∧ v.1.owner = 1 ∧ v.1.ending = false ∧
        v.1.bound = false ∧ (s.ownsNear 8 && s.ownsFar 8) = (v.2 == 8))) ∧
    -- the list is read
    (let s : State := { pool with tie := engineAt 8, engines := engines (some job) }
     0 < s.engines.length ∧ s.engine 0 = some job ∧ job.descs = none ∧ job.bolt = none ∧ job.idx = 0 ∧ job.count ≠ 0 ∧ job.abort = false ∧
      s.enginesOn = true ∧ s.engineHere 0 = true ∧ s.extentAt job.list = some (0, ext1, 0)) ∧
    -- SHUTTLE_ABORT of engine 8, of an idle one, of the job
    (∀ e ∈ [8, 7, 0], let s := (opq 0x0081 0 (toLe 1 e ++ zeros 7)).on { pool with engines := engines (some job) }
      s.Runs .operator 0x0081 true ∧ isManaged .operator = true ∧ s.engines.length = 8 ∧ s.rq .operator 0 1 = e ∧
      s.engine e = (if e = 0 then some job else none) ∧ s.ctxLive job.ctx = true ∧ job.cur = none ∧ 0 < job.count ∧ job.back = [] ∧
      job.dropBack = false) := by
  refine ⟨?_, ?_, ?_, ?_, ?_, ?_, ?_, ?_⟩ <;> decide +kernel

/-- COPY of one block within extent 0 from its first page to its second; PULL of eight blocks; the list that holds one of them. -/
def copyOne : Desc := { kind := 1, flags := 0, port := 0, rsv := 0, len := 1, src := 0, dst := 65536 }
def pullEight : Desc := { kind := 3, flags := 0, port := 5, rsv := 0, len := 8, src := 0, dst := 0 }
def jobOf (d : Desc) (c : Option Cur := none) : Job := { job with count := 1, descs := some [d], cur := c }
def running (c : Cur) : State := { pool with exts := [(0, nearExt)], engines := engines (some (jobOf c.d (some c))) }
def pullCur : Cur := { d := pullEight, idx := 0, next := 8, inflight := [6, 7] }

theorem test_witness_ShuttleDescriptors :
    -- a start that a check refuses, and one that none refuses
    (∀ v ∈ [(copyOne, none), ({ copyOne with rsv := 1 }, some 0x01)], let s : State := { pool with engines := engines (some (jobOf v.1)) }
      0 < s.engines.length ∧ s.engine 0 = some (jobOf v.1) ∧ (jobOf v.1).descs = some [v.1] ∧ [v.1][0]? = some v.1 ∧
      s.listOut 0 = false ∧ s.enginesOn = true ∧ (s.startRefusal 0 1 v.1).isSome = v.2.isSome ∧ (jobOf v.1).firstIdx = 0xFFFF) ∧
    -- issues: the last block of a PULL; a block of a COPY
    (∀ c ∈ [({ d := pullEight, idx := 0, next := 7 } : Cur), { d := copyOne, idx := 0 }], let s := running c
      0 < s.engines.length ∧ s.engine 0 = some (jobOf c.d (some c)) ∧ c.fail = none ∧ c.next < c.d.len ∧ c.inflight.length < 512 ∧
      s.enginesOn = true ∧ c.done < c.d.len ∧ c.conf = false ∧ (jobOf c.d (some c)).abort = false ∧ (jobOf c.d (some c)).bolt = none ∧ (c.d.kind = 3 ∨ (c.d.kind ≠ 3 ∧
        s.extentAt (c.d.src + 256 * c.next) = some (0, nearExt, 0) ∧ s.zeroBlock 0 0 = false ∧ s.divergent 0 0 = false ∧
        s.tornBlock 0 0 = false ∧ s.reqs = []))) ∧
    (∀ l, (running { d := copyOne, idx := 0 }).locFailed l = false) ∧
    -- a read that is out as long as PULL_TIMEOUT, behind one of an earlier block
    (let q : Port := { rdTags := [(0, { engine := 0, block := 6, left := 10 }), (1023, { engine := 0, block := 7, left := 0 })] }
     let s : State := { running pullCur with ports := [{}, {}, {}, {}, {}, q], time := { pick := 64 } }
     s.Shape ∧ s.engine 0 = some (jobOf pullEight (some pullCur)) ∧ pullEight.kind = 3 ∧ pullCur.fail = none ∧ pullEight.port < 6 ∧
      Table.get? (s.port 5).rdTags 1023 = some { engine := 0, block := 7, left := 0 } ∧
      Table.get? (s.port 5).rdTags 0 = some { engine := 0, block := 6, left := 10 } ∧ 0 + job.timeout ≤ s.time.pick) ∧
    -- a write-back into a near-resident page
    (let j : Job := { jobOf copyOne with back := [(0, 0x0B, 0)] }
     let s : State := { running { d := copyOne, idx := 0 } with engines := engines (some j) }
     s.engine 0 = some j ∧ j.back = [(0, 0x0B, 0)] ∧ s.listOut 0 = false ∧ j.dropBack = false ∧ s.scrubOn = true ∧
      s.extentAt (j.list + 32 * 0) = some (0, nearExt, 0) ∧ (s.page 0 0).near = true ∧ (s.page 0 0).zor = false ∧
      (s.page 0 0).st = .settled ∧ nearExt.cls = .plain ∧ s.ras.work = [] ∧ s.divergent 0 0 = false ∧ s.reqs = []) := by
  refine ⟨?_, ?_, noneFailed rfl, ?_, ?_⟩ <;> decide +kernel

/-- BOLT_LOAD into extent 1 of `len` bytes from the start of extent 0; ADD, REMOVE and LIST of BOLT_ISSUERS. -/
def loadBolt (n len : Nat) : Rq := opq 0x0090 0 ([1, BitVec.ofNat 8 n] ++ toLe 2 1 ++ zeros 12 ++ toLe 8 len)
def rqIssuer : Rq := { m := .installer, op := 0x0091, key := 1, body := zeros 8 ++ pubOne
                       sig := 0xED7ECCF81EC62D715A4BDA7CD9C93032CAB3A5BE1AF66C5FE34DF7506C83D8B9 }
def rqIssuerBad : Rq := { m := .installer, op := 0x0091, key := 1, body := zeros 72
                          sig := 0x2ADEF0F84222CB72E94E442A6306A277C0CE579B2B9F35CC4221E3FFBF539028 }
def rqIssuerGone : Rq := { m := .installer, op := 0x0091, key := 1, body := [1] ++ zeros 7 ++ pubOne
                           sig := 0x092921250C19B9D6EEA1F2CB72DC3C687F3C2A34CC604764E205B30AD7D91BC1 }
def rqIssuerList : Rq := { m := .installer, op := 0x0091, key := 1, body := [2] ++ zeros 71
                           sig := 0xFC54C3747D9CE135454051C4A4666894E56D5D983393949D6C836DFF31FF6160 }
theorem sig_issuer : ((rqIssuer.on live).acceptMbx .installer).sigOk .installer = true := by decide +kernel
theorem sig_issuerBad : ((rqIssuerBad.on live).acceptMbx .installer).sigOk .installer = true := by decide +kernel
theorem sig_issuerGone : ((rqIssuerGone.on live).acceptMbx .installer).sigOk .installer = true := by decide +kernel
theorem sig_issuerList : ((rqIssuerList.on live).acceptMbx .installer).sigOk .installer = true := by decide +kernel

/-- An expander without the cipher unit. -/
def noCipher : Fuses := { shadow := Mem.write live.fuses.shadow 9 8#8 }
/-- A pool whose extent 1 is BOUND. -/
def boundPool (x : Extent) : State := { pool with exts := [(0, ext1), (1, x)] }
def boundExt : Extent := { ext1 with base := 2 ^ 21, runs := [(0, 128)], bound := true }
/-- A load at its step 1 before and after its first block is read; one with a block to write; one at a chunk of no bytes, whose key
is zero and whose additional data is such that its tag is zero, of no chunks and of one; one at its signature. -/
def boltFirst : BoltJob := { ext := 1, src := 0, len := 256 }
def boltRead : BoltJob := { boltFirst with buf := [(0, zeros 256)] }
def boltWrites : BoltJob := { boltFirst with plain := [(0, zeros 256)] }
def boltSixth (chunks : Byte) : BoltJob :=
  { boltRead with
    step := 6, key := some (zeros 32)
    header := zeros 28 ++ [chunks, 0, 0, 0] ++ [20, 145, 165, 221, 207, 245, 192, 14, 237, 135, 0, 204, 119, 144, 69, 123] }
/-- The signature of the empty image, and of a digest, under the key of `pubOne`. -/
def boltSig : List Byte := toBe 32 p256G.1 ++ toBe 32 ((be (sha256 []) + p256G.1) % p256N)
def boltSeventh (sig : List Byte) : BoltJob :=
  { boltFirst with step := 7, len := 64, buf := [(0, sig ++ zeros 192)], header := zeros 48 ++ sha256 pubOne }
def boltJob (b : BoltJob) : Job := { job with list := 0, count := 0, listExt := 0xFFFF, bolt := some b }
def boltRuns (b : BoltJob) : State :=
  ({ pool with
      exts := [(0, nearExt), (1, { boundExt with boltLoading := true, pages := [(0, { zor := false })] })]
      tie := engineAt 8, engines := engines (some (boltJob b)), nor := { pool.nor with issuers := [pubOne] } } : State).modMbox .operator fun x => { x with wait := some { what := .bolt 0 } }

/-- An issuer command against a list of keys. -/
abbrev issuersOf (q : Rq) (sub : Nat) (keys : List (List Byte)) : Prop :=
  let s := q.on { pool with nor := { pool.nor with issuers := keys } }
  s.Runs .installer 0x0091 (s.rq .installer 0 1 == sub) ∧ s.hasCipher = true ∧ (pointOf (s.rqBytes .installer 8 64)).isSome = true ∧
    s.nor.issuers = keys ∧ s.rqBytes .installer 8 64 = pubOne

theorem test_witness_Bolts :
    -- BOLT_LOAD: no cipher unit; not BOUND; it takes a bolt; no source; taken by the last engine, with the others busy
    (let s := (loadBolt 0 0).on { pool with fuses := noCipher }
     s.Runs .operator 0x0090 true ∧ s.engines.length = 8 ∧ s.hasCipher = false) ∧
    (∀ x ∈ [{ boundExt with bound := false }, { boundExt with boltLoading := true }], let s := (loadBolt 0 0).on (boundPool x)
      s.Runs .operator 0x0090 true ∧ s.engines.length = 8 ∧ s.hasCipher = true ∧ s.commandCtx .operator (s.rq .operator 0 1) = .inl 1 ∧
      s.ext? (s.rq .operator 2 2) = some x ∧ x.st = .granted ∧ x.owner = 1 ∧ x.ending = false ∧ x.bound = !(!x.boltLoading) ∧
      s.umpire.idBad = false) ∧
    (let s := (loadBolt 0 0).on { boundPool boundExt with umpire := { pool.umpire with idBad := true } }
     s.Runs .operator 0x0090 true ∧ s.engines.length = 8 ∧ s.hasCipher = true ∧ s.commandCtx .operator (s.rq .operator 0 1) = .inl 1 ∧
      s.ext? (s.rq .operator 2 2) = some boundExt ∧ s.umpire.idBad = true) ∧
    (∀ len ∈ [0, 2 ^ 21 + 1], let s := (loadBolt 0xFF len).on { boundPool boundExt with engines := List.replicate 7 (some job) ++ [none] }
      s.Runs .operator 0x0090 true ∧ s.engines.length = 8 ∧ s.hasCipher = true ∧ s.commandCtx .operator (s.rq .operator 0 1) = .inl 1 ∧
      s.ext? (s.rq .operator 2 2) = some boundExt ∧ boundExt.st = .granted ∧ boundExt.owner = 1 ∧ boundExt.ending = false ∧
      boundExt.bound = true ∧ boundExt.bolt = none ∧ boundExt.boltLoading = false ∧ s.boltSource 1 0 len = (len == 0) ∧
      s.umpire.idBad = false ∧ le (s.poolBytes (0 + 8) 8).2 = 0 ∧ (∀ k, k < 7 → s.engine k ≠ none) ∧ s.engine 7 = none ∧ s.umpire.entropyFail = false) ∧
    -- BOLT_CHUNK: a fetch, a store, an ill-formed header, a chunk that fails, one that is opened (the last and another), a signature
    (∀ b ∈ [boltFirst, boltWrites, boltRead, { boltSixth 0 with key := some [1] }, boltSixth 0, boltSixth 1, boltSeventh boltSig,
        boltSeventh []], let s := boltRuns b
      0 < s.engines.length ∧ s.engine 0 = some (boltJob b) ∧ (boltJob b).bolt = some b ∧ s.enginesOn = true ∧
      (boltJob b).abort = false ∧ b.bad = none ∧ s.HasMbx .operator ∧ s.waiter (.bolt 0) = some .operator ∧ b.writes = [] ∧
      b.busy = false) ∧
    (let s := boltRuns boltFirst
     boltFirst.plain = [] ∧ (boltFirst.blocks.filter fun n => (Table.get? boltFirst.buf n).isNone) = [0] ∧
      s.extentAt (256 * 0) = some (0, nearExt, 0) ∧ s.tornBlock 0 (0 / 256) = false ∧ s.zeroBlock 0 (0 / 256) = false ∧
      s.divergent 0 (0 / 256) = false ∧ s.reqs = [] ∧ ∀ l, s.locFailed l = false) ∧
    (let s := boltRuns boltWrites
     boltWrites.plain = [(0, zeros 256)] ∧ s.reqs = [] ∧ s.divergent boltWrites.ext 0 = false ∧ (∀ l, s.locFailed l = false) ∧
      ∃ x, s.ext? boltWrites.ext = some x ∧ x.st = .granted ∧ x.sealed = false ∧ x.sealing = false ∧ x.cls = .plain ∧
        (x.page (0 / 256)).zor = false ∧ x.bound = true) ∧
    (∀ b ∈ [boltRead, boltSixth 0, boltSixth 1, boltSeventh boltSig, boltSeventh []],
      b.plain = [] ∧ (b.blocks.filter fun n => (Table.get? b.buf n).isNone) = []) ∧
    boltHeaderOk boltRead.bytes boltRead.len = false ∧ (boltSixth 0).bytes = zeros 16 ∧
    gcmOpen [1] (zeros 4 ++ toLe 8 0) (slice (boltSixth 0).header 0x20 16 ++ toLe 4 0) [] (zeros 16) = none ∧
    gcmOpen (zeros 32) (zeros 4 ++ toLe 8 0) (slice (boltSixth 0).header 0x20 16 ++ toLe 4 0) [] (zeros 16) = some [] ∧
    (boltSixth 1).chunk + 1 = (boltSixth 1).chunks_ ∧ (boltSixth 0).chunk + 1 ≠ (boltSixth 0).chunks_ ∧
    (∀ sig ∈ [boltSig, zeros 64], (boltRuns (boltSeventh sig)).issuer (boltSeventh sig).header = some pubOne ∧
      ecdsaVerify pubOne (sha256 (boltSeventh sig).seen) (boltSeventh sig).bytes = (sig == boltSig)) ∧
    -- BOLT_ISSUERS: ADD off the curve, of a present key, to fifteen and to sixteen; REMOVE of an absent and a present key; LIST
    (let s := rqIssuerBad.on pool
     s.Runs .installer 0x0091 (s.rq .installer 0 1 == 0) ∧ s.hasCipher = true ∧ pointOf (s.rqBytes .installer 8 64) = none) ∧
    issuersOf rqIssuer 0 [pubOne] ∧ issuersOf rqIssuer 0 (List.replicate 15 []) ∧ issuersOf rqIssuer 0 (List.replicate 16 []) ∧
    issuersOf rqIssuerGone 1 [] ∧ issuersOf rqIssuerGone 1 [pubOne] ∧
    (let s := rqIssuerList.on pool
     s.Runs .installer 0x0091 (decide (2 ≤ s.rq .installer 0 1)) ∧ s.hasCipher = true ∧ s.rq .installer 0 1 = 2) := by
  refine ⟨?_, ?_, ?_, ?_, ?_, ⟨?_, ?_, ?_, ?_, ?_, ?_, ?_, noneFailed rfl⟩, ⟨?_, ?_, ?_, noneFailed rfl, _, rfl, ?_, ?_, ?_, ?_, ?_, ?_⟩, ?_, ?_, ?_, ?_, ?_, ?_, ?_, ?_,
    ⟨Rq.runs rqIssuerBad pool sig_issuerBad ?_, ?_⟩, ⟨Rq.runs rqIssuer _ sig_issuer ?_, ?_⟩,
    ⟨Rq.runs rqIssuer _ sig_issuer ?_, ?_⟩, ⟨Rq.runs rqIssuer _ sig_issuer ?_, ?_⟩, ⟨Rq.runs rqIssuerGone _ sig_issuerGone ?_, ?_⟩,
    ⟨Rq.runs rqIssuerGone _ sig_issuerGone ?_, ?_⟩, ⟨Rq.runs rqIssuerList pool sig_issuerList ?_, ?_⟩⟩ <;> decide +kernel

/-- SPDM_MSG of `n` bytes; GET_VERSION. -/
def spdm (n : Nat) : Rq := opq 0x00A0 0 (toLe 4 n ++ zeros (4 + (n + 7) / 8 * 8))
def getVersion : List Byte := [0x10, 0x84, 0, 0]

theorem test_witness_SpdmResponder :
    (∀ n ∈ [3, 4, 1024, 1025], let s := (spdm n).on pool
      s.Runs .operator 0x00A0 true ∧ s.rq .operator 0 4 = n) ∧
    live.power.stage = 7 ∧ 4 ≤ getVersion.length ∧ getVersion.length ≤ 1024 ∧ live.umpire.ready = true ∧
    State.reset.power.stage = 7 ∧ State.reset.umpire.ready = false ∧
    getVersion.getD 0 0 = 0x10#8 ∧ getVersion.getD 1 0 = 0x84#8 := by
  refine ⟨?_, ?_, ?_, ?_, ?_, ?_, ?_, ?_, ?_⟩ <;> decide +kernel

/-- Port 0 of context 1, with its slot UP. -/
def keyed (q : Port) (st : SlotSt := .up) : State :=
  { pool with ports := [{ q with ctx := some 1 }, {}, {}, {}, {}, {}], slots := { st := st } :: List.replicate 5 {} }

/-- What a KEYX command of port 0 rests on. -/
abbrev keyReady (s : State) : Prop :=
  s.Shape ∧ s.hasCipher = true ∧ (s.port 0).ctx = some 1 ∧ s.ctxLive 1 = true

theorem test_witness_LinkKeys :
    -- KEY_AGREE: refused; off the curve; agreed
    (∀ s ∈ [(pq 0x00A1 0 (zeros 104)).on (keyed {} .hold), (pq 0x00A1 0 (zeros 104)).on (keyed { keyE := some [] })],
      keyReady s ∧ s.Runs (.port 0) 0x00A1 (s.rq (.port 0) 0 1 == 0) ∧ s.umpire.debugUnlocked = false ∧ s.umpire.idBad = false ∧
      ((s.port 0).keyE.isSome = true ∨ (s.slot 0).st ≠ .up)) ∧
    (∀ f ∈ [(0, 104), (1, 24), (2, 16), (3, 8)], ∀ v ∈ [(true, false), (false, true)],
      let s := (pq 0x00A1 0 ([BitVec.ofNat 8 f.1] ++ zeros (f.2 - 1))).on
        { keyed {} with umpire := { pool.umpire with debugUnlocked := v.1, idBad := v.2 } }
      keyReady s ∧ s.Runs (.port 0) 0x00A1 true ∧ s.rq (.port 0) 0 1 = f.1 ∧ (s.umpire.debugUnlocked = true ∨ s.umpire.idBad = true)) ∧
    (∀ k ∈ [zeros 64, pubOne], let s := (pq 0x00A1 0 (zeros 8 ++ k ++ zeros 32)).on (keyed {})
      keyReady s ∧ s.Runs (.port 0) 0x00A1 (s.rq (.port 0) 0 1 == 0) ∧ s.umpire.debugUnlocked = false ∧ s.umpire.idBad = false ∧
      s.umpire.entropyFail = false ∧ (s.port 0).keyE = none ∧ (s.slot 0).st = .up ∧
      (pointOf (s.rqBytes (.port 0) 0x08 64)).isSome = (k == pubOne)) ∧
    -- BOUNCE_ADD: of no bytes; to eight windows; without keys; to seven windows
    (∀ v ∈ [(0, 0, none), (65536, 8, some []), (65536, 0, none), (65536, 7, some ([] : List Byte))],
      let s := (pq 0x00A1 0 ([1] ++ zeros 7 ++ toLe 8 0 ++ toLe 8 v.1)).on
        (keyed { bounce := (List.range v.2.1).map fun i => (65536 * (i + 1), 65536), keyE := v.2.2 })
      keyReady s ∧ s.Runs (.port 0) 0x00A1 (s.rq (.port 0) 0 1 == 1) ∧ s.rq (.port 0) 0x08 8 % 65536 = 0 ∧
      s.rq (.port 0) 0x10 8 = v.1 ∧ (s.port 0).bounce.length = v.2.1 ∧ (s.port 0).keyE = v.2.2 ∧
      ∀ w ∈ (s.port 0).bounce, s.rq (.port 0) 0x08 8 + s.rq (.port 0) 0x10 8 ≤ w.1 ∨ w.1 + w.2 ≤ s.rq (.port 0) 0x08 8) ∧
    -- BOUNCE_REMOVE of an unknown, a free and a used window
    (∀ v ∈ [(([] : List (Nat × Nat)), false), ([(65536, 65536)], false), ([(65536, 65536)], true)],
      let s := (pq 0x00A1 0 ([2] ++ zeros 7 ++ toLe 8 65536)).on
        { keyed { bounce := v.1, conf := true } with
          engines := engines (some (jobOf copyOne (some { d := { pullEight with port := 0, src := 65536 }, idx := 0, conf := v.2 }))) }
      keyReady s ∧ s.Runs (.port 0) 0x00A1 (s.rq (.port 0) 0 1 == 2) ∧ s.rq (.port 0) 0x08 8 = 65536 ∧
      (s.port 0).bounce.find? (fun w => w.1 == 65536) = v.1.head? ∧ s.windowUsed 0 (65536, 65536) = v.2) ∧
    -- BOUNCE_LIST
    (let s := (pq 0x00A1 0 ([3] ++ zeros 7)).on (keyed { bounce := [(65536, 65536)] })
     keyReady s ∧ s.Runs (.port 0) 0x00A1 (decide (3 ≤ s.rq (.port 0) 0 1)) ∧ s.rq (.port 0) 0 1 = 3) := by
  refine ⟨?_, ?_, ?_, ?_, ?_, ?_⟩ <;> decide +kernel

/-- A mirror extent and its block 0, divergent. -/
def mirrorExt : Extent := { ext1 with prot := .mirror }
def divergedPool (d : List Damaged) (x : Extent := mirrorExt) : State := { pool with exts := [(0, x)], ras := { damaged := d } }
def diverged0 : Damaged := { ext := 0, block := 0, diverge := true, far := true }

/-- RAS_QUERY SUMMARY of the device; CE_TABLE_READ of both tables with CLEAR and of TIER 2; SCRUB_CONFIG. -/
def rqRas : Rq := { m := .installer, op := 0x00B0, key := 1, body := [0, 0xFF] ++ zeros 6
                    sig := 0xE8C86A13665BAB82F9969B92A045271FD7F52E272EF0FFBA2D7C7AAD066D8D9C }
def rqTable : Rq := { m := .installer, op := 0x00B1, flags := 1, key := 1, body := [1] ++ zeros 7
                      sig := 0x481204D76C29D2609F37C8DFDCB53327A413DF364061BA1A78530D49C344BF6D }
def rqTableNear : Rq := { m := .installer, op := 0x00B1, key := 1, body := zeros 8
                          sig := 0xD0F195B3A4EC682F11EDB289C356A7A79A26DA96109EA13474C882F55ABABBC6 }
def rqTableBad : Rq := { m := .installer, op := 0x00B1, key := 1, body := [2] ++ zeros 7
                         sig := 0x7DB7217FC0100C83D4E8D167960E7B1865E2689EB97A166325F40F2C1F7CDC00 }
def rqScrub : Rq := { m := .installer, op := 0x00B3, key := 1, body := toLe 2 168 ++ toLe 2 1 ++ zeros 4
                      sig := 0x8A6BD1B36B05304D39EA6F30ABE891760A4CDB6300E160626B08898AB044064E }
def rqScrubBad : Rq := { m := .installer, op := 0x00B3, key := 1, body := toLe 2 169 ++ toLe 2 1 ++ zeros 4
                         sig := 0xDB9620974A8D3644BC85D144185605C802EB9F7A0BC4A2A1B9874F337F1EE15B }
def rqScrubRead : Rq := { m := .installer, op := 0x00B3, flags := 1, key := 1, body := zeros 8
                          sig := 0x05786E9C7F4ADCA38D0D852534ABDBE423DAFE2BB1648935CE33C84FCB897223 }
theorem sig_ras : ((rqRas.on live).acceptMbx .installer).sigOk .installer = true := by decide +kernel
theorem sig_table : ((rqTable.on live).acceptMbx .installer).sigOk .installer = true := by decide +kernel
theorem sig_tableNear : ((rqTableNear.on live).acceptMbx .installer).sigOk .installer = true := by decide +kernel
theorem sig_tableBad : ((rqTableBad.on live).acceptMbx .installer).sigOk .installer = true := by decide +kernel
theorem sig_scrub : ((rqScrub.on live).acceptMbx .installer).sigOk .installer = true := by decide +kernel
theorem sig_scrubBad : ((rqScrubBad.on live).acceptMbx .installer).sigOk .installer = true := by decide +kernel
theorem sig_scrubRead : ((rqScrubRead.on live).acceptMbx .installer).sigOk .installer = true := by decide +kernel

/-- A state in which a command of the installer waits for a boundary. -/
def waits (s : State) (w : WaitFor) : State := s.modMbox .installer fun b => { b with wait := some { what := w } }

theorem test_witness_RasCommands :
    -- RAS_QUERY: SUMMARY of the device, of a context, of one that does not exist; LIST; SCOPE 2
    (let s := rqRas.on pool
     s.Runs .installer 0x00B0 (s.rq .installer 0 1 == 0) ∧ s.rq .installer 1 1 = 0xFF) ∧
    (let s := (opq 0x00B0 0 ([0, 1] ++ zeros 6)).on pool
     s.Runs .operator 0x00B0 (s.rq .operator 0 1 == 0) ∧ s.commandCtx .operator (s.rq .operator 1 1) = .inl 1) ∧
    (∀ k ∈ [0, 1], let s := (opq 0x00B0 0 ([BitVec.ofNat 8 k, 63] ++ zeros 6)).on pool
      s.Runs .operator 0x00B0 (if k = 0 then s.rq .operator 0 1 == 0 else s.rq .operator 0 1 != 0) ∧
      ∃ st, s.rasScope .operator = .inr st) ∧
    (∀ k ∈ [1, 2], let s := (opq 0x00B0 0 ([BitVec.ofNat 8 k, 1] ++ toLe 2 0xFFFF ++ zeros 4)).on (divergedPool [diverged0])
      s.Runs .operator 0x00B0 (s.rq .operator 0 1 != 0) ∧ s.rq .operator 0 1 = k ∧ ∃ sc, s.rasScope .operator = .inl sc) ∧
    -- CE_TABLE_READ
    (let s := rqTable.on pool
     s.Runs .installer 0x00B1 true ∧ s.rq .installer 0 1 = 1 ∧ s.flag .installer 0 = true) ∧
    (let s := rqTableNear.on pool
     s.Runs .installer 0x00B1 true ∧ s.rq .installer 0 1 = 0 ∧ s.flag .installer 0 = false) ∧
    (let s := rqTableBad.on pool
     s.Runs .installer 0x00B1 true ∧ s.rq .installer 0 1 = 2) ∧
    -- SCRUB_CONFIG
    (let s := rqScrub.on pool
     s.Runs .installer 0x00B3 true ∧ s.flag .installer 0 = false ∧ s.rq .installer 0 2 = 168 ∧ s.rq .installer 2 2 = 1 ∧ s.rq .installer 6 1 = 0) ∧
    (let s := rqScrubBad.on pool
     s.Runs .installer 0x00B3 true ∧ s.flag .installer 0 = false ∧ s.rq .installer 0 2 = 169) ∧
    (let s := rqScrubRead.on pool
     s.Runs .installer 0x00B3 true ∧ s.flag .installer 0 = true) ∧
    (∀ p ∈ [true, false], let s := waits { pool with nor := { pool.nor with pdEn := p } } .scrubCfg
      s.power.safe = false ∧ s.HasMbx .installer ∧ (s.mbox .installer).wait = some { what := .scrubCfg } ∧ s.nor.pdEn = p) := by
  refine ⟨⟨Rq.runs rqRas pool sig_ras ?_, ?_⟩, ?_, ?_, ?_, ⟨Rq.runs rqTable pool sig_table ?_, ?_⟩,
    ⟨Rq.runs rqTableNear pool sig_tableNear ?_, ?_⟩, ⟨Rq.runs rqTableBad pool sig_tableBad ?_, ?_⟩,
    ⟨Rq.runs rqScrub pool sig_scrub ?_, ?_⟩, ⟨Rq.runs rqScrubBad pool sig_scrubBad ?_, ?_⟩,
    ⟨Rq.runs rqScrubRead pool sig_scrubRead ?_, ?_⟩, ?_⟩
  · decide +kernel
  · decide +kernel
  · decide +kernel
  · intro k hk
    simp only [List.mem_cons, List.not_mem_nil, or_false] at hk
    obtain rfl | rfl := hk <;> exact ⟨by decide +kernel, mBadArg, by decide +kernel⟩
  · intro k hk
    simp only [List.mem_cons, List.not_mem_nil, or_false] at hk
    obtain rfl | rfl := hk <;> exact ⟨by decide +kernel, by decide +kernel, .context 1, by decide +kernel⟩
  all_goals decide +kernel

/-- DIVERGENCE_RESOLVE of block 0 of extent 0, by its ACTION. -/
def rqResolve0 : Rq := { m := .installer, op := 0x00B2, key := 1, body := zeros 16
                         sig := 0xC2F86041287B57F50EA73DD7E60D47069FC9D24E6F3924EF915EC22AC4C1856F }
def rqResolve1 : Rq := { m := .installer, op := 0x00B2, key := 1, body := zeros 10 ++ [1] ++ zeros 5
                         sig := 0x61C2B5688DAD78EF13FEF3E6DAD5DD3BC0B365D80FA6339D888E7B51197DCC60 }
def rqResolve2 : Rq := { m := .installer, op := 0x00B2, key := 1, body := zeros 10 ++ [2] ++ zeros 5
                         sig := 0xBB9A88698CA9A22816FC227EF13D6102A63309D2B30C484C3A4112B44DDCDB55 }
def rqResolve3 : Rq := { m := .installer, op := 0x00B2, key := 1, body := zeros 10 ++ [3] ++ zeros 5
                         sig := 0xE53DA7109CF7EB794A9CCA16B39ECF48004D4E1EC06E49C5F5B8B8B6661D6F1F }
theorem sig_resolve0 : ((rqResolve0.on live).acceptMbx .installer).sigOk .installer = true := by decide +kernel
theorem sig_resolve1 : ((rqResolve1.on live).acceptMbx .installer).sigOk .installer = true := by decide +kernel
theorem sig_resolve2 : ((rqResolve2.on live).acceptMbx .installer).sigOk .installer = true := by decide +kernel
theorem sig_resolve3 : ((rqResolve3.on live).acceptMbx .installer).sigOk .installer = true := by decide +kernel

/-- ACTION on block 0 of the mirror extent, which is divergent and which no command resolves yet. -/
abbrev resolves (s : State) (action : Nat) : Prop :=
  s.rq .installer 0x0A 1 = action ∧ s.ext? (s.rq .installer 8 2) = some mirrorExt ∧ mirrorExt.base ≤ s.rq .installer 0 8 ∧
    (s.rq .installer 0 8 - mirrorExt.base) / 256 < mirrorExt.blockCount ∧ s.rq .installer 0 8 % 256 = 0 ∧ mirrorExt.prot = .mirror ∧
    mirrorExt.st = .granted ∧ s.divergent 0 0 = true ∧ s.isWaiting (· == .resolve 0 0) = false

theorem test_witness_DivergenceResolve :
    -- an extent that is not MIRROR; a block that is not divergent; one that another command resolves
    (let s := rqResolve0.on (divergedPool [] ext1)
     s.mailboxRow (.copyLow .installer) = some (.installer, 0x00B2, true) ∧ s.Runs .installer 0x00B2 true ∧ s.rq .installer 0x0A 1 = 0 ∧
      s.ext? (s.rq .installer 8 2) = some ext1 ∧ ext1.prot ≠ .mirror) ∧
    (let s := rqResolve0.on (divergedPool [])
     s.Runs .installer 0x00B2 true ∧ s.ext? (s.rq .installer 8 2) = some mirrorExt ∧ mirrorExt.base ≤ s.rq .installer 0 8 ∧
      (s.rq .installer 0 8 - mirrorExt.base) / 256 < mirrorExt.blockCount ∧ s.rq .installer 0 8 % 256 = 0 ∧ mirrorExt.prot = .mirror ∧
      s.divergent 0 0 = false) ∧
    (let s := rqResolve0.on ((divergedPool [diverged0]).modMbox .service fun b => { b with wait := some { what := .resolve 0 0 } })
     s.Runs .installer 0x00B2 true ∧ s.divergent 0 0 = true ∧ s.isWaiting (· == .resolve 0 0) = true) ∧
    -- the three actions
    (let s := rqResolve0.on (divergedPool [diverged0])
     s.Runs .installer 0x00B2 true ∧ resolves s 0) ∧
    (let s := rqResolve1.on (divergedPool [diverged0])
     s.mailboxRow (.copyHigh .installer) = some (.installer, 0x00B2, true) ∧ s.Runs .installer 0x00B2 true ∧ resolves s 1) ∧
    (let s := rqResolve2.on (divergedPool [diverged0])
     s.mailboxRow (.rewrite .installer) = some (.installer, 0x00B2, true) ∧ s.Runs .installer 0x00B2 true ∧ resolves s 2) ∧
    (let s := rqResolve3.on pool
     s.Runs .installer 0x00B2 (decide (2 ≤ s.rq .installer 0x0A 1)) ∧ 2 < s.rq .installer 0x0A 1) ∧
    -- the boundary
    (∀ d ∈ [[], [diverged0]], let s := waits (divergedPool d) (.resolve 0 0)
      s.power.safe = false ∧ s.HasMbx .installer ∧ (s.mbox .installer).wait = some { what := .resolve 0 0 } ∧
      (s.divergent 0 0 = true ↔ d ≠ [])) ∧
    -- the end of a copy: before the boundary of its commit, and there
    (∀ n ∈ [6, 7], let s := waits { divergedPool [] with time := { pick := n } } (.resolve 0 0)
      s.power.safe = false ∧ s.HasMbx .installer ∧ (s.mbox .installer).wait = some { what := .resolve 0 0 } ∧
      (s.time.pick < 7 ↔ n = 6)) := by
  refine ⟨⟨?_, Rq.runs rqResolve0 _ sig_resolve0 ?_, ?_⟩, ⟨Rq.runs rqResolve0 _ sig_resolve0 ?_, ?_⟩,
    ⟨Rq.runs_from rqResolve0 live _ sig_resolve0 ?_ ?_, ?_⟩, ⟨Rq.runs rqResolve0 _ sig_resolve0 ?_, ?_⟩,
    ⟨?_, Rq.runs rqResolve1 _ sig_resolve1 ?_, ?_⟩, ⟨?_, Rq.runs rqResolve2 _ sig_resolve2 ?_, ?_⟩,
    ⟨Rq.runs rqResolve3 _ sig_resolve3 ?_, ?_⟩, ?_, ?_⟩ <;> decide +kernel

/-- A firmware bank image of no bytes behind its manifest, signed by the private key 1, and its digest. -/
def bankImage : List Byte :=
  [80, 75, 77, 87, 1, 0, 0, 176, 0, 0, 0, 0, 0, 0, 0, 0, 227, 176, 196, 66, 152, 252, 28, 20,
    154, 251, 244, 200, 153, 111, 185, 36, 39, 174, 65, 228, 100, 155, 147, 76, 164, 149, 153, 27, 120, 82, 184, 85,
    107, 23, 209, 242, 225, 44, 66, 71, 248, 188, 230, 229, 99, 164, 64, 242, 119, 3, 125, 129, 45, 235, 51, 160,
    244, 161, 57, 69, 216, 152, 194, 150, 79, 227, 66, 226, 254, 26, 127, 155, 142, 231, 235, 74, 124, 15, 158, 22,
    43, 206, 51, 87, 107, 49, 94, 206, 203, 182, 64, 104, 55, 191, 81, 245, 0, 0, 0, 0, 0, 0, 0, 0,
    0, 0, 0, 0, 0, 0, 0, 0, 0, 0, 0, 0, 0, 0, 0, 0, 0, 0, 0, 0, 0, 0, 0, 0,
    0, 0, 0, 0, 0, 0, 0, 0, 0, 0, 0, 0, 0, 0, 0, 0, 0, 0, 0, 0, 0, 0, 0, 0,
    0, 0, 0, 0, 0, 0, 0, 0, 0, 0, 0, 0, 0, 0, 0, 0, 0, 0, 0, 0, 0, 0, 0, 0,
    107, 23, 209, 242, 225, 44, 66, 71, 248, 188, 230, 229, 99, 164, 64, 242, 119, 3, 125, 129, 45, 235, 51, 160,
    244, 161, 57, 69, 216, 152, 194, 150, 84, 83, 25, 224, 249, 245, 200, 51, 167, 84, 105, 114, 10, 120, 6, 61,
    74, 109, 174, 236, 27, 207, 0, 75, 197, 163, 13, 232, 163, 204, 218, 235]
def bankDigest : List Byte :=
  [176, 66, 143, 158, 114, 10, 233, 148, 231, 159, 177, 182, 86, 179, 145, 31, 7, 173, 124, 138, 154, 10, 224, 105,
    3, 119, 240, 188, 57, 77, 131, 254]
/-- The hash of that key, and fuses that hold it. -/
def pubHash : List Byte :=
  [216, 117, 219, 125, 239, 35, 34, 54, 174, 199, 56, 198, 176, 187, 62, 128, 20, 47, 93, 15, 216, 244, 223, 36,
    254, 214, 238, 245, 203, 181, 13, 159]
def fwFuses : Fuses := { live.fuses with shadow := Mem.writeN live.fuses.shadow 0x10 pubHash }
def fwPool (f : Fuses := fwFuses) (stage : Option (Mbx × Nat) := none) : State :=
  { pool with fuses := f, umpire := { pool.umpire with stage := stage }, nor := { pool.nor with bankB := Mem.writeN [] 0 bankImage, sizeB := 256 } }

/-- FW_STAGE of the image as the last chunk, as a chunk that is not the last, as a second chunk, of 255 bytes; DISCARD; FW_ACTIVATE
without and with FORCE. -/
def rqStage : Rq := { m := .installer, op := 0x00C0, flags := 1, key := 1, body := toLe 4 0 ++ toLe 4 256 ++ bankDigest
                      sig := 0xB3CFA8DB6078D61D5E1B4414BAD22823021D02B0AC7FC3FEF9E5FD0A70A62BAE }
def rqStageFirst : Rq := { m := .installer, op := 0x00C0, key := 1, body := toLe 4 0 ++ toLe 4 256 ++ bankDigest
                           sig := 0x9931D5E294292DA28262AE79FD260AB087A437A805771690C9539FC79676D4E1 }
def rqStageNext : Rq := { m := .installer, op := 0x00C0, flags := 1, key := 1, body := toLe 4 256 ++ toLe 4 256 ++ bankDigest
                          sig := 0x19E111C38BB69BC43C97994B6F676DD08A3E53B5AE80AE4771108D940FBEBA81 }
def rqStageShort : Rq := { m := .installer, op := 0x00C0, flags := 1, key := 1, body := toLe 4 0 ++ toLe 4 255 ++ zeros 32
                           sig := 0xD06FB029FD62EF48EF2F2A86562B5BCDE8316C8BEBD28572DA942B5F3B927F5A }
def rqDiscard : Rq := { m := .installer, op := 0x00C0, flags := 2, key := 1, body := zeros 40
                        sig := 0x0923FBE4B7C13A175508F94B9210F8698592171DEE78260FFA9C93AB96127EA1 }
def rqActivate : Rq := { m := .installer, op := 0x00C1, key := 1, body := zeros 8
                         sig := 0x044A5E157154EB5C419AE3BA3D4085F0F90C351A7667E56C3B681982E837E1B1 }
def rqForce : Rq := { m := .installer, op := 0x00C1, flags := 1, key := 1, body := zeros 8
                      sig := 0x6D1678898C311B221A12B53C6977CA9B0AF0679E4E44DD4CF913B6193392B282 }
theorem sig_stage : ((rqStage.on live).acceptMbx .installer).sigOk .installer = true := by decide +kernel
theorem sig_stageFirst : ((rqStageFirst.on live).acceptMbx .installer).sigOk .installer = true := by decide +kernel
theorem sig_stageNext : ((rqStageNext.on live).acceptMbx .installer).sigOk .installer = true := by decide +kernel
theorem sig_stageShort : ((rqStageShort.on live).acceptMbx .installer).sigOk .installer = true := by decide +kernel
theorem sig_discard : ((rqDiscard.on live).acceptMbx .installer).sigOk .installer = true := by decide +kernel
theorem sig_activate : ((rqActivate.on live).acceptMbx .installer).sigOk .installer = true := by decide +kernel
theorem sig_force : ((rqForce.on live).acceptMbx .installer).sigOk .installer = true := by decide +kernel

/-- The state once the chunk stands in bank B. -/
def landed (s : State) (off : Nat) : State :=
  { s with nor := s.nor.setBank true (Mem.writeN (if off = 0 then [] else s.nor.bank true) off bankImage) (off + 256) }

abbrev discards (stage : Option (Mbx × Nat)) : Prop :=
  let s := rqDiscard.on (fwPool live.fuses stage)
  s.Runs .installer 0x00C0 (s.flag .installer 1) ∧ s.rq .installer 4 4 = 0 ∧ s.umpire.stage = stage
abbrev activates (staged : Bool) (ctxs : Table Ctx) : Prop :=
  let s := rqActivate.on { pool with ctxs := ctxs, umpire := { pool.umpire with updateStaged := staged } }
  s.Runs .installer 0x00C1 true ∧ s.umpire.updateStaged = staged ∧ s.ctxs = ctxs ∧ s.flag .installer 0 = false

theorem bank_digest : sha256 bankImage = bankDigest := by decide +kernel
theorem pub_hash : sha256 pubOne = pubHash := by decide +kernel

theorem bank_facts : le (slice bankImage 0 4) = 0x574D4B50 ∧ le (slice bankImage 4 2) = 1 ∧ le (slice bankImage 8 4) = 0 ∧
    slice bankImage 0x30 64 = pubOne ∧ slice bankImage 0x10 32 = sha256 [] ∧ le (slice bankImage 6 1) = 0 ∧
    le (slice bankImage 7 1) = 0xB0 := by decide +kernel
theorem bank_signed : ecdsaVerify pubOne (sha256 (slice bankImage 0 0xC0)) (slice bankImage 0xC0 64) = true := by decide +kernel

/-- What the image in bank B fails. -/
theorem bad_bank (s : State) (h : s.manifest true = bankImage) : s.badImage true =
    if pubHash ≠ s.fuses.shadow.readN 0x10 32 ∨ s.nor.bankSize true ≠ 256 then some .signature
    else if 0 < s.fuses.svnF then some .rollback
    else if 0xB0 ≠ s.fuses.field 7 1 then some .stepping
    else none := by
  obtain ⟨h1, h2, h3, h4, h5, h6, h7⟩ := bank_facts
  unfold State.badImage
  simp only [h, h1, h2, h3, h4, h5, h6, h7, pub_hash, bank_signed]
  by_cases a : pubHash = s.fuses.shadow.readN 0x10 32 <;> by_cases b : s.nor.bankSize true = 256 <;>
    by_cases c : 0 < s.fuses.svnF <;> by_cases d : 0xB0 = s.fuses.field 7 1 <;>
    simp [a, b, c, d, Mem.readN]

theorem manifest_of (s : State) (l : List Byte) (h : s.nor.bank true = Mem.writeN (Mem.writeN [] 0 bankImage) 256 l ∨
    s.nor.bank true = Mem.writeN [] 0 bankImage) : s.manifest true = bankImage := by
  have w : Mem.wf (Mem.writeN [] 0 bankImage) = true := Mem.writeN_wf rfl 0 bankImage
  unfold State.manifest
  obtain h | h := h <;> rw [h]
  · rw [readN_outside w 256 l 0 256 (by omega)]
    exact readN_inside rfl 0 bankImage 256 (by decide +kernel)
  · exact readN_inside rfl 0 bankImage 256 (by decide +kernel)

theorem setBank_bank (n : Nor) (m : Mem) (k : Nat) : (n.setBank true m k).bank true = m := rfl
theorem landed_first (s : State) : (landed s 0).manifest true = bankImage := by
  refine manifest_of _ [] (.inr ?_)
  simp only [landed, setBank_bank, if_true]
theorem landed_next (s : State) (h : s.nor.bank true = Mem.writeN [] 0 bankImage) : (landed s 256).manifest true = bankImage := by
  refine manifest_of _ bankImage (.inl ?_)
  simp only [landed, setBank_bank, h]
  rw [if_neg (by decide)]

/-- A chunk that fits, with its digest. -/
abbrev chunkFits (s : State) (off : Nat) (last : Bool) : Prop :=
  s.Runs .installer 0x00C0 (!s.flag .installer 1) ∧ s.rq .installer 0 4 = off ∧ s.rq .installer 4 4 = 256 ∧ s.flag .installer 0 = last ∧
    s.runningB = false ∧ (s.mbox .installer).bulk.readN 0 256 = bankImage ∧ sha256 bankImage = s.rqBytes .installer 8 32

theorem chunk_fits (q : Rq) (s0 : State) {off : Nat} {last : Bool} (hq : q.m = .installer)
    (hk : (q.on s0).umpire.mboxes.map (·.1) = allMbx)
    (hr : (q.bulked s0 bankImage).Runs .installer 0x00C0 (!(q.bulked s0 bankImage).flag .installer 1))
    (h : let s := q.bulked s0 bankImage
      s.rq .installer 0 4 = off ∧ s.rq .installer 4 4 = 256 ∧ s.flag .installer 0 = last ∧ s.runningB = false ∧
      bankDigest = s.rqBytes .installer 8 32) : chunkFits (q.bulked s0 bankImage) off last := by
  obtain ⟨h1, h2, h3, h4, h5⟩ := h
  refine ⟨hr, h1, h2, h3, h4, bulk_reads _ _ _ (by decide +kernel) ?_, bank_digest.trans h5⟩
  rw [Rq.bulked, hq, State.mbox_modMbox hk (by decide)]

theorem test_witness_FirmwareStaging_refused :
    -- a stage of another mailbox; too short; another digest; out of order
    (let s := rqStage.on (fwPool fwFuses (some (.maker, 256)))
     s.Runs .installer 0x00C0 (!s.flag .installer 1) ∧ s.umpire.stage = some (.maker, 256)) ∧
    (let s := rqStageShort.on fwPool
     s.Runs .installer 0x00C0 (!s.flag .installer 1) ∧ s.umpire.stage = none ∧ s.rq .installer 4 4 = 255) ∧
    (let s := rqStage.on fwPool
     s.Runs .installer 0x00C0 (!s.flag .installer 1) ∧ s.umpire.stage = none ∧ s.rq .installer 4 4 = 256 ∧
      sha256 ((s.mbox .installer).bulk.readN 0 256) ≠ s.rqBytes .installer 8 32) ∧
    (let s := rqStageNext.bulked fwPool bankImage
     chunkFits s 256 true ∧ s.umpire.stage = none) := by
  refine ⟨⟨Rq.runs_from rqStage live _ sig_stage ?_ ?_, ?_⟩, ⟨Rq.runs_from rqStageShort live _ sig_stageShort ?_ ?_, ?_⟩,
    ⟨Rq.runs_from rqStage live _ sig_stage ?_ ?_, ?_⟩,
    ⟨chunk_fits _ _ ?_ ?_ (Rq.runs_from rqStageNext live _ sig_stageNext ?_ ?_) ?_, ?_⟩⟩ <;> decide +kernel

/-- The image as one last chunk, on an expander of these fuses. -/
def stages (f : Fuses) : State := rqStage.bulked (fwPool f) bankImage

theorem test_witness_FirmwareStaging_last : ∀ f, f = fwFuses ∨ f = { fwFuses with shadow := Mem.write fwFuses.shadow 0x100 1#8 } ∨
    f = { fwFuses with shadow := Mem.write fwFuses.shadow 7 0xA0#8 } ∨ f = live.fuses →
    chunkFits (stages f) 0 true ∧ (landed (stages f) 0).badImage true =
      if f = fwFuses then none else if f.shadow.read 7 = 0xA0#8 then some .stepping else if f = live.fuses then some .signature
      else some .rollback := by
  intro f hf
  refine ⟨chunk_fits rqStage (fwPool f) rfl (by obtain rfl | rfl | rfl | rfl := hf <;> decide +kernel) ?_ ?_, ?_⟩
  · obtain rfl | rfl | rfl | rfl := hf <;> exact Rq.runs_from rqStage live _ sig_stage (by decide +kernel) (by decide +kernel)
  · obtain rfl | rfl | rfl | rfl := hf <;> decide +kernel
  · rw [bad_bank _ (landed_first _)]
    obtain rfl | rfl | rfl | rfl := hf <;> decide +kernel

theorem test_witness_FirmwareStaging :
    -- a first chunk; a second and last one
    (let s := rqStageFirst.bulked fwPool bankImage
     chunkFits s 0 false ∧ s.umpire.stage = none) ∧
    (let s := rqStageNext.bulked (fwPool fwFuses (some (.installer, 256))) bankImage
     chunkFits s 256 true ∧ s.umpire.stage = some (.installer, 256) ∧ (landed s 256).badImage true = some .signature) := by
  refine ⟨⟨chunk_fits _ _ ?_ ?_ (Rq.runs_from rqStageFirst live _ sig_stageFirst ?_ ?_) ?_, ?_⟩,
    ⟨chunk_fits _ _ ?_ ?_ (Rq.runs_from rqStageNext live _ sig_stageNext ?_ ?_) ?_, ?_, (bad_bank _ (landed_next _ rfl)).trans ?_⟩⟩ <;>
    decide +kernel

theorem test_witness_FirmwareStaging_activate :
    -- DISCARD; FW_ACTIVATE without a staged image, with contexts, without and with FORCE; a valid image
    discards none ∧ discards (some (.installer, 256)) ∧ activates false [] ∧ activates true pool.ctxs ∧ activates true [] ∧
    (let s := rqForce.on { pool with umpire := { pool.umpire with updateStaged := true } }
     s.Runs .installer 0x00C1 true ∧ s.umpire.updateStaged = true ∧ s.ctxs ≠ [] ∧ s.flag .installer 0 = true) ∧
    fwPool.bankValid true = true := by
  refine ⟨⟨Rq.runs_from rqDiscard live _ sig_discard ?_ ?_, ?_⟩,
    ⟨Rq.runs_from rqDiscard live _ sig_discard ?_ ?_, ?_⟩, ⟨Rq.runs_from rqActivate live _ sig_activate ?_ ?_, ?_⟩,
    ⟨Rq.runs_from rqActivate live _ sig_activate ?_ ?_, ?_⟩, ⟨Rq.runs_from rqActivate live _ sig_activate ?_ ?_, ?_⟩,
    ⟨Rq.runs_from rqForce live _ sig_force ?_ ?_, ?_⟩,
    (congrArg Option.isNone (bad_bank fwPool (manifest_of _ [] (.inr rfl)))).trans ?_⟩ <;> decide +kernel

/-- A customer image whose key hash is that of the private key 1, with its CRC-32 and LOCK (spec/14_identity_roles.md R367). -/
def customerImage : List Byte :=
  [216, 117, 219, 125, 239, 35, 34, 54, 174, 199, 56, 198, 176, 187, 62, 128, 20, 47, 93, 15, 216, 244, 223, 36,
    254, 214, 238, 245, 203, 181, 13, 159, 0, 0, 0, 0, 0, 0, 0, 0, 0, 0, 0, 0, 0, 0, 0, 0,
    0, 0, 0, 0, 0, 0, 0, 0, 0, 0, 0, 0, 0, 0, 0, 0, 0, 0, 0, 0, 0, 0, 0, 0,
    0, 0, 0, 0, 0, 0, 0, 0, 0, 0, 0, 0, 0, 0, 0, 0, 0, 0, 0, 0, 0, 0, 0, 0,
    0, 0, 0, 0, 0, 0, 0, 0, 0, 0, 0, 0, 0, 0, 0, 0, 0, 0, 0, 0, 0, 0, 0, 0,
    179, 208, 83, 140, 15, 0, 0, 0]
def rqLock : Rq := { m := .installer, op := 0x00D0, key := 1, body := zeros 8 ++ customerImage ++ pubOne
                     sig := 0xAC6A3CD41D5D20BF8E04AB5AB2C9A22D723F1D0C6CF1F3CAFAD3110F0369C19C }
def rqLockBad : Rq := { m := .installer, op := 0x00D0, key := 1, body := zeros 136 ++ pubOne
                        sig := 0x37C2E5545C855B8F4DE7BC9BBCB3844CD06BBC2EC37964758595AB8EA968E0AF }
def rqRestore : Rq := { m := .installer, op := 0x00D0, key := 1, body := [1] ++ zeros 7 ++ pubOne
                        sig := 0x0A51C9D0B4E9C180EBAB6C20E33158F07AF2BA9C0FD787B357B8D9B97CF1EF5E }
def rqRollback : Rq := { m := .installer, op := 0x00D0, key := 1, body := [2, 64] ++ zeros 6
                         sig := 0x2B981A23C559EFAB7BF247A43609CCCBC3A604F4D66A500E68370ED340B6022C }
def rqDebug : Rq := { m := .installer, op := 0x00D0, key := 1, body := [3] ++ zeros 7
                      sig := 0x92F38FD05E34642F91CA458CE57FADC7A277872CC3677209B9E17BEAA0A7E028 }
def rqDebugBad : Rq := { m := .installer, op := 0x00D0, key := 1, body := [4] ++ zeros 7
                         sig := 0x49077F26B9E9EA0C2A6A6CC9A663EFC23508928E1896F5571698CA06BEE3A99F }
theorem sig_lock : ((rqLock.on fresh).acceptMbx .installer).sigOk .installer = true := by decide +kernel
theorem sig_lockBad : ((rqLockBad.on fresh).acceptMbx .installer).sigOk .installer = true := by decide +kernel
theorem sig_restore : ((rqRestore.on live).acceptMbx .installer).sigOk .installer = true := by decide +kernel
theorem sig_rollback : ((rqRollback.on live).acceptMbx .installer).sigOk .installer = true := by decide +kernel
theorem sig_debug : ((rqDebug.on live).acceptMbx .installer).sigOk .installer = true := by decide +kernel
theorem sig_debugBad : ((rqDebugBad.on live).acceptMbx .installer).sigOk .installer = true := by decide +kernel

/-- FUSE_PROGRAM of a function runs, and nothing keeps the array from being programmed. -/
abbrev programs (q : Rq) (s0 : State) (f : Nat) (free : Bool) : Prop :=
  let s := q.on s0
  s.Runs .installer 0x00D0 (s.rq .installer 0 1 == f) ∧
    free = !(s.power.braced || s.power.safe || s.power.inputAlert)
theorem programs_of {q : Rq} {s0 : State} {f : Nat} {free : Bool} (hr : (q.on s0).Runs .installer 0x00D0 ((q.on s0).rq .installer 0 1 == f))
    (h : free = !((q.on s0).power.braced || (q.on s0).power.safe || (q.on s0).power.inputAlert)) : programs q s0 f free := ⟨hr, h⟩

def braced (s : State) : State := { s with power := { s.power with inputAlert := true } }
def rolls (svn : Nat) (trial : Bool) : State := { pool with umpire := { pool.umpire with svn := svn, trialRunning := trial } }

/-- DEBUG_DISABLE on an array that is blocked or not, with the fuses of R360 blown or not. -/
abbrev disables (s0 : State) (free done : Bool) : Prop :=
  let s := rqDebug.on s0
  s.Runs .installer 0x00D0 (decide (3 ≤ s.rq .installer 0 1)) ∧ s.rq .installer 0 1 = 3 ∧
    free = !(s.power.braced || s.power.safe || s.power.inputAlert) ∧ s.fuses.debugDisabled = done

/-- RESTORE_KEY on fuses that hold the hash of its key, or do not. -/
abbrev restores (f : Fuses) (same : Bool) : Prop :=
  programs rqRestore { pool with fuses := f } 1 true ∧ ({ pool with fuses := f } : State).commissioned = true ∧
    (pubHash == f.shadow.readN 0x80 32) = same

theorem test_witness_FuseProgramming :
    -- INSTALLER: a blocked array, an image that is not sound, one that is
    programs rqLock (braced fresh) 0 false ∧
    (programs rqLockBad fresh 0 true ∧ fresh.fuses.locked = false ∧ ∀ i, i < 1024 → fresh.fuses.blown (0x400 + i) = false) ∧
    (programs rqLock fresh 0 true ∧ (rqLock.on fresh).rqBytes .installer 8 128 = customerImage ∧
      (rqLock.on fresh).rqBytes .installer 0x88 64 = pubOne ∧ le (slice customerImage 0x78 4) = crc32 (customerImage.take 120) ∧
      customerImage.take 32 = pubHash ∧ customerImage.getD 0x7C 0 = 0x0F#8) ∧
    -- RESTORE_KEY: blocked, of another key, of the key
    programs rqRestore (braced pool) 1 false ∧
    restores live.fuses false ∧ restores { live.fuses with shadow := Mem.writeN live.fuses.shadow 0x80 pubHash } true ∧
    -- ROLLBACK to 64: blocked, above the running firmware, during a trial, begun
    programs rqRollback (braced pool) 2 false ∧
    (programs rqRollback (rolls 63 false) 2 true ∧ programs rqRollback (rolls 64 true) 2 true ∧ programs rqRollback (rolls 64 false) 2 true ∧
      (rqRollback.on pool).rq .installer 1 1 = 64 ∧ pool.fuses.svnF = 0) ∧
    -- DEBUG_DISABLE, a function above it, and the fuses already blown
    (let s := rqDebugBad.on pool
     s.Runs .installer 0x00D0 (decide (3 ≤ s.rq .installer 0 1)) ∧ 3 < s.rq .installer 0 1) ∧
    disables (braced pool) false false ∧ disables pool true false ∧
    disables { pool with fuses := { shadow := Mem.write live.fuses.shadow 0x110 8#8 } } true true ∧
    -- the run
    (let j : FuseJob := { mbx := .installer, todo := [0x880, 0x881], blown := 0 }
     let s := waits { pool with umpire := { pool.umpire with fuseJob := some j } } .fuse
     s.umpire.fuseJob = some j ∧ s.HasMbx j.mbx ∧ (s.mbox j.mbx).wait = some { what := .fuse } ∧ Mem.wf s.fuses.array = true ∧
      Mem.wf s.fuses.shadow = true) := by
  refine ⟨programs_of (Rq.runs_from rqLock fresh _ sig_lock ?_ ?_) ?_, ⟨programs_of (Rq.runs_from rqLockBad fresh _ sig_lockBad ?_ ?_) ?_, ?_⟩,
    ⟨programs_of (Rq.runs_from rqLock fresh _ sig_lock ?_ ?_) ?_, ?_, ?_, ?_⟩,
    programs_of (Rq.runs rqRestore _ sig_restore ?_) ?_,
    ⟨programs_of (Rq.runs_from rqRestore live _ sig_restore ?_ ?_) ?_, ?_⟩, ⟨programs_of (Rq.runs_from rqRestore live _ sig_restore ?_ ?_) ?_, ?_⟩,
    programs_of (Rq.runs rqRollback _ sig_rollback ?_) ?_,
    ⟨programs_of (Rq.runs_from rqRollback live _ sig_rollback ?_ ?_) ?_, programs_of (Rq.runs_from rqRollback live _ sig_rollback ?_ ?_) ?_,
      programs_of (Rq.runs_from rqRollback live _ sig_rollback ?_ ?_) ?_, ?_⟩,
    ⟨Rq.runs rqDebugBad pool sig_debugBad ?_, ?_⟩, ⟨Rq.runs rqDebug _ sig_debug ?_, ?_⟩, ⟨Rq.runs rqDebug _ sig_debug ?_, ?_⟩,
    ⟨Rq.runs_from rqDebug live _ sig_debug ?_ ?_, ?_⟩, ?_⟩ <;> decide +kernel

/-- AUDIT_READ of 0 and of 7 records; MAKER_UNLOCK. -/
def rqAudit0 : Rq := { m := .installer, op := 0x00D1, key := 1, body := zeros 16
                       sig := 0xEB3418C6BC837732D24B3B0959043541FFFC99845A6ED2C0490E4FBC4E2F5347 }
def rqAudit7 : Rq := { m := .installer, op := 0x00D1, key := 1, body := zeros 8 ++ [7] ++ zeros 7
                       sig := 0x7F1BCB920F0C897888684B1501266338600382EC861CBA66069B6F79ECFD0428 }
def rqUnlock : Rq := { m := .maker, op := 0x0100, key := 2
                       sig := 0x47EB53354E13FC724FE43A1B416EF128FAB59E64F2BC531C8825C4B2273A4FB1 }
theorem sig_audit0 : ((rqAudit0.on live).acceptMbx .installer).sigOk .installer = true := by decide +kernel
theorem sig_audit7 : ((rqAudit7.on live).acceptMbx .installer).sigOk .installer = true := by decide +kernel
theorem sig_unlock : ((rqUnlock.on live).acceptMbx .maker).sigOk .maker = true := by decide +kernel

theorem test_witness_AuditAndUnlock :
    (let s := rqAudit0.on pool
     s.Runs .installer 0x00D1 true ∧ s.rq .installer 8 1 = 0) ∧
    (let s := rqAudit7.on { pool with nor := { pool.nor with audit := [toLe 8 5 ++ zeros 56, toLe 8 6 ++ zeros 56] } }
     s.Runs .installer 0x00D1 true ∧ s.rq .installer 8 1 = 7 ∧ s.nor.audit.head? = some (toLe 8 5 ++ zeros 56) ∧
      s.nor.audit.getLast? = some (toLe 8 6 ++ zeros 56)) ∧
    -- MAKER_UNLOCK: disabled; with contexts; with none
    (let s := rqUnlock.on { live with fuses := { shadow := Mem.write live.fuses.shadow 0x110 1#8 } }
     s.Runs .maker 0x0100 true ∧ s.fuses.debugDisabled = true) ∧
    (let s := rqUnlock.on pool
     s.Runs .maker 0x0100 true ∧ s.fuses.debugDisabled = false ∧ s.ctxs ≠ []) ∧
    (let s := rqUnlock.on { pool with ctxs := [], exts := [(0, ext0)] }
     s.Runs .maker 0x0100 true ∧ s.fuses.debugDisabled = false ∧ s.ctxs = [] ∧ ¬ ∃ kv ∈ s.exts, kv.2.st ≠ .ungranted) := by
  refine ⟨⟨Rq.runs rqAudit0 pool sig_audit0 ?_, ?_⟩, ⟨Rq.runs_from rqAudit7 live _ sig_audit7 ?_ ?_, ?_⟩,
    ⟨Rq.runs_from rqUnlock live _ sig_unlock ?_ ?_, ?_⟩, ⟨Rq.runs rqUnlock pool sig_unlock ?_, ?_⟩,
    ⟨Rq.runs rqUnlock _ sig_unlock ?_, ?_⟩⟩ <;> decide +kernel

/-- The pool with slot 0 in a state, and a PORT_SLOT_CTL of the operator. -/
def slotted (d : Slot) : State := { pool with slots := d :: List.replicate 5 {} }
def slotRq (p action attn policy : Nat) : Rq :=
  opq 0x00E0 0 ([BitVec.ofNat 8 p, BitVec.ofNat 8 action, BitVec.ofNat 8 attn, BitVec.ofNat 8 policy] ++ zeros 4)
/-- The row of an action. -/
def slotRow (action : Nat) : Instr :=
  [Instr.slotPowerOn .operator, .slotPowerOff .operator, .slotCancel .operator, .slotPortReset .operator, .setAttn .operator,
    .setPolicy .operator].getD action (.setPolicy .operator)

theorem test_witness_SlotControl :
    -- slot 6, and slot 5 on an expander without it, for each action
    (∀ a, a < 8 → ∀ p ∈ [5, 6], let s := (slotRq p a 0 0).on { pool with fuses := { shadow := Mem.write live.fuses.shadow 8 0x20#8 } }
      s.mailboxRow (slotRow a) = some (.operator, 0x00E0, true) ∧ s.Runs .operator 0x00E0 true ∧ s.rq .operator 1 1 = a ∧
      s.rq .operator 0 1 = p ∧ s.hasPort p = false) ∧
    (let s := (slotRq 0 6 0 0).on pool
     s.Runs .operator 0x00E0 (decide (5 ≤ s.rq .operator 1 1)) ∧ s.hasPort (s.rq .operator 0 1) = true ∧ 5 < s.rq .operator 1 1) ∧
    -- each of the actions 0 to 3, in each state of the slot
    (∀ a, a < 4 → ∀ st ∈ [SlotSt.empty, .off, .powering, .training, .up, .hold, .draining, .fault, .dormant],
      let s := (slotRq 0 a 0 0).on (slotted { st := st })
      s.Shape ∧ s.hasPort (s.rq .operator 0 1) = true ∧ (s.slot 0).st = st ∧ s.Runs .operator 0x00E0 (s.rq .operator 1 1 == a)) ∧
    isManaged .operator = true ∧
    -- the fault shown; a lease to tear
    (let s := (slotRq 0 0 0 0).on (slotted { st := .fault, sts := 2#5 })
     s.Runs .operator 0x00E0 (s.rq .operator 1 1 == 0) ∧ (s.slot 0).st = .fault ∧ (s.slot 0).sts.getLsbD 1 = true) ∧
    (let s := (slotRq 0 3 0 0).on { slotted { st := .up } with leases := [(0, { ext := 0, first := 0, pages := 1, holder := 0, from_ := 0 })] }
     s.Shape ∧ s.Runs .operator 0x00E0 (s.rq .operator 1 1 == 3) ∧ (s.slot 0).st = .up ∧ (s.port 0).arrivals = [] ∧
      ∃ kv ∈ s.leases, kv.2.holder = 0 ∧ kv.2.torn = false ∧ kv.2.dropping = false) ∧
    -- ATTN 2 and 3; SET_POLICY; its boundary
    (∀ n ∈ [2, 3], let s := (slotRq 0 4 n 0).on (slotted {})
      s.Shape ∧ s.Runs .operator 0x00E0 (s.rq .operator 1 1 == 4) ∧ s.rq .operator 2 1 = n) ∧
    (let s := (slotRq 0 5 0 7).on (slotted {})
     s.Shape ∧ s.Runs .operator 0x00E0 (decide (5 ≤ s.rq .operator 1 1)) ∧ s.rq .operator 1 1 = 5) ∧
    (let s := pool.modMbox .installer fun b => { b with wait := some { what := .slotPolicy 5 } }
     s.power.safe = false ∧ s.Shape ∧ s.HasMbx .installer ∧ (s.mbox .installer).wait = some { what := .slotPolicy 5 } ∧
      s.nor.slotPolicy.length = 6) := by
  refine ⟨?_, ?_, ?_, ?_, ?_, ?_, ?_, ?_, ?_⟩ <;> decide +kernel

theorem test_witness_SlotInputs :
    -- in each state of the slot: with and without presence, with and without BUTTON_EN, DORMANT allowed to end
    (∀ st ∈ [SlotSt.empty, .off, .powering, .training, .up, .hold, .draining, .fault, .dormant], ∀ b ∈ [true, false],
      let s := slotted { st := st, prsnt := b, buttonEn := b }
      s.Shape ∧ s.hasPort 0 = true ∧ (s.slot 0).st = st ∧ (s.slot 0).prsnt = b ∧ (s.slot 0).buttonEn = b ∧ s.power.safe = false ∧
      s.umpire.ready = true ∧ maskHas s.power.dormant 0 = false ∧ s.power.standbyBit = false) ∧
    -- an EMPTY slot: the store not loaded, AUTO_POWER
    (∀ v ∈ [(false, false), (true, true)],
      let s : State := { slotted { autoPower := v.2 } with umpire := { pool.umpire with ready := v.1 } }
      s.Shape ∧ s.hasPort 0 = true ∧ (s.slot 0).prsnt = false ∧ (s.slot 0).st = .empty ∧ s.power.safe = false ∧ s.umpire.ready = v.1 ∧
      (s.slot 0).autoPower = v.2) ∧
    -- SAFE
    (let s : State := { slotted {} with power := { pool.power with safe := true } }
     s.Shape ∧ s.hasPort 0 = true ∧ s.power.safe = true) := by
  refine ⟨?_, ?_, ?_⟩ <;> decide +kernel

theorem test_witness_HostLossAndDrain :
    -- presence in each state, cage power, a lease of the port
    (∀ st ∈ [SlotSt.off, .powering, .training, .up, .hold, .draining, .fault, .dormant], ∀ clear ∈ [true, false],
      let s : State := { slotted { st := st, prsnt := true, pwrOn := true, aptClear := clear } with
        leases := [(0, { ext := 0, first := 0, pages := 1, holder := 0, from_ := 0 })] }
      s.Shape ∧ s.hasPort 0 = true ∧ (s.slot 0).st = st ∧ (s.slot 0).prsnt = true ∧ (s.slot 0).pwrOn = true ∧ s.power.safe = false ∧
      (s.port 0).arrivals = [] ∧ ∃ kv ∈ s.leases, kv.2.holder = 0 ∧ kv.2.torn = false ∧ kv.2.dropping = false) ∧
    -- a link that fails in SAFE
    (∀ st ∈ [SlotSt.up, .hold, .draining], let s : State := { slotted { st := st } with power := { pool.power with safe := true } }
      s.Shape ∧ s.power.safe = true ∧ (s.slot 0).st = st) ∧
    -- LEASE_TORN with a lease of the port and one of another
    (let l : Lease := { ext := 0, first := 0, pages := 1, holder := 0, from_ := 0 }
     let s := { portZero { lossDue := true } with leases := [(0, l), (1, { l with first := 1, holder := 1 })] }
     s.Shape ∧ (s.port 0).lossDue = true ∧ s.atBoundary = true ∧ (∀ kv ∈ s.reqs, kv.2.port = some 0 → kv.2.orphan = true → kv.2.open_ = false) ∧
      (s.leases.map (·.1)).Nodup ∧ Table.get? s.leases 0 = some l ∧ l.torn = false ∧ l.dropping = false) ∧
    -- a drain that is due, by DORMANT and by STANDBY; one that starts; one that runs, with something left and with nothing
    (∀ v ∈ [(0b111111#6, false), (0#6, true)], let s : State :=
        { slotted { st := .up } with power := { pool.power with dormant := v.1, standbyReq := v.2 } }
      s.Shape ∧ s.power.safe = false ∧ (s.slot 0).st = .up ∧ (s.slot 0).drain = none ∧ maskHas s.power.dormant 0 = !v.2 ∧
      s.power.standbyReq = v.2) ∧
    (∀ k ∈ [DrainFor.off, .dormant, .standby], ∀ v ∈ [(none, 0, ([] : Table ExpRead)), (some 1, 0, []), (some 0, 47, [(0, { engine := 0, block := 0, left := 0 })]),
        (some 0, 48, [(0, { engine := 0, block := 0, left := 0 })]), (some 0, 0, [])],
      let s : State := { slotted { st := .draining, drain := some k, drainPick := v.1 } with
        ports := [{ rdTags := v.2.2 }, {}, {}, {}, {}, {}], time := { pick := v.2.1 } }
      s.Shape ∧ s.power.safe = false ∧ (s.slot 0).drain = some k ∧ (s.slot 0).drainPick = v.1 ∧ s.time.pick = v.2.1 ∧ s.reqs = [] ∧
      (s.port 0).cpls = [] ∧ (s.port 0).arrivals = [] ∧ (s.port 0).rdTags = v.2.2) ∧
    (maskHas pool.power.dormant 0 = false ∧ pool.power.standbyReq = false) := by
  refine ⟨?_, ?_, ?_, ?_, ?_, ?_⟩ <;> decide +kernel

/-- TELEMETRY_READ through the installer: device-wide, of port 6, of context 5. -/
def rqTel : Rq := { m := .installer, op := 0x00F0, key := 1, body := [0xFF, 0xFF] ++ zeros 6
                    sig := 0x8F7E7AABA574C6EC122EF050289AAB91A949E9BF9F7227DC0A5DFA3B05C4275E }
def rqTelPort : Rq := { m := .installer, op := 0x00F0, key := 1, body := [0xFF, 6] ++ zeros 6
                        sig := 0x19B8E00054432CB0C9E4027B9FFF1CBFAE2E05E026971C0EC4EA737E478292E1 }
def rqTelCtx : Rq := { m := .installer, op := 0x00F0, key := 1, body := [5, 0xFF] ++ zeros 6
                       sig := 0xEF68F3305821DC4F9D38D698A72C6642D528DCB0BAEB5A4721914DE47A777B30 }
theorem sig_tel : ((rqTel.on live).acceptMbx .installer).sigOk .installer = true := by decide +kernel
theorem sig_telPort : ((rqTelPort.on live).acceptMbx .installer).sigOk .installer = true := by decide +kernel
theorem sig_telCtx : ((rqTelCtx.on live).acceptMbx .installer).sigOk .installer = true := by decide +kernel

theorem test_witness_Telemetry :
    -- a window of sixteen temperatures, after 0, 98, 99 and 999 others
    (∀ n ∈ [0, 98, 99, 999], (List.replicate 16 (25 : Int)).length = 16 ∧
      (({ live with tel := { count := n } } : State).tel.count + 1 = n + 1)) ∧
    -- TELEMETRY_READ through OPERATOR and a port, of no context and of context 1
    (∀ c ∈ [5, 1], let s := (opq 0x00F0 0 ([BitVec.ofNat 8 c, 0xFF] ++ zeros 6)).on pool
      s.Runs .operator 0x00F0 true ∧ (∃ r, s.commandCtx .operator (s.rq .operator 0 1) = r ∧ (c = 1 → r = .inl 1) ∧ (c = 5 → r.isRight)) ∧
      ((s.ctx? c).isSome = true ↔ c = 1)) ∧
    (let s := (pq 0x00F0 0 ([0xFF, 0xFF] ++ zeros 6)).on pool
     s.Runs (.port 0) 0x00F0 true ∧ isManaged (.port 0) = false ∧ s.commandCtx (.port 0) (s.rq (.port 0) 0 1) = .inl 1 ∧ (s.ctx? 1).isSome = true) ∧
    -- through INSTALLER
    (let s := rqTel.on pool
     s.Runs .installer 0x00F0 true ∧ s.rq .installer 0 1 = 0xFF ∧ s.rq .installer 1 1 = 0xFF) ∧
    (let s := rqTelPort.on pool
     s.Runs .installer 0x00F0 true ∧ s.rq .installer 0 1 = 0xFF ∧ s.rq .installer 1 1 = 6 ∧ s.hasPort 6 = false) ∧
    (let s := rqTelCtx.on pool
     s.Runs .installer 0x00F0 true ∧ s.rq .installer 0 1 = 5 ∧ s.ctx? 5 = none) ∧
    (let x : Ctx := { ports := 0, seed := 0, memKey := zeros 64, dying := some .installer }
     let s := rqTelCtx.on { pool with ctxs := [(5, x)] }
     s.Runs .installer 0x00F0 true ∧ s.rq .installer 0 1 = 5 ∧ s.ctx? 5 = some x ∧ x.dying ≠ none) := by
  refine ⟨?_, ?_, ?_, ⟨Rq.runs rqTel pool sig_tel ?_, ?_⟩, ⟨Rq.runs rqTelPort pool sig_telPort ?_, ?_⟩,
    ⟨Rq.runs rqTelCtx pool sig_telCtx ?_, ?_⟩, ⟨Rq.runs rqTelCtx _ sig_telCtx ?_, ?_⟩⟩
  · decide +kernel
  · intro c hc
    simp only [List.mem_cons, List.not_mem_nil, or_false] at hc
    obtain rfl | rfl := hc <;> exact ⟨by decide +kernel, ⟨_, rfl, by decide +kernel, by decide +kernel⟩, by decide +kernel⟩
  all_goals decide +kernel

/-- The pool with a power state. -/
def powered (w : Power) : State := { pool with power := w }

theorem test_witness_SafeEntry :
    -- outside SAFE with a draft of each kind, a job and a waiting command; in SAFE; braced
    (let d : Draft := { ctx := 1, bayMask := 1, wordCount := 1, picks := 32, patterns := 1, energy := 0, execPicks := 1, cid := 0, bays := []
                        pushes := [], declNear := [], declPort := [], portSlots := 0, stores := [] }
     let s := ({ powered { braced := true } with
       loom := { drafts := [(0, d), (1, { d with st := .running }), (2, { d with st := .pending })] }
       engines := some { ctx := 1, mbx := .operator, list := 0, count := 2, timeout := 64, listExt := 0 } :: List.replicate 7 none } : State).modMbox
         .operator fun b => { b with wait := some { what := .shuttle 0 } }
     s.Shape ∧ s.power.stage = 7 ∧ s.power.braced = true ∧ s.power.recoverDue = false ∧ s.power.safe = false ∧
      (∀ h, h < 3 → (Table.get? s.loom.drafts h).isSome = true) ∧ (s.mbox .operator).wait = some { what := .shuttle 0 } ∧
      s.umpire.fuseJob = none ∧ ∀ kv ∈ s.reqs, kv.2.flyingW = []) ∧
    (let s := powered { safe := true, braced := true }
     s.Shape ∧ s.power.stage = 7 ∧ s.power.safe = true ∧ s.power.braced = true ∧ s.power.recoverDue = false) ∧
    (pool.power.braced = false ∧ (powered { braced := true, recoverDue := true }).power.recoverDue = true) := by
  refine ⟨?_, ?_, ?_⟩ <;> decide +kernel

theorem test_witness_BraceAlertsStandby :
    -- nothing on; a brace; SAFE; each alert; STANDBY with a draft of each kind
    (let w := pool.power
     w.stage = 7 ∧ w.braced = false ∧ w.safe = false ∧ w.inputAlert = false ∧ w.hot = false ∧ w.standbyBit = false ∧ w.standbyReq = false) ∧
    (powered { braced := true }).power.braced = true ∧ (powered { safe := true }).power.safe = true ∧
    (powered { hot := true }).power.hot = true ∧ (powered { inputAlert := true }).power.inputAlert = true ∧
    (powered { standbyBit := true }).power.standbyBit = true ∧
    -- the end of a brace at a beat; the beat of STANDBY; before and at the pick of the return
    (let s := powered { braced := true, recoverDue := true }
     s.power.safe = false ∧ s.power.braced = true ∧ s.power.recoverDue = true ∧ s.power.standbyBit = false) ∧
    (let s := powered { standbyReq := true, standbyBit := true }
     s.power.safe = false ∧ s.power.standby = false ∧ s.power.braced = false ∧ s.reqs = [] ∧ (∀ p, p < 6 → s.linkUp p = false) ∧
      (∀ kv ∈ s.loom.drafts, kv.2.st ≠ .running) ∧ s.loom.kind = .idle) ∧
    (∀ n ∈ [63, 64], let s : State := { powered { standbyReq := true, resumePick := 64 } with time := { pick := n } }
      s.power.safe = false ∧ s.power.standbyReq = true ∧ s.power.standbyBit = false ∧ s.time.pick = n ∧ s.power.resumePick = 64) := by
  refine ⟨?_, ?_, ?_, ?_, ?_, ?_, ?_, ?_, ?_⟩ <;> decide +kernel

theorem test_witness_ResetEvents :
    -- a start held at each step, and one that goes through; extents in each state
    (∀ w ∈ [({ refclk := false } : Power), { resetLow := true }, { thermHold := true }, { thermTrip := true }, {}],
      (powered w).umpire.fuseJob = none ∧ ((powered w).exts.map (·.1)).Nodup ∧ (powered w).exts ≠ [] ∧ 3 ≤ (powered w).power.stage ∧
      ∀ kv ∈ (powered w).reqs, kv.2.flyingW = []) ∧
    ((powered { stage := 2, resetLow := true }).power.stage < 3 ∧ (powered { stage := 2, resetLow := true }).power.stage ≠ 3 ∧
      (powered { stage := 2, resetLow := true }).power.resetLow = true) ∧
    (let w := (powered { stage := 3, resetLow := true }).power
     w.resetLow = true ∧ w.stage = 3 ∧ w.refclk = true ∧ w.thermHold = false ∧ w.stage ≠ 2 ∧ w.stage ≠ 4) ∧
    ((powered { stage := 2, refclk := false }).power.stage = 2 ∧ (powered { stage := 4, thermHold := true }).power.stage = 4) := by
  refine ⟨?_, ?_, ?_, ?_⟩ <;> decide +kernel

/-- The pool with the valid image in bank B, which runs next or is on trial, and the ports in each kind of state. -/
def banked (active : Bool) (ts : TState) (n : Nat) : State :=
  { fwPool with
    slots := [{ st := .up }, { st := .draining }, { st := .off }, {}, {}, {}]
    nor := { fwPool.nor with bootA := { seq := 1, activeB := active, trialB := true, tState := ts } }
    umpire := { fwPool.umpire with expiries := n } }

theorem banked_valid (active : Bool) (ts : TState) (n : Nat) : (banked active ts n).bankValid true = true := by
  have hf : (banked active ts n).fuses = fwFuses := rfl
  have hz : (banked active ts n).nor.bankSize true = 256 := rfl
  unfold State.bankValid
  rw [bad_bank _ (manifest_of _ [] (.inr rfl)), hf, hz, if_neg (by decide +kernel), if_neg (by decide +kernel), if_neg (by decide +kernel)]
  rfl

theorem test_witness_Restarts :
    (∀ v ∈ [(true, TState.none, 0), (false, .armed, 1), (false, .none, 2)], let s := banked v.1 v.2.1 v.2.2
      s.Shape ∧ s.power.stage = 7 ∧ s.umpire.fuseJob = none ∧ (s.exts.map (·.1)).Nodup ∧ s.umpire.ready = true ∧
      s.umpire.expiries = v.2.2 ∧ s.nor.tState = v.2.1 ∧ s.nor.activeB = v.1 ∧ s.nor.trialB = true ∧ s.power.safe = false ∧
      (∀ kv ∈ s.reqs, kv.2.flyingW = []) ∧ ∀ p, p < 6 → (s.port p).arrivals = []) ∧
    (∀ active ts n, (banked active ts n).bankValid true = true) ∧
    (powered { stage := 4 }).power.stage < 7 ∧
    -- ENGINE_RESET with a Loom; without one; in SAFE
    (pool.hasLoom = true ∧ pool.power.safe = false ∧ pool.power.standbyReq = false) ∧
    (({ pool with fuses := { shadow := Mem.write live.fuses.shadow 9 4#8 } } : State).hasLoom = false) := by
  refine ⟨?_, banked_valid, ?_, ?_, ?_⟩ <;> decide +kernel

theorem test_witness_FirmwareReady :
    -- after reset, with a trial that runs, with slots that wait; each input voltage is an operand
    (let s : State := { State.reset with umpire := { State.reset.umpire with trialRunning := true }
                                         slots := [{ st := .off, awaits := true }, { st := .off }, {}, {}, {}, {}] }
     s.Shape ∧ s.power.stage = 7 ∧ s.umpire.starting = true ∧ s.umpire.trialRunning = true ∧ s.power.safe = false ∧
      (s.slot 0).awaits = true ∧ (s.slot 0).st = .off ∧ (s.nor.slotPolicy.getD 0 (true, true, false)).1 = true ∧
      (s.slot 1).awaits = false ∧ s.umpire.fuseJob = none ∧ State.reset.umpire.trialRunning = false) ∧
    (43999 < 44000 ∧ 58000 < 58001 ∧ (44000 ≤ 44000 ∧ 58000 ≤ 58000)) ∧ pool.umpire.starting = false := by
  refine ⟨?_, ?_, ?_⟩ <;> decide +kernel

theorem test_witness_RegisterAccess :
    -- the end of BAR0; PERST
    live.bar0Open 0x400000 = false ∧ ({ live with power := { perstLow := true } } : State).bar0Open 0 = false ∧
    -- a slot, an unmasked vector that is pending, a window's last byte of a page and the byte after it
    (live.fuses.valid = true ∧ live.power.perstLow = false ∧ live.Shape ∧ live.hasPort 5 = true) ∧
    (let s : State := { live with regs := { msixPend := 0x200#10 } }
     s.fuses.valid = true ∧ s.power.perstLow = false ∧ bit (le (zeros 4)) 0 = false ∧ s.regs.msixPend.getLsbD 9 = true ∧
      Mem.wf s.regs.msixTable = true) ∧
    (live.umpire.ready = true ∧ 4095 / 4096 = (4095 + 1 - 1) / 4096 ∧ ¬ 4095 / 4096 = (4095 + 2 - 1) / 4096 ∧
      (live.mbox (mgmtMbx 3)).owner = false ∧ (State.reset.mbox (mgmtMbx 3)).owner = true ∧ State.reset.fuses.valid = true ∧
      live.umpire.mboxes.map (·.1) = allMbx ∧ Mem.wf (live.mbox (mgmtMbx 3)).bulk = true) ∧
    isLowerHalf 0x1018 = true ∧ (0x1014 % 4 = 0 ∧ 0x1014 ∉ [0x1004, 0x1008, 0x1010, 0x6000]) := by
  refine ⟨?_, ?_, ?_, ?_, ?_, ?_, ?_⟩ <;> decide +kernel

theorem test_witness_DebugDisableFuses :
    ({ shadow := [(0x110, 8#8)] } : Fuses).debugDisabled = true ∧ live.fuses.debugDisabled = false := by
  refine ⟨?_, ?_⟩ <;> decide +kernel

theorem test_witness_NearErrorCounters :
    8191 < 8192 ∧ 15 < 16 ∧ live.bar0Open (0x40000 + 4 * 8191) = true ∧
      (∀ n ∈ [0, 1], ({ data := [], mark := 0, fixed := n } : Decoded).fixed = n) := by
  refine ⟨?_, ?_, ?_, ?_⟩ <;> decide +kernel

theorem test_witness_GroupBurstMapping :
    ext0.prot ≠ .parity ∧ 0 < ext0.copies ∧ groupsOf ext0.groups ≠ [] ∧ 31 < ext0.pageCount ∧ 255 < 256 ∧ ext0.bursts ≤ 4 := by
  refine ⟨?_, ?_, ?_, ?_, ?_, ?_⟩ <;> decide +kernel

theorem test_witness_RegisterContents :
    (let e : CeEntry := { loc := 0x00000C0003B418B0#64, hits := 5 }
     let s : State := { live with ras := { tabFar := [{ loc := 0, hits := 1 }, { loc := 1, hits := 1 }, e] } }
     s.ras.tabFar[2]? = some e) ∧ live.hasPort 5 = true ∧
    ({ live with fuses := { shadow := Mem.write live.fuses.shadow 8 0x20#8 } } : State).hasPort 5 = false := by
  refine ⟨?_, ?_, ?_⟩ <;> decide +kernel

/-- An aperture of one granule at link address 0 over extent 0, with WR_EN and GEN as given. -/
def aptOf (wr gen : Bool) (e : Nat := 0) : Apt :=
  { link := 0, map := BitVec.ofNat 64 (2 ^ 63 + (if wr then 2 ^ 62 else 0) + (if gen then 2 ^ 61 else 0) + e * 2 ^ 46) }
/-- A request record: opcode, tag, RO, DIR, address. -/
def record (o tag : Nat) (addr : Nat := 0) (ro dir : Bool := false) : W64 :=
  BitVec.ofNat 64 (o + 16 * tag + (if ro then 2 ^ 16 else 0) + (if dir then 2 ^ 17 else 0) + addr / 64 * 2 ^ 18)
def arrival (w : W64) (credit : Bool := true) (data : List Byte := []) : Arrival :=
  { rec_ := w, data := data, slot := none, damaged := false, credit := credit, pick := 0 }
/-- A pool whose port 0 sees extent 0 and has a record in front. -/
def host (a : List Arrival) (x : Extent := ext1) (apt : Apt := aptOf true false) (safe : Bool := false) : State :=
  { pool with exts := [(0, x)], ports := [{ ctx := some 1, active := [(0, apt)], arrivals := a }, {}, {}, {}, {}, {}]
              power := { safe := safe } }

theorem test_witness_HostRequests :
    -- the checks in turn, at the last byte of the aperture and one beyond it
    ((host [] ext1 (aptOf true false) true).power.safe = true) ∧
    ((host []).port 0).active.find? (fun kv => kv.2.covers (2 ^ 21)) = none ∧
    (∀ v ∈ [(ext1, aptOf true false 1), (ext0, aptOf true false), (ext1, aptOf false false), ({ ext1 with bound := true }, aptOf true false),
        ({ ext1 with sealed := true }, aptOf true false), (ext1, aptOf true true), (ext1, aptOf true false)],
      let s := host [] v.1 v.2
      s.power.safe = false ∧ (s.port 0).active.find? (fun kv => kv.2.covers (2 ^ 21 - 1)) = some (0, v.2) ∧
      (s.ext? v.2.ext = (if v.2.ext = 0 then some v.1 else none)) ∧ (v.1.shares 0 s.time.pick = true ↔ v.1.st = .granted) ∧
      s.leasedAway 0 31 (some 0) = false) ∧
    -- each opcode: no record, another record, SAFE, without credit, refused
    (∀ v ∈ [(Instr.rd64 0, 1, ReqOp.rd64), (.rd256 0, 2, .rd256), (.wr64 0, 3, .wr64), (.wr256 0, 4, .wr256), (.wrp 0, 5, .wrp)],
      let data := zeros 64 ++ toLe 8 1 ++ zeros 184
      let a := arrival (record v.2.1 4095) true data
      let s := host [a]
      s.Shape ∧ (s.port 0).arrivals = [a] ∧ a.rec_.toNat % 16 = v.2.1 ∧ a.rec_.toNat / 16 % 4096 = 4095 ∧ a.rec_.toNat / 2 ^ 18 * 64 = 0 ∧
      s.tagOut 0 4095 = false ∧ (host [arrival (record v.2.1 4095) false data]).tagOut 0 4095 = false ∧
      (host [arrival (record v.2.1 4095 (2 ^ 21))]).access 0 (2 ^ 21) v.2.2.isWrite = .refused stUnmapped ∧
      -- served, at a SETTLED page and at one that is zero-on-read
      s.access 0 0 v.2.2.isWrite = .served 0 false 0 ∧ (host [a] nearExt).access 0 0 v.2.2.isWrite = .served 0 false 0 ∧
      (host [a] nearExt).ext? 0 = some nearExt ∧ (nearExt.page 0).zor = false ∧ (nearExt.page 0).st = .settled ∧ s.ext? 0 = some ext1 ∧
      (ext1.page 0).zor = true ∧ s.reqs = [] ∧ s.ras.damaged = [] ∧ s.ras.work = [] ∧ s.nor.failedCh = 0 ∧
      le (slice a.data 64 8) ≠ 0 ∧ s.chooseEntry 0 ext1 0 a.data ≠ .full ∧ s.chooseEntry 0 nearExt 0 a.data ≠ .full) ∧
    -- a WRP with a mask of 0 that is refused
    (let a := arrival (record 5 4095 (2 ^ 21)) true (zeros 256)
     (host [a]).power.safe = false ∧ (host [a]).tagOut 0 4095 = false ∧ le (slice a.data 64 8) = 0 ∧
      (host [a]).access 0 (2 ^ 21) true = .refused stUnmapped) ∧
    -- a FENCE
    (let a := arrival (record 6 0)
     let s := host [a]
     s.Shape ∧ (s.port 0).arrivals = [a] ∧ a.rec_.toNat % 16 = 6 ∧ a.credit = true ∧ a.damaged = false ∧ s.power.safe = false ∧
      s.reqs = [] ∧ s.tagOut 0 0 = false) := by
  refine ⟨?_, ?_, ?_, ?_, ?_, ?_⟩ <;> decide +kernel

/-- A pull of one block into extent 0 by engine 7, whose read has tag 3. -/
def pulling (a : Arrival) : State :=
  { host [a] with
    ports := [{ ctx := some 1, arrivals := [a], rdTags := [(3, { engine := 7, block := 0, left := 0 })] }, {}, {}, {}, {}, {}]
    engines := List.replicate 7 none ++
      [some (jobOf pullEight (some { d := { pullEight with port := 0 }, idx := 0, next := 1, inflight := [0] }))] }

theorem test_witness_MailboxRecordsAndHostCompletions :
    -- MBX records: the last chunk, an address beyond it, without credit
    (∀ dir ∈ [false, true], ∀ v ∈ [(3840, true), (4096, true), (0, false)],
      let a := arrival (record 7 1 v.1 false dir) v.2 (zeros 256)
      let s := host [a]
      s.Shape ∧ (s.port 0).arrivals = [a] ∧ a.rec_.toNat % 16 = 7 ∧ a.rec_.getLsbD 17 = dir ∧ a.rec_.toNat / 2 ^ 18 * 64 = v.1 ∧
      s.tagOut 0 1 = false ∧ s.power.safe = false ∧ s.reqs = [] ∧ a.damaged = false ∧ a.credit = v.2) ∧
    -- host completions of a tag that no read has, and of the read
    (∀ o ∈ [8, 9], ∀ tag ∈ [2, 3], let a := arrival (record o tag) true (zeros 256)
      let s := pulling a
      s.Shape ∧ (s.port 0).arrivals = [a] ∧ a.rec_.toNat % 16 = o ∧ a.rec_.toNat / 16 % 4096 = tag ∧ a.credit = true ∧
      Table.get? (s.port 0).rdTags tag = (if tag = 3 then some { engine := 7, block := 0, left := 0 } else none) ∧
      a.rec_.toNat / 2 ^ 16 % 16 = stOk ∧ (s.engine 7).isSome = true ∧ s.extentAt 0 = some (0, ext1, 0) ∧ ext1.st = .granted ∧
      ext1.sealed = false ∧ ext1.sealing = false ∧ s.leases = []) := by
  refine ⟨?_, ?_⟩ <;> decide +kernel

/-- A request of port 0 for block 0 of the near page, alone in the table, at a pick, in a plan whose first position is the port's. -/
def reqOf (op : ReqOp) : Req :=
  { origin := .host 0 9, op := op, code := 0, ext := 0, block := 0, quarter := 0, data := zeros 256, mask := 0, ro := false, arrival := 0
    near := true, slot := 0, gen := false }
def atTier (r : Req) (pick : Nat) : State :=
  { pool with exts := [(0, nearExt)], reqs := [(4, r)], time := { pick := pick }, tie := engineAt 1 }
def nearFirst : Loc := .near 0 0
/-- Its read in flight, with what it took; its whole write of a block of ones, before and after its position. -/
def readOut : Req :=
  { reqOf .rd256 with started := true, planned := true, flying := [nearFirst], snap := [(nearFirst, zeros 272)], phases := [.read []]
                      issued := some (true, 0, 0) }
def ones : List Byte := List.replicate 256 0xFF
def oneItem : WItem := { loc := nearFirst, off := 0, bytes := ones }
def writeNext : Req := { reqOf .wr256 with planned := true, phases := [.write [oneItem]], merged := some ones }
def writeOut : Req := { writeNext with started := true, flyingW := [oneItem], phases := [.write []], issued := some (true, 0, 0) }

/-- What every clause rests on. -/
abbrev tierBase (r : Req) (n : Nat) : Prop :=
  (atTier r n).Shape ∧ (atTier r n).ext? r.ext = some nearExt ∧ r.near = true ∧ r.gen = false ∧ r.entry = none ∧
    (atTier r n).ras.damaged = [] ∧ (atTier r n).ras.work = [] ∧ r.nearLoc nearExt = nearFirst ∧ (atTier r n).tiersOpen = true ∧
    r.orphan = false ∧ Table.get? nearExt.ovf r.block = none

theorem tier_bases : nearExt.cls = .plain ∧ nearExt.prot = .none ∧ nearExt.unlisted = [] ∧ tierBase (reqOf .rd64) 10 ∧
    (∀ n ∈ [10, 11], tierBase (reqOf .rd256) n) ∧ (∀ n ∈ [10, 11, 12], tierBase writeNext n) ∧ tierBase readOut 0 ∧
    tierBase writeOut 0 := by
  refine ⟨?_, ?_, ?_, ?_, ?_, ?_, ?_, ?_⟩ <;> decide +kernel

/-- The first position, in the last pick in which an access may start: free, and the port's. -/
theorem tier_issue : let q : Position := { tier := .near, unit := 0, pos := 0 }
    nearFirst.home = (.near, q.unit) ∧ (nearExt.page 0).zor = false ∧ (nearExt.page 0).st = .settled ∧
    (∀ r ∈ [reqOf .rd64, reqOf .rd256, writeNext], (atTier r 10).ownerAt q = 0 + 1 ∧ (atTier r 10).lanesAt q = some [] ∧
      (atTier r 10).time.pick ≤ r.arrival + 10 ∧ r.started = false ∧ r.late = false ∧ r.flying = [] ∧ r.flyingW = [] ∧ r.snap = [] ∧
      r.lastRead = none) := by decide +kernel

/-- A codeword whose first candidate has no error decodes to it. -/
theorem better_clean (d : Decoded) (h : d.fixed = 0) (o : Option Decoded) : betterOf (some d) o = some d := by
  cases o with
  | none => rfl
  | some y => simp [betterOf, h]
theorem near_clean (b : List Byte) (d : Decoded) (h : nearCandidate b (nearSyndromes b 0) (nearSyndromes b 1) 0 = some d)
    (hd : d.fixed = 0) : nearDecode b = some d := by
  have go : ∀ (l : List Nat) (s0 s1 : List Nat), l.foldl (fun best m => betterOf best (nearCandidate b s0 s1 m)) (some d) = some d := by
    intro l s0 s1
    induction l with
    | nil => rfl
    | cons m l ih => rw [List.foldl_cons, better_clean d hd, ih]
  unfold nearDecode
  rw [show List.range 16 = 0 :: (List.range 15).map (· + 1) from rfl, List.foldl_cons, h, show betterOf none (some d) = some d from rfl]
  exact go _ _ _

theorem tier_data : (atTier readOut 0).decodeUnit nearFirst (zeros 272) = some { data := zeros 256, mark := 0, fixed := 0 } := by
  have hd : ∀ s : State, s.decodeUnit nearFirst (zeros 272) = nearDecode (zeros 272) := fun s => by
    unfold State.decodeUnit
    rfl
  rw [hd]
  exact near_clean _ _ (by decide +kernel) rfl
theorem tier_write : ones.length = 256 ∧ (nearExt.page 0).near = true ∧ Mem.wf (atTier writeNext 10).nearMem = true ∧
    writeOut.merged.isSome = true ∧ writeOut.visible = false := by decide +kernel

/-- The ceiling: the last pick of a start, the pick after it, and the pick in which a late write completes. -/
theorem tier_ceiling : (∀ n ∈ [10, 11], (atTier (reqOf .rd256) n).lastStart ((atTier (reqOf .rd256) n).wouldBe (reqOf .rd256)) = 10) ∧
    ∀ n ∈ [10, 11, 12], (atTier writeNext n).lastStart ((atTier writeNext n).wouldBe writeNext) = 10 := by
  refine ⟨?_, ?_⟩ <;> decide +kernel

theorem test_witness_TierAccesses :
    (∃ d, (atTier readOut 0).decodeUnit nearFirst (zeros 272) = some d ∧ d.mark = 0) ∧ readOut.snap = [(nearFirst, zeros 272)] ∧
    readOut.flying = [nearFirst] ∧ readOut.got = [] ∧ readOut.issued = some (true, (atTier readOut 0).time.pick, 0) ∧
    writeOut.issued = some (true, (atTier writeOut 0).time.pick, 0) ∧
    (∀ r n, (atTier r n).reqs = [(4, r)] ∧ (atTier r n).leases = [] ∧ (atTier r n).tier.copies = [] ∧ (atTier r n).tier.fills = []) ∧
    Table.get? pool.reqs 0 = none ∧ (host [] ext1 (aptOf true false) true).tiersOpen = false :=
  ⟨⟨_, tier_data, rfl⟩, rfl, rfl, rfl, rfl, rfl, fun _ _ => ⟨rfl, rfl, rfl, rfl⟩, rfl, rfl⟩

/-- A port with a link, that has sent an egress HEAD of FRAME 5. -/
def linked (q : Port) (st : SlotSt := .up) : State :=
  { pool with ports := [{ q with width := 8, grants := [(5, { host := [], cpl := [], rdCredit := 4 })] }, {}, {}, {}, {}, {}]
              slots := { st := st } :: List.replicate 5 {} }
/-- The HEAD of a frame: FRAME 5 and FLAGS, with its damage. -/
def rxFrame (flags : Byte) (bad : List Nat := []) : RxFrame :=
  { bytes := [flags] ++ zeros 7 ++ toLe 8 5 ++ zeros 240, badFlits := bad, corrected := 1, uncorr := bad.length }

theorem test_witness_LinkFrames :
    -- no link, training
    (linked {} .training).Shape ∧ ((linked {} .training).slot 0).st = .training ∧
    ((linked {} .off).slot 0).st ≠ .training ∧ (linked {} .off).linkUp 0 = false ∧
    -- FRAME 5, and its flags
    (∀ f ∈ [0x00#8, 0x08#8, 0x18#8], le (slice (rxFrame f).bytes 8 8) = 5 ∧ (bit ((rxFrame f).bytes.getD 0 0).toNat 3 = true ↔ f ≠ 0) ∧
      (rxFrame f).uncorr = 0 ∧ (rxFrame f).badFlits = []) ∧
    -- taken in order and not, in plaintext that must be encrypted, encrypted without a key and with one whose successor is unknown
    (∀ v ∈ [(({} : Port), true), ({ rxFrame := some 4 }, true), ({ rxFrame := some 5 }, false), ({ conf := true, confFrom := some 5 }, true),
        ({ keyI := some (zeros 32) }, true)],
      let s := linked v.1
      s.Shape ∧ s.linkUp 0 = true ∧ (Table.get? (s.port 0).grants 5).isSome = true ∧
      (((s.port 0).rxFrame.all (· < 5)) = v.2) ∧ (s.port 0).tagRun < 3) ∧
    Port.openFrame ((linked { keyI := some (zeros 32) }).port 0) 0 (rxFrame 0x18).bytes = none ∧
    -- a lost HEAD, the eighth bad frame
    (∀ n ∈ [6, 7], ((linked { badRun := n }).port 0).badRun = n ∧ 0 ∈ (rxFrame 0 [0]).badFlits ∧ (linked { badRun := n }).power.safe = false ∧
      ((linked { badRun := n }).slot 0).st = .up) ∧
    -- REKEY, due and not; CONF_START
    ((linked { conf := true, txFrame := 2 ^ 23 }).port 0).txFrame % 2 ^ 23 = 0 ∧ ((linked { conf := true, txFrame := 2 ^ 23 }).port 0).rekeyAt = none ∧
    (∀ n ∈ [8, 7], ((linked { confFrom := some 8, txFrame := n }).port 0).confFrom = some 8 ∧
      ((linked { confFrom := some 8, txFrame := n }).port 0).conf = false) ∧
    -- records of each opcode
    (∀ o, o < 16 → (BitVec.ofNat 64 o : W64).toNat % 16 = o) ∧ ({ credit := 0 } : Parse).skip = false := by
  refine ⟨?_, ?_, ?_, ?_, ?_, ?_, ?_, ?_, ?_, ?_, ?_, ?_, ?_⟩ <;> decide +kernel

/-- A near-resident page of extent 0, marked for eviction; the state that holds it, with a copy of page 0. -/
def marked (dirty : Bool) : Extent := { ext1 with pages := [(0, { zor := false, near := true, evict := true, dirty := dirty })] }
def copying (x : Extent) (c : Copy) (pick : Nat) : State :=
  { pool with exts := [(0, x)], tie := engineAt 0x10, time := { pick := pick }, tier := { copies := [(0, c)], nextCopy := 1 } }
def nearPos (k : Nat) : Position := { tier := .near, unit := 0, pos := k }
def farPos (k : Nat) : Position := { tier := .far, unit := 0, pos := k }
def farExt (st : PgSt) : Extent := { ext1 with pages := [(0, { zor := false, st := st })] }
def promo : Copy := { ext := 0, page := 0, kind := .promote, dest := 0, src := 0 }
def evict : Copy := { promo with kind := .evict }

/-- A section whose 63,488 runs all hold a near page that may be evicted, or that is pinned, and a queued far page. -/
def fullExt (pin : Bool) : Extent :=
  { ext1 with pages := (0, { zor := false, st := .queued }) ::
      (List.range 63488).map fun i => (i + 1, { zor := false, near := true, slot := 4 * i, pin := pin }) }
def full (pin : Bool) : State :=
  { pool with exts := [(0, fullExt pin)], tie := engineAt 0x10, tier := { queue := [{ ext := 0, page := 0 }], beats := 2 ^ 40 } }

theorem full_used (pin : Bool) : (full pin).usedRuns = (List.range 63488).map fun i => (4 * i, 4) := by
  have h : ((List.range 63488).map fun i => ((i + 1, ({ zor := false, near := true, slot := 4 * i, pin := pin } : Page)) : Nat × Page)).filter
      (fun pg => pg.2.near) = (List.range 63488).map fun i => (i + 1, { zor := false, near := true, slot := 4 * i, pin := pin }) :=
    List.filter_eq_self.2 fun a ha => by obtain ⟨i, -, rfl⟩ := List.mem_map.1 ha; rfl
  have hc : (fullExt pin).clear = none := rfl
  have hf : (fullExt pin).frames = 4 := by cases pin <;> decide +kernel
  have hl : (fullExt pin).looseFrames = [] := rfl
  unfold State.usedRuns
  simp only [full, List.flatMap_cons, List.flatMap_nil, hc, hf, hl, List.map_nil, List.append_nil, List.filterMap_nil]
  rw [fullExt, List.filter_cons_of_neg (by simp), h, List.map_map]
  rfl

theorem full_none (pin : Bool) : (full pin).freeRun 0 4 = none := by
  unfold State.freeRun
  rw [full_used]
  have h : (((alignUp (0 * framesPerSection) 4 :: ((List.range 63488).map fun i => (4 * i, 4)).map fun u => alignUp (u.1 + u.2) 4)).filter
      fun a => decide (0 * framesPerSection ≤ a) && decide (a + 4 ≤ 0 * framesPerSection + framesPerSection) &&
        runFree ((List.range 63488).map fun i => (4 * i, 4)) (a, 4)) = [] := by
    rw [List.filter_eq_nil_iff]
    intro a ha hb
    have hk : ∃ k, k ≤ 63488 ∧ a = 4 * k := by
      simp only [List.mem_cons, List.mem_map, List.mem_range] at ha
      rcases ha with rfl | ⟨u, ⟨i, hi, rfl⟩, rfl⟩
      · exact ⟨0, by omega, rfl⟩
      · exact ⟨i + 1, by omega, by simp only [alignUp, ceilDiv]; omega⟩
    obtain ⟨k, hk, rfl⟩ := hk
    simp only [Bool.and_eq_true, runFree, List.all_eq_true, framesPerSection] at hb
    have hlt : 4 * k + 4 ≤ 0 * 253952 + 253952 := of_decide_eq_true hb.1.2
    have hm := hb.2 (4 * k, 4) (List.mem_map.2 ⟨k, List.mem_range.2 (by omega), rfl⟩)
    simp [overlap] at hm
  simp only [h, List.foldl_nil]

theorem full_pages (pin : Bool) : (full pin).nearPages 0 =
    (List.range 63488).map fun i => (0, i + 1, { zor := false, near := true, slot := 4 * i, pin := pin }, 4) := by
  have h : ((List.range 63488).map fun i => ((i + 1, ({ zor := false, near := true, slot := 4 * i, pin := pin } : Page)) : Nat × Page)).filter
      (fun pg => pg.2.near && frameSection pg.2.slot == 0) =
        (List.range 63488).map fun i => (i + 1, { zor := false, near := true, slot := 4 * i, pin := pin }) :=
    List.filter_eq_self.2 fun a ha => by
      obtain ⟨i, hi, rfl⟩ := List.mem_map.1 ha
      have := List.mem_range.1 hi
      simp [frameSection, framesPerSection, Nat.div_eq_of_lt (show 4 * i < 253952 by omega)]
  have hf : (fullExt pin).frames = 4 := by cases pin <;> decide +kernel
  unfold State.nearPages
  simp only [full, List.flatMap_cons, List.flatMap_nil, hf, List.append_nil]
  rw [fullExt, List.filter_cons_of_neg (by simp), h, List.map_map]
  rfl

/-- A choice over a list that is not empty is made. -/
theorem chosen {α β : Type} (F : Option α → β → Option α) (hF : ∀ o c, (F o c).isSome = true) (l : List β) (hl : l ≠ []) :
    ∀ o, (l.foldl F o).isSome = true := by
  induction l with
  | nil => exact absurd rfl hl
  | cons c l ih =>
    intro o
    rw [List.foldl_cons]
    cases l with
    | nil => exact hF o c
    | cons d l => exact ih (List.cons_ne_nil _ _) _

/-- A section with a near page, in which every run in use is a near page that may be evicted, has victims. -/
theorem victim_some (s : State) (sec f : Nat) (pg : Nat × Nat × Page × Nat) (hpg : pg ∈ s.nearPages sec)
    (hu : ∀ u ∈ s.usedRuns, overlap u (pg.2.2.1.slot / f * f, f) = true → ∃ q ∈ s.nearPages sec, (q.2.2.1.slot, q.2.2.2) = u)
    (hq : ∀ q ∈ s.nearPages sec, s.evictable q.2.2.1 = true) : ∃ v, s.victimRun sec f = some v := by
  refine Option.isSome_iff_exists.1 ?_
  unfold State.victimRun
  dsimp only
  refine chosen _ (fun o c => ?_) _ (fun hn => ?_) none
  · cases o with
    | none => rfl
    | some b => dsimp only; split <;> rfl
  have h0 := List.filterMap_eq_nil_iff.1 hn _ hpg
  split at h0
  · cases h0
  · rename_i hf
    refine hf ?_
    simp only [Bool.and_eq_true, List.isEmpty_iff, List.filter_eq_nil_iff, List.all_eq_true]
    refine ⟨fun u hm hb => ?_, fun q hm => hq q (List.mem_filter.1 hm).1⟩
    simp only [Bool.not_eq_true', List.any_eq_false] at hb
    obtain ⟨q, hm', rfl⟩ := hu u hm hb.1
    exact hb.2 q (List.mem_filter.2 ⟨hm', hb.1⟩) (by simp)

/-- A section whose near pages may not be evicted has no victims. -/
theorem victim_none (s : State) (sec f : Nat) (hf : 0 < f)
    (hq : ∀ q ∈ s.nearPages sec, s.evictable q.2.2.1 = false ∧ 0 < q.2.2.2) : s.victimRun sec f = none := by
  unfold State.victimRun
  dsimp only
  rw [List.filterMap_eq_nil_iff.2]
  · rfl
  · intro pg hpg
    rw [if_neg]
    intro hb
    rw [Bool.and_eq_true, List.all_eq_true] at hb
    have hd := Nat.div_add_mod pg.2.2.1.slot f
    have hl := Nat.mod_lt pg.2.2.1.slot hf
    rw [Nat.mul_comm] at hd
    have := hb.2 _ (List.mem_filter.2 ⟨hpg, by have := (hq pg hpg).2; simp only [overlap, Bool.and_eq_true, decide_eq_true_eq]; omega⟩)
    rw [(hq pg hpg).1] at this
    cases this

theorem full_victims : ∃ v, (full false).victimRun 0 4 = some v := by
  have hm : ∀ i, i < 63488 → (0, i + 1, ({ zor := false, near := true, slot := 4 * i, pin := false } : Page), 4) ∈ (full false).nearPages 0 :=
    fun i hi => by rw [full_pages]; exact List.mem_map.2 ⟨i, List.mem_range.2 hi, rfl⟩
  refine victim_some _ _ _ _ (hm 0 (by omega)) (fun u hu _ => ?_) fun q hq => ?_
  · rw [full_used] at hu
    obtain ⟨i, hi, rfl⟩ := List.mem_map.1 hu
    exact ⟨_, hm i (List.mem_range.1 hi), rfl⟩
  · rw [full_pages] at hq
    obtain ⟨i, -, rfl⟩ := List.mem_map.1 hq
    have h : (0 : Nat) + (full false).tier.policy.horizon < (full false).tier.beats := by decide +kernel
    simp only [State.evictable, Bool.and_eq_true, decide_eq_true_eq]
    exact ⟨⟨⟨⟨trivial, rfl⟩, rfl⟩, rfl⟩, h⟩

theorem full_pinned : (full true).victimRun 0 4 = none := by
  refine victim_none _ _ _ (by omega) fun q hq => ?_
  rw [full_pages] at hq
  obtain ⟨i, -, rfl⟩ := List.mem_map.1 hq
  exact ⟨rfl, Nat.zero_lt_succ 3⟩

theorem test_witness_Migration :
    -- a free run
    ((0 : Nat) < 4 ∧ pool.freeRun 15 4 = some (15 * 253952)) ∧
    -- a queued page, with room
    (let s : State := { pool with exts := [(0, farExt .queued)], tie := engineAt 0x10, tier := { queue := [{ ext := 0, page := 0 }] } }
     s.backgroundOn = true ∧ s.farOwner s.pattern 0 0 = 0x10 ∧ s.mayStart = true ∧ s.tier.queue = [{ ext := 0, page := 0 }] ∧
      s.ext? 0 = some (farExt .queued) ∧ s.sourceGroup 0 0 = some 0 ∧ s.freeRun ((farExt .queued).targetSection 0) (farExt .queued).frames = some 0) ∧
    -- a section without a free run, with victims and without (full_none, full_victims, full_pinned)
    (∀ pin : Bool, let s := full pin
     s.backgroundOn = true ∧ s.farOwner s.pattern 0 0 = 0x10 ∧ s.mayStart = true ∧ s.sourceGroup 0 0 = some 0 ∧
      (fullExt pin).targetSection 0 = 0) ∧
    -- an eviction of a DIRTY and of a clean page, and none of a page that is not marked
    (∀ x ∈ [marked true, marked false, nearExt], let s : State := { pool with exts := [(0, x)], tie := engineAt 0x10 }
      s.ext? 0 = some x ∧ s.backgroundOn = true ∧ s.ownerAt (nearPos 0) = 0x10 ∧ (s.lanesAt (nearPos 0)).isSome = true ∧ (x.page 0).near = true ∧
      (x.page 0).slot / 253952 = 0 ∧ ((x.page 0).evict = true ↔ x ≠ nearExt) ∧ (x.page 0).pin = false ∧ (x.page 0).st = .settled ∧
      s.mayStart = true) ∧
    -- a switch in the pick after the copy was done, and in that pick
    (∀ k ∈ [CopyKind.promote, .pinCopy, .move, .evict], ∀ n ∈ [8, 7],
      let c : Copy := { promo with kind := k, done := true, donePick := 7 }
      let s := copying nearExt c n
      Table.get? s.tier.copies 0 = some c ∧ s.ext? c.ext = some nearExt ∧ c.donePick = 7 ∧ s.time.pick = n ∧ s.pickFresh = true ∧ s.reqs = [] ∧
      s.pins = [] ∧ s.power.safe = false) ∧
    -- a read of a page whose residence has changed, before and after its first access
    (∀ r ∈ [reqOf .rd256, readOut], (atTier r 0).reqs = [(4, r)] ∧ (atTier r 0).ext? r.ext = some nearExt ∧ r.op.isRead = true ∧
      r.gen = false) := by
  refine ⟨?_, ?_, ?_, ?_, ?_, ?_⟩ <;> decide +kernel

/-- A fill of page 0, which is ZFILL and far or near, with these blocks written, alone in flight. -/
def fillOf (bits : Nat) : Fill := { ext := 0, page := 0, bits := BitVec.ofNat 256 bits, order := 3 }
def zfillExt (near : Bool) : Extent := { ext1 with pages := [(0, { zor := false, st := .zfill, near := near })] }
def filling (near : Bool) (bits : Nat) : State :=
  { pool with exts := [(0, zfillExt near)], tie := engineAt 0x10, tier := { fills := [(0, fillOf bits)] } }
theorem undamage_tier (e : Nat) (f : Nat → Nat) (l : List Nat) : ∀ s : State,
    (l.foldl (fun s b => s.undamage e (f b)) s).tier = s.tier := by
  induction l with
  | nil => intro s; rfl
  | cons b l ih => intro s; rw [List.foldl_cons, ih]; rfl

/-- The fill after it has written parts of its page. -/
theorem filled_fill (s : State) (i : Nat) (f : Fill) (x : Extent) (parts : List (Nat × Nat)) (items : List WItem) (q : Position) :
    Table.get? (s.filled i f x parts items q).tier.fills i = some (Fill.settle { f with done := f.done ++ parts } x) := by
  unfold State.filled
  dsimp only
  rw [undamage_tier]
  exact (Table.get?_set _ _ _ _).trans (if_pos rfl)

/-- A near position of a fill that can use it. -/
theorem serve_near (s : State) (i : Nat) (f : Fill) (x : Extent) (q : Position) (b : Nat) (bs : List Nat) (hq : q.tier = .near)
    (hn : (x.page f.page).near = true) (h : s.fillNear x f q [] = b :: bs) :
    ∃ u, s.fillServe i f x q [] = some u ∧ Table.get? u.tier.fills i =
      some (Fill.settle { f with done := f.done ++ (b :: bs).map fun b => (0, b) } x) := by
  unfold State.fillServe
  rw [hq, h]
  simp only [hn, Bool.not_true, Bool.false_eq_true, ↓reduceIte, Option.some.injEq, exists_eq_left']
  exact filled_fill ..

/-- A far position of the fill of a far page without protection. -/
theorem serve_far (s : State) (i : Nat) (f : Fill) (x : Extent) (q : Position) (b : Nat) (bs : List Nat) (hq : q.tier = .far)
    (hn : (x.page f.page).near = false) (hp : x.prot = .none)
    (h : (fitting q [] (s.fillBursts x f 0)).map (·.1) = b :: bs) :
    ∃ u, s.fillServe i f x q [] = some u ∧ Table.get? u.tier.fills i =
      some (Fill.settle { f with done := f.done ++ (b :: bs).map fun b => (1, b) } x) := by
  unfold State.fillServe
  have hc : List.range x.copies = [0] := by simp [Extent.copies, hp]
  obtain ⟨w, ws, hw⟩ : ∃ w ws, fitting q [] (s.fillBursts x f 0) = w :: ws := by
    cases hf : fitting q [] (s.fillBursts x f 0) with
    | nil => simp [hf] at h
    | cons w ws => exact ⟨w, ws, rfl⟩
  have hm : (w :: ws).map (fun w => (1 + 0, w.1)) = (b :: bs).map fun b => (1, b) := by rw [← h, hw, List.map_map]; rfl
  rw [hq, hc]
  simp only [hn, hp, Bool.false_and, reduceCtorEq, ↓reduceIte, List.findSome?_cons, hw, Bool.false_eq_true, Option.some.injEq,
    exists_eq_left']
  rw [hm]
  exact filled_fill ..

/-- What a position of the fill rests on. -/
abbrev fillReady (near : Bool) (bits : Nat) : Prop :=
  let s := filling near bits
  s.positionOf (if near then nearPos 0 else farPos 0) 0x10 = some [] ∧ s.backgroundOn = true ∧ s.tier.fills = [(0, fillOf bits)] ∧
    s.inFlight = [(3, false)] ∧ s.ext? 0 = some (zfillExt near) ∧ s.pins = [] ∧ s.reqs = []

/-- A fill of a near page, with its first and last block left and with its last, and of a far page at its start. -/
theorem fill_serves :
    (∀ bits ∈ [2 ^ 255 - 2, 2 ^ 255 - 1], ∃ b bs u g, (filling true bits).fillNear (zfillExt true) (fillOf bits) (nearPos 0) [] = b :: bs ∧
      (filling true bits).fillServe 0 (fillOf bits) (zfillExt true) (nearPos 0) [] = some u ∧ Table.get? u.tier.fills 0 = some g ∧
      g.bits = BitVec.allOnes 256 ∧ g.owed = []) ∧
    (∃ u g, (filling false 0).fillServe 0 (fillOf 0) (zfillExt false) (farPos 0) [] = some u ∧ Table.get? u.tier.fills 0 = some g ∧
      g.bits.getLsbD 255 = false) := by
  refine ⟨?_, ?_⟩
  · have h : ∀ bits ∈ [2 ^ 255 - 2, 2 ^ 255 - 1], ∃ b bs, (filling true bits).fillNear (zfillExt true) (fillOf bits) (nearPos 0) [] = b :: bs ∧
        (Fill.settle { fillOf bits with done := (fillOf bits).done ++ (b :: bs).map fun b => (0, b) } (zfillExt true)).bits =
          BitVec.allOnes 256 := by
      intro bits hb
      simp only [List.mem_cons, List.not_mem_nil, or_false] at hb
      obtain rfl | rfl := hb
      · exact ⟨0, [255], by decide +kernel, by decide +kernel⟩
      · exact ⟨255, [], by decide +kernel, by decide +kernel⟩
    intro bits hb
    obtain ⟨b, bs, h1, h2⟩ := h bits hb
    obtain ⟨u, h3, h4⟩ := serve_near (filling true bits) 0 (fillOf bits) (zfillExt true) (nearPos 0) b bs rfl rfl h1
    exact ⟨b, bs, u, _, h1, h3, h4, h2, rfl⟩
  · obtain ⟨u, h1, h2⟩ := serve_far (filling false 0) 0 (fillOf 0) (zfillExt false) (farPos 0) 0 ((List.range 11).map (· + 1)) rfl rfl rfl
      (by decide +kernel)
    exact ⟨u, _, h1, h2, by decide +kernel⟩

theorem test_witness_CopiesAndFills :
    -- a promotion that reads in its group, and that writes its first and its last block into its section; an eviction that writes
    (let s := copying (farExt .promoting) promo 0
     s.positionOf (farPos 0) 0x10 = some [] ∧ s.backgroundOn = true ∧ s.inFlight = [(0, true)] ∧ Table.get? s.tier.copies 0 = some promo ∧
      s.ext? 0 = some (farExt .promoting) ∧ (s.copyWork promo (farPos 0) []).1 ≠ [] ∧ (s.copyWork promo (farPos 0) []).2.2 = []) ∧
    (∀ b ∈ [0, 255], let c : Copy := { promo with next := b + 1, wr := b, held := [(b, 0, zeros 256, [false, false, false, false])] }
      let s := copying (farExt .promoting) c 2
      s.positionOf (nearPos 0) 0x10 = some [] ∧ s.inFlight = [(0, true)] ∧ s.copyWork c (nearPos 0) [] = ([], [], [b])) ∧
    (let c : Copy := { evict with next := 1, held := [(0, 0, zeros 256, [false, false, false, false])] }
     let s := copying { marked true with pages := [(0, { zor := false, near := true, st := .evicting, dirty := true })] } c 1
     s.positionOf (farPos 0) 0x10 = some [] ∧ s.inFlight = [(0, true)] ∧ s.copyWork c (farPos 0) [] = ([], [], [0])) ∧
    -- a block whose bursts lie in two stripe rows
    (let x : Extent := { farExt .promoting with prot := .parity }
     let s := copying x { promo with next := 2 } 0
     s.positionOf (farPos 0) 0x10 = some [] ∧ s.inFlight = [(0, true)] ∧ (s.copyWork { promo with next := 2 } (farPos 0) []).1 = [] ∧
      (s.copyWork { promo with next := 2 } (farPos 0) []).2.1.length = 2 ∧ (s.copyWork { promo with next := 2 } (farPos 0) []).2.2 = []) ∧
    -- a burst that did not read clean: the rest of its stripe is read before the copy goes on
    (let x : Extent := { farExt .promoting with prot := .parity }
     let c : Copy := { promo with part := (x.blockRefs 0 0).map fun r => { loc := x.burstLoc 0 r, bytes := zeros 64, marks := [false], ue := true } }
     let s := copying x c 0
     s.positionOf (farPos 0) 0x10 = some [] ∧ s.copyGot x c c.part 0 = false ∧ (s.copyWork c (farPos 0) []).1 ≠ [] ∧
      (s.copyWork c (farPos 0) []).2.2 = []) ∧
    -- a fill of a far and of a near page (what the position does: fill_serves)
    fillReady false 0 ∧ fillReady true (2 ^ 255 - 2) ∧ fillReady true (2 ^ 255 - 1) ∧ pool.positionOf (nearPos 0) 0x10 = none := by
  refine ⟨?_, ?_, ?_, ?_, ?_, ?_, ?_, ?_, ?_⟩ <;> decide +kernel

/-- Extent 0, which clears, with its cursor. -/
def clearExtent (n : Nat) : Extent := { ext0 with st := .clearing, clear := some { order := 0, far := [(0, n)], skip := [], frames := [] } }

theorem test_witness_FarUpkeep :
    -- a rank idle for IDLE_PICKS picks, and for one less
    (∀ n ∈ [64, 63], let s : State := { pool with far := { pdEn := true, idlePicks := 64 }, time := { pick := n } }
      s.far.pdEn = true ∧ (max 1 s.far.idlePicks ≤ s.time.pick - Table.getD s.far.idle 95 0 ↔ n = 64) ∧ 95 ∉ s.far.down ∧ 95 ∉ s.far.used ∧
      s.hasGroup (23 / 6) = true ∧ s.nor.failedCh.getLsbD 23 = false ∧ s.power.selfRefresh = false) ∧
    (1023 < pool.far.mr4Pick + 1024 ∧ pool.far.mr4Pick + 1024 ≤ 1024) ∧
    -- the first and the last row of the extent in group 0
    (∀ n ∈ [0, ((clearExtent 0).unitBase 0 + (clearExtent 0).units) * 3072 - 12], let x := clearExtent n
      let s : State := { pool with exts := [(0, x)], tie := engineAt 0x11, ras := { patrols := true } }
      s.positionOf (farPos 0) 0x11 = some [] ∧ s.scrubWrites .far = true ∧ s.exts = [(0, x)] ∧
      x.clear = some { order := 0, far := [(0, n)], skip := [], frames := [] } ∧ x.looseFrames = [] ∧ x.st = .clearing ∧ s.reqs = [] ∧
      s.ras.initCursor = [] ∧ s.ras.work = [] ∧ s.ras.failing = 0 ∧ s.nor.failedCh = 0 ∧ Mem.wf s.farMem = true ∧ n % 12 = 0 ∧ n < (x.unitBase 0 + x.units) * 3072) ∧
    pool.positionOf (farPos 0) 0x11 = none := by
  refine ⟨?_, ?_, ?_, ?_⟩ <;> decide +kernel

/-- A pool whose scrub positions come first, with its RAS state. -/
def scrubbing (r : Ras) (pick : Nat := 0) : State :=
  { pool with exts := [(0, nearExt)], tie := engineAt 0x11, ras := { r with patrols := true }, time := { pick := pick } }
def rebuildOf (g : Option (List Byte)) (a : Option (Bool × Nat × Nat)) : Ras := { work := [.rebuild nearFirst 0 g a] }

theorem test_witness_ScrubAndMarks :
    -- a step that is due, and one that is not yet
    (∀ v ∈ [(Tier.near, 15), (.far, 3)], (scrubbing {}).scrubber v.1 v.2 = true ∧ ((scrubbing {}).patrol v.1 v.2).ended = false ∧
      (scrubbing { nearStart := 1, farStart := 1 }).time.pick < (scrubbing { nearStart := 1, farStart := 1 }).stepDue v.1 0 ∧
      (scrubbing {} (10 ^ 15)).stepDue v.1 0 ≤ (scrubbing {} (10 ^ 15)).time.pick) ∧
    -- a step that is taken: the first and the last of a pass
    (∀ n ∈ [0, 2 ^ 32 - 1], let s := scrubbing { farPatrol := [(0, { step := n, due := 1 })] }
      s.positionOf (farPos 0) 0x11 = some [] ∧ s.scrubOn = true ∧ s.scrubber .far 0 = true ∧ s.workClaims (farPos 0) = false ∧
      s.clearClaims (farPos 0) = false ∧ s.twinsDue 0 = [] ∧ (s.patrol .far 0).due = 1 ∧ (s.patrol .far 0).ended = false) ∧
    -- a rebuild of a near unit whose far bursts read clean, and its write after the gap
    (let s := scrubbing (rebuildOf none none)
     s.positionOf (farPos 0) 0x11 = some [] ∧ s.scrubOn = true ∧ s.ras.work = [.rebuild nearFirst 0 none none] ∧ s.reqs = [] ∧
      (s.sources nearFirst).head?.isSome = true ∧ (s.sources nearFirst).headD [] ≠ [] ∧ laneFree (farPos 0) [] ((s.sources nearFirst).headD []) = true ∧
      ∀ k ∈ (s.sources nearFirst).headD [], (s.readUnit k).map (fun d => (d.mark, d.fixed)) = some (0, 0)) ∧
    (let s := scrubbing (rebuildOf (some ones) (some (false, 0, 0))) 2
     s.positionOf (nearPos 0) 0x11 = some [] ∧ s.scrubWrites .near = true ∧ nearFirst.home = (.near, 0) ∧
      gapOk (some (false, 0, 0)) (true, s.time.pick, 0) = true ∧ s.reqs = [] ∧ s.locDead nearFirst = false ∧ ones.length = nearFirst.dataSize ∧ s.TiersOk) ∧
    -- 4,096 corrections of a device, and 4,095; a channel that fails and one that has
    (∀ n ∈ [4096, 4095], let s := scrubbing { devCount := [(959, n)] }
      Table.getD s.ras.devCount (((23 * 2 + 1) * 2 + 1) * 10 + 9) 0 = n ∧ Table.get? s.nor.devMarks 95 = none) ∧
    (23 < 24 ∧ pool.nor.failedCh.getLsbD 23 = false ∧ pool.ras.failing.getLsbD 23 = false ∧ pool.hasGroup (23 / 6) = true ∧
      ({ pool with nor := { failedCh := BitVec.twoPow 24 23 } } : State).nor.failedCh.getLsbD 23 = true ∧
      (scrubbing { failing := BitVec.twoPow 24 23 }).ras.failing.getLsbD 23 = true ∧ (scrubbing { failing := BitVec.twoPow 24 23 }).ras.failing ≠ 0) := by
  refine ⟨?_, ?_, ?_, ?_, ?_, ?_⟩ <;> decide +kernel

/-! ### The words of the table, and the commands that are not well formed -/

/-- No row of the table gives any bits. -/
theorem test_no_word : decodeTableWord 8 0x5A = none := rfl

theorem test_wf_accepts :
    ([.pickBoundary, .rekey 5, .rd64 0, .tierAccessIssue ⟨.near, 15, 31⟩, .tierAccessIssue ⟨.far, 3, 95⟩, .rankPowerDown 23 1 1,
      .mbxComplete (.port 5), .linkTrained 0 8, .ingressFrame 0 ⟨zeros 512, [1], 0, 0⟩, .registerWrite 0 [0]] : List Instr).all
        (fun i => i.wf) = true := by
  decide +kernel

theorem test_wf_port : (Instr.rekey 6).wf = false := rfl
theorem test_wf_engine : (Instr.shuttleListRead 8).wf = false := rfl
theorem test_wf_tag : (Instr.pullTimeout 0 4096).wf = false := by decide
theorem test_wf_mailbox : (Instr.mbxComplete (.port 6)).wf = false := rfl
theorem test_wf_near_section : (Instr.tierAccessIssue ⟨.near, 16, 0⟩).wf = false := rfl
theorem test_wf_near_position : (Instr.zfillStep ⟨.near, 0, 32⟩).wf = false := by decide
theorem test_wf_far_group : (Instr.scrubStep ⟨.far, 4, 0⟩ []).wf = false := rfl
theorem test_wf_far_position : (Instr.rebuildRead ⟨.far, 0, 96⟩ []).wf = false := by decide
theorem test_wf_promotion : (Instr.promotionPlace 4 0).wf = false ∧ (Instr.promotionPlace 0 96).wf = false := by decide
theorem test_wf_error : (Instr.readDataDelivered 0 [⟨0, 272, 1⟩]).wf = false := by decide
theorem test_wf_rank : (Instr.rankPowerDown 24 0 0).wf = false ∧ (Instr.rankPowerDown 0 2 0).wf = false ∧
    (Instr.mr4Read [(0, 0, 2)]).wf = false := by decide
theorem test_wf_unit : (Instr.scrubStepDue .near 16).wf = false ∧ (Instr.scrubStepDue .far 4).wf = false := by decide
theorem test_wf_device : (Instr.deviceMark 0 0 0 10).wf = false := by decide
theorem test_wf_channel : (Instr.channelFail 24 false).wf = false := by decide
theorem test_wf_context : (Instr.destroyBoundary 64).wf = false := by decide
theorem test_wf_width : (Instr.linkTrained 0 4).wf = false ∧ (Instr.portDormantWake 0 0).wf = false := by decide
theorem test_wf_write : (Instr.registerWrite 0 []).wf = false ∧ (Instr.badAccess 0 0).wf = false := by decide
theorem test_wf_frame : (Instr.ingressFrame 0 ⟨zeros 255, [], 0, 0⟩).wf = false ∧ (Instr.ingressFrame 0 ⟨zeros 256, [1], 0, 0⟩).wf = false := by
  decide
theorem test_wf_temperatures : (Instr.telemetryWindowEnd ⟨0, 0, [0]⟩).wf = false := rfl

/-! ### Worked examples of the manual -/

/-- Chapter 7, "a Twill-4 page in section 3": block 37 of the page at frame 761,900. -/
theorem test_near_map :
    frameSection 761900 = 3 ∧ nearLoc .twill4 0 761900 37 = .near 3 2825 ∧ nearOff .twill4 0 37 = 64 ∧ nearChannel 2825 = 268 ∧
      nearBank 2825 = 5 ∧ nearRow 2825 = 0 ∧ dieIndex 3 268 = 780 := by
  decide +kernel

/-- Chapter 7, "a Twill-4 block in two groups": block 37 of page 1,001 of extent 52. -/
theorem test_far_map :
    let x : Extent := { base := 0, granules := 64, cls := .twill4, src := .bf16, groups := 5#4, ports := 1#6, runs := [(0, 1200), (2, 77)] }
    (x.blockRefs 1001 37).map (x.burstLoc 0) = [.far 2 9 30381] ∧ farChannel 2 9 = 16 ∧ farRank 30381 = 0 ∧
      farAddress 30381 = (1, 4, 1, 1744, 1) := by
  decide +kernel

/-- The block of chapter 5, "encoding one BF16 block at Twill-4". -/
def exampleBlock : List Byte :=
  fromElements fmtBf16 ((List.range 128).map fun i =>
    Table.getD [(0, 0x3F80), (1, 0xC000), (2, 0x3F00), (3, 0x3FA0), (5, 0x4040), (6, 0xBF40), (12, 0x4020), (16, 0x3F40), (17, 0xBE80),
      (20, 0x3EC0), (40, 0x8000), (48, 0x3E00), (50, 0x3DCD), (120, 0xBD80)] i 0)

/-- The slot it is stored as. -/
def exampleSlot : List Byte :=
  [0x42, 0xF8, 0xFF, 0x80, 0x31, 0x82, 0x15, 0, 0x20, 0, 0x2B, 0x20, 0, 0, 0, 0] ++
  [0, 0, 0, 4, 0, 0, 0x41, 0, 0, 0, 0, 0, 0, 0, 0, 0] ++ zeros 16 ++
  [0, 4, 0, 0, 0, 2, 0xC4, 0, 0xFA, 0x35, 0x80, 0xFE, 0x0C, 0, 0x7E, 4]

/-- Its elements `is` as a read returns them from a stored slot. -/
def elementsAt (slot : List Byte) (is : List Nat) : List Nat :=
  let xs := elements fmtBf16 ((decodeBlock .twill4 .bf16 slot).getD [])
  is.map fun i => xs.getD i 0

theorem test_twill_encode : encodeBlock .twill4 .bf16 0 none exampleBlock = exampleSlot := by decide +kernel

theorem test_twill_decode :
    elementsAt exampleSlot [0, 1, 2, 3, 5, 6, 12, 16, 17, 20, 40, 48, 50, 120] =
      [0x3F80, 0xC000, 0x3F00, 0x3FA0, 0x4040, 0xBF40, 0x4020, 0x3F40, 0xBE80, 0x3F00, 0x8000, 0x3E00, 0x3E00, 0x8000] := by
  decide +kernel

/-- Chapter 5, "a narrow write that moves the shared exponent": bytes 10 and 11 become 0x4100. -/
theorem test_twill_narrow_write :
    let old := (decodeBlock .twill4 .bf16 exampleSlot).getD []
    let slot := encodeBlock .twill4 .bf16 0 none (old.take 10 ++ [0, 0x41] ++ old.drop 12)
    slot.take 4 = toLe 4 0x82FFFC42 ∧
      elementsAt slot [0, 1, 3, 12, 2, 6, 16, 17, 20, 48, 50, 40, 120] =
        [0x3F80, 0xC000, 0x3FA0, 0x4020, 0, 0x8000, 0x3F80, 0x8000, 0x3F00, 0, 0, 0x8000, 0x8000] := by
  decide +kernel

/-- Chapter 8, "one chunk against sequential addition": the chunk is 2.0. -/
theorem test_chunk :
    (chunk ([0x4600, 0x3F80, 0x3F80, 0xC600].map fmtBf16.num) ([0x4580, 0x3F80, 0x3F80, 0x4580].map fmtBf16.num)).1 = 0x40000000 := by
  decide +kernel

/-- Chapter 8, "one rounding to BF16": 1 + 3/1024 rounds up for the draw 0x5F_FFFF and down for 0x60_0000. -/
theorem test_stochastic_rounding :
    (tgtBf16.round (.sr 0x5FFFFF) ((2 ^ 10 + 3) * 2 ^ 590) 600 false).1 = 0x3F81 ∧
      (tgtBf16.round (.sr 0x600000) ((2 ^ 10 + 3) * 2 ^ 590) 600 false).1 = 0x3F80 ∧
      (tgtBf16.round .rne ((2 ^ 10 + 3) * 2 ^ 590) 600 false).1 = 0x3F80 := by
  decide +kernel

/-! ### Published vectors of the algorithms the spec names (log 11) -/

theorem test_sbox : (List.range 256).all (fun b => sboxOf b == sboxAt b && sboxInvOf (sboxOf b) == b) = true := by decide +kernel

/-- FIPS 197, C.3. -/
theorem test_aes256 :
    let ks := aesKeys ((List.range 32).map (BitVec.ofNat 8))
    let pt := (List.range 16).map fun i => BitVec.ofNat 8 (17 * i)
    let ct := aesEnc ks pt
    be ct = 0x8ea2b7ca516745bfeafc49904b496089 ∧ aesDec ks ct = pt := by
  decide +kernel

/-- FIPS 180, SHA-256 of "abc". -/
theorem test_sha256 : be (sha256 [0x61, 0x62, 0x63]) = 0xba7816bf8f01cfea414140de5dae2223b00361a396177a9cb410ff61f20015ad := by
  decide +kernel

end Sys2Proof.Tests
end

section
/-! PROOFS. What blowing a list of fuses makes of the array and its shadows, and how programming ends. -/

namespace Sys2Proof.Machine

/-! ### Blowing fuses (R354, R371) -/

theorem bit_byte (b : Byte) (i : Nat) : bit b.toNat i = b.getLsbD i := by
  simp only [bit, BitVec.getLsbD, Nat.testBit_eq_decide_div_mod_eq]
  rfl

theorem Fuses.blow_array_wf {f : Fuses} (h : Mem.wf f.array = true) (i : Nat) : Mem.wf (f.blow i).array = true :=
  Mem.write_wf h _ _

theorem Fuses.blown_blow {f : Fuses} (h : Mem.wf f.array = true) (i j : Nat) :
    (f.blow i).blown j = (f.blown j || decide (i = j)) := by
  have hr : (f.blow i).array.read (j / 8) =
      if i / 8 = j / 8 then f.array.read (i / 8) ||| BitVec.ofNat 8 (2 ^ (i % 8)) else f.array.read (j / 8) := Mem.read_write h _ _ _
  simp only [Fuses.blown, bit_byte, hr]
  by_cases hb : i / 8 = j / 8
  · have hij : i % 8 = j % 8 ↔ i = j := by omega
    have h8 : j % 8 < 8 := Nat.mod_lt _ (by decide)
    rw [if_pos hb, BitVec.getLsbD_or, BitVec.getLsbD_ofNat, Nat.testBit_two_pow, hb]
    simp [h8, hij]
  · have hij : i ≠ j := fun e => hb (e ▸ rfl)
    simp [hb, hij]

theorem Fuses.blow_follows {f : Fuses} (h : f.shadow = f.array) (i : Nat) : (f.blow i).shadow = (f.blow i).array := by
  simp only [Fuses.blow, h]

theorem Fuses.blown_foldl_blow (l : List Nat) {f : Fuses} (h : Mem.wf f.array = true) (j : Nat) :
    (l.foldl Fuses.blow f).blown j = true ↔ f.blown j = true ∨ j ∈ l := by
  induction l generalizing f with
  | nil => simp
  | cons i t ih =>
    rw [List.foldl_cons, ih (Fuses.blow_array_wf h i), Fuses.blown_blow h, List.mem_cons, Bool.or_eq_true, decide_eq_true_iff,
      or_assoc, eq_comm (a := i)]

theorem Fuses.foldl_blow_follows (l : List Nat) {f : Fuses} (h : f.shadow = f.array) :
    (l.foldl Fuses.blow f).shadow = (l.foldl Fuses.blow f).array := by
  induction l generalizing f with
  | nil => exact h
  | cons i t ih => exact ih (Fuses.blow_follows h i)

/-- The fuses of a list before the first that does not blow. -/
abbrev blowable (stuck : Nat → Bool) (l : List Nat) : List Nat := l.takeWhile fun i => !stuck i

/-- The fuses before the first stuck one are blown, and all are where none is stuck. -/
theorem Fuses.blowList_eq (f : Fuses) (stuck : Nat → Bool) (l : List Nat) :
    f.blowList stuck l =
      ((blowable stuck l).foldl Fuses.blow f, (blowable stuck l).length, decide ((blowable stuck l).length = l.length)) := by
  induction l generalizing f with
  | nil => rfl
  | cons i t ih =>
    unfold Fuses.blowList
    by_cases hi : stuck i = true
    · simp [hi]
    · simp [hi, ih]

theorem take_length_blowable (stuck : Nat → Bool) (l : List Nat) : l.take (blowable stuck l).length = blowable stuck l :=
  calc l.take (blowable stuck l).length
      = (blowable stuck l ++ l.dropWhile fun i => !stuck i).take (blowable stuck l).length := by rw [List.takeWhile_append_dropWhile]
    _ = blowable stuck l := List.take_left

/-! ### The end of programming -/

theorem State.fuseRun_of_job {s : State} {j : FuseJob} (h : s.umpire.fuseJob = some j) : s.fuseRun = s.program j j.todo mOk := by
  simp only [State.fuseRun, h]

@[simp] theorem State.program_fuses (s : State) (j : FuseJob) (l : List Nat) (st : Nat) :
    (s.program j l st).fuses = (s.fuses.blowList (Config.fuseStuck s.freeCount) l).1 := rfl

@[simp] theorem State.program_fuseJob (s : State) (j : FuseJob) (l : List Nat) (st : Nat) :
    (s.program j l st).umpire.fuseJob = none := rfl

/-- A command that waits and is not ready becomes ready with the status and the body given. -/
theorem State.markReady_wait {s : State} {m : Mbx} {w : Wait} (h : s.umpire.mboxes.map (·.1) = allMbx) (hm : m ∈ allMbx)
    (hw : (s.mbox m).wait = some w) (hr : w.ready = false) (st : Nat) (body : List Byte) :
    ((s.markReady m st body).mbox m).wait = some { w with ready := true, status := st, body := body } := by
  unfold State.markReady
  rw [State.mbox_modMbox h hm]
  simp [hw, hr]

/-- The command whose fuses have been programmed is ready, with STATE where one did not blow. -/
theorem State.program_wait {s : State} {j : FuseJob} {w : Wait} (h : s.HasMbx j.mbx) (hw : (s.mbox j.mbx).wait = some w)
    (hr : w.ready = false) (l : List Nat) (st : Nat) :
    let r := s.fuses.blowList (Config.fuseStuck s.freeCount) l
    ((s.program j l st).mbox j.mbx).wait = some { w with ready := true, status := if r.2.2 then st else mState
                                                         body := (s.program j l st).fuseBody (j.blown + r.2.1) } := by
  obtain ⟨hkeys, hmem, -⟩ := h
  exact State.markReady_wait (by exact hkeys) hmem (by exact hw) hr _ _

end Sys2Proof.Machine
end

section
/-! PROOFS. The two ways in which a FUSE_PROGRAM that runs goes on, and the four functions case by case (R371). -/

namespace Sys2Proof.Machine

/-- A row completes its command with a status, the fused security version and no fuse blown, and changes nothing else. -/
def State.FuseEnds (s : State) (m : Mbx) (c : Instr) (st : Nat) : Prop :=
  ∃ t, exec c s = .next t ∧ s.Answered t m st (s.fuseBody 0) ∧ s.SameBut t m

/-- A row sets fuses to be blown and a key record; its command waits, and nothing else changes. -/
def State.FuseStarts (s : State) (m : Mbx) (c : Instr) (todo : List Nat) (key : List Byte) : Prop :=
  ∃ t, exec c s = .next t ∧ s.Waits t m .fuse ∧ t.umpire.fuseJob = some { mbx := m, todo := todo, blown := 0 } ∧
    t.nor.installerKey = key ∧ s.SameBut { t with nor := { t.nor with installerKey := s.nor.installerKey } } m

/-- The state with another installer key record. -/
abbrev State.withKey (s : State) (key : List Byte) : State := s.modNor fun n => { n with installerKey := key }

/-- The accepted command's new key record, with the mark of a bad one cleared. -/
abbrev State.restoreKey (s : State) (m : Mbx) (key : List Byte) : State :=
  ((s.acceptMbx m).withKey key).modUmpire fun u => { u with keyBad := false }

/-- The supply or SAFE forbids programming (R371). -/
abbrev State.ProgrammingBarred (s : State) : Prop := s.power.braced = true ∨ s.power.safe = true ∨ s.power.inputAlert = true

theorem State.fuseBlocked_iff (s : State) : s.fuseBlocked = true ↔ s.ProgrammingBarred := by
  simp only [State.fuseBlocked, Bool.or_eq_true, or_assoc]

theorem Fuses.contradicts_iff (f : Fuses) (image : List Byte) : f.contradicts image = true ↔
    ∃ i, i < 1024 ∧ f.blown (0x400 + i) = true ∧ bit (image.getD (i / 8) 0).toNat (i % 8) = false := by
  simp only [Fuses.contradicts, List.any_eq_true, List.mem_range, Bool.and_eq_true, Bool.not_eq_true']

/-- The fuses to blow are those that the image asks for and that are not blown yet, in ascending order. -/
theorem Fuses.missing_eq (f : Fuses) (first : Nat) (image : List Byte) : f.missing first image =
    ((List.range (8 * image.length)).filter fun i =>
      bit (image.getD (i / 8) 0).toNat (i % 8) && !f.blown (8 * first + i)).map (8 * first + ·) := by
  unfold Fuses.missing
  rw [← List.filterMap_eq_map, ← List.filterMap_eq_filter, List.filterMap_filterMap]
  refine congrArg (List.filterMap · _) (funext fun i => ?_)
  simp only [Option.guard]
  split <;> rfl

theorem length_installerImage_rqBytes (s : State) (m : Mbx) : (installerImage (s.rqBytes m 0x08 128)).length = 128 := by
  simp [installerImage, State.rqBytes, Mem.readN]

/-- Of the INSTALLER region the bytes up to LOCK are programmed: its first 1,000 fuses, from fuse 0x400 on. -/
theorem Fuses.missing_installer (f : Fuses) (image : List Byte) (h : image.length = 128) : f.missing 0x80 (image.take 125) =
    ((List.range 1000).filter fun i =>
      bit (image.getD (i / 8) 0).toNat (i % 8) && !f.blown (0x400 + i)).map (0x400 + ·) := by
  rw [Fuses.missing_eq, List.length_take, h]
  refine congrArg (List.map _) (List.filter_congr fun i hi => ?_)
  have : i / 8 < 125 := by have := List.mem_range.1 hi; omega
  simp [List.getD_eq_getElem?_getD, this]

/-! ### How a function goes on -/

theorem State.fuseEnds_of_exec {s : State} {m : Mbx} (h : s.HasMbx m) {c : Instr} {st : Nat}
    (hx : exec c s = .next ((s.acceptMbx m).fuseEnd m st)) : s.FuseEnds m c st :=
  ⟨_, hx, State.answered_from h rfl rfl st _, State.sameBut_refused s m st _⟩

theorem State.fuseStart_sameBut (s : State) (m : Mbx) (todo : List Nat) : s.SameBut (s.fuseStart m todo) m := by
  refine ⟨fun _ => ?_, ?_, ?_, State.sameOthers_modMbox (s.modUmpire _) m _, rfl⟩ <;>
    simp [State.SameObjects, State.SameUnits, State.fuseStart, State.await]

theorem State.acceptMbx_sameBut (s : State) (m : Mbx) : s.SameBut (s.acceptMbx m) m :=
  ⟨fun _ => ⟨rfl, rfl⟩, by simp [State.SameObjects], by simp [State.SameUnits], State.sameOthers_acceptMbx s m, rfl⟩

theorem State.SameBut.trans {s t u : State} {m : Mbx} (h : s.SameBut t m) (k : t.SameBut u m) : s.SameBut u m := by
  obtain ⟨hb, ho, hu, hm, hd⟩ := h
  obtain ⟨kb, ko, ku, km, kd⟩ := k
  refine ⟨fun a => ?_, ?_, ?_, hm.trans km, kd.trans hd⟩
  · rw [(kb a).1, (kb a).2]; exact hb a
  · simpa only [State.SameObjects, ho, hu] using ko
  · simpa only [State.SameUnits, ho, hu] using ku

/-- What leaves everything but a key record alone leaves everything alone once the former key is put back. -/
theorem State.SameBut.of_withKey {s t : State} {m : Mbx} {key : List Byte} (h : (s.withKey key).SameBut t m) :
    s.SameBut { t with nor := { t.nor with installerKey := s.nor.installerKey } } m := by
  obtain ⟨hb, ho, hu, ⟨hm, hp, hn, hr⟩, hd⟩ := h
  exact ⟨hb, ho, hu, ⟨hm, hp, (congrArg (fun n : Nor => { n with installerKey := s.nor.installerKey }) hn :), hr⟩, hd⟩

theorem State.fuseStarts_of_exec {s : State} {m : Mbx} (h : s.HasMbx m) {c : Instr} {todo : List Nat} {key : List Byte}
    (hx : exec c s = .next (((s.acceptMbx m).withKey key).fuseStart m todo)) : s.FuseStarts m c todo key :=
  have hw := State.waits_from (s1 := ((s.acceptMbx m).withKey key).modUmpire fun u =>
    { u with fuseJob := some { mbx := m, todo := todo, blown := 0 } }) h rfl .fuse
  ⟨_, hx, hw, rfl, rfl, State.SameBut.trans (State.acceptMbx_sameBut s m)
    (State.SameBut.of_withKey (s := s.acceptMbx m) (State.fuseStart_sameBut _ m todo))⟩

/-- What the Umpire keeps besides its mailboxes, the random bytes drawn and the fault of the log stays through a completion. -/
theorem State.complete_umpire {α : Type} (g : Umpire → α) (hb : ∀ u x, g { u with mboxes := x } = g u)
    (hd : ∀ u x, g { u with drbg := x } = g u) (ha : ∀ u x, g { u with auditFail := x } = g u) (s : State) (m : Mbx) (st : Nat)
    (body : List Byte) : g (s.complete m st body).umpire = g s.umpire := by
  have hlog : ∀ r, g (s.auditCommand m st r).umpire = g s.umpire := fun r => by
    unfold State.auditCommand State.auditAppend
    dsimp only
    split
    · split
      · rfl
      · split
        · exact ha _ _
        · exact hd _ _
    · rfl
  have hsignal : ∀ (t : State) (q : Nat), (t.signalDone m q st).umpire = t.umpire := fun t q => by
    unfold State.signalDone State.sendEvt
    split
    · split <;> rfl
    · split <;> rfl
  have hrefill : ∀ r, g (if s.keyId m = 1 ∨ s.keyId m = 2 then (s.auditCommand m st r).drewRandom 32
      else s.auditCommand m st r).umpire = g s.umpire := fun r => by
    split
    · exact (hd _ _).trans (hlog r)
    · exact hlog r
  unfold State.complete
  dsimp only
  split
  · exact (congrArg g (hsignal _ _)).trans ((hb _ _).trans (hrefill _))
  · exact (hb _ _).trans (hrefill _)

@[simp] theorem State.complete_keyBad (s : State) (m : Mbx) (st : Nat) (body : List Byte) :
    (s.complete m st body).umpire.keyBad = s.umpire.keyBad :=
  State.complete_umpire (·.keyBad) (fun _ _ => rfl) (fun _ _ => rfl) (fun _ _ => rfl) s m st body

theorem State.complete_installerKey (s : State) (m : Mbx) (st : Nat) (body : List Byte) :
    (s.complete m st body).nor.installerKey = s.nor.installerKey :=
  (congrArg Nor.installerKey (State.sameOthers_complete s m st body).2.2.1 :)

/-! ### INSTALLER -/

section
variable {s : State} {m : Mbx}

/-- What INSTALLER asks of an image and its key besides the state of the fuses. -/
abbrev InstallerSound (image key : List Byte) : Prop :=
  le (slice image 0x78 4) = crc32 (image.take 120) ∧ image.take 32 = sha256 key ∧ image.getD 0x7C 0 = 0x0F#8

/-- INSTALLER is refused by the supply or SAFE, by LOCK, or by a blown fuse that the image does not ask for. -/
abbrev State.InstallerRefused (s : State) (image : List Byte) : Prop :=
  s.ProgrammingBarred ∨ s.fuses.locked = true ∨ ∃ i, i < 1024 ∧ s.fuses.blown (0x400 + i) = true ∧
    bit (image.getD (i / 8) 0).toNat (i % 8) = false

theorem State.installerRefused_iff (s : State) (image : List Byte) :
    (s.fuseBlocked || s.fuses.locked || s.fuses.contradicts image) = true ↔ s.InstallerRefused image := by
  simp only [Bool.or_eq_true, or_assoc, s.fuseBlocked_iff, s.fuses.contradicts_iff]

theorem installerUnsound_iff (image key : List Byte) :
    (le (slice image 0x78 4) != crc32 (image.take 120) || image.take 32 != sha256 key || image.getD 0x7C 0 != 0x0F) = true ↔
      ¬ InstallerSound image key := by
  simp only [Bool.or_eq_true, bne_iff_ne, or_assoc]
  exact (Decidable.not_and_iff_not_or_not.trans (or_congr Iff.rfl Decidable.not_and_iff_not_or_not)).symm

theorem exec_fuseProgramInstaller (h : s.Runs m 0x00D0 (s.rq m 0 1 == 0)) {image key : List Byte}
    (hi : installerImage (s.rqBytes m 0x08 128) = image) (hk : s.rqBytes m 0x88 64 = key) :
    exec (.fuseProgramInstaller m) s = .next (
      if s.fuseBlocked || s.fuses.locked || s.fuses.contradicts image then (s.acceptMbx m).fuseEnd m mState
      else if le (slice image 0x78 4) != crc32 (image.take 120) || image.take 32 != sha256 key || image.getD 0x7C 0 != 0x0F then
        (s.acceptMbx m).fuseEnd m mBadArg
      else ((s.acceptMbx m).withKey key).fuseStart m (s.fuses.missing 0x80 (image.take 125))) := by
  refine congrArg Host.Outcome.next ((State.runCommand_of_runs h _).trans ?_)
  simp only [State.rqBytes_acceptMbx h.1, hi, hk, State.acceptMbx_fuses]
  rfl

theorem fuseProgramInstaller_cases (h : s.Runs m 0x00D0 (s.rq m 0 1 == 0)) :
    let image := installerImage (s.rqBytes m 0x08 128)
    let key := s.rqBytes m 0x88 64
    let missing := (List.range 1000).filter fun i => bit (image.getD (i / 8) 0).toNat (i % 8) && !s.fuses.blown (0x400 + i)
    (s.InstallerRefused image → s.FuseEnds m (.fuseProgramInstaller m) mState) ∧
    (¬ s.InstallerRefused image → ¬ InstallerSound image key → s.FuseEnds m (.fuseProgramInstaller m) mBadArg) ∧
    (¬ s.InstallerRefused image → InstallerSound image key →
      s.FuseStarts m (.fuseProgramInstaller m) (missing.map (0x400 + ·)) key) := by
  intro image key missing
  have hx := exec_fuseProgramInstaller h (image := image) (key := key) rfl rfl
  rw [Fuses.missing_installer _ image (length_installerImage_rqBytes s m)] at hx
  simp only [s.installerRefused_iff, installerUnsound_iff] at hx
  refine ⟨fun hr => ?_, fun hr hs => ?_, fun hr hs => ?_⟩
  · exact State.fuseEnds_of_exec h.1 (by rw [hx, if_pos hr])
  · exact State.fuseEnds_of_exec h.1 (by rw [hx, if_neg hr, if_pos hs])
  · exact State.fuseStarts_of_exec h.1 (by rw [hx, if_neg hr, if_neg (not_not_intro hs)])

/-! ### RESTORE_KEY -/

theorem exec_restoreKey (h : s.Runs m 0x00D0 (s.rq m 0 1 == 1)) {key : List Byte} (hk : s.rqBytes m 0x08 64 = key) :
    exec (.restoreKey m) s = .next (
      if s.fuseBlocked || !s.commissioned then (s.acceptMbx m).fuseEnd m mState
      else if sha256 key != s.fuses.shadow.readN 0x80 32 then (s.acceptMbx m).fuseEnd m mBadArg
      else (s.restoreKey m key).fuseEnd m mOk) := by
  refine congrArg Host.Outcome.next ((State.runCommand_of_runs h _).trans ?_)
  simp only [State.rqBytes_acceptMbx h.1, hk, State.acceptMbx_fuses]
  rfl

theorem State.restoreKey_sameBut (s : State) (m : Mbx) (key : List Byte) :
    ((s.acceptMbx m).withKey key).SameBut (s.restoreKey m key) m :=
  ⟨fun _ => by simp, by simp [State.SameObjects], by simp [State.SameUnits], ⟨fun _ _ => rfl, fun _ => rfl, rfl, rfl⟩, rfl⟩

/-- A row whose key record is restored answers OK, and the mark of a bad key is gone. -/
theorem State.keyRestored_of_exec (h : s.HasMbx m) {c : Instr} {key : List Byte}
    (hx : exec c s = .next ((s.restoreKey m key).fuseEnd m mOk)) :
    ∃ t, exec c s = .next t ∧ s.Answered t m mOk (s.fuseBody 0) ∧ t.nor.installerKey = key ∧ t.umpire.keyBad = false ∧
      s.SameBut { t with nor := { t.nor with installerKey := s.nor.installerKey } } m := by
  have hbody : (s.restoreKey m key).fuseBody 0 = s.fuseBody 0 := by simp [State.fuseBody]
  rw [State.fuseEnd, hbody] at hx
  have hdone : ((s.acceptMbx m).withKey key).SameBut ((s.restoreKey m key).complete m mOk (s.fuseBody 0)) m :=
    State.SameBut.trans (s.restoreKey_sameBut m key) (State.complete_sameBut _ m mOk _)
  refine ⟨_, hx, State.answered_from h (by simp) (by simp) mOk _, ?_, ?_,
    State.SameBut.trans (State.acceptMbx_sameBut s m) (State.SameBut.of_withKey hdone)⟩
  · simp [State.complete_installerKey]
  · simp

theorem restoreKey_cases (h : s.Runs m 0x00D0 (s.rq m 0 1 == 1)) :
    let key := s.rqBytes m 0x08 64
    let refused := s.ProgrammingBarred ∨ s.commissioned = false
    (refused → s.FuseEnds m (.restoreKey m) mState) ∧
    (¬ refused → sha256 key ≠ s.fuses.shadow.readN 0x80 32 → s.FuseEnds m (.restoreKey m) mBadArg) ∧
    (¬ refused → sha256 key = s.fuses.shadow.readN 0x80 32 → ∃ t, exec (.restoreKey m) s = .next t ∧
      s.Answered t m mOk (s.fuseBody 0) ∧ t.nor.installerKey = key ∧ t.umpire.keyBad = false ∧
      s.SameBut { t with nor := { t.nor with installerKey := s.nor.installerKey } } m) := by
  intro key refused
  have hx := exec_restoreKey h (key := key) rfl
  simp only [Bool.or_eq_true, s.fuseBlocked_iff, Bool.not_eq_true', bne_iff_ne] at hx
  refine ⟨fun hr => ?_, fun hr hk => ?_, fun hr hk => ?_⟩
  · exact State.fuseEnds_of_exec h.1 (by rw [hx, if_pos hr])
  · exact State.fuseEnds_of_exec h.1 (by rw [hx, if_neg hr, if_pos hk])
  · exact State.keyRestored_of_exec h.1 (by rw [hx, if_neg hr, if_neg (not_not_intro hk)])

/-! ### ROLLBACK -/

/-- Programming that leaves the key record alone is programming with the key record as it stands. -/
theorem exec_fuseProgramRollback (h : s.Runs m 0x00D0 (s.rq m 0 1 == 2)) {v : Nat} (hv : s.rq m 1 1 = v) :
    exec (.fuseProgramRollback m) s = .next (
      if s.fuseBlocked then (s.acceptMbx m).fuseEnd m mState
      else if v ≤ s.fuses.svnF || s.umpire.svn < v then (s.acceptMbx m).fuseEnd m mBadArg
      else if s.umpire.trialRunning then (s.acceptMbx m).fuseEnd m mState
      else ((s.acceptMbx m).withKey s.nor.installerKey).fuseStart m
        (((List.range (2 * (v - s.fuses.svnF))).map (0x800 + 2 * s.fuses.svnF + ·)).filter fun i => !s.fuses.blown i)) := by
  refine congrArg Host.Outcome.next ((State.runCommand_of_runs h _).trans ?_)
  simp only [State.rq_acceptMbx h.1, hv, State.acceptMbx_fuses]
  rfl

theorem fuseProgramRollback_cases (h : s.Runs m 0x00D0 (s.rq m 0 1 == 2)) :
    let v := s.rq m 1 1
    (s.ProgrammingBarred → s.FuseEnds m (.fuseProgramRollback m) mState) ∧
    (¬ s.ProgrammingBarred → (v ≤ s.fuses.svnF ∨ s.umpire.svn < v) → s.FuseEnds m (.fuseProgramRollback m) mBadArg) ∧
    (¬ s.ProgrammingBarred → s.fuses.svnF < v → v ≤ s.umpire.svn →
      (s.umpire.trialRunning = true → s.FuseEnds m (.fuseProgramRollback m) mState) ∧
      (s.umpire.trialRunning = false → s.FuseStarts m (.fuseProgramRollback m)
        (((List.range (2 * (v - s.fuses.svnF))).map (0x800 + 2 * s.fuses.svnF + ·)).filter fun i => !s.fuses.blown i)
        s.nor.installerKey)) := by
  intro v
  have hx := exec_fuseProgramRollback h (v := v) rfl
  simp only [s.fuseBlocked_iff, Bool.or_eq_true, decide_eq_true_eq] at hx
  refine ⟨fun hb => ?_, fun hb hv => ?_, fun hb hf hs => ?_⟩
  · exact State.fuseEnds_of_exec h.1 (by rw [hx, if_pos hb])
  · exact State.fuseEnds_of_exec h.1 (by rw [hx, if_neg hb, if_pos hv])
  · have hv : ¬ (v ≤ s.fuses.svnF ∨ s.umpire.svn < v) := not_or.2 ⟨Nat.not_le.2 hf, Nat.not_lt.2 hs⟩
    rw [if_neg hb, if_neg hv] at hx
    refine ⟨fun ht => ?_, fun ht => ?_⟩
    · exact State.fuseEnds_of_exec h.1 (by rw [hx, if_pos ht])
    · exact State.fuseStarts_of_exec h.1 (by rw [hx, if_neg (Bool.eq_false_iff.1 ht)])

/-! ### DEBUG_DISABLE -/

theorem exec_fuseProgramDebugDisable (h : s.Runs m 0x00D0 (decide (3 ≤ s.rq m 0 1))) :
    exec (.fuseProgramDebugDisable m) s = .next (
      if 3 < s.rq m 0 1 then (s.acceptMbx m).fuseEnd m mBadArg
      else if s.fuseBlocked then (s.acceptMbx m).fuseEnd m mState
      else if s.fuses.debugDisabled then (s.acceptMbx m).fuseEnd m mOk
      else ((s.acceptMbx m).withKey s.nor.installerKey).fuseStart m
        ([0x880, 0x881, 0x882, 0x883].filter fun i => !s.fuses.blown i)) := by
  refine congrArg Host.Outcome.next ((State.runCommand_of_runs h _).trans ?_)
  simp only [State.rq_acceptMbx h.1, State.acceptMbx_fuses]
  rfl

theorem fuseProgramDebugDisable_cases (h : s.Runs m 0x00D0 (decide (3 ≤ s.rq m 0 1))) :
    (3 < s.rq m 0 1 → s.FuseEnds m (.fuseProgramDebugDisable m) mBadArg) ∧
    (s.rq m 0 1 = 3 → s.ProgrammingBarred → s.FuseEnds m (.fuseProgramDebugDisable m) mState) ∧
    (s.rq m 0 1 = 3 → ¬ s.ProgrammingBarred → s.fuses.debugDisabled = true → s.FuseEnds m (.fuseProgramDebugDisable m) mOk) ∧
    (s.rq m 0 1 = 3 → ¬ s.ProgrammingBarred → s.fuses.debugDisabled = false → s.FuseStarts m (.fuseProgramDebugDisable m)
      ([0x880, 0x881, 0x882, 0x883].filter fun i => !s.fuses.blown i) s.nor.installerKey) := by
  have hx := exec_fuseProgramDebugDisable h
  have h3 : s.rq m 0 1 = 3 → ¬ 3 < s.rq m 0 1 := fun h3 => by omega
  simp only [s.fuseBlocked_iff] at hx
  refine ⟨fun h4 => ?_, fun hf hb => ?_, fun hf hb hd => ?_, fun hf hb hd => ?_⟩
  · exact State.fuseEnds_of_exec h.1 (by rw [hx, if_pos h4])
  · exact State.fuseEnds_of_exec h.1 (by rw [hx, if_neg (h3 hf), if_pos hb])
  · exact State.fuseEnds_of_exec h.1 (by rw [hx, if_neg (h3 hf), if_neg hb, if_pos hd])
  · exact State.fuseStarts_of_exec h.1 (by rw [hx, if_neg (h3 hf), if_neg hb, if_neg (Bool.eq_false_iff.1 hd)])

end

/-! ### The whole of FUSE_PROGRAM -/

/-- Settles O36: each function by the cases of its row, the end of programming by the fuses before the first that does not blow. -/
theorem fuseProgramming : Obligations.FuseProgramming := by
  unfold Obligations.FuseProgramming
  refine ⟨fun s m => ⟨fuseProgramInstaller_cases, restoreKey_cases, fuseProgramRollback_cases, fuseProgramDebugDisable_cases⟩,
    fun s j w hj hm hw hr hwf _ => ?_⟩
  rw [State.fuseRun_of_job hj]
  have hwait := State.program_wait hm hw hr j.todo mOk
  simp only [State.fuseBody, State.program_fuses, Fuses.blowList_eq, decide_eq_true_eq] at hwait ⊢
  refine ⟨fun i => ?_, Fuses.foldl_blow_follows _, State.program_fuseJob .., hwait⟩
  rw [take_length_blowable]
  exact Fuses.blown_foldl_blow _ hwf i

end Sys2Proof.Machine
end

section
/-! PROOFS. Commands that change one port alone: what INGRESS_FRAME, REKEY and CONF_START make of a port, and what one record
adds (spec/10_host_link.md R265 to R288). -/

namespace Sys2Proof

/-- Two changes of one element are one. -/
theorem List.modifyAt_modifyAt {α : Type} (l : List α) (i : Nat) (f g : α → α) :
    List.modifyAt (List.modifyAt l i f) i g = List.modifyAt l i fun x => g (f x) := by
  unfold List.modifyAt
  cases h : l[i]? with
  | none => simp [h]
  | some v =>
    have hi : i < l.length := (List.getElem?_eq_some_iff.1 h).1
    simp [hi]

end Sys2Proof

namespace Sys2Proof.Machine

/-! ### Changes of one port -/

theorem State.port_modPort_self {s : State} {p : Nat} (h : s.Shape) (hp : p < 6) (f : Port → Port) :
    (s.modPort p f).port p = f (s.port p) := by
  rw [State.port_modPort, if_pos ⟨rfl, h.1 ▸ hp⟩]

theorem State.port_modPort_other (s : State) {p i : Nat} (h : i ≠ p) (f : Port → Port) : (s.modPort p f).port i = s.port i := by
  rw [State.port_modPort, if_neg fun k => h k.1.symm]

theorem State.slot_modSlot_self {s : State} {p : Nat} (h : s.Shape) (hp : p < 6) (f : Slot → Slot) :
    (s.modSlot p f).slot p = f (s.slot p) := by
  obtain ⟨-, hslots, -⟩ := h
  exact (List.getD_modifyAt s.slots p p f {} (hslots ▸ hp)).trans (if_pos rfl)

theorem State.modPort_modPort (s : State) (p : Nat) (f g : Port → Port) :
    (s.modPort p f).modPort p g = s.modPort p fun q => g (f q) :=
  congrArg s.setPorts (List.modifyAt_modifyAt s.ports p f g)

/-- The command turns the port into `q`, and leaves the other ports and all else as it is. -/
abbrev State.Becomes (s : State) (p : Nat) (c : Instr) (q : Port) : Prop :=
  ∃ t, exec c s = .next t ∧ t.port p = q ∧ (∀ i, i ≠ p → t.port i = s.port i) ∧ t.setPorts s.ports = s

theorem State.becomes_of_exec {s : State} {p : Nat} {c : Instr} {f : Port → Port} {q : Port} (h : s.Shape) (hp : p < 6)
    (hx : exec c s = .next (s.modPort p f)) (hq : f (s.port p) = q) : s.Becomes p c q :=
  ⟨_, hx, (State.port_modPort_self h hp f).trans hq, fun _ hi => State.port_modPort_other s hi f, rfl⟩

/-! ### REKEY and CONF_START (R285, R287) -/

/-- The frame to come is one before which the transmit key has still to move on. -/
abbrev Port.RekeyDue (q : Port) : Prop := q.conf = true ∧ q.txFrame % 2 ^ 23 = 0 ∧ q.rekeyAt ≠ some q.txFrame

theorem Port.rekey_due {q : Port} (h : q.RekeyDue) (p : Nat) : q.rekey p =
    { q with keyE := q.keyE.map fun k => nextKey k 0 p (q.genE + 1), genE := q.genE + 1
             keyPhase := (q.genE + 1) % 2 == 1, rekeyAt := some q.txFrame } := if_pos h

theorem Port.rekey_not_due {q : Port} (h : ¬ q.RekeyDue) (p : Nat) : q.rekey p = q := if_neg h

theorem rekey_cases {s : State} {p : Nat} (h : s.Shape) (hp : p < 6) :
    ((s.port p).RekeyDue → s.Becomes p (.rekey p) { s.port p with
      keyE := (s.port p).keyE.map fun k => nextKey k 0 p ((s.port p).genE + 1), genE := (s.port p).genE + 1
      keyPhase := ((s.port p).genE + 1) % 2 == 1, rekeyAt := some (s.port p).txFrame }) ∧
    (¬ (s.port p).RekeyDue → s.Becomes p (.rekey p) (s.port p)) :=
  ⟨fun hd => State.becomes_of_exec h hp rfl (Port.rekey_due hd p),
    fun hd => State.becomes_of_exec h hp rfl (Port.rekey_not_due hd p)⟩

/-- CONF is set once FRAME has reached the first one allowed. -/
theorem confStart_reached {s : State} {p k : Nat} (h : s.Shape) (hp : p < 6) (hk : (s.port p).confFrom = some k)
    (hc : (s.port p).conf = false) (hf : k ≤ (s.port p).txFrame) :
    s.Becomes p (.confStart p) { s.port p with conf := true, confFrom := some (s.port p).txFrame } := by
  refine State.becomes_of_exec h hp rfl ?_
  rw [hk, hc]
  simp [hf]

theorem confStart_not_reached {s : State} {p : Nat} (h : s.Shape) (hp : p < 6)
    (hn : (s.port p).confFrom = none ∨ (s.port p).conf = true ∨ ∃ k, (s.port p).confFrom = some k ∧ (s.port p).txFrame < k) :
    s.Becomes p (.confStart p) (s.port p) := by
  refine State.becomes_of_exec h hp rfl ?_
  obtain hk | hc | ⟨k, hk, hlt⟩ := hn
  · rw [hk]
  · split
    · simp [hc]
    · rfl
  · rw [hk]
    simp [Nat.not_le.2 hlt]

/-! ### Records (R271, R275, R278) -/

theorem recOpc_eq (w : W64) : recOpc w = w.toNat % 16 := by simp [recOpc, bits]

section
variable (g : Grant) (pick i : Nat) {w : W64} (data : List Byte) (bad : Bool) {a : Parse}

/-- The record of slot `i` as an arrival, before its credit has been judged. -/
abbrev slotArrival (pick i : Nat) (w : W64) (data : List Byte) (bad : Bool) : Arrival :=
  { rec_ := w, data := data, slot := some i, damaged := bad, credit := true, pick := pick }

variable (ha : a.skip = false)
include ha

theorem parseRecord_null (ho : w.toNat % 16 = 0) : parseRecord g pick w (some i) (zeros 256) bad a = a := by
  have hz : ∀ b ∈ zeros 256, b = 0 := fun b hb => List.eq_of_mem_replicate hb
  simpa [parseRecord, ha, recOpc_eq, ho, opcNull] using fun b hb hn => absurd (hz b hb) hn

theorem parseRecord_read (ho : w.toNat % 16 = 1 ∨ w.toNat % 16 = 2 ∨ w.toNat % 16 = 6) :
    parseRecord g pick w (some i) data bad a =
      { a with out := a.out ++ [{ slotArrival pick i w data bad with credit := decide (0 < a.credit), damaged := false }]
               credit := a.credit - 1 } := by
  rcases ho with ho | ho | ho <;>
    simp [parseRecord, ha, recOpc_eq, ho, opcNull, opcEvt, opcCpl, opcCplD, opcWr64, opcWr256, opcWrp, opcMbx]

theorem parseRecord_write (ho : w.toNat % 16 = 3 ∨ w.toNat % 16 = 4 ∨ w.toNat % 16 = 5) :
    parseRecord g pick w (some i) data bad a =
      { a with out := a.out ++ [{ slotArrival pick i w data bad with credit := decide (i ∈ g.host) }] } := by
  rcases ho with ho | ho | ho <;>
    simp [parseRecord, ha, recOpc_eq, ho, opcNull, opcEvt, opcCpl, opcCplD, opcWr64, opcWr256, opcWrp]

theorem parseRecord_completion (ho : w.toNat % 16 = 9) : parseRecord g pick w (some i) data bad a =
    { a with out := a.out ++ [{ slotArrival pick i w data bad with credit := decide (i ∈ g.cpl) }] } := by
  simp [parseRecord, ha, recOpc_eq, ho, opcNull, opcEvt, opcCpl, opcCplD]

/-- An EVT takes the record after it along. -/
theorem parseRecord_event (ho : w.toNat % 16 = 10) :
    parseRecord g pick w (some i) data bad a = { a with errs := a.errs + 1, skip := true } := by
  simp [parseRecord, ha, recOpc_eq, ho, opcNull, opcEvt]

theorem parseRecord_reserved (ho : 10 < w.toNat % 16) :
    parseRecord g pick w (some i) data bad a = { a with errs := a.errs + 1 } := by
  have h0 : w.toNat % 16 ≠ 0 := by omega
  have h10 : w.toNat % 16 ≠ 10 := by omega
  simp [parseRecord, ha, recOpc_eq, ho, h0, h10, opcNull, opcEvt]

end

/-! ### A frame whose HEAD is whole (R268, R285 to R288) -/

/-- FRAME of an ingress HEAD is one that a recent egress HEAD carried, and above the last taken. -/
abbrev Port.InOrder (q : Port) (k : Nat) : Prop := (Table.get? q.grants k).isSome = true ∧ ∀ l, q.rxFrame = some l → l < k

theorem Port.breaksOrder_eq_true {q : Port} {k : Nat} : q.breaksOrder k = true ↔ ¬ q.InOrder k := by
  unfold Port.breaksOrder Port.InOrder
  cases Table.get? q.grants k <;> cases q.rxFrame <;> simp

/-- FLAGS of the frame say that it is encrypted. -/
def frameConf (f : RxFrame) : Bool := bit (f.bytes.getD 0 0).toNat 3

/-- The port takes encrypted frames alone from this FRAME on. -/
def Port.mustConf (q : Port) (k : Nat) : Bool := q.conf && match q.confFrom with | some k0 => decide (k0 ≤ k) | none => false

theorem Port.mustConf_eq_true {q : Port} {k : Nat} :
    q.mustConf k = true ↔ ∃ k0, q.conf = true ∧ q.confFrom = some k0 ∧ k0 ≤ k := by
  unfold Port.mustConf
  cases q.confFrom <;> simp

/-- The frame counts a protocol fault and is dropped: out of order, in plaintext where it must be encrypted, or encrypted for a
port without a key. -/
def Port.rejects (q : Port) (f : RxFrame) : Bool :=
  q.breaksOrder (frameNo f.bytes) ||
    (q.mustConf (frameNo f.bytes) && !frameConf f || frameConf f && q.keyI.isNone)

theorem Port.rejects_eq_true {q : Port} {f : RxFrame} : q.rejects f = true ↔ ¬ q.InOrder (frameNo f.bytes) ∨
    ((∃ k0, q.conf = true ∧ q.confFrom = some k0 ∧ k0 ≤ frameNo f.bytes) ∧ frameConf f = false) ∨
    (frameConf f = true ∧ q.keyI = none) := by
  simp only [Port.rejects, Bool.or_eq_true, Bool.and_eq_true, Port.breaksOrder_eq_true, Port.mustConf_eq_true,
    Bool.not_eq_true', Option.isNone_iff_eq_none]

/-- A plaintext frame in order, outside confidential mode, is not rejected. -/
theorem Port.rejects_plain {q : Port} {f : RxFrame} (ho : q.InOrder (frameNo f.bytes)) (hf : frameConf f = false)
    (hq : q.conf = false) : q.rejects f = false := by
  refine Bool.eq_false_iff.2 fun hr => ?_
  obtain hn | ⟨⟨k0, hc, -⟩, -⟩ | ⟨hc, -⟩ := Port.rejects_eq_true.1 hr
  · exact hn ho
  · simp [hq] at hc
  · simp [hf] at hc

/-- An encrypted frame in order, for a port with a key, is not rejected. -/
theorem Port.rejects_encrypted {q : Port} {f : RxFrame} (ho : q.InOrder (frameNo f.bytes)) (hf : frameConf f = true)
    (hk : q.keyI.isSome = true) : q.rejects f = false := by
  refine Bool.eq_false_iff.2 fun hr => ?_
  obtain hn | ⟨-, hc⟩ | ⟨-, hc⟩ := Port.rejects_eq_true.1 hr
  · exact hn ho
  · simp [hf] at hc
  · simp [hc] at hk

/-- The plaintext of a frame and the port as it then stands; none where the tag of an encrypted one fails. -/
def Port.plaintext (q : Port) (p : Nat) (f : RxFrame) : Option (List Byte × Port) :=
  if frameConf f then q.openFrame p f.bytes else some (f.bytes, q)

/-- The port when the records of frame `k` have arrived. -/
def Port.taken (q : Port) (k : Nat) (r : Parse) : Port :=
  { q with tagRun := 0, rxFrame := some k, grants := q.grants.filter fun kv => k < kv.1
           arrivals := q.arrivals ++ r.out, protoErr := satInc q.protoErr r.errs }

/-- The port when a tag has failed. -/
def Port.tagFailed (q : Port) : Port := { q with tagFail := satInc q.tagFail, tagRun := q.tagRun + 1 }

/-- What a frame that is not rejected does: its records arrive, or its tag has failed, the fourth time in a row for a link
failure. -/
def State.receive (s : State) (p : Nat) (f : RxFrame) : Option (List Byte × Port) → State
  | none =>
    let t := s.modPort p Port.tagFailed
    if (t.port p).tagRun ≥ 4 then t.linkFailure p else t
  | some (bytes, q) =>
    let g := Table.getD (s.port p).grants (frameNo f.bytes) { host := [], cpl := [], rdCredit := 0 }
    s.modPort p fun _ => q.taken (frameNo f.bytes) (parseFrame g s.time.pick f bytes (frameConf f) (s.port p).width)

/-- A frame whose HEAD is whole is rejected, or received. -/
theorem State.takeFrame_eq (s : State) (p : Nat) (f : RxFrame) : s.takeFrame p f =
    if (s.port p).rejects f then s.protoErr p else s.receive p f ((s.port p).plaintext p f) := by
  have hm : ∀ (a b : Bool) (x y : State), (if a then x else if b then x else y) = if a || b then x else y := by
    intro a b x y
    cases a <;> rfl
  refine Eq.trans ?_ (hm _ _ _ _)
  unfold State.takeFrame State.receive
  rfl

/-! ### A link failure (R265, spec/11_port_slots.md R297) -/

theorem State.port_congr {s t : State} (h : t.ports = s.ports) (p : Nat) : t.port p = s.port p :=
  congrArg (fun l : List Port => l.getD p {}) h

/-- The state when the descriptors, requests and mailbox of a port that has lost its host have been dealt with. -/
def State.afterLoss (s : State) (p : Nat) : State :=
  let lost := (if s.linkUp p then s.takeAll p else s).losePort p
  (lost.setReqs (Table.orphaned lost.reqs p)).loseMailbox p

theorem State.afterLoss_shape {s : State} (hs : s.Shape) (p : Nat) : (s.afterLoss p).Shape := by
  have hk : Keeps true s (s.afterLoss p) := by
    unfold State.afterLoss
    apply State.loseMailbox_keeps
    apply Keeps.setReqs
    apply State.losePort_keeps
    exact .ite (State.takeAll_keeps p (.refl s)) (.refl s)
  exact hk.shape hs

theorem State.portReset_ports (s : State) (p : Nat) : ∃ held, (s.portReset p).ports =
    ((s.afterLoss p).modPort p fun q => { q.afterReset with lossDue := q.lossDue || held }).ports := by
  refine ⟨((if s.linkUp p then s.takeAll p else s).losePort p).holdsLease p, ?_⟩
  unfold State.portReset State.afterLoss
  dsimp only
  rw [apply_ite State.ports, State.setSts_ports, ite_self, State.modSlot_ports]

/-- A PORT reset leaves the port without the key of its link and without records. -/
theorem State.portReset_port {s : State} {p : Nat} (hs : s.Shape) (hp : p < 6) :
    ((s.portReset p).port p).keyE = none ∧ ((s.portReset p).port p).arrivals = [] := by
  obtain ⟨held, h⟩ := s.portReset_ports p
  rw [State.port_congr h, State.port_modPort_self (s.afterLoss_shape hs p) hp]
  exact ⟨rfl, rfl⟩

/-- A link failure of a port that is UP, outside SAFE: the slot trains again, without the key of its link and without records. -/
theorem State.linkFailure_up {s : State} {p : Nat} (hs : s.Shape) (hp : p < 6) (hsafe : s.power.safe = false)
    (hup : (s.slot p).st = .up) :
    ((s.linkFailure p).slot p).st = .training ∧ ((s.linkFailure p).port p).keyE = none ∧
      ((s.linkFailure p).port p).arrivals = [] := by
  have hl : s.linkUp p = true := by simp [State.linkUp, State.isUp, hup]
  have hd : ((s.slot p).st == SlotSt.draining) = false := by rw [hup]; rfl
  have hf : s.linkFailure p = (s.portReset p).setSlot p .training := by
    simp [State.linkFailure, State.surpriseLoss, hl, hsafe, hd]
  have hshape : (s.portReset p).Shape := (State.portReset_keeps (still := true) p (.refl s)).shape hs
  rw [hf]
  exact ⟨congrArg Slot.st (State.slot_modSlot_self hshape hp _), State.portReset_port hs hp⟩

/-! ### INGRESS_FRAME (R265) -/

/-- The codewords of the frame are counted, and the run of bad frames stands at `run`. -/
def Port.counted (q : Port) (f : RxFrame) (run : Nat) : Port :=
  { q with fecCorr := q.fecCorr + BitVec.ofNat 64 f.corrected, fecUncorr := q.fecUncorr + BitVec.ofNat 64 f.uncorr, badRun := run }

@[simp] theorem Port.counted_badRun (q : Port) (f : RxFrame) (run : Nat) : (q.counted f run).badRun = run := rfl

theorem Port.rejects_counted (q : Port) (f : RxFrame) (run : Nat) : (q.counted f run).rejects f = q.rejects f := rfl

/-- What opens a frame does not look at the counts of its codewords. -/
theorem Port.openFrame_counted_eq_none {q : Port} {p run : Nat} {f : RxFrame} {b : List Byte} (h : q.openFrame p b = none) :
    (q.counted f run).openFrame p b = none := by
  unfold Port.openFrame at h ⊢
  dsimp only [Port.counted] at h ⊢
  split at h
  · rfl
  · split at h
    · rfl
    · cases h

/-- The decoder has corrected the whole frame. -/
abbrev frameClean (f : RxFrame) : Prop := f.uncorr = 0 ∧ f.badFlits = []

theorem frameClean_iff {f : RxFrame} : (f.uncorr != 0 || !f.badFlits.isEmpty) = false ↔ frameClean f := by simp

theorem not_frameClean_iff {f : RxFrame} : (f.uncorr != 0 || !f.badFlits.isEmpty) = true ↔ ¬ frameClean f := by
  rw [← frameClean_iff, Bool.not_eq_false]

section
variable {s : State} {p : Nat} {f : RxFrame}

theorem exec_ingressFrame_training (h : (s.slot p).st = .training) : exec (.ingressFrame p f) s = .next (s.protoErr p) :=
  congrArg Host.Outcome.next (if_pos h)

theorem exec_ingressFrame_noLink (ht : (s.slot p).st ≠ .training) (hl : s.linkUp p = false) :
    exec (.ingressFrame p f) s = .next s :=
  congrArg Host.Outcome.next ((if_neg ht).trans (if_pos (by rw [hl]; rfl)))

theorem State.linkUp_not_training (h : s.linkUp p = true) : (s.slot p).st ≠ .training := by
  intro ht
  simp [State.linkUp, State.isUp, ht] at h

/-- The codewords of a frame are counted, and whether it is one more of a run of bad ones. -/
def State.countFrame (s : State) (p : Nat) (f : RxFrame) : State :=
  s.modPort p fun q => q.counted f (if f.uncorr != 0 || !f.badFlits.isEmpty then q.badRun + 1 else 0)

theorem State.countFrame_clean (s : State) (p : Nat) (h : frameClean f) : s.countFrame p f = s.modPort p fun q => q.counted f 0 := by
  rw [State.countFrame, frameClean_iff.2 h]
  rfl

theorem State.countFrame_bad (s : State) (p : Nat) (h : ¬ frameClean f) :
    s.countFrame p f = s.modPort p fun q => q.counted f (q.badRun + 1) := by
  rw [State.countFrame, not_frameClean_iff.2 h]
  rfl

/-- The eighth bad frame in a row is a link failure; one whose HEAD is lost is dropped. -/
theorem exec_ingressFrame_linkUp (hl : s.linkUp p = true) : exec (.ingressFrame p f) s = .next (
    if ((s.countFrame p f).port p).badRun ≥ 8 then (s.countFrame p f).linkFailure p
    else if f.badFlits.contains 0 then s.countFrame p f else (s.countFrame p f).takeFrame p f) :=
  congrArg Host.Outcome.next ((if_neg (State.linkUp_not_training hl)).trans (if_neg (by simp [hl])))

variable (hs : s.Shape) (hp : p < 6) (hl : s.linkUp p = true)
include hs hp hl

theorem exec_ingressFrame_clean (hc : frameClean f) :
    exec (.ingressFrame p f) s = .next ((s.modPort p fun q => q.counted f 0).takeFrame p f) := by
  rw [exec_ingressFrame_linkUp hl, s.countFrame_clean p hc, State.port_modPort_self hs hp, if_neg (by simp), hc.2]
  rfl

/-- The run of bad frames after a bad one, short of eight: the rest of a frame whose HEAD is lost is dropped. -/
theorem exec_ingressFrame_headLost (h0 : 0 ∈ f.badFlits) (h7 : (s.port p).badRun < 7) :
    exec (.ingressFrame p f) s = .next (s.modPort p fun q => q.counted f (q.badRun + 1)) := by
  have hb : ¬ frameClean f := fun hc => by simp [hc.2] at h0
  have h8 : ¬ (s.port p).badRun + 1 ≥ 8 := by omega
  rw [exec_ingressFrame_linkUp hl, s.countFrame_bad p hb, State.port_modPort_self hs hp, Port.counted_badRun, if_neg h8,
    if_pos (by simpa using h0)]

theorem exec_ingressFrame_eighthBad (hc : ¬ frameClean f) (h7 : 7 ≤ (s.port p).badRun) :
    exec (.ingressFrame p f) s = .next ((s.modPort p fun q => q.counted f (q.badRun + 1)).linkFailure p) := by
  have h8 : (s.port p).badRun + 1 ≥ 8 := by omega
  rw [exec_ingressFrame_linkUp hl, s.countFrame_bad p hc, State.port_modPort_self hs hp, Port.counted_badRun, if_pos h8]

theorem ingressFrame_rejected (hc : frameClean f) (hr : (s.port p).rejects f = true) :
    s.Becomes p (.ingressFrame p f) { (s.port p).counted f 0 with protoErr := satInc (s.port p).protoErr } := by
  have hx := exec_ingressFrame_clean hs hp hl hc
  rw [State.takeFrame_eq, State.port_modPort_self hs hp, Port.rejects_counted, if_pos hr, State.protoErr, State.modPort_modPort] at hx
  exact State.becomes_of_exec hs hp hx rfl

/-- The records of a plaintext frame arrive, against the grants of the egress HEAD with its FRAME. -/
theorem ingressFrame_plain (hc : frameClean f) (hr : (s.port p).rejects f = false) (hf : frameConf f = false) {g : Grant}
    (hg : Table.get? (s.port p).grants (frameNo f.bytes) = some g) :
    s.Becomes p (.ingressFrame p f) (((s.port p).counted f 0).taken (frameNo f.bytes)
      (parseFrame g s.time.pick f f.bytes false (s.port p).width)) := by
  have hd : Table.getD ((s.port p).counted f 0).grants (frameNo f.bytes) { host := [], cpl := [], rdCredit := 0 } = g :=
    congrArg (Option.getD · _) hg
  have hx := exec_ingressFrame_clean hs hp hl hc
  rw [State.takeFrame_eq, State.port_modPort_self hs hp, Port.rejects_counted, if_neg (Bool.eq_false_iff.1 hr),
    Port.plaintext, hf, if_neg Bool.false_ne_true, State.receive, State.port_modPort_self hs hp, hd, hf,
    State.modPort_modPort] at hx
  exact State.becomes_of_exec hs hp hx rfl

theorem ingressFrame_tagFails (hc : frameClean f) (hr : (s.port p).rejects f = false) (hf : frameConf f = true)
    (hn : (s.port p).openFrame p f.bytes = none) (h3 : (s.port p).tagRun < 3) :
    s.Becomes p (.ingressFrame p f) ((s.port p).counted f 0).tagFailed := by
  have hx := exec_ingressFrame_clean hs hp hl hc
  rw [State.takeFrame_eq, State.port_modPort_self hs hp, Port.rejects_counted, if_neg (Bool.eq_false_iff.1 hr),
    Port.plaintext, hf, if_pos rfl, Port.openFrame_counted_eq_none hn, State.receive, State.modPort_modPort] at hx
  have h4 : ¬ ((s.port p).counted f 0).tagFailed.tagRun ≥ 4 := Nat.not_le.2 (Nat.add_lt_add_right h3 1)
  rw [State.port_modPort_self hs hp, if_neg h4] at hx
  exact State.becomes_of_exec hs hp hx rfl

end

/-! ### The link's frames as a whole -/

/-- Settles O56: the three commands change their port alone, each as its case says; a link failure ends in the PORT reset. -/
theorem linkFrames : Obligations.LinkFrames := by
  unfold Obligations.LinkFrames
  refine ⟨fun s p f hs hp => ?_, fun g pick i w data bad a ha => ⟨fun ho hd => hd ▸ parseRecord_null g pick i bad ha ho,
    parseRecord_read g pick i data bad ha, parseRecord_write g pick i data bad ha, parseRecord_completion g pick i data bad ha,
    parseRecord_event g pick i data bad ha, parseRecord_reserved g pick i data bad ha⟩⟩
  intro q k conf becomes counted fault inOrder clean
  refine ⟨fun ht => ?_, fun ht hl => exec_ingressFrame_noLink ht hl, fun hl => ⟨?_, ?_, ?_, ?_, ?_, ?_, ?_⟩, ?_, ?_, ?_⟩
  · exact State.becomes_of_exec hs hp (exec_ingressFrame_training ht) rfl
  · exact fun hc ho => ingressFrame_rejected hs hp hl hc (Port.rejects_eq_true.2 (.inl ho))
  · exact fun hc _ hf hm => ingressFrame_rejected hs hp hl hc (Port.rejects_eq_true.2 (.inr (.inl ⟨hm, hf⟩)))
  · exact fun hc _ hf hk => ingressFrame_rejected hs hp hl hc (Port.rejects_eq_true.2 (.inr (.inr ⟨hf, hk⟩)))
  · intro g hc ho hf hq hg
    exact ingressFrame_plain hs hp hl hc (Port.rejects_plain ho hf hq) hf hg
  · intro hc ho hf hk hn h3
    obtain ⟨t, hx, hport, -⟩ := ingressFrame_tagFails hs hp hl hc (Port.rejects_encrypted ho hf hk) hf hn h3
    exact ⟨t, hx, by rw [hport]; rfl, by rw [hport]; rfl, by rw [hport]; rfl, by rw [hport]; rfl⟩
  · exact fun h0 h7 => State.becomes_of_exec hs hp (exec_ingressFrame_headLost hs hp hl h0 h7) rfl
  · intro hc h7 hsafe hup
    have hk := Keeps.modPort (still := true) (.refl s) p fun q => q.counted f (q.badRun + 1)
    exact ⟨_, exec_ingressFrame_eighthBad hs hp hl hc h7, State.linkFailure_up (hk.shape hs) hp hsafe hup⟩
  · exact rekey_cases hs hp
  · exact fun k0 => confStart_reached hs hp
  · exact confStart_not_reached hs hp

end Sys2Proof.Machine
end

section
/-! PROOFS. A host completion with data of a plain pull (spec/12_shuttles.md R312, R316): what it writes where the extent at the pull's
address is the one under its key, and the state, with two extents under one key, in which it writes nothing. -/

namespace Sys2Proof.Machine

/-! ### What carrying an engine on leaves of the table of requests -/

section
variable (s : State) (e : Nat)

theorem State.endDesc_reqs : (s.endDesc e).reqs = s.reqs := by
  unfold State.endDesc
  split
  · rfl
  · split
    · rfl
    · split
      · rfl
      · rw [State.modJob_reqs]
        split <;> rfl

theorem State.abortIdle_reqs : (s.abortIdle e).reqs = s.reqs := by
  unfold State.abortIdle
  split
  · rfl
  · split <;> rfl

theorem State.freeEngine_reqs (w : WaitFor) (st : Nat) (body : List Byte) : (s.freeEngine e w st body).reqs = s.reqs := by
  have hends : ∀ (t : State) (first : Bool) (m : Mbx), (t.abortEnds e first m).reqs = t.reqs := fun t first m => by
    unfold State.abortEnds
    split <;> rfl
  unfold State.freeEngine
  dsimp only
  rw [State.foldl_fields State.reqs _ fun t m => hends t _ m, State.modEngine_reqs, State.readyWaiter_reqs]

theorem State.endJob_reqs : (s.endJob e).reqs = s.reqs := by
  unfold State.endJob
  split
  · rfl
  · split
    · exact State.freeEngine_reqs ..
    · rfl

theorem State.settle_reqs : (s.settle e).reqs = s.reqs := by
  rw [State.settle, State.endJob_reqs, State.abortIdle_reqs, State.endDesc_reqs]

end

/-! ### The write of an engine (R116, R312) -/

theorem State.get?_addReq (s : State) (r : Req) : Table.get? (s.addReq r).reqs s.nextReq = some r := by
  simp [State.addReq]

theorem State.countAccess_nextReq (s : State) (e p : Nat) : (s.countAccess e p).nextReq = s.nextReq := by
  have hh : s.halve.nextReq = s.nextReq := by
    unfold State.halve
    split <;> rfl
  unfold State.countAccess
  dsimp only
  split
  · exact hh
  · split
    · split <;> exact hh
    · exact hh

/-- An engine's write of a block of a granted extent that is neither SEALED nor being sealed joins the table, with no lease
about, where the key of the extent at the address names that extent. -/
theorem State.engineWrite_granted {s : State} {k j addr e off : Nat} {data : List Byte} {x : Extent}
    (hx : s.extentAt addr = some (e, x, off)) (hkey : s.ext? e = some x) (hst : x.st = .granted) (hsealed : x.sealed = false)
    (hsealing : x.sealing = false) (hl : s.leases = []) :
    ∃ q, Table.get? (s.engineWrite k j addr data).reqs s.nextReq = some q ∧ q.op = .wr256 ∧ q.origin = .shuttle k j ∧ q.ext = e ∧
      q.block = off / 256 ∧ q.data = data := by
  have hlease : ∀ pg o, s.leasedAway e pg o = false := fun pg o => by simp [State.leasedAway, State.leaseAt, hl]
  unfold State.engineWrite State.engineReq
  simp only [hx, Option.map_some, hkey, hlease, hst, hsealed, hsealing, bne_self_eq_false, Bool.or_self, Bool.false_eq_true,
    if_false]
  exact ⟨_, (congrArg _ (s.countAccess_nextReq ..).symm).trans (State.get?_addReq _ _), rfl, rfl, rfl, rfl, rfl⟩

/-! ### The completion (R316, R317) -/

/-- The state when the front record has been taken from the arrivals of its port. -/
def State.popped (s : State) (p : Nat) (rest : List Arrival) : State := s.modPort p fun q => { q with arrivals := rest }

theorem exec_hostCplD {s : State} {p : Nat} {a : Arrival} {rest : List Arrival} (hf : (s.port p).arrivals = a :: rest)
    (h9 : a.rec_.toNat % 16 = 9) : exec (.hostCplD p) s = .next ((s.popped p rest).arriveCpl p a true) := by
  have ho : recOpc a.rec_ = 9 := (recOpc_eq _).trans h9
  refine congrArg Host.Outcome.next ?_
  unfold State.takeFront
  rw [hf]
  simp [State.takeRecord, ho, opcRd64, opcRd256, opcWr64, opcWr256, opcWrp, opcFence, opcMbx, opcCpl, opcCplD, State.popped]

/-- A completion with data and status OK, in the slot that was opened for it, of a read of a plain pull that has not failed. -/
theorem State.arriveCpl_data {s : State} {p : Nat} {a : Arrival} {r : ExpRead} {j : Job} {cur : Cur}
    (hr : Table.get? (s.port p).rdTags (a.rec_.toNat / 16 % 4096) = some r) (hc : a.credit = true)
    (hst : a.rec_.toNat / 2 ^ 16 % 16 = stOk) (hd : a.damaged = false) (hb : r.block < 2 ^ 32) (hj : s.engine r.engine = some j)
    (hcur : j.cur = some cur) (hconf : cur.conf = false) (hfail : cur.fail = none) :
    s.arriveCpl p a true =
      ((s.modPort p fun q => { q with rdTags := Table.erase q.rdTags (a.rec_.toNat / 16 % 4096) }).engineWrite r.engine r.block
        (cur.d.dst + 256 * r.block) (slice a.data 0 256)).settle r.engine := by
  have ht : recTag a.rec_ = a.rec_.toNat / 16 % 4096 := by simp [recTag, bits]
  have hs : bits a.rec_.toNat 19 16 = stOk := hst
  have hn : ¬ 4294967296 ≤ r.block := Nat.not_le.2 hb
  have hj' : ∀ f, (s.modPort p f).engine r.engine = some j := fun _ => hj
  simp [State.arriveCpl, State.pullDone, State.pullData, State.pullStore, ht, hr, hc, hs, hd, dOk, hj', hcur, hconf, hfail,
    hn]

/-- The write of a pulled block joins the table of requests where the key of the extent at the pull's address names that extent. -/
theorem hostCplD_writes {s : State} {p : Nat} {a : Arrival} {rest : List Arrival} {r : ExpRead} {j : Job} {cur : Cur} {e off : Nat}
    {x : Extent} (hs : s.Shape) (hp : p < 6) (hf : (s.port p).arrivals = a :: rest) (h9 : a.rec_.toNat % 16 = 9)
    (hr : Table.get? (s.port p).rdTags (a.rec_.toNat / 16 % 4096) = some r) (hc : a.credit = true)
    (hok : a.rec_.toNat / 2 ^ 16 % 16 = stOk) (hd : a.damaged = false) (hb : r.block < 2 ^ 32) (hj : s.engine r.engine = some j)
    (hcur : j.cur = some cur) (hconf : cur.conf = false) (hfail : cur.fail = none)
    (hx : s.extentAt (cur.d.dst + 256 * r.block) = some (e, x, off)) (hkey : s.ext? e = some x) (hst : x.st = .granted)
    (hsealed : x.sealed = false) (hsealing : x.sealing = false) (hl : s.leases = []) :
    ∃ t q, exec (.hostCplD p) s = .next t ∧ Table.get? t.reqs s.nextReq = some q ∧ q.op = .wr256 ∧
      q.origin = .shuttle r.engine r.block ∧ q.ext = e ∧ q.block = off / 256 ∧ q.data = slice a.data 0 256 := by
  have hr' : Table.get? ((s.popped p rest).port p).rdTags (a.rec_.toNat / 16 % 4096) = some r := by
    rw [State.popped, State.port_modPort_self hs hp]
    exact hr
  let u := (s.popped p rest).modPort p fun q => { q with rdTags := Table.erase q.rdTags (a.rec_.toNat / 16 % 4096) }
  obtain ⟨q, hq, hrest⟩ := State.engineWrite_granted (s := u) (k := r.engine) (j := r.block) (data := slice a.data 0 256)
    hx hkey hst hsealed hsealing hl
  refine ⟨_, q, (exec_hostCplD hf h9).trans (congrArg Host.Outcome.next
    (State.arriveCpl_data hr' hc hok hd hb hj hcur hconf hfail)), ?_, hrest⟩
  rw [State.settle_reqs]
  exact hq

/-! ### Two extents under one key -/

/-- A host completion with data and status OK of the read with tag 0. -/
def okCompletion : Arrival := { rec_ := 9, data := [], slot := some 0, damaged := false, credit := true, pick := 0 }

def tag0Read : ExpRead := { engine := 0, block := 0, left := 0 }

/-- A plain pull of one block to pool address 0, whose read is out. -/
def pullToZero : Cur := { d := { kind := 3, flags := 0, port := 0, rsv := 0, len := 1, src := 0, dst := 0 }, idx := 0, inflight := [0] }

def pullJob : Job := { ctx := 1, mbx := .operator, list := 0, count := 1, timeout := 0, listExt := 0, cur := some pullToZero }

/-- A granted extent of one granule at pool address 0. -/
def grantedAtZero : Extent :=
  { base := 0, granules := 1, cls := .plain, src := .raw, groups := 1, ports := 1, runs := [(0, 0)], st := .granted }

/-- An extent of the next granule that is not granted. -/
def ungrantedAtTwo : Extent := { grantedAtZero with base := 2 ^ 21, st := .ungranted }

/-- Key 0 stands twice in the table of extents: the one at the pull's address is the second. -/
def twiceKey0 : State :=
  { State.reset with
    exts := [(0, ungrantedAtTwo), (0, grantedAtZero)]
    ports := { arrivals := [okCompletion], rdTags := [(0, tag0Read)] } :: List.replicate 5 {}
    engines := some pullJob :: List.replicate 7 none }

/-- The address names the granted extent, its key the other one. -/
theorem twiceKey0_extents : twiceKey0.extentAt 0 = some (0, grantedAtZero, 0) ∧ twiceKey0.ext? 0 = some ungrantedAtTwo := ⟨rfl, rfl⟩

/-- The engine's write is refused, so no request joins the table. -/
theorem twiceKey0_reqs : ∀ t, exec (.hostCplD 0) twiceKey0 = .next t → t.reqs = [] := by
  intro t ht
  rw [← Host.Outcome.next.inj ht]
  rfl

/-- Refutes O54: a table of extents with two entries under one key, which its hypotheses allow (they ask for the hardware's units
alone), lets an engine's write be judged by another extent than the one at the pull's address.  Where the key names the extent at
the address, the clause holds (`hostCplD_writes`). -/
theorem not_mailboxRecordsAndHostCompletions : ¬ Obligations.MailboxRecordsAndHostCompletions := by
  unfold Obligations.MailboxRecordsAndHostCompletions
  intro h
  obtain ⟨-, hcompletion⟩ := h twiceKey0 0 okCompletion [] ⟨rfl, rfl, rfl, rfl⟩ (by decide) rfl
  obtain ⟨-, hread⟩ := hcompletion (.inr rfl)
  obtain ⟨-, hdata⟩ := hread tag0Read rfl rfl
  obtain ⟨t, q, ht, hq, -⟩ := hdata pullJob pullToZero 0 grantedAtZero 0 rfl rfl rfl (by decide) (by decide) rfl rfl rfl rfl
    twiceKey0_extents.1 rfl rfl rfl rfl
  rw [twiceKey0_reqs t ht] at hq
  cases hq

end Sys2Proof.Machine
end
